-- ==== Sys2Proof/Word.lean ====
section
/-!
DEFINITION. The word types of the block (rule R9): words and addresses of 32 bits, lengths, status fields and slot
indexes of 16 bits, bytes of 8 bits. Every quantity is unsigned.
-/

namespace Sys2Proof

/-- Register, descriptor and command words, and addresses: 32 bits (rule R9). -/
abbrev Word := BitVec 32

/-- Lengths, descriptor status fields and the `idx` operand: 16 bits (rules R9, R37, R112). -/
abbrev Half := BitVec 16

/-- A byte of memory, a status snapshot, a frame seed: 8 bits (rules R33, R77, R112). -/
abbrev Byte := BitVec 8

end Sys2Proof
end

