-- ==== Sys2Proof/Config.lean ====
section
/-!
DEFINITION. What one implementation fixes: the parameters of rule R7 as ONE record of plain data, with the record `Layout`
of the register offsets and bit positions (R100, R110), the names of the two rings (R38, R39), of the eight control-block
registers (R40) and of the eight descriptor fields (R37), and the parameters' default values.
-/

namespace Sys2Proof

/-- The concurrency regime, "selected once at configuration time" (rule R7, `MODE`). -/
inductive Mode where
  | inline
  | deferred
deriving DecidableEq, Repr

/-- The receive scan policy (rules R7 and R155, `RX_SCAN`). -/
inductive RxScan where
  | drain
  | oneFrame
deriving DecidableEq, Repr

/-- The two descriptor rings (rules R38 and R39). -/
inductive Ring where
  | rx
  | tx
deriving DecidableEq, Repr

/-- The eight registers of the control block (rule R40), in the order of their offsets. -/
inductive Reg where
  | isr
  | imr
  | txpoll
  | txbase
  | rxbase
  | maccr
  | phystat
  | tune
deriving DecidableEq, Repr

/-- The eight fields of a descriptor (rule R37). -/
inductive DescField where
  | own
  | wrap
  | fs
  | ls
  | ic
  | buf
  | len
  | stat
deriving DecidableEq, Repr

/-- Where a field stands in the 128 bits of a descriptor: its lowest bit and its width. Bit 0 is the least significant bit
of `DW0`, and bit 32 that of `DW1` (rules R75 and R101). -/
structure Place where
  lo    : Nat
  width : Nat
deriving DecidableEq, Repr

/-- The offset of each register from `REG_BASE` (rule R104). -/
structure RegOffsets where
  isr     : Half
  imr     : Half
  txpoll  : Half
  txbase  : Half
  rxbase  : Half
  maccr   : Half
  phystat : Half
  tune    : Half
deriving DecidableEq, Repr

/-- The position of each status bit, the same in `ISR` and `IMR` (rules R105 and R110 (a)). -/
structure StatusBits where
  rxFinished : Nat
  noRxbuf    : Nat
  txOk       : Nat
  txLost     : Nat
  rxLost     : Nat
  busErr     : Nat
  phyChg     : Nat
  rpktAvail  : Nat
deriving DecidableEq, Repr

/-- The position of each control bit in `MACCR` (rules R106 and R110 (b)). -/
structure ControlBits where
  txEn        : Nat
  rxEn        : Nat
  dmaEn       : Nat
  fullDuplex  : Nat
  crcAppend   : Nat
  runtAccept  : Nat
  bcastAccept : Nat
deriving DecidableEq, Repr

/-- "Register offsets and bit positions", the last row of rule R7: the layout of the control block and of a descriptor, which
rules R100 and R110 make a configuration record. -/
structure Layout where
  /-- register offsets (R104) -/
  offsets : RegOffsets
  /-- `ISR` and `IMR` bits (R105) -/
  status  : StatusBits
  /-- `MACCR` bits (R106) -/
  control : ControlBits
  /-- `LINK` in `PHYSTAT` (R107) -/
  link    : Nat
  /-- `own` (R101) -/
  own     : Nat
  /-- `wrap` (R101) -/
  wrap    : Nat
  /-- `fs` (R101) -/
  fs      : Nat
  /-- `ls` (R101) -/
  ls      : Nat
  /-- `ic` (R101) -/
  ic      : Nat
  /-- `buf` (R101) -/
  buf     : Place
  /-- `len` (R101) -/
  len     : Place
  /-- `stat` (R101) -/
  stat    : Place
deriving DecidableEq, Repr

/-- The implementation parameters of rule R7. `MIN_FRAME` is fixed at 60 and is not a field (`minFrame`). -/
structure Config where
  /-- `MODE` -/
  mode       : Mode
  /-- `N_RX`: capacity of the RX ring, in descriptors -/
  nRx        : Nat
  /-- `N_TX`: capacity of the TX ring, in descriptors -/
  nTx        : Nat
  /-- `RX_BUF_SIZE`: the size written into a recycled RX descriptor, in bytes -/
  rxBufSize  : Half
  /-- `POLL_PERIOD`, in ticks -/
  pollPeriod : Word
  /-- `TX_TIMEOUT`, in ticks -/
  txTimeout  : Word
  /-- `RXRING_ADDR` -/
  rxRingAddr : Word
  /-- `TXRING_ADDR` -/
  txRingAddr : Word
  /-- `RXBUF_ADDR[i]`, one entry per RX slot -/
  rxBufAddr  : List Word
  /-- `XBUF_ADDR` -/
  xbufAddr   : Word
  /-- `XBUF_SIZE`, in bytes -/
  xbufSize   : Nat
  /-- `REG_BASE` -/
  regBase    : Word
  /-- `IRQ_LINE_OK` -/
  irqLineOk  : Bool
  /-- `RX_SCAN` -/
  rxScan     : RxScan
  /-- `MAC_IN_ORDER` -/
  macInOrder : Bool
  /-- `ACK_REG`: the register of the "receive packet available" acknowledge write -/
  ackReg     : Reg
  /-- `ACK_VAL` -/
  ackVal     : Word
  /-- `TEST_PORT`: INTERNAL operations are accepted on the command port -/
  testPort   : Bool
  /-- register offsets and bit positions -/
  layout     : Layout
deriving DecidableEq, Repr

/-- `MIN_FRAME = 60`, the one value the document fixes (rules R7 and R162). -/
def minFrame : Half := 60

/-- FREE VALUE: what a descriptor field of `width` bits holds after a write of a `value` that does not fit it. The spec states
no result: only a replacement layout has a field narrower than its operand (rule R110 (e)). -/
opaque unfitting (width value : Nat) : Nat

namespace DescField

/-- The eight fields. -/
def all : List DescField := [.own, .wrap, .fs, .ls, .ic, .buf, .len, .stat]

end DescField

namespace Reg

/-- The eight registers, in the order of rule R104. -/
def all : List Reg := [.isr, .imr, .txpoll, .txbase, .rxbase, .maccr, .phystat, .tune]

end Reg

namespace Layout

/-- The offset of a register from `REG_BASE`. -/
def offset (lay : Layout) : Reg → Half
  | .isr => lay.offsets.isr
  | .imr => lay.offsets.imr
  | .txpoll => lay.offsets.txpoll
  | .txbase => lay.offsets.txbase
  | .rxbase => lay.offsets.rxbase
  | .maccr => lay.offsets.maccr
  | .phystat => lay.offsets.phystat
  | .tune => lay.offsets.tune

/-- The positions of the eight status bits, in the order of rule R105. -/
def statusPositions (lay : Layout) : List Nat :=
  [lay.status.rxFinished, lay.status.noRxbuf, lay.status.txOk, lay.status.txLost, lay.status.rxLost, lay.status.busErr,
    lay.status.phyChg, lay.status.rpktAvail]

/-- The positions of the seven control bits, in the order of rule R106. -/
def controlPositions (lay : Layout) : List Nat :=
  [lay.control.txEn, lay.control.rxEn, lay.control.dmaEn, lay.control.fullDuplex, lay.control.crcAppend,
    lay.control.runtAccept, lay.control.bcastAccept]

/-- Where a descriptor field stands. -/
def place (lay : Layout) : DescField → Place
  | .own => ⟨lay.own, 1⟩
  | .wrap => ⟨lay.wrap, 1⟩
  | .fs => ⟨lay.fs, 1⟩
  | .ls => ⟨lay.ls, 1⟩
  | .ic => ⟨lay.ic, 1⟩
  | .buf => lay.buf
  | .len => lay.len
  | .stat => lay.stat

/-- The size of the control block in bytes: up to the end of its last register; 32 with the offsets of rule R104 (R71). -/
def regSpan (lay : Layout) : Nat := (Reg.all.map fun r => (lay.offset r).toNat).foldl max 0 + 4

/-- The layout this spec gives: rules R101 and R104 to R107. -/
def default : Layout where
  offsets := { isr := 0x00, imr := 0x04, txpoll := 0x08, txbase := 0x0C, rxbase := 0x10, maccr := 0x14, phystat := 0x18,
               tune := 0x1C }
  status  := { rxFinished := 0, noRxbuf := 1, txOk := 2, txLost := 3, rxLost := 4, busErr := 5, phyChg := 6, rpktAvail := 7 }
  control := { txEn := 0, rxEn := 1, dmaEn := 2, fullDuplex := 3, crcAppend := 4, runtAccept := 5, bcastAccept := 6 }
  link    := 0
  own     := 31
  wrap    := 32 + 31
  fs      := 32 + 30
  ls      := 32 + 29
  ic      := 32 + 28
  buf     := ⟨64, 32⟩
  len     := ⟨32, 16⟩
  stat    := ⟨0, 16⟩

end Layout

namespace Config

/-- The capacity of a ring: `N_RX` or `N_TX`. -/
def capacity (cfg : Config) : Ring → Nat
  | .rx => cfg.nRx
  | .tx => cfg.nTx

/-- The address of the first descriptor of a ring. -/
def ringAddr (cfg : Config) : Ring → Word
  | .rx => cfg.rxRingAddr
  | .tx => cfg.txRingAddr

/-- The default parameters of rule R7. -/
def default : Config where
  mode       := .inline
  nRx        := 4
  nTx        := 4
  rxBufSize  := 1536
  pollPeriod := 10
  txTimeout  := 25
  rxRingAddr := 0x10000000
  txRingAddr := 0x10001000
  rxBufAddr  := [0x20000000, 0x20000800, 0x20001000, 0x20001800]
  xbufAddr   := 0x30000000
  xbufSize   := 1536
  regBase    := 0x40000000
  irqLineOk  := true
  rxScan     := .drain
  macInOrder := true
  ackReg     := .isr
  ackVal     := 0x80
  testPort   := false
  layout     := Layout.default

end Config

end Sys2Proof
end

