-- ==== Sys2Proof/Syntax.lean ====
section
/-!
DEFINITION. The operations of the block (rule R114): one constructor per row of the opcode map, with typed operands
(rules R112 and R113), and the three-word command that encodes one (rule R111).
-/

namespace Sys2Proof

/-- A command: the three 32-bit words `W0`, `W1`, `W2` (rule R111). -/
structure Command where
  w0 : Word
  w1 : Word
  w2 : Word
deriving DecidableEq, Repr

/-- The 30 operations of rule R114, in the order of the opcode map. -/
inductive Instr where
  /-- `ADVANCE ring, c` (R140) -/
  | advance (ring : Ring) (c : Half)
  /-- `IS_HW ring, i` (R141) -/
  | isHw (ring : Ring) (idx : Half)
  /-- `RELEASE ring, i, buf, len, flags` (R142) -/
  | release (ring : Ring) (idx : Half) (buf : Word) (len : Half) (fs ls ic : Bool)
  /-- `RECLAIM ring, i` (R143) -/
  | reclaim (ring : Ring) (idx : Half)
  /-- `POLL_RECEIVE` (R151) -/
  | pollReceive
  /-- `SUBMIT p, n` (R161) -/
  | submit (p : Word) (n : Half)
  /-- `RECLAIM_COMPLETED` (R163) -/
  | reclaimCompleted
  /-- `TXPOLL` (R165) -/
  | txpoll
  /-- `IRQ` (R182) -/
  | irq
  /-- `PROCESS S` (R184) -/
  | process (snap : Byte)
  /-- `WORKER_RUN` (R186) -/
  | workerRun
  /-- `WORKER_DONE` (R187) -/
  | workerDone
  /-- `TICK` (R201) -/
  | tick
  /-- `POLL_EXPIRE` (R206) -/
  | pollExpire
  /-- `TXTO_EXPIRE` (R207) -/
  | txtoExpire
  /-- `PT_START` (R202) -/
  | ptStart
  /-- `PT_CANCEL` (R203) -/
  | ptCancel
  /-- `TXTO_START` (R204) -/
  | txtoStart
  /-- `TXTO_CANCEL` (R205) -/
  | txtoCancel
  /-- `BRING_UP` (R221) -/
  | bringUp
  /-- `BRING_DOWN` (R222) -/
  | bringDown
  /-- `NOTIFY_TX_AVAILABLE` (R223) -/
  | notifyTxAvailable
  /-- `REG_READ off` (R224), the offset decoded to the register it names -/
  | regRead (reg : Reg)
  /-- `REG_WRITE off, val` (R225) -/
  | regWrite (reg : Reg) (val : Word)
  /-- `ADD_MC` (R227): reserved, no operand is defined -/
  | addMc
  /-- `REMOVE_MC` (R227): reserved, no operand is defined -/
  | removeMc
  /-- `MAC_TX_DONE idx, stat` (R242) -/
  | macTxDone (idx : Half) (stat : Half)
  /-- `MAC_RX_FRAME len, fs, ls, stat, seed` (R243) -/
  | macRxFrame (len : Half) (fs ls : Bool) (stat : Half) (seed : Byte)
  /-- `MAC_RAISE bits` (R245) -/
  | macRaise (bits : Byte)
  /-- `MAC_PHY link` (R246) -/
  | macPhy (link : Bool)
deriving DecidableEq, Repr

end Sys2Proof
end

