-- ==== Sys2Proof/WellFormed.lean ====
section
/-!
DEFINITION. Well-formedness. An instruction is well formed for a configuration when its slot index lies below the
capacity of its ring (rules R113 and R116 (c)); every other operand is exact by its type. A configuration is well formed
when it meets the constraints of rules R7, R71, R76 and R110 that a model enforces at construction (rule R301). The test of
the two capacities and of the interrupt line is left to `BRING_UP`, which refuses them with a status (rule R221), but for
a ring with no slot, which construction refuses too: a choice of the model (`Config.ringsNonempty`, entry 23 of its log).
-/

namespace Sys2Proof

/-- An instruction whose slot index, if it has one, names a slot of its ring (rule R116 (c)). -/
def Instr.wf (cfg : Config) : Instr → Bool
  | .advance ring c => decide (c.toNat < cfg.capacity ring)
  | .isHw ring idx => decide (idx.toNat < cfg.capacity ring)
  | .release ring idx _ _ _ _ _ => decide (idx.toNat < cfg.capacity ring)
  | .reclaim ring idx => decide (idx.toNat < cfg.capacity ring)
  | .macTxDone idx _ => decide (idx.toNat < cfg.nTx)
  | .pollReceive | .submit _ _ | .reclaimCompleted | .txpoll | .irq | .process _ | .workerRun | .workerDone
  | .tick | .pollExpire | .txtoExpire | .ptStart | .ptCancel | .txtoStart | .txtoCancel | .bringUp | .bringDown
  | .notifyTxAvailable | .regRead _ | .regWrite _ _ | .addMc | .removeMc | .macRxFrame _ _ _ _ _ | .macRaise _
  | .macPhy _ => true

/-- A region of the address space: its first address and its size in bytes. -/
abbrev Region := Nat × Nat

/-- Two regions share no address. -/
def Region.disjoint (r q : Region) : Bool :=
  decide (r.1 + r.2 ≤ q.1) || decide (q.1 + q.2 ≤ r.1)

/-! ## Layouts (rules R7, R104, R110) -/

namespace Layout

/-- The eight offsets are distinct (rule R7) multiples of 4 (rule R76). -/
def offsetsOk (lay : Layout) : Bool :=
  decide (Reg.all.map lay.offset).Nodup && Reg.all.all fun r => (lay.offset r).toNat % 4 == 0

/-- Named bits at distinct positions of a 32-bit word. -/
def positionsOk (ps : List Nat) : Bool := decide ps.Nodup && ps.all fun p => decide (p < 32)

/-- The named bits of `ISR` and `IMR`, of `MACCR` and of `PHYSTAT` (rules R107 and R110 (a), (b)). -/
def registersOk (lay : Layout) : Bool :=
  positionsOk lay.statusPositions && positionsOk lay.controlPositions && positionsOk [lay.link]

/-- Every field has a bit and lies inside the 128 bits of a descriptor (rule R101); it may be wider or narrower than rule R37
makes its value and may lie across two words, for rule R110 forbids neither. -/
def placesOk (lay : Layout) : Bool :=
  DescField.all.all fun f => decide (1 ≤ (lay.place f).width) && decide ((lay.place f).lo + (lay.place f).width ≤ 128)

/-- Two places share no bit. -/
def apart (p q : Place) : Bool := decide (p.lo + p.width ≤ q.lo) || decide (q.lo + q.width ≤ p.lo)

/-- No two fields overlap. Rule R110 (c) says it of the five single bits among themselves and against `len`, `buf` and `stat`.
DEDUCED for these three among themselves: fields that share a bit could not hold the independent values of rule R37 (entry 4
of the model's log). -/
def fieldsApart (lay : Layout) : Bool :=
  decide (DescField.all.Pairwise fun f g => apart (lay.place f) (lay.place g) = true)

/-- `len` is at least 11 bits wide (rule R110 (e)). -/
def lenWide (lay : Layout) : Bool := decide (11 ≤ lay.len.width)

/-- A layout a configuration may have. What rule R110 (d) asks is met by every layout, since the write of `stat` and `own` is
the last of a releasing party's writes (rule R102). -/
def wf (lay : Layout) : Bool := lay.offsetsOk && lay.registersOk && lay.placesOk && lay.fieldsApart && lay.lenWide

end Layout

namespace Config

/-- The RX ring: `16 * N_RX` bytes at `RXRING_ADDR` (rule R71 (1)). -/
def rxRingRegion (cfg : Config) : Region := (cfg.rxRingAddr.toNat, 16 * cfg.nRx)

/-- The TX ring: `16 * N_TX` bytes at `TXRING_ADDR` (rule R71 (2)). -/
def txRingRegion (cfg : Config) : Region := (cfg.txRingAddr.toNat, 16 * cfg.nTx)

/-- The RX frame buffers: one of `RX_BUF_SIZE` bytes per slot (rule R71 (3)). -/
def rxBufRegions (cfg : Config) : List Region := cfg.rxBufAddr.map fun a => (a.toNat, cfg.rxBufSize.toNat)

/-- The exchange buffer (rule R71 (4)). -/
def xbufRegion (cfg : Config) : Region := (cfg.xbufAddr.toNat, cfg.xbufSize)

/-- The control block: at `REG_BASE`, 32 bytes with the offsets of rule R104 (rule R71 (5)). -/
def regRegion (cfg : Config) : Region := (cfg.regBase.toNat, cfg.layout.regSpan)

/-- The five kinds of region of rule R71, in its order. -/
def regions (cfg : Config) : List Region :=
  cfg.rxRingRegion :: cfg.txRingRegion :: cfg.rxBufRegions ++ [cfg.xbufRegion, cfg.regRegion]

/-- A legal ring capacity: a power of two from `2^0` to `2^15` (rules R7 and R8). -/
def capacityOk (n : Nat) : Bool := (List.range 16).any fun k => n == 2 ^ k

/-- Both capacities are legal: the test `BRING_UP` makes first (rule R221). -/
def capacitiesOk (cfg : Config) : Bool := capacityOk cfg.nRx && capacityOk cfg.nTx

/-- A ring has at least one slot. DESIGN CHOICE: rule R301 lets a model check every capacity at construction or leave every one
to `BRING_UP`; this one refuses a capacity of 0 at construction, because a ring with no slot has no value for its cursor (rules
R22 to R24), and leaves every other illegal capacity to `BRING_UP` (entry 23 of the model's log). `State.construct`, which
checks nothing, builds such a ring too. -/
def ringsNonempty (cfg : Config) : Bool := decide (1 ≤ cfg.nRx) && decide (1 ≤ cfg.nTx)

/-- One RX buffer address per RX slot. -/
def buffersNamed (cfg : Config) : Bool := cfg.rxBufAddr.length == cfg.nRx

/-- `RX_BUF_SIZE`, `POLL_PERIOD` and `TX_TIMEOUT` are at least 1, and `XBUF_SIZE >= RX_BUF_SIZE` (rule R7). -/
def sizesOk (cfg : Config) : Bool :=
  decide (1 ≤ cfg.rxBufSize.toNat) && decide (1 ≤ cfg.pollPeriod.toNat) && decide (1 ≤ cfg.txTimeout.toNat)
    && decide (cfg.rxBufSize.toNat ≤ cfg.xbufSize)

/-- Ring bases are multiples of 16 and `REG_BASE` is a multiple of 4 (rules R7 and R76). -/
def aligned (cfg : Config) : Bool :=
  cfg.rxRingAddr.toNat % 16 == 0 && cfg.txRingAddr.toNat % 16 == 0 && cfg.regBase.toNat % 4 == 0

/-- No region crosses the top of the 32-bit address space (rules R70 and R90). -/
def insideSpace (cfg : Config) : Bool := cfg.regions.all fun r => decide (r.1 + r.2 ≤ 2 ^ 32)

/-- The regions are pairwise disjoint (rules R7 and R71). -/
def disjointRegions (cfg : Config) : Bool := decide (cfg.regions.Pairwise fun r q => Region.disjoint r q = true)

/-- `ACK_REG` is a writable register: any but the read-only `PHYSTAT` (rules R7 and R40). -/
def ackWritable (cfg : Config) : Bool := cfg.ackReg != .phystat

/-- `RX_BUF_SIZE` and every `RXBUF_ADDR[i]` fit the fields the layout has for them, as they do under the layout of rule R101. No
rule asks it and construction does not: a claim about received frames does (`RxBuffers`). -/
def fieldsFit (cfg : Config) : Bool :=
  decide (cfg.rxBufSize.toNat < 2 ^ cfg.layout.len.width)
    && cfg.rxBufAddr.all fun a => decide (a.toNat < 2 ^ cfg.layout.buf.width)

/-- The constraints a model enforces at construction (rule R301), with `ringsNonempty`, the model's own. -/
def wf (cfg : Config) : Bool :=
  cfg.ringsNonempty && cfg.buffersNamed && cfg.sizesOk && cfg.aligned && cfg.insideSpace && cfg.disjointRegions
    && cfg.ackWritable && cfg.layout.wf

end Config

end Sys2Proof
end

