-- ==== Sys2Proof/Decode.lean ====
section
/-!
DEFINITION. Decoding a command (rules R111 to R116), total on every triple of words, and the encoder written from the
same tables. The layout of the configuration says which register an offset names; nothing else of a command depends on it.
`decode` answers `none` for every triple that rule R116 (a) and (b) calls illegal, and for the illegal
offsets and values of (c); an `idx` not below its ring's capacity is the one illegality that depends on the
configuration, and `Instr.wf` names it.
-/

namespace Sys2Proof

/-! ## Operand fields (rule R113) -/

/-- `ring`: 0 is `RX`, 1 is `TX`. -/
def Ring.ofBit (b : Bool) : Ring := if b then .tx else .rx

/-- The `ring` bit of a ring. -/
def Ring.bit : Ring → Bool
  | .rx => false
  | .tx => true

/-- The register at an offset; none where the layout implements none (rules R104 and R113). -/
def Reg.ofOffset (lay : Layout) (off : Half) : Option Reg := Reg.all.find? fun r => lay.offset r == off

namespace Command

/-- The opcode, `W0[31:24]` (rule R111). -/
def op (c : Command) : Byte := c.w0.extractLsb' 24 8

/-- `W0[23]`: the `ring` operand of formats S and D. -/
def bit23 (c : Command) : Bool := c.w0.getLsbD 23

/-- `W0[22]`: `fs` in formats D and X. -/
def bit22 (c : Command) : Bool := c.w0.getLsbD 22

/-- `W0[21]`: `ls` in formats D and X. -/
def bit21 (c : Command) : Bool := c.w0.getLsbD 21

/-- `W0[20]`: `ic` in format D. -/
def bit20 (c : Command) : Bool := c.w0.getLsbD 20

/-- `W0[15:0]`: `idx` or `off`. -/
def low (c : Command) : Half := c.w0.extractLsb' 0 16

/-- `W1[15:0]`: `len` or `stat`. -/
def w1low (c : Command) : Half := c.w1.extractLsb' 0 16

/-- `W1[31:16]`: `stat` in format X, 0 elsewhere. -/
def w1high (c : Command) : Half := c.w1.extractLsb' 16 16

end Command

/-! ## The eight formats (rule R112): each answers `none` when a bit the format does not use is set (R116 (b)) -/

/-- Format N: no operand; `W0[23:0]`, `W1` and `W2` are 0. -/
def formatN (i : Instr) (c : Command) : Option Instr :=
  if c.w0.extractLsb' 0 24 = 0#24 ∧ c.w1 = 0#32 ∧ c.w2 = 0#32 then some i else none

/-- Format N of a RESERVED operation: `W0[23:0]` is 0, `W1` and `W2` may hold anything (rule R116 (d)). -/
def formatReserved (i : Instr) (c : Command) : Option Instr :=
  if c.w0.extractLsb' 0 24 = 0#24 then some i else none

/-- Format S: `ring` in `W0[23]`, `idx` in `W0[15:0]`. -/
def formatS (k : Ring → Half → Instr) (c : Command) : Option Instr :=
  if c.w0.extractLsb' 16 7 = 0#7 ∧ c.w1 = 0#32 ∧ c.w2 = 0#32 then some (k (Ring.ofBit c.bit23) c.low) else none

/-- Format D: `ring`, `fs`, `ls`, `ic`, `idx` in `W0`, `len` in `W1[15:0]`, `buf` in `W2`. -/
def formatD (k : Ring → Half → Word → Half → Bool → Bool → Bool → Instr) (c : Command) : Option Instr :=
  if c.w0.extractLsb' 16 4 = 0#4 ∧ c.w1high = 0#16 then
    some (k (Ring.ofBit c.bit23) c.low c.w2 c.w1low c.bit22 c.bit21 c.bit20)
  else none

/-- Format F: `len` in `W1[15:0]`, `ptr` in `W2`. -/
def formatF (k : Word → Half → Instr) (c : Command) : Option Instr :=
  if c.w0.extractLsb' 0 24 = 0#24 ∧ c.w1high = 0#16 then some (k c.w2 c.w1low) else none

/-- Format R of a read: `off` in `W0[15:0]`, `W1` is 0. -/
def formatRRead (lay : Layout) (k : Reg → Instr) (c : Command) : Option Instr :=
  if c.w0.extractLsb' 16 8 = 0#8 ∧ c.w1 = 0#32 ∧ c.w2 = 0#32 then (Reg.ofOffset lay c.low).map k else none

/-- Format R of a write: `off` in `W0[15:0]`, `val` in `W1`. -/
def formatRWrite (lay : Layout) (k : Reg → Word → Instr) (c : Command) : Option Instr :=
  if c.w0.extractLsb' 16 8 = 0#8 ∧ c.w2 = 0#32 then (Reg.ofOffset lay c.low).map fun r => k r c.w1 else none

/-- Format V with an 8-bit value: `val[31:8]` must be 0 (rule R113). -/
def formatV8 (k : Byte → Instr) (c : Command) : Option Instr :=
  if c.w0.extractLsb' 0 24 = 0#24 ∧ c.w1.extractLsb' 8 24 = 0#24 ∧ c.w2 = 0#32 then
    some (k (c.w1.extractLsb' 0 8))
  else none

/-- Format V with a 1-bit value: `val[31:1]` must be 0 (rules R113 and R246). -/
def formatV1 (k : Bool → Instr) (c : Command) : Option Instr :=
  if c.w0.extractLsb' 0 24 = 0#24 ∧ c.w1.extractLsb' 1 31 = 0#31 ∧ c.w2 = 0#32 then
    some (k (c.w1.getLsbD 0))
  else none

/-- Format T: `idx` in `W0[15:0]`, `stat` in `W1[15:0]`. -/
def formatT (k : Half → Half → Instr) (c : Command) : Option Instr :=
  if c.w0.extractLsb' 16 8 = 0#8 ∧ c.w1high = 0#16 ∧ c.w2 = 0#32 then some (k c.low c.w1low) else none

/-- Format X: `fs`, `ls` in `W0[22:21]`, `stat` in `W1[31:16]`, `len` in `W1[15:0]`, `seed` in `W2[7:0]`. -/
def formatX (k : Half → Bool → Bool → Half → Byte → Instr) (c : Command) : Option Instr :=
  if c.bit23 = false ∧ c.w0.extractLsb' 0 21 = 0#21 ∧ c.w2.extractLsb' 8 24 = 0#24 then
    some (k c.w1low c.bit22 c.bit21 c.w1high (c.w2.extractLsb' 0 8))
  else none

/-- The decoder: the opcode map of rule R114. An opcode it does not list is illegal (rule R116 (a)). -/
def decode (lay : Layout) (c : Command) : Option Instr :=
  match c.op.toNat with
  | 0x01 => formatS .advance c
  | 0x02 => formatS .isHw c
  | 0x03 => formatD .release c
  | 0x04 => formatS .reclaim c
  | 0x10 => formatN .pollReceive c
  | 0x11 => formatF .submit c
  | 0x12 => formatN .reclaimCompleted c
  | 0x13 => formatN .txpoll c
  | 0x20 => formatN .irq c
  | 0x21 => formatV8 .process c
  | 0x22 => formatN .workerRun c
  | 0x23 => formatN .workerDone c
  | 0x30 => formatN .tick c
  | 0x31 => formatN .pollExpire c
  | 0x32 => formatN .txtoExpire c
  | 0x33 => formatN .ptStart c
  | 0x34 => formatN .ptCancel c
  | 0x35 => formatN .txtoStart c
  | 0x36 => formatN .txtoCancel c
  | 0x40 => formatN .bringUp c
  | 0x41 => formatN .bringDown c
  | 0x42 => formatN .notifyTxAvailable c
  | 0x43 => formatRRead lay .regRead c
  | 0x44 => formatRWrite lay .regWrite c
  | 0x45 => formatReserved .addMc c
  | 0x46 => formatReserved .removeMc c
  | 0x80 => formatT .macTxDone c
  | 0x81 => formatX .macRxFrame c
  | 0x82 => formatV8 .macRaise c
  | 0x83 => formatV1 .macPhy c
  | _ => none

/-! ## Commands in a byte stream (rule R111): each word little-endian, a command is 12 bytes -/

/-- The word whose little-endian bytes are `b0` (lowest address) to `b3` (rule R75). -/
def wordOfBytes (b0 b1 b2 b3 : Byte) : Word := b3 ++ b2 ++ b1 ++ b0

/-- Byte `k` of a word: the one at `k` addresses above the word's own (rule R75). -/
def byteOfWord (w : Word) (k : Nat) : Byte := w.extractLsb' (8 * k) 8

/-- The little-endian bytes of a word, lowest address first. -/
def bytesOfWord (w : Word) : List Byte := [byteOfWord w 0, byteOfWord w 1, byteOfWord w 2, byteOfWord w 3]

/-- The first command of a byte stream and the rest of the stream; none when fewer than 12 bytes are left. -/
def Command.ofBytes : List Byte → Option (Command × List Byte)
  | a0 :: a1 :: a2 :: a3 :: b0 :: b1 :: b2 :: b3 :: c0 :: c1 :: c2 :: c3 :: rest =>
    some (⟨wordOfBytes a0 a1 a2 a3, wordOfBytes b0 b1 b2 b3, wordOfBytes c0 c1 c2 c3⟩, rest)
  | _ => none

/-- The 12 bytes of a command. -/
def Command.toBytes (c : Command) : List Byte := bytesOfWord c.w0 ++ bytesOfWord c.w1 ++ bytesOfWord c.w2

/-- The instruction at the head of a byte stream and the rest of the stream. -/
def decodeBytes (lay : Layout) (bs : List Byte) : Option (Instr × List Byte) :=
  match Command.ofBytes bs with
  | none => none
  | some (c, rest) => (decode lay c).map fun i => (i, rest)

/-- The 12 bytes, lowest address first, of the instruction whose bits are the low `nbits` bits of `w`, numbered with
bit 0 the least significant bit of `W0`, `W1` from bit 32 and `W2` from bit 64. -/
def tableBytes (nbits w : Nat) : List Byte :=
  (List.range 12).map fun k => (BitVec.ofNat 96 (w % 2 ^ nbits)).extractLsb' (8 * k) 8

/-- The command that the bits `w` of an instruction stand for (the bits above `nbits` are 0). -/
def tableCommand (nbits w : Nat) : Option Command := (Command.ofBytes (tableBytes nbits w)).map (·.1)

/-- The instruction the decoder reads from an instruction whose bits are `w`, with the layout this spec gives. -/
def decodeTableWord (nbits w : Nat) : Option Instr := (decodeBytes Layout.default (tableBytes nbits w)).map (·.1)

/-! ## The encoder (rules R111 to R114) -/

/-- A bit as a one-bit field. -/
def bitField (b : Bool) : BitVec 1 := BitVec.ofBool b

/-- Format N. -/
def encodeN (op : Byte) : Command := ⟨op ++ 0#24, 0, 0⟩

/-- Format S. -/
def encodeS (op : Byte) (ring : Ring) (idx : Half) : Command := ⟨op ++ bitField ring.bit ++ 0#7 ++ idx, 0, 0⟩

/-- Format D. -/
def encodeD (op : Byte) (ring : Ring) (idx : Half) (buf : Word) (len : Half) (fs ls ic : Bool) : Command :=
  ⟨op ++ bitField ring.bit ++ bitField fs ++ bitField ls ++ bitField ic ++ 0#4 ++ idx, 0#16 ++ len, buf⟩

/-- Format F. -/
def encodeF (op : Byte) (ptr : Word) (len : Half) : Command := ⟨op ++ 0#24, 0#16 ++ len, ptr⟩

/-- Format R. -/
def encodeR (lay : Layout) (op : Byte) (reg : Reg) (val : Word) : Command := ⟨op ++ 0#8 ++ lay.offset reg, val, 0⟩

/-- Format V. -/
def encodeV (op : Byte) (val : Word) : Command := ⟨op ++ 0#24, val, 0⟩

/-- Format T. -/
def encodeT (op : Byte) (idx stat : Half) : Command := ⟨op ++ 0#8 ++ idx, 0#16 ++ stat, 0⟩

/-- Format X. -/
def encodeX (op : Byte) (len : Half) (fs ls : Bool) (stat : Half) (seed : Byte) : Command :=
  ⟨op ++ 0#1 ++ bitField fs ++ bitField ls ++ 0#21, stat ++ len, 0#24 ++ seed⟩

/-- The words of an instruction. -/
def encode (lay : Layout) : Instr → Command
  | .advance ring c => encodeS 0x01 ring c
  | .isHw ring idx => encodeS 0x02 ring idx
  | .release ring idx buf len fs ls ic => encodeD 0x03 ring idx buf len fs ls ic
  | .reclaim ring idx => encodeS 0x04 ring idx
  | .pollReceive => encodeN 0x10
  | .submit p n => encodeF 0x11 p n
  | .reclaimCompleted => encodeN 0x12
  | .txpoll => encodeN 0x13
  | .irq => encodeN 0x20
  | .process snap => encodeV 0x21 (0#24 ++ snap)
  | .workerRun => encodeN 0x22
  | .workerDone => encodeN 0x23
  | .tick => encodeN 0x30
  | .pollExpire => encodeN 0x31
  | .txtoExpire => encodeN 0x32
  | .ptStart => encodeN 0x33
  | .ptCancel => encodeN 0x34
  | .txtoStart => encodeN 0x35
  | .txtoCancel => encodeN 0x36
  | .bringUp => encodeN 0x40
  | .bringDown => encodeN 0x41
  | .notifyTxAvailable => encodeN 0x42
  | .regRead reg => encodeR lay 0x43 reg 0
  | .regWrite reg val => encodeR lay 0x44 reg val
  | .addMc => encodeN 0x45
  | .removeMc => encodeN 0x46
  | .macTxDone idx stat => encodeT 0x80 idx stat
  | .macRxFrame len fs ls stat seed => encodeX 0x81 len fs ls stat seed
  | .macRaise bits => encodeV 0x82 (0#24 ++ bits)
  | .macPhy link => encodeV 0x83 (0#31 ++ bitField link)

end Sys2Proof
end

