-- ==== Sys2Proof/Machine/Descriptor.lean ====
section
/-!
DEFINITION. The descriptor record (rule R37), its image in four little-endian words under the layout of the configuration
(rules R100, R101, R110), the three writes a release is made of (R142), and the contents that construction and `RING_INIT`
give a slot (rules R38, R39, R220).
-/

namespace Sys2Proof.Machine

/-- The owner of a descriptor: the block is Software, the MAC agent Hardware (rule R37). -/
inductive Owner where
  | sw
  | hw
deriving DecidableEq, Repr

/-- A descriptor (rule R37). -/
structure Desc where
  own  : Owner
  buf  : Word
  len  : Half
  fs   : Bool
  ls   : Bool
  wrap : Bool
  ic   : Bool
  stat : Half
deriving DecidableEq, Repr

/-- One descriptor write of a rule: a group of fields, `{buf}`, `{len, fs, ls, ic}` with the wrap marker that is written back,
or `{stat, own}` (rules R78, R142, R243). In the layout of rule R101 they are the writes of `DW2`, `DW1` and `DW0`. -/
inductive DescWrite where
  | buf (v : Word)
  | body (len : Half) (fs ls wrap ic : Bool)
  | status (stat : Half) (own : Owner)
deriving DecidableEq, Repr

/-- `SW = 0`, `HW = 1` (rule R37). -/
def Owner.bit : Owner → Bool
  | .sw => false
  | .hw => true

/-- The owner an ownership bit stands for. -/
def Owner.ofBit (b : Bool) : Owner := if b then .hw else .sw

/-- What a field of `width` bits holds after a write of `v`: `v` if it fits, otherwise a free value of the field. -/
def fitNat (width v : Nat) : Nat := if v < 2 ^ width then v else unfitting width v % 2 ^ width

/-- What the field `buf` holds after a write of `v`. -/
def fitBuf (lay : Layout) (v : Word) : Word := BitVec.ofNat 32 (fitNat lay.buf.width v.toNat)

/-- What the field `len` holds after a write of `v`. -/
def fitLen (lay : Layout) (v : Half) : Half := BitVec.ofNat 16 (fitNat lay.len.width v.toNat)

/-- What the field `stat` holds after a write of `v`. -/
def fitStat (lay : Layout) (v : Half) : Half := BitVec.ofNat 16 (fitNat lay.stat.width v.toNat)

namespace Desc

/-- A descriptor after one write of its fields; the other fields keep their values (rule R78). -/
def apply (d : Desc) : DescWrite → Desc
  | .buf v => { d with buf := v }
  | .body len fs ls wrap ic => { d with len := len, fs := fs, ls := ls, wrap := wrap, ic := ic }
  | .status stat own => { d with stat := stat, own := own }

/-- The write of `buf`. -/
def bufWrite (d : Desc) : DescWrite := .buf d.buf

/-- The write of the length, the flags and the wrap marker. -/
def bodyWrite (d : Desc) : DescWrite := .body d.len d.fs d.ls d.wrap d.ic

/-- The write of the status and the ownership bit. -/
def statusWrite (d : Desc) : DescWrite := .status d.stat d.own

/-! ## The image in memory (rules R75, R101, R110) -/

/-- The value of a field as a number. -/
def field (d : Desc) : DescField → Nat
  | .own => d.own.bit.toNat
  | .wrap => d.wrap.toNat
  | .fs => d.fs.toNat
  | .ls => d.ls.toNat
  | .ic => d.ic.toNat
  | .buf => d.buf.toNat
  | .len => d.len.toNat
  | .stat => d.stat.toNat

/-- The 128 bits of a descriptor: each field at its place, every other bit 0 (rule R101). -/
def image (lay : Layout) (d : Desc) : BitVec 128 :=
  DescField.all.foldl (fun x f => x ||| placed (lay.place f) (d.field f)) 0
where
  /-- A value at its place. -/
  placed (p : Place) (v : Nat) : BitVec 128 := BitVec.ofNat 128 ((v % 2 ^ p.width) <<< p.lo)

/-- The value of the field at a place of the 128 bits. -/
def fieldAt (p : Place) (x : BitVec 128) : Nat := (x.toNat >>> p.lo) % 2 ^ p.width

/-- The descriptor whose 128 bits are `x`; reserved bits are ignored (rule R101). -/
def ofImage (lay : Layout) (x : BitVec 128) : Desc where
  own  := Owner.ofBit (x.getLsbD lay.own)
  buf  := BitVec.ofNat 32 (fieldAt lay.buf x)
  len  := BitVec.ofNat 16 (fieldAt lay.len x)
  fs   := x.getLsbD lay.fs
  ls   := x.getLsbD lay.ls
  wrap := x.getLsbD lay.wrap
  ic   := x.getLsbD lay.ic
  stat := BitVec.ofNat 16 (fieldAt lay.stat x)

/-- Word `k` of the descriptor: `DW0` to `DW3` (rule R101). -/
def word (lay : Layout) (d : Desc) (k : Nat) : Word := (d.image lay).extractLsb' (32 * k) 32

/-- Byte `k` of the 16 bytes of a descriptor, the lowest byte of a word first (rule R75). -/
def byte (lay : Layout) (d : Desc) (k : Nat) : Byte := (d.image lay).extractLsb' (8 * k) 8

/-- 128 bits with byte `k` replaced. -/
def replaceByte (x : BitVec 128) (k : Nat) (b : Byte) : BitVec 128 :=
  (x &&& ~~~(0xFF#128 <<< (8 * k))) ||| (b.setWidth 128 <<< (8 * k))

/-- A descriptor with byte `k` of its 16 bytes replaced: reserved bits ignore the write (rules R75 and R101). -/
def setByte (lay : Layout) (d : Desc) (k : Nat) (b : Byte) : Desc := ofImage lay (replaceByte (d.image lay) k b)

/-- Every field holds a value its place can hold. -/
def fits (lay : Layout) (d : Desc) : Bool := DescField.all.all fun f => decide (d.field f < 2 ^ (lay.place f).width)

/-- RX slot `i` as construction leaves it (rules R38 and R220): Hardware-owned, with its buffer and the configured size (as
far as the layout's fields hold them), the wrap marker on the last slot. -/
def rxConstructed (cfg : Config) (i : Nat) : Desc where
  own  := .hw
  buf  := fitBuf cfg.layout (cfg.rxBufAddr.getD i 0)
  len  := fitLen cfg.layout cfg.rxBufSize
  fs   := false
  ls   := false
  wrap := decide (i + 1 = cfg.nRx)
  ic   := false
  stat := 0

/-- A clear TX slot (rules R39 and R143): every field 0 but the wrap marker. -/
def clear (wrap : Bool) : Desc where
  own  := .sw
  buf  := 0
  len  := 0
  fs   := false
  ls   := false
  wrap := wrap
  ic   := false
  stat := 0

/-- TX slot `i` as construction leaves it (rules R39 and R220). -/
def txConstructed (cfg : Config) (i : Nat) : Desc := clear (decide (i + 1 = cfg.nTx))

/-- A slot of a ring as construction leaves it. -/
def constructed (cfg : Config) : Ring → Nat → Desc
  | .rx => rxConstructed cfg
  | .tx => txConstructed cfg

/-- What a slot index beyond the end of a ring reads as. No reachable state has such an index. -/
def beyond : Desc where
  own  := .hw
  buf  := 0
  len  := 0
  fs   := false
  ls   := false
  wrap := true
  ic   := false
  stat := 0

end Desc

/-- A ring as construction leaves it (rules R38 and R39). -/
def constructedRing (cfg : Config) (ring : Ring) : List Desc :=
  (List.range (cfg.capacity ring)).map (Desc.constructed cfg ring)

end Sys2Proof.Machine
end

