-- ==== Sys2Proof/Machine/State.lean ====
section
/-!
DEFINITION. The state of one device instance (rule R20) as plain data, with its parameter record (R7), the trace (R49),
the response of the last command (R117), the inputs the outside world supplies (the command stream of rule R111 and the
answers of the upstream callouts, R228), the two ways a step can stop, and reset (R53).
-/

namespace Sys2Proof.Machine

/-- The sticky `fault` register (rules R29 and R260). -/
inductive FaultCode where
  /-- no fault -/
  | none
  /-- `V_ADMISSION`: a frame submitted with `tx_pend = N_TX` -/
  | vAdmission
  /-- `V_RECLAIM_HW`: `RECLAIM` of a Hardware-owned slot -/
  | vReclaimHw
  /-- `V_RELEASE_HW`: `RELEASE` of a Hardware-owned slot -/
  | vReleaseHw
  /-- `V_RXLEN`: a complete frame longer than the exchange buffer -/
  | vRxLen
deriving DecidableEq, Repr

/-- The status of a command (rule R261). -/
inductive Status where
  | ok
  | eCfgCapacity
  | eCfgIrq
  | eDown
  | eNotEnabled
  | eIllegal
  | eInternalOnly
  | eReserved
  | eFaulted
deriving DecidableEq, Repr

/-- What the command port answers: a status and a result word (rule R117), or the fault outcome (R11 (3)). -/
inductive Response where
  | returned (st : Status) (res : Word)
  | faulted (code : FaultCode)
deriving DecidableEq, Repr

/-- A deferred unit of work (rule R33). -/
inductive DeferredUnit where
  | irqWork (snap : Byte)
  | pollWork
  | txTimeoutWork
  | txAvailWork
deriving DecidableEq, Repr

/-- The three upstream callouts (rule R228). -/
inductive Callout where
  | poll
  | deliver (n : Half)
  | timerHook
deriving DecidableEq, Repr

/-- One upstream answer: the length returned and the bytes left from the start of the exchange buffer (rule R228). -/
structure Answer where
  len   : Half
  bytes : List Byte
deriving DecidableEq, Repr

/-- An event of the observable trace (rule R13). -/
inductive Event where
  /-- `RegW(NAME, v)` -/
  | regW (reg : Reg) (val : Word)
  /-- `RegR(NAME) -> v` -/
  | regR (reg : Reg) (val : Word)
  /-- `DescW(ring, i, fields, v)`: one descriptor write of the block (rules R13 and R78) -/
  | descW (ring : Ring) (idx : Nat) (write : DescWrite)
  /-- `Call.poll -> L`, `Call.deliver(n) -> L`, `Call.timer_hook -> L` -/
  | call (callout : Callout) (answer : Half)
  /-- the status and the result of a host call -/
  | hostReturn (st : Status) (res : Word)
deriving DecidableEq, Repr

/-- Memory outside the rings and the control block: the bytes written so far, by address, addresses strictly rising. -/
abbrev Memory := List Host.Cell

/-- The state of one device instance. -/
structure State where
  /-- the parameters of rule R7; no operation changes them -/
  cfg      : Config
  /-- `RXD` (R38) -/
  rxd      : List Desc
  /-- `TXD` (R39) -/
  txd      : List Desc
  /-- the bytes of the frame buffers, the exchange buffer and every other address outside the rings and the control
  block (R71); a byte nothing has written is not listed and has no value -/
  mem      : Memory
  /-- `rx_cur` (R22) -/
  rxCur    : Nat
  /-- `tx_cur` (R23) -/
  txCur    : Nat
  /-- `tx_clean` (R24) -/
  txClean  : Nat
  /-- `tx_pend` (R25) -/
  txPend   : Nat
  /-- `up` (R26) -/
  up       : Bool
  /-- `link_up` (R27) -/
  linkUp   : Bool
  /-- `xlen` (R28) -/
  xlen     : Half
  /-- `fault` (R29) -/
  fault    : FaultCode
  /-- `dslot` (R32) -/
  dslot    : Option DeferredUnit
  /-- `inflight` (R34) -/
  inflight : Option DeferredUnit
  /-- `pt_armed` (R35) -/
  ptArmed  : Bool
  /-- `pt_rem` (R35) -/
  ptRem    : Word
  /-- `to_armed` (R36) -/
  toArmed  : Bool
  /-- `to_rem` (R36) -/
  toRem    : Word
  /-- `ISR[7:0]` (R41) -/
  isr      : Byte
  /-- `IMR[7:0]` (R42) -/
  imr      : Byte
  /-- `MACCR[6:0]` (R43) -/
  maccr    : BitVec 7
  /-- `TXBASE` (R44) -/
  txbase   : Word
  /-- `RXBASE` (R44) -/
  rxbase   : Word
  /-- `PHYSTAT[0]`, `LINK` (R46) -/
  phyLink  : Bool
  /-- `TUNE` (R47) -/
  tune     : Word
  /-- `mac_tx_idx` (R48) -/
  macTxIdx : Nat
  /-- `mac_rx_idx` (R48) -/
  macRxIdx : Nat
  /-- `tx_kick` (R48) -/
  txKick   : Bool
  /-- the observable trace, oldest event first (R13, R49) -/
  trace    : List Event
  /-- the response of the last command; none before the first -/
  resp     : Option Response
  /-- the commands waiting at the command port, the next one first (R111) -/
  cmds     : List Command
  /-- the upstream answers waiting to be taken, the next one first (R119, R228) -/
  answers  : List Answer
deriving DecidableEq, Repr

/-- How a step can stop the machine. Every one is safe: the model stops where the spec promises nothing. -/
inductive Fault where
  /-- Raised by `POLL_RECEIVE` and `MAC_RX_FRAME` when a frame would be read or written beyond address `2^32 - 1`, and by
  an upstream callout whose exchange buffer lies there (rule R90: no region crosses `2^32`). Safe. -/
  | outsideAddressSpace
  /-- Raised by the same operations when a frame byte would be read from or written to the control block, which is
  accessed only as whole words (rule R40). Safe. -/
  | byteAccessToControlBlock
  /-- Raised by `POLL_RECEIVE` and the upstream callouts when the parameters place the exchange buffer over a ring, which
  rule R7 forbids (rule R301 has a model enforce it). Safe. -/
  | exchangeBufferOverRing
deriving DecidableEq, Repr

/-- How a step can refuse an instruction. -/
inductive Refusal where
  /-- Raised by `exec` for an instruction that has no meaning in the model. Safe. -/
  | notModelled (mnemonic : String)
deriving DecidableEq, Repr

/-- The state construction leaves for a parameter record (rules R53 and R300). -/
def State.construct (cfg : Config) : State where
  cfg      := cfg
  rxd      := constructedRing cfg .rx
  txd      := constructedRing cfg .tx
  mem      := []
  rxCur    := 0
  txCur    := 0
  txClean  := 0
  txPend   := 0
  up       := false
  linkUp   := false
  xlen     := 0
  fault    := .none
  dslot    := none
  inflight := none
  ptArmed  := false
  ptRem    := 0
  toArmed  := false
  toRem    := 0
  isr      := 0
  imr      := 0
  maccr    := 0
  txbase   := cfg.txRingAddr
  rxbase   := cfg.rxRingAddr
  phyLink  := false
  tune     := 0
  macTxIdx := 0
  macRxIdx := 0
  txKick   := false
  trace    := []
  resp     := none
  cmds     := []
  answers  := []

/-- Reset for a parameter record: construction after the check of rule R301. -/
def State.resetWith (cfg : Config) : Option State := if cfg.wf then some (State.construct cfg) else none

/-- The machine right after reset, with the default parameters of rule R7. -/
def State.reset : State := State.construct Config.default

end Sys2Proof.Machine
end

