-- ==== Sys2Proof/Machine/Flags.lean ====
section
/-!
DEFINITION. The named bits of the control block (rules R105 to R108) and their places in the register words under the
layout of the configuration (R100, R110), every flag the block computes from them (the interrupt request level, R54, and the
dispatcher's named state, R31), and the codes of the statuses and faults.
-/

namespace Sys2Proof.Machine

/-! ## `ISR` and `IMR` bits (rule R105)

`State` holds them in the order of R105, bit 0 `RX_FINISHED` to bit 7 `RPKT_AVAIL`, which is also how `PROCESS`, `MAC_RAISE`
and a snapshot number them; where each stands in the register word is the layout's. -/

/-- `RX_FINISHED`, bit 0. -/
def rxFinished : Byte := 0x01
/-- `NO_RXBUF`, bit 1. -/
def noRxbuf : Byte := 0x02
/-- `TX_OK`, bit 2. -/
def txOk : Byte := 0x04
/-- `TX_LOST`, bit 3: no step of `PROCESS` acts on it (rule R189). -/
def txLost : Byte := 0x08
/-- `RX_LOST`, bit 4: no step of `PROCESS` acts on it (rule R189). -/
def rxLost : Byte := 0x10
/-- `BUS_ERR`, bit 5: no step of `PROCESS` acts on it (rule R189). -/
def busErr : Byte := 0x20
/-- `PHY_CHG`, bit 6. -/
def phyChg : Byte := 0x40
/-- `RPKT_AVAIL`, bit 7. -/
def rpktAvail : Byte := 0x80

/-- Some bit of `mask` is set in `s`: the test `S & mask`. -/
def hasBit (s mask : Byte) : Bool := s &&& mask != 0

/-- `IRQ_ENABLE_SET`, the OR of the seven sources of §6 (rules R42 and R108). -/
def irqEnableSet : Byte := 0x7F

/-! ## `MACCR` bits (rule R106) -/

/-- `TX_EN`, bit 0. -/
def txEn (m : BitVec 7) : Bool := m.getLsbD 0
/-- `RX_EN`, bit 1. -/
def rxEn (m : BitVec 7) : Bool := m.getLsbD 1
/-- `DMA_EN`, bit 2. -/
def dmaEn (m : BitVec 7) : Bool := m.getLsbD 2
/-- `FULL_DUPLEX`, bit 3: stored and read back only (rule R43). -/
def fullDuplex (m : BitVec 7) : Bool := m.getLsbD 3
/-- `CRC_APPEND`, bit 4: stored and read back only. -/
def crcAppend (m : BitVec 7) : Bool := m.getLsbD 4
/-- `RUNT_ACCEPT`, bit 5: stored and read back only. -/
def runtAccept (m : BitVec 7) : Bool := m.getLsbD 5
/-- `BCAST_ACCEPT`, bit 6: stored and read back only. -/
def bcastAccept (m : BitVec 7) : Bool := m.getLsbD 6

/-- `MACCR_UP`, the OR of the seven enables of §6 (rules R43 and R108). -/
def maccrUp : BitVec 7 := 0x7F

/-! ## Register words (rules R40, R104 to R108, R110) -/

/-- The word with bit `i` of `v` at position `ps[i]` and every other bit 0: reserved bits read as 0 (rule R40). -/
def spread {n : Nat} (ps : List Nat) (v : BitVec n) : Word :=
  (List.range n).foldl (fun w i => w ||| (BitVec.ofBool (v.getLsbD i)).setWidth 32 <<< ps.getD i 0) 0

/-- The named bits of a word, bit `i` from position `ps[i]`: a write to a reserved bit is ignored (rule R40). -/
def gather (n : Nat) (ps : List Nat) (w : Word) : BitVec n :=
  (List.range n).foldl (fun v i => v ||| (BitVec.ofBool (w.getLsbD (ps.getD i 0))).setWidth n <<< i) 0

/-- Status bits as a word of `ISR` or `IMR`. -/
def statusWord (lay : Layout) (b : Byte) : Word := spread lay.statusPositions b

/-- The status bits of a word of `ISR` or `IMR`. -/
def statusOf (lay : Layout) (w : Word) : Byte := gather 8 lay.statusPositions w

/-- Control bits as a word of `MACCR`. -/
def controlWord (lay : Layout) (m : BitVec 7) : Word := spread lay.controlPositions m

/-- The control bits of a word of `MACCR`. -/
def controlOf (lay : Layout) (w : Word) : BitVec 7 := gather 7 lay.controlPositions w

/-- `PHYSTAT` as a word (rule R107). -/
def linkWord (lay : Layout) (link : Bool) : Word := spread [lay.link] (BitVec.ofBool link)

/-! ## Derived flags -/

/-- `irq_level`: some enabled source is pending (rule R54). -/
def State.irqLevel (s : State) : Bool := s.isr &&& s.imr != 0

/-- The document's named dispatcher states (rule R31). -/
inductive DispatcherState where
  | idle
  | interruptPending
  | processing
deriving DecidableEq, Repr

/-- The named state is a function of `dslot` and `inflight` and is not stored (rule R31). -/
def State.dispatcherState (s : State) : DispatcherState :=
  match s.inflight, s.dslot with
  | some _, _ => .processing
  | none, some (.irqWork _) => .interruptPending
  | none, _ => .idle

/-! ## Codes (rules R260 and R261) -/

/-- The 3-bit value of the `fault` register (rule R260). -/
def FaultCode.code : FaultCode → BitVec 3
  | .none => 0
  | .vAdmission => 1
  | .vReclaimHw => 2
  | .vReleaseHw => 3
  | .vRxLen => 4

/-- The number of a status (rule R261). -/
def Status.code : Status → Nat
  | .ok => 0
  | .eCfgCapacity => 1
  | .eCfgIrq => 2
  | .eDown => 3
  | .eNotEnabled => 4
  | .eIllegal => 5
  | .eInternalOnly => 6
  | .eReserved => 7
  | .eFaulted => 8

end Sys2Proof.Machine
end

