-- ==== Sys2Proof/Machine/Operands.lean ====
section
/-!
DEFINITION. What an operand names: a slot of a ring and its address (rules R38, R39, R73), the legality of an index
(R113), the class of an operation (R115), the sender's flags, the length clamp (R162) and the received bytes (R113).
-/

namespace Sys2Proof.Machine

/-- The classes of rule R115. -/
inductive OpClass where
  | host
  | event
  | env
  | internal
  | reserved
deriving DecidableEq, Repr

/-- The class of an operation (the `class` column of rule R114). -/
def opClass : Instr → OpClass
  | .advance _ _ | .isHw _ _ | .release _ _ _ _ _ _ _ | .reclaim _ _ | .pollReceive | .reclaimCompleted | .txpoll
  | .process _ | .ptStart | .ptCancel | .txtoStart | .txtoCancel | .regRead _ | .regWrite _ _ => .internal
  | .submit _ _ | .bringUp | .bringDown | .notifyTxAvailable => .host
  | .irq | .workerRun | .workerDone | .tick | .pollExpire | .txtoExpire => .event
  | .macTxDone _ _ | .macRxFrame _ _ _ _ _ | .macRaise _ | .macPhy _ => .env
  | .addMc | .removeMc => .reserved

/-- An `idx` operand is below the ring's capacity (rule R113). -/
def slotLegal (cfg : Config) (ring : Ring) (idx : Half) : Bool := decide (idx.toNat < cfg.capacity ring)

/-- `ADVANCE`: `(c + 1) & (N - 1)` (rule R140). -/
def advanceCursor (cfg : Config) (ring : Ring) (c : Nat) : Nat := (c + 1) &&& (cfg.capacity ring - 1)

/-- The MAC agent's next slot (rules R241 to R243): 0 after a slot with the wrap marker, otherwise the next; the index is
`k` bits wide (R48), so it is taken modulo the capacity. -/
def macNext (cfg : Config) (ring : Ring) (wrap : Bool) (i : Nat) : Nat :=
  if wrap then 0 else (i + 1) % cfg.capacity ring

/-- The address of descriptor `i` of a ring: `base + 16*i` (rule R73). -/
def descAddr (cfg : Config) (ring : Ring) (i : Nat) : Nat := (cfg.ringAddr ring).toNat + 16 * i

/-- The address of a control-block register (rules R40 and R104). -/
def regAddr (cfg : Config) (reg : Reg) : Nat := cfg.regBase.toNat + (cfg.layout.offset reg).toNat

/-- The length clamp of `SUBMIT`: `max(n, MIN_FRAME)` (rules R145 and R162). -/
def clampLen (n : Half) : Half := if n.toNat < minFrame.toNat then minFrame else n

/-- The bytes of a received frame: byte `k` is `(seed + k) mod 256` (rules R113 and R243). -/
def seededBytes (seed : Byte) (n : Nat) : List Byte := (List.range n).map fun k => seed + BitVec.ofNat 8 k

/-- The bytes a `.answer L` leaves in the exchange buffer: `XBUF[k] = k mod 256` for `k < L` (rule R228). -/
def Answer.ofLength (len : Half) : Answer := ⟨len, seededBytes 0 len.toNat⟩

/-- The answer of a callout when no answer waits: no frame, nothing written (rule R228). -/
def Answer.noFrame : Answer := ⟨0, []⟩

end Sys2Proof.Machine
end

