-- ==== Sys2Proof/Machine/Ops.lean ====
section
/-!
DEFINITION. The named operations every meaning is written over: bytes of memory (rules R70 to R79, R90), descriptors
(R78, R81), the control block (R40 to R47), the fault outcome (R11 (3), R264), interrupt capture and unmask (R267, R268),
the exchange buffer and the upstream callouts (R228), and the command port's checks and answer (R261, R117).
-/

namespace Sys2Proof.Machine

/-! ## The result of a procedure -/

/-- The result of a procedure inside one transition. -/
inductive Res where
  /-- it completed, with a status, a result word and the state it left -/
  | done (st : Status) (res : Word) (s : State)
  /-- it raised a fault: the writes before the fault point stand in `s` (rule R264) -/
  | raised (s : State)
  /-- the machine stops -/
  | stop (f : Fault)
deriving DecidableEq, Repr

namespace Res

/-- Completed with status `OK` and result 0. -/
def ok (s : State) : Res := .done .ok 0 s

/-- Invocation of a further procedure after `r`: the status and result of `r` are dropped, and a fault unwinds all levels
(rule R271). -/
def andThen (r : Res) (k : State → Res) : Res :=
  match r with
  | .done _ _ s => k s
  | .raised s => .raised s
  | .stop f => .stop f

end Res

/-! ## Taking the fault outcome (rules R11 (3), R29, R264) -/

/-- `raise Fault(code)`: the sticky register keeps the first fault, and the operation ends. -/
def raise (code : FaultCode) (s : State) : Res :=
  .raised { s with fault := if s.fault = .none then code else s.fault }

/-! ## The trace (rule R13) -/

/-- Append an event to the trace. -/
def State.log (e : Event) (s : State) : State := { s with trace := s.trace ++ [e] }

/-! ## Bytes of memory -/

namespace Memory

/-- The byte listed at an address; none where nothing has been written. -/
def read : Memory → Nat → Option Byte
  | [], _ => none
  | (k, v) :: m, a => if k = a then some v else read m a

/-- Write a byte, keeping the addresses strictly rising. -/
def insert : Memory → Nat → Byte → Memory
  | [], a, b => [(a, b)]
  | (k, v) :: m, a, b => if a < k then (a, b) :: (k, v) :: m else if a = k then (a, b) :: m else (k, v) :: insert m a b

/-- Take an address off the list. -/
def erase : Memory → Nat → Memory
  | [], _ => []
  | (k, v) :: m, a => if k = a then m else (k, v) :: erase m a

/-- Write what a read answered: a byte, or the absence of a value. -/
def write (m : Memory) (a : Nat) : Option Byte → Memory
  | some b => m.insert a b
  | none => m.erase a

/-- `MemWrite`: the list `bs` at `a`, `a+1`, ... (rule R90). -/
def writeList (m : Memory) (a : Nat) : List (Option Byte) → Memory
  | [] => m
  | b :: bs => writeList (m.write a b) (a + 1) bs

/-- The canonical form: addresses strictly rising. An unlisted address has no value, so no entry equals what an unlisted
address reads as. -/
def wf : Memory → Bool
  | [] => true
  | [_] => true
  | (a, _) :: (b, v) :: m => decide (a < b) && wf ((b, v) :: m)

end Memory

namespace State

/-- A ring. -/
def ring (s : State) : Ring → List Desc
  | .rx => s.rxd
  | .tx => s.txd

/-- Descriptor `i` of a ring. -/
def desc (s : State) (r : Ring) (i : Nat) : Desc := (s.ring r).getD i Desc.beyond

/-- Replace descriptor `i` of a ring. -/
def setDesc (s : State) (r : Ring) (i : Nat) (d : Desc) : State :=
  match r with
  | .rx => { s with rxd := s.rxd.set i d }
  | .tx => { s with txd := s.txd.set i d }

/-- The slot of ring `r` that holds address `a`, and the byte's place in the slot (rules R38, R39 and R73). -/
def slotAt (s : State) (r : Ring) (a : Nat) : Option (Nat × Nat) :=
  let base := (s.cfg.ringAddr r).toNat
  if base ≤ a ∧ a < base + 16 * (s.ring r).length then some ((a - base) / 16, (a - base) % 16) else none

/-- The byte at an address of the flat space (rules R50 and R70): a byte of a descriptor inside a ring, otherwise the byte
memory lists. -/
def readByte (s : State) (a : Nat) : Option Byte :=
  match s.slotAt .rx a with
  | some (i, k) => some ((s.desc .rx i).byte s.cfg.layout k)
  | none =>
    match s.slotAt .tx a with
    | some (i, k) => some ((s.desc .tx i).byte s.cfg.layout k)
    | none => s.mem.read a

/-- Write the byte at an address of the flat space. -/
def writeByte (s : State) (a : Nat) (b : Byte) : State :=
  match s.slotAt .rx a with
  | some (i, k) => s.setDesc .rx i ((s.desc .rx i).setByte s.cfg.layout k b)
  | none =>
    match s.slotAt .tx a with
    | some (i, k) => s.setDesc .tx i ((s.desc .tx i).setByte s.cfg.layout k b)
    | none => { s with mem := s.mem.insert a b }

/-- `MemRead(a, n)` (rule R90). -/
def readBytes (s : State) (a n : Nat) : List (Option Byte) := (List.range n).map fun k => s.readByte (a + k)

/-- `MemWrite` of bytes at `a`, `a+1`, ... of the flat space (rule R90). -/
def writeBytes (s : State) (a : Nat) : List Byte → State
  | [] => s
  | b :: bs => writeBytes (s.writeByte a b) (a + 1) bs

end State

/-! ## Where a run of frame bytes may lie -/

/-- Two address ranges share an address. -/
def rangesMeet (a n b m : Nat) : Bool := decide (a < b + m) && decide (b < a + n)

/-- Why `n` frame bytes at `a` cannot be accessed, if they cannot: the range leaves the address space (rule R90) or
touches the control block, which takes only whole words (rule R40). Zero bytes access nothing (R90). -/
def frameFault (cfg : Config) (a n : Nat) : Option Fault :=
  if n = 0 then none
  else if 2 ^ 32 < a + n then some .outsideAddressSpace
  else if rangesMeet a n cfg.regBase.toNat cfg.layout.regSpan then some .byteAccessToControlBlock
  else none

/-- Why the block cannot write `n` bytes of the exchange buffer, if it cannot: besides `frameFault`, the parameters place
the buffer over a ring, which rule R7 forbids. -/
def xbufFault (cfg : Config) (n : Nat) : Option Fault :=
  match frameFault cfg cfg.xbufAddr.toNat n with
  | some f => some f
  | none =>
    if n ≠ 0 ∧ (rangesMeet cfg.xbufAddr.toNat n cfg.rxRingAddr.toNat (16 * cfg.nRx)
        ∨ rangesMeet cfg.xbufAddr.toNat n cfg.txRingAddr.toNat (16 * cfg.nTx)) then
      some .exchangeBufferOverRing
    else none

/-! ## Descriptors (rules R78, R81) -/

/-- One descriptor write of the block: the fields it names change, and it enters the trace (rules R13 and R78). -/
def descWrite (r : Ring) (i : Nat) (w : DescWrite) (s : State) : State :=
  (s.setDesc r i ((s.desc r i).apply w)).log (.descW r i w)

/-- Write a whole descriptor: `buf`, then the length and the flags, then the status and the ownership bit as the final write
(rules R81, R102, R142; `DW2`, `DW1`, `DW0` in the layout of R101). -/
def writeDesc (r : Ring) (i : Nat) (new : Desc) (s : State) : State :=
  descWrite r i new.statusWrite (descWrite r i new.bodyWrite (descWrite r i new.bufWrite s))

/-! ## The control block (rules R40 to R47) -/

/-- The value a register reads as (rules R41 to R47). -/
def State.regVal (s : State) : Reg → Word
  | .isr => statusWord s.cfg.layout s.isr
  | .imr => statusWord s.cfg.layout s.imr
  | .txpoll => 0
  | .txbase => s.txbase
  | .rxbase => s.rxbase
  | .maccr => controlWord s.cfg.layout s.maccr
  | .phystat => linkWord s.cfg.layout s.phyLink
  | .tune => s.tune

/-- The side effect of reading a register: reading `ISR` clears it (rules R41 and R79). -/
def readEffect (reg : Reg) (s : State) : State :=
  match reg with
  | .isr => { s with isr := 0 }
  | .imr | .txpoll | .txbase | .rxbase | .maccr | .phystat | .tune => s

/-- The state after `RegRead(reg)`; the value read is `s.regVal reg`. -/
def regRead (reg : Reg) (s : State) : State := (readEffect reg s).log (.regR reg (s.regVal reg))

/-- The effect of writing a register (rules R41 to R47, R241). -/
def writeEffect (reg : Reg) (v : Word) (s : State) : State :=
  match reg with
  | .isr => { s with isr := s.isr &&& ~~~statusOf s.cfg.layout v }
  | .imr => { s with imr := statusOf s.cfg.layout v }
  | .txpoll => if v = 1 then { s with txKick := true } else s
  | .txbase => { s with txbase := v, macTxIdx := 0, txKick := false }
  | .rxbase => { s with rxbase := v, macRxIdx := 0 }
  | .maccr => { s with maccr := controlOf s.cfg.layout v }
  | .phystat => s
  | .tune => { s with tune := v }

/-- `RegWrite(reg, v)`. -/
def regWrite (reg : Reg) (v : Word) (s : State) : State := (writeEffect reg v s).log (.regW reg v)

/-- The block's own write of `IMR`, by the names of its bits: `RegWrite(IMR, m)` under any layout (rule R42). -/
def writeImr (m : Byte) (s : State) : State := { s with imr := m }.log (.regW .imr (statusWord s.cfg.layout m))

/-- The block's own write of `MACCR`, by the names of its bits: `RegWrite(MACCR, m)` under any layout (rule R43). -/
def writeMaccr (m : BitVec 7) (s : State) : State :=
  { s with maccr := m }.log (.regW .maccr (controlWord s.cfg.layout m))

/-! ## Trap entry and trap return (rules R267 and R268) -/

/-- Mask all interrupt sources: `RegWrite(IMR, 0)` (rules R42 and R85). -/
def maskAll (s : State) : State := writeImr 0 s

/-- The snapshot an interrupt capture takes from a state: `ISR[7:0]` (rule R182). -/
def State.snapshot (s : State) : Byte := s.isr

/-- The capture of an interrupt: mask all sources first, then read the status register, which clears it (rules R182, R267).
The snapshot is `s.snapshot`. -/
def capture (s : State) : State := regRead .isr (maskAll s)

/-- The unmask that ends a pass: `RegWrite(IMR, IRQ_ENABLE_SET)` (rules R187 and R268). -/
def unmask (s : State) : State := writeImr irqEnableSet s

/-! ## The exchange buffer and the upstream callouts (rules R28 and R228) -/

/-- Write bytes from the start of the exchange buffer. -/
def writeXbuf (bs : List (Option Byte)) (s : State) : Res :=
  match xbufFault s.cfg bs.length with
  | some f => .stop f
  | none => .ok { s with mem := s.mem.writeList s.cfg.xbufAddr.toNat bs }

/-- The answer the next callout takes. -/
def State.nextAnswer (s : State) : Answer := s.answers.headD Answer.noFrame

/-- An upstream callout: it takes the next answer, leaves its bytes in the exchange buffer (no further than `XBUF_SIZE`),
and its length becomes `xlen` (rule R228). -/
def callUp (c : Callout) (s : State) : Res :=
  let a := s.nextAnswer
  (writeXbuf ((a.bytes.take s.cfg.xbufSize).map some) { s with answers := s.answers.tail }).andThen fun s =>
    .ok ({ s with xlen := a.len }.log (.call c a.len))

/-- A byte of the exchange buffer. -/
def State.xbuf (s : State) (k : Nat) : Option Byte := s.readByte (s.cfg.xbufAddr.toNat + k)

/-- The directive `.answer L` (rule R119): append an answer to the queue. -/
def State.answer (len : Half) (s : State) : State := { s with answers := s.answers ++ [Answer.ofLength len] }

/-! ## The command port (rules R115, R117, R261) -/

/-- What the port checks before an operation's own tests. -/
structure Gate where
  /-- the class (rule R115) -/
  cls     : OpClass
  /-- the operands are legal (rule R116 (c)) -/
  legal   : Bool
  /-- accepted while `fault != NONE`: `REG_READ` only (rule R29) -/
  exempt  : Bool
  /-- the operation's guard -/
  guard   : Bool
deriving DecidableEq, Repr

/-- The gate of an operation of class `cls` with no operand to check and the guard `guard`. -/
def Gate.plain (cls : OpClass) (guard : Bool) : Gate := ⟨cls, true, false, guard⟩

/-- The gate of an operation of class `cls` with a slot operand. -/
def Gate.slot (cls : OpClass) (legal : Bool) (guard : Bool) : Gate := ⟨cls, legal, false, guard⟩

/-- The first of the checks (1) to (4) of rule R261 that fails; `OK` when none does. A HOST operation is not enabled while
a pass is in flight (rule R229). -/
def portCheck (g : Gate) (s : State) : Status :=
  if !g.legal then .eIllegal
  else if s.fault != .none && !g.exempt then .eFaulted
  else if g.cls == .reserved then .eReserved
  else if g.cls == .internal && !s.cfg.testPort then .eInternalOnly
  else if g.cls == .host && s.inflight.isSome then .eNotEnabled
  else if !g.guard then .eNotEnabled
  else .ok

/-- Answer a command with a status and a result; the answer of a host call enters the trace (rule R13 (d)). -/
def respond (cls : OpClass) (st : Status) (res : Word) (s : State) : State :=
  match cls with
  | .host => { s with resp := some (.returned st res) }.log (.hostReturn st res)
  | .event | .env | .internal | .reserved => { s with resp := some (.returned st res) }

/-- The answer to a command that raised a fault (rule R11 (3)). -/
def respondFault (s : State) : State := { s with resp := some (.faulted s.fault) }

/-- A command whose operation ended in `r`. -/
def answerCommand (cls : OpClass) (r : Res) : Host.Outcome State Fault Refusal :=
  match r with
  | .done st res s => .next (respond cls st res s)
  | .raised s => .next (respondFault s)
  | .stop f => .fault f

/-- A command at the port: refused with a status that leaves the state as it is, or its operation `body` runs. -/
def command (g : Gate) (body : State → Res) (s : State) : Host.Outcome State Fault Refusal :=
  match portCheck g s with
  | .ok => answerCommand g.cls (body s)
  | st => .next (respond g.cls st 0 s)

/-- The answer to a triple of words that is no command (rule R116): `E_ILLEGAL`, no state change. -/
def illegalCommand (s : State) : Host.Outcome State Fault Refusal :=
  .next { s with resp := some (.returned .eIllegal 0) }

end Sys2Proof.Machine
end

