-- ==== Sys2Proof/Machine/RingPrimitives.lean ====
section
/-!
DEFINITION. The descriptor ring primitives `ADVANCE`, `IS_HW`, `RELEASE`, `RECLAIM` (rules R140 to R144): the procedures
other rules invoke, and the meanings of the four INTERNAL operations.
-/

namespace Sys2Proof.Machine

/-- `RELEASE ring, i, buf, len, flags` (rule R142): publish buffer, length and flags, then set the ownership bit to
Hardware as the final write; the wrap marker is kept. A value too wide for its field leaves a free value there. -/
def release (r : Ring) (i : Nat) (buf : Word) (len : Half) (fs ls ic : Bool) (s : State) : Res :=
  if (s.desc r i).own = .hw then raise .vReleaseHw s
  else .ok (writeDesc r i
    { own := .hw, buf := fitBuf s.cfg.layout buf, len := fitLen s.cfg.layout len, fs := fs, ls := ls,
      wrap := (s.desc r i).wrap, ic := ic, stat := 0 } s)

/-- `RECLAIM ring, i` (rule R143): clear every field but the wrap marker and leave the slot Software-owned. -/
def reclaim (r : Ring) (i : Nat) (s : State) : Res :=
  if (s.desc r i).own = .hw then raise .vReclaimHw s
  else .ok (writeDesc r i (Desc.clear (s.desc r i).wrap) s)

/-- `ADVANCE` at the command port (rule R140). -/
def execAdvance (r : Ring) (c : Half) (s : State) : Host.Outcome State Fault Refusal :=
  command (.slot .internal (slotLegal s.cfg r c) true)
    (fun s => .done .ok (BitVec.ofNat 32 (advanceCursor s.cfg r c.toNat)) s) s

/-- `IS_HW` at the command port (rule R141). -/
def execIsHw (r : Ring) (idx : Half) (s : State) : Host.Outcome State Fault Refusal :=
  command (.slot .internal (slotLegal s.cfg r idx) true)
    (fun s => .done .ok (if (s.desc r idx.toNat).own = .hw then 1 else 0) s) s

/-- `RELEASE` at the command port (rule R142). -/
def execRelease (r : Ring) (idx : Half) (buf : Word) (len : Half) (fs ls ic : Bool) (s : State) :
    Host.Outcome State Fault Refusal :=
  command (.slot .internal (slotLegal s.cfg r idx) true) (release r idx.toNat buf len fs ls ic) s

/-- `RECLAIM` at the command port (rule R143). -/
def execReclaim (r : Ring) (idx : Half) (s : State) : Host.Outcome State Fault Refusal :=
  command (.slot .internal (slotLegal s.cfg r idx) true) (reclaim r idx.toNat) s

end Sys2Proof.Machine
end

