-- ==== Sys2Proof/Machine/Timers.lean ====
section
/-!
DEFINITION. The two timers (rules R200 to R205): start, cancel and the time base. Their expiry events are in
TimerEvents.lean.
-/

namespace Sys2Proof.Machine

/-- `PT_START` (rule R202): arm the poll timer for one period. -/
def ptStart (s : State) : State := { s with ptArmed := true, ptRem := s.cfg.pollPeriod }

/-- `PT_CANCEL` (rule R203): the count keeps its value. -/
def ptCancel (s : State) : State := { s with ptArmed := false }

/-- `TXTO_START` (rule R204): (re)start the TX-timeout timer. -/
def txtoStart (s : State) : State := { s with toArmed := true, toRem := s.cfg.txTimeout }

/-- `TXTO_CANCEL` (rule R205): the count keeps its value. -/
def txtoCancel (s : State) : State := { s with toArmed := false }

/-- One tick of a count: an armed timer counts down and stops at 0 (rule R201). -/
def countDown (armed : Bool) (rem : Word) : Word := if armed ∧ rem ≠ 0 then rem - 1 else rem

/-- `TICK` (rule R201): both timers count on the same tick. -/
def tick (s : State) : State :=
  { s with ptRem := countDown s.ptArmed s.ptRem, toRem := countDown s.toArmed s.toRem }

/-- `TICK` at the command port: enabled in every state without a fault. -/
def execTick (s : State) : Host.Outcome State Fault Refusal :=
  command (.plain .event true) (fun s => .ok (tick s)) s

/-- `PT_START` at the command port (rule R202). -/
def execPtStart (s : State) : Host.Outcome State Fault Refusal :=
  command (.plain .internal true) (fun s => .ok (ptStart s)) s

/-- `PT_CANCEL` at the command port (rule R203). -/
def execPtCancel (s : State) : Host.Outcome State Fault Refusal :=
  command (.plain .internal true) (fun s => .ok (ptCancel s)) s

/-- `TXTO_START` at the command port (rule R204). -/
def execTxtoStart (s : State) : Host.Outcome State Fault Refusal :=
  command (.plain .internal true) (fun s => .ok (txtoStart s)) s

/-- `TXTO_CANCEL` at the command port (rule R205). -/
def execTxtoCancel (s : State) : Host.Outcome State Fault Refusal :=
  command (.plain .internal true) (fun s => .ok (txtoCancel s)) s

end Sys2Proof.Machine
end

