-- ==== Sys2Proof/Machine/Transmit.lean ====
section
/-!
DEFINITION. The transmit path (rules R160 to R167): `SUBMIT`, `RECLAIM_COMPLETED`, `TXPOLL`, and the procedure
`TIMER_HOOK` (R208), which has the shape of `TXPOLL` with another callout.
-/

namespace Sys2Proof.Machine

/-- The bookkeeping of `SUBMIT` after its release: advance the cursor, count the slot, pulse the transmit poll register,
(re)start the watchdog, in this order (rule R161). -/
def afterSubmit (s : State) : State :=
  txtoStart (regWrite .txpoll 1 { s with txCur := advanceCursor s.cfg .tx s.txCur, txPend := s.txPend + 1 })

/-- `SUBMIT p, n` (rule R161): refused on a down device, a fault on a full ring, otherwise the frame takes the current
slot with all three flags and the clamped length (R162, R167). -/
def submit (p : Word) (n : Half) (s : State) : Res :=
  if !s.up then .done .eDown 0 s
  else if s.txPend = s.cfg.nTx then raise .vAdmission s
  else (release .tx s.txCur p (clampLen n) true true true s).andThen fun s => .ok (afterSubmit s)

/-- What follows every upstream callout: a non-zero length is a frame in the exchange buffer, and it is submitted (rules
R151, R165, R208). -/
def submitAnswer (s : State) : Res := if s.xlen ≠ 0 then submit s.cfg.xbufAddr s.xlen s else .ok s

/-- `TXPOLL` (rule R165): one invocation of the upstream poll callback. -/
def txpoll (s : State) : Res := ((callUp .poll s).andThen submitAnswer).andThen .ok

/-- `TIMER_HOOK` (rule R208): the upstream periodic timer hook. -/
def timerHook (s : State) : Res := ((callUp .timerHook s).andThen submitAnswer).andThen .ok

/-- One reclaimed slot: clear it, advance the clean cursor, count it off (rule R163). -/
def reclaimOne (s : State) : Res :=
  (reclaim .tx s.txClean s).andThen fun s =>
    .ok { s with txClean := advanceCursor s.cfg .tx s.txClean, txPend := s.txPend - 1 }

/-- The draining loop of `RECLAIM_COMPLETED`, `fuel` iterations at most: it ends when nothing is pending or the oldest
pending slot is still Hardware-owned (rule R163). -/
def reclaimLoop : Nat → State → Res
  | 0, s => .ok s
  | fuel + 1, s =>
    if s.txPend = 0 then .ok s
    else if (s.desc .tx s.txClean).own = .hw then .ok s
    else (reclaimOne s).andThen (reclaimLoop fuel)

/-- `RECLAIM_COMPLETED` (rule R163): drain, then cancel the watchdog and poll, whatever is still pending (R164). Each
iteration lowers `tx_pend` by one, so `tx_pend` iterations are enough. -/
def reclaimCompleted (s : State) : Res :=
  (reclaimLoop s.txPend s).andThen fun s => txpoll (txtoCancel s)

/-- `SUBMIT` at the command port (rule R161). -/
def execSubmit (p : Word) (n : Half) (s : State) : Host.Outcome State Fault Refusal :=
  command (.plain .host true) (submit p n) s

/-- `RECLAIM_COMPLETED` at the command port (rule R163). -/
def execReclaimCompleted (s : State) : Host.Outcome State Fault Refusal :=
  command (.plain .internal true) reclaimCompleted s

/-- `TXPOLL` at the command port (rule R165). -/
def execTxpoll (s : State) : Host.Outcome State Fault Refusal :=
  command (.plain .internal true) txpoll s

end Sys2Proof.Machine
end

