-- ==== Sys2Proof/Machine/Receive.lean ====
section
/-!
DEFINITION. The receive path (rules R150 to R156): `POLL_RECEIVE` and its parts.
-/

namespace Sys2Proof.Machine

/-- A released slot holds a single complete frame exactly when both segment flags are set (rule R152). -/
def Desc.complete (d : Desc) : Bool := d.fs && d.ls

/-- The receive copy: `MemWrite(XBUF_ADDR, n, MemRead(a, n))` (rule R91). -/
def copyFrame (a n : Nat) (s : State) : Res :=
  match frameFault s.cfg a n with
  | some f => .stop f
  | none => writeXbuf (s.readBytes a n) s

/-- Deliver the complete frame of RX slot `i` and hand a reply to the transmit path before the recycle (rules R151, R154). -/
def deliverFrame (i : Nat) (s : State) : Res :=
  let n := (s.desc .rx i).len
  if s.cfg.xbufSize < n.toNat then raise .vRxLen s
  else ((copyFrame (s.desc .rx i).buf.toNat n.toNat s).andThen fun s =>
    callUp (.deliver n) { s with xlen := n }).andThen submitAnswer

/-- Recycle RX slot `i` and advance the cursor (rule R153): the slot keeps its buffer, and is offered again with the
configured size. -/
def recycle (i : Nat) (s : State) : Res :=
  (release .rx i (s.desc .rx i).buf s.cfg.rxBufSize false false false s).andThen fun s =>
    .ok { s with rxCur := advanceCursor s.cfg .rx i }

/-- Consume the released RX slot `i`: deliver it if it is complete, and recycle it in either case (rule R151). -/
def consumeSlot (i : Nat) (s : State) : Res :=
  (if (s.desc .rx i).complete then deliverFrame i s else .ok s).andThen (recycle i)

/-- The walk ends after this slot: a complete frame under `RX_SCAN = ONE_FRAME` (rule R155). -/
def walkEndsAfter (i : Nat) (s : State) : Bool := (s.desc .rx i).complete && s.cfg.rxScan == .oneFrame

/-- The walk of `POLL_RECEIVE`, `fuel` iterations at most: it ends at a Hardware-owned slot (rule R151). -/
def pollLoop : Nat → State → Res
  | 0, s => .ok s
  | fuel + 1, s =>
    if (s.desc .rx s.rxCur).own = .hw then .ok s
    else if walkEndsAfter s.rxCur s then (consumeSlot s.rxCur s).andThen .ok
    else (consumeSlot s.rxCur s).andThen (pollLoop fuel)

/-- `POLL_RECEIVE` (rule R151). Each iteration turns one Software-owned slot Hardware-owned, so one iteration per slot and
a last test are enough (rule R156). -/
def pollReceive (s : State) : Res := pollLoop (s.rxd.length + 1) s

/-- `POLL_RECEIVE` at the command port. -/
def execPollReceive (s : State) : Host.Outcome State Fault Refusal :=
  command (.plain .internal true) pollReceive s

end Sys2Proof.Machine
end

