-- ==== Sys2Proof/Machine/Dispatcher.lean ====
section
/-!
DEFINITION. The interrupt mask and dispatch controller (rules R180 to R192): `IRQ`, `PROCESS`, `WORKER_RUN`,
`WORKER_DONE` and the procedure `SCHEDULE`.
-/

namespace Sys2Proof.Machine

/-- `SCHEDULE u` (rule R185): two interrupt units merge by OR; every other pair replaces the pending unit. -/
def schedule (u : DeferredUnit) (s : State) : State :=
  match s.dslot, u with
  | some (.irqWork s0), .irqWork s1 => { s with dslot := some (.irqWork (s0 ||| s1)) }
  | _, _ => { s with dslot := some u }

/-- Step (a): acknowledge "receive packet available" at the register level (rule R184). -/
def stepAck (snap : Byte) (s : State) : Res :=
  if hasBit snap rpktAvail then .ok (regWrite s.cfg.ackReg s.cfg.ackVal s) else .ok s

/-- Step (b): one receive poll if a frame finished or no buffer was left (rule R184). -/
def stepReceive (snap : Byte) (s : State) : Res :=
  if hasBit snap (rxFinished ||| noRxbuf) then pollReceive s else .ok s

/-- Step (c): reclaim on a transmit completion (rule R184). -/
def stepTransmit (snap : Byte) (s : State) : Res :=
  if hasBit snap txOk then reclaimCompleted s else .ok s

/-- Step (d): read the PHY status register and update the link-up flag (rule R184). -/
def stepPhy (snap : Byte) (s : State) : Res :=
  if hasBit snap phyChg then .ok { regRead .phystat s with linkUp := s.phyLink } else .ok s

/-- `PROCESS S` (rule R184): nothing for an empty snapshot, otherwise the steps (a) to (d) in order. It does not unmask. -/
def process (snap : Byte) (s : State) : Res :=
  if snap = 0 then .ok s
  else (((stepAck snap s).andThen (stepReceive snap)).andThen (stepTransmit snap)).andThen (stepPhy snap)

/-- The capture-time cancel of the watchdog (rule R183). -/
def cancelIfTxOk (snap : Byte) (s : State) : State := if hasBit snap txOk then txtoCancel s else s

/-- `IRQ` (rule R182): mask, take the snapshot, cancel the watchdog on a visible completion, then process and unmask
(`INLINE`) or schedule (`DEFERRED`). -/
def irq (s : State) : Res :=
  let snap := s.snapshot
  let s := cancelIfTxOk snap (capture s)
  match s.cfg.mode with
  | .inline => (process snap s).andThen fun s => .ok (unmask s)
  | .deferred => .ok (schedule (.irqWork snap) s)

/-- The body of a deferred unit (rule R186). -/
def unitBody (u : DeferredUnit) (s : State) : Res :=
  match u with
  | .irqWork snap => process snap s
  | .pollWork => timerHook s
  | .txTimeoutWork => txpoll s
  | .txAvailWork => txpoll s

/-- `WORKER_RUN` (rule R186): the pending unit goes in flight and its body runs. -/
def workerRun (s : State) : Res :=
  match s.dslot with
  | none => .ok s
  | some u => (unitBody u { s with dslot := none, inflight := some u }).andThen .ok

/-- `WORKER_DONE` (rule R187): the pass ends with the unmask, unless it began in the upstream stack's own context (R192). -/
def workerDone (s : State) : State :=
  { (if s.inflight = some .txAvailWork then s else unmask s) with inflight := none }

/-- The guard of `WORKER_RUN` (rule R186). -/
def workerRunGuard (s : State) : Bool := s.cfg.mode == .deferred && s.dslot.isSome && s.inflight.isNone

/-- `IRQ` at the command port: enabled while the device is up (rule R181). -/
def execIrq (s : State) : Host.Outcome State Fault Refusal := command (.plain .event s.up) irq s

/-- `PROCESS` at the command port (rule R184). -/
def execProcess (snap : Byte) (s : State) : Host.Outcome State Fault Refusal :=
  command (.plain .internal true) (process snap) s

/-- `WORKER_RUN` at the command port. -/
def execWorkerRun (s : State) : Host.Outcome State Fault Refusal :=
  command (.plain .event (workerRunGuard s)) workerRun s

/-- `WORKER_DONE` at the command port: enabled while a pass is in flight. -/
def execWorkerDone (s : State) : Host.Outcome State Fault Refusal :=
  command (.plain .event s.inflight.isSome) (fun s => .ok (workerDone s)) s

end Sys2Proof.Machine
end

