-- ==== Sys2Proof/Machine/TimerEvents.lean ====
section
/-!
DEFINITION. The expiry events of the two timers (rules R206 and R207).
-/

namespace Sys2Proof.Machine

/-- `POLL_EXPIRE` (rule R206): the arming is spent; the hook runs at once (`INLINE`), is scheduled (`DEFERRED`, slot free)
or is dropped (`DEFERRED`, slot occupied); the timer is re-armed in all three cases. -/
def pollExpire (s : State) : Res :=
  let s := { s with ptArmed := false }
  (match s.cfg.mode with
    | .inline => (timerHook (maskAll s)).andThen fun s => .ok (unmask s)
    | .deferred => if s.dslot = none then .ok (schedule .pollWork (maskAll s)) else .ok s).andThen fun s =>
  .ok (ptStart s)

/-- `TXTO_EXPIRE` (rule R207): the arming is spent and not renewed; exactly one recovery poll, at once (`INLINE`) or as a
deferred unit (`DEFERRED`). No descriptor is reclaimed and nothing is reset. -/
def txtoExpire (s : State) : Res :=
  let s := maskAll { s with toArmed := false }
  match s.cfg.mode with
  | .inline => (txpoll s).andThen fun s => .ok (unmask s)
  | .deferred => .ok (schedule .txTimeoutWork s)

/-- The guard of `POLL_EXPIRE` (rule R206). -/
def pollExpireGuard (s : State) : Bool := s.ptArmed && s.ptRem == 0

/-- The guard of `TXTO_EXPIRE` (rule R207). -/
def txtoExpireGuard (s : State) : Bool := s.toArmed && s.toRem == 0

/-- `POLL_EXPIRE` at the command port. -/
def execPollExpire (s : State) : Host.Outcome State Fault Refusal :=
  command (.plain .event (pollExpireGuard s)) pollExpire s

/-- `TXTO_EXPIRE` at the command port. -/
def execTxtoExpire (s : State) : Host.Outcome State Fault Refusal :=
  command (.plain .event (txtoExpireGuard s)) txtoExpire s

end Sys2Proof.Machine
end

