-- ==== Sys2Proof/Machine/HostCalls.lean ====
section
/-!
DEFINITION. The host calls (rules R220 to R223), the register accesses (R224, R225) and the two reserved operations
(R227).
-/

namespace Sys2Proof.Machine

/-- Construct the slots `i`, `i+1`, ... (`n` of them) of a ring, each with its three writes (rule R220). -/
def initSlots (r : Ring) : Nat → Nat → State → State
  | _, 0, s => s
  | i, n + 1, s => initSlots r (i + 1) n (writeDesc r i (Desc.constructed s.cfg r i) s)

/-- `RING_INIT` (rule R220): both rings and their bookkeeping in the constructed state. -/
def ringInit (s : State) : State :=
  { initSlots .tx 0 s.cfg.nTx (initSlots .rx 0 s.cfg.nRx s) with rxCur := 0, txCur := 0, txClean := 0, txPend := 0 }

/-- The writes of a `BRING_UP` that passed its checks, in the order of rule R221: rings, base registers, MAC enable, poll
timer, interrupt enable. -/
def bringUpWrites (s : State) : State :=
  let s := ringInit s
  let s := regWrite .txbase s.cfg.txRingAddr s
  let s := regWrite .rxbase s.cfg.rxRingAddr s
  let s := writeMaccr maccrUp s
  let s := ptStart s
  let s := writeImr irqEnableSet s
  { s with up := true }

/-- `BRING_UP` (rule R221): the capacity test, then the interrupt-line test, with nothing written before both pass. -/
def bringUp (s : State) : Res :=
  if !s.cfg.capacitiesOk then .done .eCfgCapacity 0 s
  else if !s.cfg.irqLineOk then .done .eCfgIrq 0 s
  else .ok (bringUpWrites s)

/-- `BRING_DOWN` (rule R222): mask, cancel both timers, disable the MAC, drop a pending unit. -/
def bringDown (s : State) : State :=
  let s := writeImr 0 s
  let s := ptCancel s
  let s := txtoCancel s
  let s := writeMaccr 0 s
  { s with dslot := none, up := false }

/-- `NOTIFY_TX_AVAILABLE` (rule R223): acts only on a device that is up with no unit pending. -/
def notifyTxAvailable (s : State) : Res :=
  if !s.up then .ok s
  else if s.dslot ≠ none then .ok s
  else match s.cfg.mode with
    | .inline => (txpoll s).andThen .ok
    | .deferred => .ok (schedule .txAvailWork s)

/-- `BRING_UP` at the command port: not enabled on a device that is already up (rule R221). -/
def execBringUp (s : State) : Host.Outcome State Fault Refusal := command (.plain .host (!s.up)) bringUp s

/-- `BRING_DOWN` at the command port. -/
def execBringDown (s : State) : Host.Outcome State Fault Refusal :=
  command (.plain .host true) (fun s => .ok (bringDown s)) s

/-- `NOTIFY_TX_AVAILABLE` at the command port. -/
def execNotifyTxAvailable (s : State) : Host.Outcome State Fault Refusal :=
  command (.plain .host true) notifyTxAvailable s

/-- `REG_READ` at the command port (rule R224): accepted also while a fault is recorded (R29). -/
def execRegRead (reg : Reg) (s : State) : Host.Outcome State Fault Refusal :=
  command ⟨.internal, true, true, true⟩ (fun s => .done .ok (s.regVal reg) (regRead reg s)) s

/-- `REG_WRITE` at the command port (rule R225). -/
def execRegWrite (reg : Reg) (v : Word) (s : State) : Host.Outcome State Fault Refusal :=
  command (.plain .internal true) (fun s => .ok (regWrite reg v s)) s

/-- `ADD_MC` at the command port: reserved, refused with a status in every state (rule R227). -/
def execAddMc (s : State) : Host.Outcome State Fault Refusal := command (.plain .reserved true) .ok s

/-- `REMOVE_MC` at the command port: reserved, refused with a status in every state (rule R227). -/
def execRemoveMc (s : State) : Host.Outcome State Fault Refusal := command (.plain .reserved true) .ok s

end Sys2Proof.Machine
end

