-- ==== Sys2Proof/Machine/MacAgent.lean ====
section
/-!
DEFINITION. The moves of the MAC agent (rules R240 to R248): `MAC_TX_DONE`, `MAC_RX_FRAME`, `MAC_RAISE`, `MAC_PHY`. They
are the environment's, and no write of theirs enters the trace.
-/

namespace Sys2Proof.Machine

/-- Set status bits: the MAC agent never clears one (rule R240 (e)). -/
def raiseBits (bits : Byte) (s : State) : State := { s with isr := s.isr ||| bits }

/-- `MAC_TX_DONE idx, stat` (rule R242): release TX slot `idx` to Software with a status, in one write. -/
def macTxDone (idx : Nat) (stat : Half) (s : State) : State :=
  let s := s.setDesc .tx idx ((s.desc .tx idx).apply (.status (fitStat s.cfg.layout stat) .sw))
  let s := if (s.desc .tx idx).ic then raiseBits txOk s else s
  { s with macTxIdx := macNext s.cfg .tx (s.desc .tx idx).wrap idx, txKick := false }

/-- The guard of `MAC_TX_DONE` (rules R240 (d) and R242). -/
def macTxDoneGuard (idx : Nat) (s : State) : Bool :=
  txEn s.maccr && dmaEn s.maccr && (s.desc .tx idx).own == .hw && (!s.cfg.macInOrder || idx == s.macTxIdx)

/-- `MAC_RX_FRAME len, fs, ls, stat, seed` (rule R243): store the frame through RX slot `mac_rx_idx`, then the length
and the segment flags (`wrap` and `ic` kept), then the status with the ownership bit last. -/
def macRxFrame (len : Half) (fs ls : Bool) (stat : Half) (seed : Byte) (s : State) : Res :=
  let i := s.macRxIdx
  match frameFault s.cfg (s.desc .rx i).buf.toNat len.toNat with
  | some f => .stop f
  | none =>
    let s := s.writeBytes (s.desc .rx i).buf.toNat (seededBytes seed len.toNat)
    let s := s.setDesc .rx i ((s.desc .rx i).apply
      (.body (fitLen s.cfg.layout len) fs ls (s.desc .rx i).wrap (s.desc .rx i).ic))
    let s := s.setDesc .rx i ((s.desc .rx i).apply (.status (fitStat s.cfg.layout stat) .sw))
    let s := raiseBits rxFinished s
    .ok { s with macRxIdx := macNext s.cfg .rx (s.desc .rx i).wrap i }

/-- The guard of `MAC_RX_FRAME` (rules R240 (d) and R243). -/
def macRxFrameGuard (len : Half) (s : State) : Bool :=
  rxEn s.maccr && dmaEn s.maccr && (s.desc .rx s.macRxIdx).own == .hw
    && decide (len.toNat ≤ (s.desc .rx s.macRxIdx).len.toNat)

/-- `MAC_TX_DONE` at the command port. -/
def execMacTxDone (idx stat : Half) (s : State) : Host.Outcome State Fault Refusal :=
  command (.slot .env (slotLegal s.cfg .tx idx) (macTxDoneGuard idx.toNat s))
    (fun s => .ok (macTxDone idx.toNat stat s)) s

/-- `MAC_RX_FRAME` at the command port. -/
def execMacRxFrame (len : Half) (fs ls : Bool) (stat : Half) (seed : Byte) (s : State) :
    Host.Outcome State Fault Refusal :=
  command (.plain .env (macRxFrameGuard len s)) (macRxFrame len fs ls stat seed) s

/-- `MAC_RAISE bits` at the command port (rule R245). -/
def execMacRaise (bits : Byte) (s : State) : Host.Outcome State Fault Refusal :=
  command (.plain .env true) (fun s => .ok (raiseBits bits s)) s

/-- `MAC_PHY link` at the command port (rule R246): `PHY_CHG` is set even if the link did not change. -/
def execMacPhy (link : Bool) (s : State) : Host.Outcome State Fault Refusal :=
  command (.plain .env true) (fun s => .ok (raiseBits phyChg { s with phyLink := link })) s

end Sys2Proof.Machine
end

