-- ==== Sys2Proof/Machine/Dispatch.lean ====
section
/-!
DEFINITION. Dispatch: one arm per operation of rule R114, each a direct call of its meaning.
-/

namespace Sys2Proof.Machine

def exec (i : Instr) (s : State) : Host.Outcome State Fault Refusal :=
  match i with
  | .advance ring c => Sys2Proof.Machine.execAdvance ring c s
  | .isHw ring idx => Sys2Proof.Machine.execIsHw ring idx s
  | .release ring idx buf len fs ls ic => Sys2Proof.Machine.execRelease ring idx buf len fs ls ic s
  | .reclaim ring idx => Sys2Proof.Machine.execReclaim ring idx s
  | .pollReceive => Sys2Proof.Machine.execPollReceive s
  | .submit p n => Sys2Proof.Machine.execSubmit p n s
  | .reclaimCompleted => Sys2Proof.Machine.execReclaimCompleted s
  | .txpoll => Sys2Proof.Machine.execTxpoll s
  | .irq => Sys2Proof.Machine.execIrq s
  | .process snap => Sys2Proof.Machine.execProcess snap s
  | .workerRun => Sys2Proof.Machine.execWorkerRun s
  | .workerDone => Sys2Proof.Machine.execWorkerDone s
  | .tick => Sys2Proof.Machine.execTick s
  | .pollExpire => Sys2Proof.Machine.execPollExpire s
  | .txtoExpire => Sys2Proof.Machine.execTxtoExpire s
  | .ptStart => Sys2Proof.Machine.execPtStart s
  | .ptCancel => Sys2Proof.Machine.execPtCancel s
  | .txtoStart => Sys2Proof.Machine.execTxtoStart s
  | .txtoCancel => Sys2Proof.Machine.execTxtoCancel s
  | .bringUp => Sys2Proof.Machine.execBringUp s
  | .bringDown => Sys2Proof.Machine.execBringDown s
  | .notifyTxAvailable => Sys2Proof.Machine.execNotifyTxAvailable s
  | .regRead reg => Sys2Proof.Machine.execRegRead reg s
  | .regWrite reg val => Sys2Proof.Machine.execRegWrite reg val s
  | .addMc => Sys2Proof.Machine.execAddMc s
  | .removeMc => Sys2Proof.Machine.execRemoveMc s
  | .macTxDone idx stat => Sys2Proof.Machine.execMacTxDone idx stat s
  | .macRxFrame len fs ls stat seed => Sys2Proof.Machine.execMacRxFrame len fs ls stat seed s
  | .macRaise bits => Sys2Proof.Machine.execMacRaise bits s
  | .macPhy link => Sys2Proof.Machine.execMacPhy link s

end Sys2Proof.Machine
end

