-- ==== Sys2Proof/Machine/Step.lean ====
section
/-!
DEFINITION. One step: the next command of the stream at the command port is taken, decoded and run (rules R111, R116,
R270). With no command waiting the block is idle and nothing changes (rules R272 and R302).
-/

namespace Sys2Proof.Machine

/-- One step of the machine. -/
def step (s : State) : Host.Outcome State Fault Refusal :=
  match s.cmds with
  | [] => .next s
  | c :: rest =>
    match decode s.cfg.layout c with
    | none => illegalCommand { s with cmds := rest }
    | some i => exec i { s with cmds := rest }

/-- The state with the instruction whose bits are the low `nbits` bits of `w` placed first in the command stream. -/
def State.withFetchWord (s : State) (nbits w : Nat) : State :=
  match tableCommand nbits w with
  | none => s
  | some c => { s with cmds := c :: s.cmds }

end Sys2Proof.Machine
end

