-- ==== Sys2Proof/Safety.lean ====
section
/-!
DEFINITION. The terms the claims are stated in: what every state keeps (`Shape`), the TX window of rule R52, the invariant
of a device whose test port is closed (`BlockInv`), the upstream stack's duty of room (R228 (c)), when a move is enabled
or owed (R181, R248, R270), the answer of a refused command (R261), the writes of a release in the trace (R81), what a
callout with its submission leaves (R165, R228), and the bytes an operation may store to.
-/

namespace Sys2Proof.Machine

/-! ## What every step keeps, whatever is issued -/

/-- An address no ring and not the control block holds, inside the address space: where `mem` may list a byte. -/
def State.plainAddress (s : State) (a : Nat) : Prop :=
  a < 2 ^ 32 ∧ s.slotAt .rx a = none ∧ s.slotAt .tx a = none
    ∧ ¬ (s.cfg.regBase.toNat ≤ a ∧ a < s.cfg.regBase.toNat + s.cfg.layout.regSpan)

/-- The shape of a state: a configuration that can be constructed, rings of the configured capacities, every descriptor one
that its four words can hold (R37, R101), every cursor and scan index inside its ring (rules R22 to R24, R48), memory in
canonical form and listing only plain addresses. -/
structure Shape (s : State) : Prop where
  cfg_wf      : s.cfg.wf = true
  rx_length   : s.rxd.length = s.cfg.nRx
  tx_length   : s.txd.length = s.cfg.nTx
  desc_fits   : ∀ r, ∀ d ∈ s.ring r, d.fits s.cfg.layout = true
  rx_cur      : s.rxCur < s.cfg.nRx
  tx_cur      : s.txCur < s.cfg.nTx
  tx_clean    : s.txClean < s.cfg.nTx
  mac_tx_idx  : s.macTxIdx < s.cfg.nTx
  mac_rx_idx  : s.macRxIdx < s.cfg.nRx
  mem_wf      : s.mem.wf = true
  mem_places  : ∀ c ∈ s.mem, s.plainAddress c.1

/-! ## The ring invariants of rule R52 -/

/-- TX slot `i` is in the window: `(i - tx_clean) mod N_TX < tx_pend` (rule R52 I3). -/
def State.inWindow (s : State) (i : Nat) : Prop := (i + s.cfg.nTx - s.txClean) % s.cfg.nTx < s.txPend

/-- The ring invariants I1 to I5 of rule R52 (I6 holds by the type of `own`). -/
structure RingInv (s : State) : Prop where
  /-- I1 -/
  pend_le       : s.txPend ≤ s.cfg.nTx
  /-- I2 -/
  cur_eq        : s.txCur = (s.txClean + s.txPend) % s.cfg.nTx
  /-- I3 -/
  outside_clear : ∀ i, i < s.cfg.nTx → ¬ s.inWindow i → s.desc .tx i = Desc.clear (decide (i + 1 = s.cfg.nTx))
  /-- I4 -/
  hw_in_window  : ∀ i, i < s.cfg.nTx → (s.desc .tx i).own = .hw → s.inWindow i
  /-- I5, RX ring -/
  rx_wrap       : ∀ i, i < s.cfg.nRx → (s.desc .rx i).wrap = decide (i + 1 = s.cfg.nRx)
  /-- I5, TX ring -/
  tx_wrap       : ∀ i, i < s.cfg.nTx → (s.desc .tx i).wrap = decide (i + 1 = s.cfg.nTx)

/-- Every RX slot keeps the buffer construction gave it, offers or holds no more than its size, and is offered whole
(rules R150, R153, R243); the layout's fields hold the size and the addresses. -/
structure RxBuffers (s : State) : Prop where
  fields_fit : s.cfg.fieldsFit = true
  own_buffer : ∀ i, i < s.cfg.nRx → (s.desc .rx i).buf = s.cfg.rxBufAddr.getD i 0
  len_le     : ∀ i, i < s.cfg.nRx → (s.desc .rx i).len.toNat ≤ s.cfg.rxBufSize.toNat
  offered    : ∀ i, i < s.cfg.nRx → (s.desc .rx i).own = .hw → (s.desc .rx i).len = s.cfg.rxBufSize

/-- A device that is down is quiet: masked, the MAC disabled, both timers disarmed, nothing deferred (rules R222, R285). -/
structure Quiet (s : State) : Prop where
  masked   : s.imr = 0
  disabled : s.maccr = 0
  pt_off   : s.ptArmed = false
  to_off   : s.toArmed = false
  no_slot  : s.dslot = none
  no_pass  : s.inflight = none

/-- The invariant of a device whose test port is closed. -/
structure BlockInv (s : State) : Prop where
  shape      : Shape s
  closed     : s.cfg.testPort = false
  /-- rules R32 and R34: nothing is deferred in `INLINE` mode -/
  inline_none : s.cfg.mode = .inline → s.dslot = none ∧ s.inflight = none
  /-- only a configuration that passes the checks of rule R221 is ever up -/
  up_checked : s.up = true → s.cfg.capacitiesOk = true ∧ s.cfg.irqLineOk = true
  down_quiet : s.up = false → Quiet s
  rx_buffers : RxBuffers s
  /-- rule R52 -/
  rings      : s.fault = .none → RingInv s
  /-- rule R210 (W1) -/
  watchdog   : s.fault = .none → s.toArmed = true → 1 ≤ s.txPend
  /-- rule R260: the only fault a closed port can reach -/
  faults     : s.fault = .none ∨ s.fault = .vAdmission

/-- A state in which a pass can run: the shape, legal capacities, the ring invariants of rule R52, RX slots that hold what
the contract of rule R240 leaves in them, no fault. -/
structure Healthy (s : State) : Prop where
  shape      : Shape s
  capacities : s.cfg.capacitiesOk = true
  rings      : RingInv s
  rx_buffers : RxBuffers s
  no_fault   : s.fault = .none

/-! ## The upstream stack's duties -/

/-- The TX ring has a free slot for every frame among the waiting answers, so no callout can break duty (c) of rule R228. -/
def State.roomForAnswers (s : State) : Prop :=
  s.txPend + s.answers.countP (fun a => a.len ≠ 0) ≤ s.cfg.nTx

/-- An answer that keeps duty (a) of rule R228: the frame lies in the exchange buffer. -/
def Answer.fits (cfg : Config) (a : Answer) : Prop := a.len.toNat ≤ cfg.xbufSize ∧ a.bytes.length ≤ cfg.xbufSize

/-! ## Enabled and owed moves -/

/-- The gate of an instruction: its class, the legality of its operands, the exemption of `REG_READ`, its guard. -/
def gateOf (i : Instr) (s : State) : Gate where
  cls    := opClass i
  legal  := i.wf s.cfg
  exempt := match i with
    | .regRead _ => true
    | _ => false
  guard  := match i with
    | .irq => s.up
    | .workerRun => workerRunGuard s
    | .workerDone => s.inflight.isSome
    | .pollExpire => pollExpireGuard s
    | .txtoExpire => txtoExpireGuard s
    | .bringUp => !s.up
    | .macTxDone idx _ => macTxDoneGuard idx.toNat s
    | .macRxFrame len _ _ _ _ => macRxFrameGuard len s
    | _ => true

/-- The port accepts the instruction in this state: no check (1) to (4) of rule R261 refuses it. -/
def enabled (i : Instr) (s : State) : Bool := portCheck (gateOf i s) s == .ok

/-- The interrupt line owes an `IRQ`: the device is up and an enabled source is pending (rules R54 and R181). -/
def irqOwed (s : State) : Bool := s.up && s.irqLevel

/-- The premise of the hypothesis F-TX: the MAC agent owes a completion (rule R248). -/
def macTxOwed (s : State) : Bool :=
  txEn s.maccr && dmaEn s.maccr && s.txKick && (s.desc .tx s.macTxIdx).own == .hw

/-! ## The command port -/

/-- `INTERNAL` operations are accepted: the test port is open and no fault is recorded (rules R115 and R29). -/
def State.portOpen (s : State) : Prop := s.cfg.testPort = true ∧ s.fault = .none

/-- A `HOST` operation is accepted: no pass is in flight and no fault is recorded (rules R229 and R29). -/
def State.hostReady (s : State) : Prop := s.inflight = none ∧ s.fault = .none

/-- The state after a command that was refused with a status: the answer, and for a host call its place in the trace,
nothing else (rules R13 (d) and R261). -/
def State.refused (i : Instr) (st : Status) (s : State) : State :=
  { s with
    resp := some (.returned st 0)
    trace := s.trace ++ (if opClass i = .host then [.hostReturn st 0] else []) }

/-! ## What the operations write, as the rules list it -/

/-- The three writes of a descriptor in their order, the ownership bit last (rules R81, R102 and R142). -/
def descEvents (r : Ring) (i : Nat) (d : Desc) : List Event :=
  [.descW r i (.buf d.buf), .descW r i (.body d.len d.fs d.ls d.wrap d.ic), .descW r i (.status d.stat d.own)]

/-- The writes of `RING_INIT` to one ring (rule R220). -/
def initEvents (cfg : Config) (r : Ring) : List Event :=
  (List.range (cfg.capacity r)).flatMap fun i => descEvents r i (Desc.constructed cfg r i)

/-- The descriptor `SUBMIT p, n` leaves in the slot `tx_cur` (rules R161, R162 and R167); `fitBuf` and `fitLen` are the
identity on a value its field can hold. -/
def State.submitted (s : State) (p : Word) (n : Half) : Desc where
  own  := .hw
  buf  := fitBuf s.cfg.layout p
  len  := fitLen s.cfg.layout (if n.toNat ≤ 60 then 60 else n)
  fs   := true
  ls   := true
  wrap := (s.desc .tx s.txCur).wrap
  ic   := true
  stat := 0

/-- The descriptor the recycle of RX slot `i` leaves (rule R153): its own buffer and the configured size again. -/
def State.recycled (s : State) (i : Nat) : Desc where
  own  := .hw
  buf  := fitBuf s.cfg.layout (s.desc .rx i).buf
  len  := fitLen s.cfg.layout s.cfg.rxBufSize
  fs   := false
  ls   := false
  wrap := (s.desc .rx i).wrap
  ic   := false
  stat := 0

/-- What `SUBMIT p, n` leaves when it is accepted, without the answer to the command (rule R161). -/
def State.withSubmitted (s : State) (p : Word) (n : Half) : State :=
  { s with
    txd     := s.txd.set s.txCur (s.submitted p n)
    txCur   := (s.txCur + 1) &&& (s.cfg.nTx - 1)
    txPend  := s.txPend + 1
    txKick  := true
    toArmed := true
    toRem   := s.cfg.txTimeout
    trace   := s.trace ++ descEvents .tx s.txCur (s.submitted p n) ++ [.regW .txpoll 1] }

/-- The bytes the next callout leaves from the start of the exchange buffer: no further than `XBUF_SIZE` (rule R228). -/
def State.answerBytes (s : State) : List Byte := s.nextAnswer.bytes.take s.cfg.xbufSize

/-- What one upstream callout leaves before anything is submitted: the answer is taken, its length is in `xlen`, the call
is in the trace, and of all bytes only those at the start of the exchange buffer are new (rules R28 and R228). -/
def AfterCall (c : Callout) (s t : State) : Prop :=
  t = { s with
    mem := t.mem, xlen := s.nextAnswer.len, answers := s.answers.tail
    trace := s.trace ++ [.call c s.nextAnswer.len] } ∧
  ∀ a, t.readByte a =
    if s.cfg.xbufAddr.toNat ≤ a ∧ a < s.cfg.xbufAddr.toNat + s.answerBytes.length then
      s.answerBytes[a - s.cfg.xbufAddr.toNat]?
    else s.readByte a

/-- What a callout and the `SUBMIT` that follows it leave: a non-zero length on a device that is up is one frame at
`XBUF_ADDR` (rules R151, R165 and R208). -/
def AfterCallout (c : Callout) (s t : State) : Prop :=
  ∃ u, AfterCall c s u ∧
    t = if s.nextAnswer.len ≠ 0 ∧ s.up = true then u.withSubmitted s.cfg.xbufAddr s.nextAnswer.len else u

/-- The duty (c) of rule R228 at the next callout: if it answers with a frame on a device that is up, the TX ring has room
and its current slot is Software-owned. -/
def State.calloutHasRoom (s : State) : Prop :=
  s.nextAnswer.len ≠ 0 → s.up = true → s.txPend ≠ s.cfg.nTx ∧ (s.desc .tx s.txCur).own = .sw

/-! ## Modes -/

/-- The same state under another concurrency regime. -/
def State.withMode (m : Mode) (s : State) : State := { s with cfg := { s.cfg with mode := m } }

/-- A move of the MAC agent. -/
def isMacMove (i : Instr) : Bool := opClass i == .env

/-! ## Stored bytes -/

/-- Address `a` lies in descriptor `i` of ring `r`. -/
def inDesc (cfg : Config) (r : Ring) (i a : Nat) : Prop := descAddr cfg r i ≤ a ∧ a < descAddr cfg r i + 16

/-- Address `a` lies in a word of descriptor `i` of ring `r` in which one of these fields has a bit. -/
def inFields (cfg : Config) (fields : List DescField) (r : Ring) (i a : Nat) : Prop :=
  ∃ f ∈ fields, let p := cfg.layout.place f
    descAddr cfg r i + 4 * (p.lo / 32) ≤ a ∧ a < descAddr cfg r i + 4 * ((p.lo + p.width - 1) / 32) + 4

/-- Address `a` lies in a ring. -/
def inRing (cfg : Config) (r : Ring) (a : Nat) : Prop :=
  (cfg.ringAddr r).toNat ≤ a ∧ a < (cfg.ringAddr r).toNat + 16 * cfg.capacity r

/-- Address `a` lies in the exchange buffer. -/
def inXbuf (cfg : Config) (a : Nat) : Prop := cfg.xbufAddr.toNat ≤ a ∧ a < cfg.xbufAddr.toNat + cfg.xbufSize

end Sys2Proof.Machine
end

