-- ==== Sys2Proof/Certificates/Slice0/Obligations.lean ====
section
/-!
DEFINITION. The statements for the provers, in the order of OBLIGATIONS.json. Each docstring names the rule it formalises.
Where a statement says of a command that it is answered, the answer is `resp` (the model's own field, entry 8 of its log), and
the answer of a host call also stands in the trace (rule R13 (d), entry 6). A docstring that names entries of the log says
which conventions of the model its statement rests on.
-/

open Sys2Proof Sys2Proof.Machine

/-! ## Encoding -/

/-- R111 to R114: every instruction is read back from its own three words, and from its own 12 bytes at the head of any byte
stream, with every operand at every value, under any layout of the registers (R104, R110). Conventions of the model: entry 4
of its log. -/
def Obligations.DecodeEncodeRoundTrip : Prop :=
  ∀ (lay : Layout) (i : Instr) (rest : List Byte), lay.wf = true →
    decode lay (encode lay i) = some i ∧ decodeBytes lay ((encode lay i).toBytes ++ rest) = some (i, rest)

/-- R116 (b), (d) and (f): a triple of words that decodes to one of the 28 operations other than `ADD_MC` and `REMOVE_MC` is
the one the encoder writes, so no two triples stand for one such instruction and no unused bit may be set; the two RESERVED
operations leave `W1` and `W2` open and fix `W0` only. Conventions of the model: entries 4 and 25 of its log. -/
def Obligations.UnreservedInstructionHasOneCommand : Prop :=
  ∀ (lay : Layout) (c : Command) (i : Instr), decode lay c = some i →
    (opClass i ≠ .reserved → c = encode lay i) ∧ (opClass i = .reserved → c.w0 = (encode lay i).w0)

/-- R111 to R116: with the layout this spec gives, the words of the test vectors V-E1 to V-E20 are read as the instructions
they stand for, and the illegal ones as none. Convention of the model: V-E5, which the vectors list as illegal by R116 (c),
is read as an instruction whose slot index the default parameters forbid, so that the port refuses it, entry 24 of its log;
the unused words of `REMOVE_MC` may hold anything, entry 25. -/
def Obligations.SpecWordsAreRead : Prop :=
  let read := fun w0 w1 w2 => decode Layout.default ⟨w0, w1, w2⟩
  read 0x11000000 0x00000040 0x30000000 = some (.submit 0x30000000 64) ∧
  read 0x11000000 0x00010040 0x30000000 = none ∧
  read 0x11010000 0x00000040 0x30000000 = none ∧
  read 0x03F00003 0x00000040 0x30000000 = some (.release .tx 3 0x30000000 64 true true true) ∧
  (read 0x03000004 0x00000040 0x20000000 = some (.release .rx 4 0x20000000 64 false false false) ∧
    Instr.wf Config.default (.release .rx 4 0x20000000 64 false false false) = false) ∧
  read 0x01000003 0 0 = some (.advance .rx 3) ∧
  read 0x01800003 0 0 = some (.advance .tx 3) ∧
  read 0x20000000 0 0 = some .irq ∧
  read 0x20000000 0 1 = none ∧
  read 0x44000004 0x0000007F 0 = some (.regWrite .imr 0x7F) ∧
  read 0x43000020 0 0 = none ∧
  read 0x43000002 0 0 = none ∧
  read 0x81600000 0x00000064 0x00000007 = some (.macRxFrame 100 true true 0 7) ∧
  read 0x81400000 0x00030040 0x00000000 = some (.macRxFrame 64 true false 3 0) ∧
  read 0x80000002 0x00000005 0 = some (.macTxDone 2 5) ∧
  read 0x82000000 0x00000102 0 = none ∧
  read 0x45000000 0 0 = some .addMc ∧
  read 0x46000000 0x5 0x6 = some .removeMc ∧
  read 0x00000000 0 0 = none ∧
  read 0x05000000 0 0 = none ∧ read 0x14000000 0 0 = none ∧ read 0x24000000 0 0 = none ∧ read 0x37000000 0 0 = none ∧
  read 0x47000000 0 0 = none ∧ read 0x84000000 0 0 = none ∧ read 0xFF000000 0 0 = none ∧
  read 0x21000000 0x00000045 0 = some (.process 0x45)

/-- R37, R100, R101 and R110 (c): under any layout, one with fields wider or narrower than their values or across two words
included, each field of a descriptor stands in its own bits, every other bit is 0, a value its field can hold is written as
it stands, and a descriptor its four words can hold is read back whole; under the layout this spec gives the words are those
of R101 and every descriptor and every operand fits. That `len`, `buf` and `stat` do not overlap one another either is the
model's reading of R110 (c), DEDUCED. Conventions of the model: entries 4 and 35 of its log. -/
def Obligations.DescriptorLayoutHoldsEveryField : Prop :=
  (∀ (lay : Layout) (d : Desc), lay.wf = true →
    let x := d.image lay
    ((x.getLsbD lay.own = true ↔ d.own = .hw) ∧ x.getLsbD lay.wrap = d.wrap ∧ x.getLsbD lay.fs = d.fs ∧
      x.getLsbD lay.ls = d.ls ∧ x.getLsbD lay.ic = d.ic) ∧
    (∀ j, (j < lay.buf.width → x.getLsbD (lay.buf.lo + j) = d.buf.getLsbD j) ∧
      (j < lay.len.width → x.getLsbD (lay.len.lo + j) = d.len.getLsbD j) ∧
      (j < lay.stat.width → x.getLsbD (lay.stat.lo + j) = d.stat.getLsbD j)) ∧
    (∀ b, (∀ f, ¬ ((lay.place f).lo ≤ b ∧ b < (lay.place f).lo + (lay.place f).width)) → x.getLsbD b = false) ∧
    (d.buf.toNat < 2 ^ lay.buf.width → d.len.toNat < 2 ^ lay.len.width → d.stat.toNat < 2 ^ lay.stat.width →
      Desc.ofImage lay x = d ∧ fitBuf lay d.buf = d.buf ∧ fitLen lay d.len = d.len ∧ fitStat lay d.stat = d.stat)) ∧
  ∀ (d : Desc) (b : Word) (h : Half), let lay := Layout.default
    lay.wf = true ∧ d.fits lay = true ∧ fitBuf lay b = b ∧ fitLen lay h = h ∧ fitStat lay h = h ∧
    d.word lay 0 = bitField d.own.bit ++ 0#15 ++ d.stat ∧
    d.word lay 1 = bitField d.wrap ++ bitField d.fs ++ bitField d.ls ++ bitField d.ic ++ 0#12 ++ d.len ∧
    d.word lay 2 = d.buf ∧ d.word lay 3 = 0

/-- R38, R39, R75 and R101: the 16 bytes of descriptor `i` stand at `base + 16*i`, word by word, the lowest byte of a word
first. Conventions of the model: entries 4 and 14 of its log. -/
def Obligations.DescriptorStandsAtItsAddress : Prop :=
  ∀ (s : State) (r : Ring) (i j k : Nat), Shape s → i < s.cfg.capacity r → j < 4 → k < 4 →
    s.readByte ((s.cfg.ringAddr r).toNat + 16 * i + 4 * j + k) =
      some (((s.desc r i).word s.cfg.layout j).extractLsb' (8 * k) 8)

/-! ## The step and reset -/

/-- R111, R116 and R270: one step takes the next command; a command that decodes to a well-formed instruction is run as that
instruction; one that decodes to none, or to an instruction whose slot index is not below its ring's capacity, is answered
`E_ILLEGAL` with no other change; with no command waiting nothing changes. Conventions of the model: entries 1, 2, 4, 6 and
24 of its log. -/
def Obligations.StepRunsTheDecodedCommand : Prop :=
  (∀ s : State, s.cmds = [] → step s = .next s) ∧
  ∀ (s : State) (c : Command) (rest : List Command), s.cmds = c :: rest →
    (∀ i, decode s.cfg.layout c = some i → i.wf s.cfg = true → step s = exec i { s with cmds := rest }) ∧
    (decode s.cfg.layout c = none → step s = .next { s with cmds := rest, resp := some (.returned .eIllegal 0) }) ∧
    (∀ i, decode s.cfg.layout c = some i → i.wf s.cfg = false →
      step s = .next (({ s with cmds := rest } : State).refused i .eIllegal))

/-- R53: the reset value of every piece of state the table gives a value, for any parameters; `fitBuf` and `fitLen` are the
identity on a value its field can hold, and so on every value under the layout this spec gives. The last line is the model's
own: the reset state takes the parameters' defaults of R7. Conventions of the model: entries 22, 23 and 35 of its log. -/
def Obligations.ResetLeavesTheConstructedState : Prop :=
  (∀ cfg : Config, let s := State.construct cfg
    s.cfg = cfg ∧ s.rxd.length = cfg.nRx ∧ s.txd.length = cfg.nTx ∧
    (∀ i, i < cfg.nRx → s.desc .rx i = { own := .hw, buf := fitBuf cfg.layout (cfg.rxBufAddr.getD i 0),
                                          len := fitLen cfg.layout cfg.rxBufSize, fs := false, ls := false,
                                          wrap := decide (i + 1 = cfg.nRx), ic := false, stat := 0 }) ∧
    (∀ i, i < cfg.nTx → s.desc .tx i = { own := .sw, buf := 0, len := 0, fs := false, ls := false,
                                          wrap := decide (i + 1 = cfg.nTx), ic := false, stat := 0 }) ∧
    s.txbase = cfg.txRingAddr ∧ s.rxbase = cfg.rxRingAddr ∧ s.rxCur = 0 ∧ s.txCur = 0 ∧ s.txClean = 0 ∧ s.txPend = 0 ∧
    s.up = false ∧ s.linkUp = false ∧ s.xlen = 0 ∧ s.fault = .none ∧ s.dslot = none ∧ s.inflight = none ∧
    s.ptArmed = false ∧ s.toArmed = false ∧ s.ptRem = 0 ∧ s.toRem = 0 ∧ s.isr = 0 ∧ s.imr = 0 ∧ s.maccr = 0 ∧
    s.macTxIdx = 0 ∧ s.macRxIdx = 0 ∧ s.txKick = false ∧ s.trace = []) ∧
  State.reset = State.construct Config.default

/-- R302 and R115: in the state reset leaves, with the test port shut (so that the register accesses, which R302 lists too,
are refused as INTERNAL by R115), the seven other operations R302 names are the only ones that are accepted; `SUBMIT`
answers `E_DOWN`, `NOTIFY_TX_AVAILABLE` does not act, and every other operation changes nothing. Conventions of the model:
entries 6 and 24 of its log. -/
def Obligations.ResetAcceptsOnlyTheQuietOperations : Prop :=
  ∀ (cfg : Config) (i : Instr), cfg.testPort = false → i.wf cfg = true →
    let s := State.construct cfg
    (enabled i s = true ↔ i = .bringUp ∨ i = .bringDown ∨ i = .notifyTxAvailable ∨ (∃ p n, i = .submit p n) ∨ i = .tick ∨
      (∃ b, i = .macRaise b) ∨ ∃ l, i = .macPhy l) ∧
    (∀ p n, exec (.submit p n) s = .next (s.refused (.submit p n) .eDown)) ∧
    exec .notifyTxAvailable s = .next { s with resp := some (.returned .ok 0), trace := [.hostReturn .ok 0] } ∧
    (enabled i s = false → ∃ st, st ≠ .ok ∧ exec i s = .next (s.refused i st)) ∧ s.dispatcherState = .idle

/-! ## The command port -/

/-- R29, R115, R116 (c), R229, R261: the checks every command meets, in their order: a bad operand, a recorded fault (not
for `REG_READ`), the class, a pass in flight. Each refusal leaves the state as it is. Conventions of the model: entries 6,
24 and 26 of its log. -/
def Obligations.PortChecksInOrder : Prop :=
  ∀ (i : Instr) (s : State),
    (i.wf s.cfg = false → exec i s = .next (s.refused i .eIllegal)) ∧
    (i.wf s.cfg = true →
      (s.fault ≠ .none → (∀ r, i ≠ .regRead r) → exec i s = .next (s.refused i .eFaulted)) ∧
      ((s.fault = .none ∨ ∃ r, i = .regRead r) →
        (opClass i = .reserved → exec i s = .next (s.refused i .eReserved)) ∧
        (opClass i = .internal → s.cfg.testPort = false → exec i s = .next (s.refused i .eInternalOnly)) ∧
        (opClass i = .host → s.inflight ≠ none → exec i s = .next (s.refused i .eNotEnabled))))

/-- R261: a non-zero status means the state is unchanged; R117: a result other than 0 comes from `ADVANCE`, `IS_HW` and
`REG_READ` only. Conventions of the model: entries 5, 6 and 8 of its log. -/
def Obligations.StatusAndResultOfEveryCommand : Prop :=
  ∀ (i : Instr) (s t : State), exec i s = .next t →
    (∀ st res, t.resp = some (.returned st res) → st ≠ .ok → res = 0 ∧ t = s.refused i st) ∧
    (∀ st res, t.resp = some (.returned st res) → res ≠ 0 →
      (∃ r c, i = .advance r c) ∨ (∃ r k, i = .isHw r k) ∨ ∃ r, i = .regRead r) ∧
    (∀ code, t.resp = some (.faulted code) → s.fault = .none ∧ code ≠ .none ∧ t.fault = code) ∧
    t.resp ≠ none

/-- R29, R13 and R261: the fault register keeps its first fault, no operation clears it, and while it is set every operation
other than `REG_READ` changes nothing but the answer and, for a host call, the trace of that answer, and is answered
`E_FAULTED` (an illegal operand is found first, R261); reset leaves `NONE`. Conventions of the model: entries 6 and 24 of
its log. -/
def Obligations.FaultIsSticky : Prop :=
  (∀ cfg : Config, (State.construct cfg).fault = .none) ∧
  (∀ (i : Instr) (s t : State), exec i s = .next t → s.fault ≠ .none → t.fault = s.fault) ∧
  (∀ (i : Instr) (s : State), s.fault ≠ .none → (∀ r, i ≠ .regRead r) → i.wf s.cfg = true →
    exec i s = .next (s.refused i .eFaulted)) ∧
  (∀ (r : Reg) (s : State), s.cfg.testPort = true →
    ∃ t, exec (.regRead r) s = .next t ∧ t.resp = some (.returned .ok (s.regVal r)) ∧ t.fault = s.fault)

/-! ## Ring primitives -/

/-- R140: `ADVANCE` answers the next index modulo the capacity and writes nothing; after exactly `N` advances a cursor is back
and no sooner. -/
def Obligations.AdvanceRule : Prop :=
  ∀ (r : Ring) (s : State), Config.capacityOk (s.cfg.capacity r) = true →
    (∀ c : Half, s.portOpen → c.toNat < s.cfg.capacity r →
      exec (.advance r c) s =
        .next { s with resp := some (.returned .ok (BitVec.ofNat 32 ((c.toNat + 1) % s.cfg.capacity r))) }) ∧
    (∀ c : Half, s.cfg.capacity r ≤ c.toNat → exec (.advance r c) s = .next (s.refused (.advance r c) .eIllegal)) ∧
    (∀ c : Nat, c < s.cfg.capacity r → (advanceCursor s.cfg r)^[s.cfg.capacity r] c = c ∧
      ∀ j, 0 < j → j < s.cfg.capacity r → (advanceCursor s.cfg r)^[j] c ≠ c)

/-- R141: `IS_HW` answers the ownership bit and writes nothing. -/
def Obligations.IsHwRule : Prop :=
  ∀ (r : Ring) (i : Half) (s : State),
    (s.portOpen → i.toNat < s.cfg.capacity r →
      exec (.isHw r i) s =
        .next { s with resp := some (.returned .ok (if (s.desc r i.toNat).own = .hw then 1 else 0)) }) ∧
    (s.cfg.capacity r ≤ i.toNat → exec (.isHw r i) s = .next (s.refused (.isHw r i) .eIllegal))

/-- R142: `RELEASE` of a Software-owned slot publishes buffer, length and flags, clears the status, keeps the wrap marker
and sets the ownership bit last; of a Hardware-owned slot it faults and writes nothing; of an index beyond the ring it is
illegal. Conventions of the model: entries 5, 6, 7, 19, 24 and 35 of its log. -/
def Obligations.ReleaseRule : Prop :=
  ∀ (r : Ring) (i : Half) (buf : Word) (len : Half) (fs ls ic : Bool) (s : State),
    (s.cfg.capacity r ≤ i.toNat →
      exec (.release r i buf len fs ls ic) s = .next (s.refused (.release r i buf len fs ls ic) .eIllegal)) ∧
    (s.portOpen → i.toNat < s.cfg.capacity r →
    let d : Desc := { own := .hw, buf := fitBuf s.cfg.layout buf, len := fitLen s.cfg.layout len, fs := fs, ls := ls,
                      wrap := (s.desc r i.toNat).wrap, ic := ic, stat := 0 }
    ((s.desc r i.toNat).own = .sw →
      exec (.release r i buf len fs ls ic) s =
        .next { s.setDesc r i.toNat d with
          trace := s.trace ++ [.descW r i.toNat (.buf d.buf), .descW r i.toNat (.body d.len fs ls d.wrap ic),
            .descW r i.toNat (.status 0 .hw)]
          resp := some (.returned .ok 0) }) ∧
    ((s.desc r i.toNat).own = .hw →
      exec (.release r i buf len fs ls ic) s =
        .next { s with fault := .vReleaseHw, resp := some (.faulted .vReleaseHw) }))

/-- R143: `RECLAIM` of a Software-owned slot clears every field but the wrap marker and leaves it Software-owned; of a
Hardware-owned slot it faults and writes nothing; of an index beyond the ring it is illegal. Conventions of the model:
entries 5, 6, 7, 19 and 24 of its log. -/
def Obligations.ReclaimRule : Prop :=
  ∀ (r : Ring) (i : Half) (s : State),
    (s.cfg.capacity r ≤ i.toNat → exec (.reclaim r i) s = .next (s.refused (.reclaim r i) .eIllegal)) ∧
    (s.portOpen → i.toNat < s.cfg.capacity r →
    let w := (s.desc r i.toNat).wrap
    let d : Desc := { own := .sw, buf := 0, len := 0, fs := false, ls := false, wrap := w, ic := false, stat := 0 }
    ((s.desc r i.toNat).own = .sw →
      exec (.reclaim r i) s =
        .next { s.setDesc r i.toNat d with
          trace := s.trace ++ [.descW r i.toNat (.buf 0), .descW r i.toNat (.body 0 false false w false),
            .descW r i.toNat (.status 0 .sw)]
          resp := some (.returned .ok 0) }) ∧
    ((s.desc r i.toNat).own = .hw →
      exec (.reclaim r i) s = .next { s with fault := .vReclaimHw, resp := some (.faulted .vReclaimHw) }))

/-! ## The transmit path -/

/-- R161, R162 and R167: `SUBMIT` on a down device answers `E_DOWN`; on a full ring it faults with `V_ADMISSION` and writes
nothing else; otherwise it fills the current slot with all three flags and the length `max(n, 60)`, keeps its wrap marker,
advances the cursor, counts the frame, pulses `TXPOLL` and restarts the watchdog, in that order. Conventions of the model:
entries 5, 6, 7 and 35 of its log. -/
def Obligations.SubmitRule : Prop :=
  ∀ (p : Word) (n : Half) (s : State), s.hostReady →
    (s.up = false → exec (.submit p n) s = .next (s.refused (.submit p n) .eDown)) ∧
    (s.up = true → s.txPend = s.cfg.nTx →
      exec (.submit p n) s = .next { s with fault := .vAdmission, resp := some (.faulted .vAdmission) }) ∧
    (s.up = true → s.txPend ≠ s.cfg.nTx → (s.desc .tx s.txCur).own = .sw →
      let d : Desc := { own := .hw, buf := fitBuf s.cfg.layout p,
                        len := fitLen s.cfg.layout (if n.toNat ≤ 60 then 60 else n), fs := true, ls := true,
                        wrap := (s.desc .tx s.txCur).wrap, ic := true, stat := 0 }
      exec (.submit p n) s =
        .next { s with
          txd := s.txd.set s.txCur d
          txCur := (s.txCur + 1) &&& (s.cfg.nTx - 1)
          txPend := s.txPend + 1
          txKick := true
          toArmed := true
          toRem := s.cfg.txTimeout
          trace := s.trace ++ [.descW .tx s.txCur (.buf d.buf), .descW .tx s.txCur (.body d.len true true d.wrap true),
            .descW .tx s.txCur (.status 0 .hw), .regW .txpoll 1, .hostReturn .ok 0]
          resp := some (.returned .ok 0) })

/-- R161: on a healthy device with room `SUBMIT` is accepted, so `V_RELEASE_HW` cannot occur, and the ring invariants hold
after it; R166 (P1): the pending count never passes the capacity. Conventions of the model: entry 35 of its log. -/
def Obligations.SubmitWithRoomIsAccepted : Prop :=
  ∀ (p : Word) (n : Half) (s : State), Healthy s → s.inflight = none → s.up = true → s.txPend < s.cfg.nTx →
    ∃ t, exec (.submit p n) s = .next t ∧ t.resp = some (.returned .ok 0) ∧ Healthy t ∧
      t.txPend = s.txPend + 1 ∧ t.txCur = (s.txCur + 1) % s.cfg.nTx ∧ t.txClean = s.txClean ∧
      t.desc .tx s.txCur = s.submitted p n

/-- R165: `TXPOLL` makes one upstream poll and submits the frame it produced, if any. Conventions of the model: entries 6,
7, 9, 10, 30 and 35 of its log. -/
def Obligations.TxpollRule : Prop :=
  ∀ s : State, Shape s → s.portOpen → s.calloutHasRoom →
    ∃ t, AfterCallout .poll s t ∧ exec .txpoll s = .next { t with resp := some (.returned .ok 0) }

/-- R165, R208, R260 and R264: a callback that produces a frame on a full ring drives the block into `V_ADMISSION`; what the
operation did before the fault stands, nothing after it happens. Stated for every operation that makes its callout outside a
pass over a snapshot: `TXPOLL`; `RECLAIM_COMPLETED` with the oldest slot Hardware-owned; `NOTIFY_TX_AVAILABLE`,
`POLL_EXPIRE` (which does not re-arm) and `TXTO_EXPIRE` in `INLINE` mode (no unmask); `WORKER_RUN` of the poll, the timeout
and the notify unit (it stays in flight). Conventions of the model: entries 5, 6, 9 and 10 of its log. -/
def Obligations.CalloutOnAFullRingFaults : Prop :=
  ∀ s : State, Shape s → s.fault = .none → s.up = true → s.txPend = s.cfg.nTx → s.nextAnswer.len ≠ 0 →
    let faults := fun (i : Instr) (c : Callout) (before : State) =>
      ∃ t, AfterCall c before t ∧ exec i s = .next { t with fault := .vAdmission, resp := some (.faulted .vAdmission) }
    (s.cfg.testPort = true → faults .txpoll .poll s) ∧
    (s.cfg.testPort = true → (s.desc .tx s.txClean).own = .hw →
      faults .reclaimCompleted .poll { s with toArmed := false }) ∧
    (s.cfg.mode = .inline → s.inflight = none → s.dslot = none → faults .notifyTxAvailable .poll s) ∧
    (s.cfg.mode = .inline → s.ptArmed = true → s.ptRem = 0 →
      faults .pollExpire .timerHook { s with ptArmed := false, imr := 0, trace := s.trace ++ [.regW .imr 0] }) ∧
    (s.cfg.mode = .inline → s.toArmed = true → s.toRem = 0 →
      faults .txtoExpire .poll { s with toArmed := false, imr := 0, trace := s.trace ++ [.regW .imr 0] }) ∧
    (s.cfg.mode = .deferred → s.inflight = none →
      (s.dslot = some .pollWork →
        faults .workerRun .timerHook { s with dslot := none, inflight := some .pollWork }) ∧
      (s.dslot = some .txTimeoutWork →
        faults .workerRun .poll { s with dslot := none, inflight := some .txTimeoutWork }) ∧
      (s.dslot = some .txAvailWork →
        faults .workerRun .poll { s with dslot := none, inflight := some .txAvailWork }))

/-- R163 and R164: `RECLAIM_COMPLETED` clears, in ring order from `tx_clean`, exactly the pending slots before the first
Hardware-owned one; then, whatever is left, it cancels the watchdog and polls upstream once. Stated where a frame the poll
answers finds room: the ring is not full, or its oldest slot is one of those reclaimed; a full ring whose oldest slot is
Hardware-owned is in CalloutOnAFullRingFaults. Conventions of the model: entries 6, 7, 9, 10, 30 and 35 of its log. -/
def Obligations.ReclaimCompletedDrains : Prop :=
  ∀ s : State, Healthy s → s.portOpen →
    (s.nextAnswer.len ≠ 0 → s.up = true → s.txPend ≠ s.cfg.nTx ∨ (s.desc .tx s.txClean).own = .sw) →
    ∃ (k : Nat) (t : State), k ≤ s.txPend ∧
      (∀ j, j < k → (s.desc .tx ((s.txClean + j) % s.cfg.nTx)).own = .sw) ∧
      (k < s.txPend → (s.desc .tx ((s.txClean + k) % s.cfg.nTx)).own = .hw) ∧
      exec .reclaimCompleted s = .next { t with resp := some (.returned .ok 0) } ∧
      ∃ u, u = { s with
          txd := u.txd
          txClean := (s.txClean + k) % s.cfg.nTx
          txPend := s.txPend - k
          toArmed := false
          trace := s.trace ++ (List.range k).flatMap fun j =>
            let i := (s.txClean + j) % s.cfg.nTx
            descEvents .tx i (Desc.clear (decide (i + 1 = s.cfg.nTx))) } ∧
        u.txd.length = s.txd.length ∧
        (∀ i, i < s.cfg.nTx → u.desc .tx i =
          if (i + s.cfg.nTx - s.txClean) % s.cfg.nTx < k then Desc.clear (decide (i + 1 = s.cfg.nTx)) else s.desc .tx i) ∧
        AfterCallout .poll u t

/-- R166 (P2): a `SUBMIT` on an empty window followed by its completion and the interrupt's pass leaves nothing pending and
the watchdog cancelled, in either mode, when the upstream stack has no frame to send. Conventions of the model: entries 9
and 35 of its log. -/
def Obligations.SubmitCompletionInterruptClearsPending : Prop :=
  ∀ (p : Word) (n stat : Half) (s : State), Healthy s → s.inflight = none → s.up = true → s.txPend = 0 →
    txEn s.maccr = true → dmaEn s.maccr = true → (s.cfg.macInOrder = true → s.macTxIdx = s.txCur) → s.answers = [] →
    ∃ t1 t2 t3, exec (.submit p n) s = .next t1 ∧ exec (.macTxDone (BitVec.ofNat 16 s.txCur) stat) t1 = .next t2 ∧
      exec .irq t2 = .next t3 ∧ t3.resp = some (.returned .ok 0) ∧
      (s.cfg.mode = .inline → t3.txPend = 0 ∧ t3.toArmed = false) ∧
      (s.cfg.mode = .deferred → ∃ t4 t5, exec .workerRun t3 = .next t4 ∧ exec .workerDone t4 = .next t5 ∧
        t5.resp = some (.returned .ok 0) ∧ t5.txPend = 0 ∧ t5.toArmed = false)

/-! ## The receive path -/

/-- R151, corner case 1: with the cursor's slot Hardware-owned `POLL_RECEIVE` changes nothing and calls nobody. Conventions
of the model: entries 6 and 19 of its log. -/
def Obligations.PollReceiveNoReleasedSlotNoOp : Prop :=
  ∀ s : State, s.portOpen → (s.desc .rx s.rxCur).own = .hw →
    exec .pollReceive s = .next { s with resp := some (.returned .ok 0) }

/-- R151, R152 and R153: a released slot without both segment flags is recycled without a callout, the cursor advances, and
the walk goes on from there, under either scan policy. Conventions of the model: entries 7 and 35 of its log. -/
def Obligations.IncompleteSlotIsRecycled : Prop :=
  ∀ s : State, s.portOpen → (s.desc .rx s.rxCur).own = .sw →
    ((s.desc .rx s.rxCur).fs && (s.desc .rx s.rxCur).ls) = false →
    exec .pollReceive s =
      exec .pollReceive { s with
        rxd := s.rxd.set s.rxCur (s.recycled s.rxCur)
        rxCur := (s.rxCur + 1) &&& (s.cfg.nRx - 1)
        trace := s.trace ++ descEvents .rx s.rxCur (s.recycled s.rxCur) }

/-- R91, R151, R153, R154 and R155: a complete frame is copied to the exchange buffer byte for byte and delivered with its
length; the answer is submitted as a reply before the slot is recycled; the cursor advances; then the operation ends under
`ONE_FRAME`, and the walk goes on from there under `DRAIN`. Stated for slots that hold their own buffer (`RxBuffers`), which
only the test port can change. Conventions of the model: entries 6, 7, 9, 10, 13, 14, 30 and 35 of its log. -/
def Obligations.CompleteFrameIsDelivered : Prop :=
  ∀ s : State, Shape s → RxBuffers s → s.portOpen → s.calloutHasRoom → (s.desc .rx s.rxCur).own = .sw →
    (s.desc .rx s.rxCur).fs = true → (s.desc .rx s.rxCur).ls = true →
    let i := s.rxCur
    let n := (s.desc .rx i).len
    ∃ u v, u = { s with mem := u.mem, xlen := n } ∧
      (∀ a, u.readByte a =
        if s.cfg.xbufAddr.toNat ≤ a ∧ a < s.cfg.xbufAddr.toNat + n.toNat then
          s.readByte ((s.desc .rx i).buf.toNat + (a - s.cfg.xbufAddr.toNat))
        else s.readByte a) ∧
      AfterCallout (.deliver n) u v ∧
      let w : State := { v with
        rxd := s.rxd.set i (s.recycled i)
        rxCur := (i + 1) &&& (s.cfg.nRx - 1)
        trace := v.trace ++ descEvents .rx i (s.recycled i) }
      exec .pollReceive s = match s.cfg.rxScan with
        | .oneFrame => .next { w with resp := some (.returned .ok 0) }
        | .drain => exec .pollReceive w

/-- R151 and R156: under `DRAIN` a walk that completes ends on a Hardware-owned slot, and a walk makes at most one delivery
per slot of the ring. R156 gives this bound to a walk taken as one atomic transition, with no move of the MAC agent inside
it, and no bound otherwise. That `POLL_RECEIVE` is such a transition is the model's choice. Conventions of the model:
entries 3, 19 and 29 of its log. -/
def Obligations.DrainingWalkEndsAtAHardwareSlot : Prop :=
  ∀ s t : State, exec .pollReceive s = .next t → enabled .pollReceive s = true →
    (s.cfg.rxScan = .drain → t.resp = some (.returned .ok 0) → (t.desc .rx t.rxCur).own = .hw) ∧
    ∃ es, t.trace = s.trace ++ es ∧
      es.countP (fun e => match e with | .call (.deliver _) _ => true | _ => false) ≤ s.rxd.length

/-- R91 and R264: a complete frame longer than the exchange buffer faults with `V_RXLEN` before anything is copied; a reply
on a full ring faults with `V_ADMISSION` after the delivery and leaves the slot Software-owned with the cursor on it.
Conventions of the model: entries 5, 6, 9 and 10 of its log. -/
def Obligations.ReceiveFaultsLeaveTheSlot : Prop :=
  ∀ s : State, s.portOpen → (s.desc .rx s.rxCur).own = .sw → (s.desc .rx s.rxCur).fs = true →
    (s.desc .rx s.rxCur).ls = true →
    (s.cfg.xbufSize < (s.desc .rx s.rxCur).len.toNat →
      exec .pollReceive s = .next { s with fault := .vRxLen, resp := some (.faulted .vRxLen) }) ∧
    (Shape s → RxBuffers s → s.up = true → s.txPend = s.cfg.nTx → s.nextAnswer.len ≠ 0 →
      ∃ t, exec .pollReceive s = .next t ∧ t.resp = some (.faulted .vAdmission) ∧ t.fault = .vAdmission ∧
        t.rxd = s.rxd ∧ t.txd = s.txd ∧ t.rxCur = s.rxCur ∧ t.txPend = s.txPend ∧ t.xlen = s.nextAnswer.len ∧
        t.trace = s.trace ++ [.call (.deliver (s.desc .rx s.rxCur).len) s.nextAnswer.len])

/-! ## The dispatcher -/

/-- R182, R183, R185 and R267 in `DEFERRED` mode: the capture masks, reads and clears the status, cancels the watchdog on a
visible completion, and leaves one unit: merged into a pending snapshot, or in place of any other pending unit. Conventions
of the model: entries 4 and 6 of its log. -/
def Obligations.DeferredIrqCaptures : Prop :=
  ∀ s : State, s.up = true → s.fault = .none → s.cfg.mode = .deferred →
    exec .irq s =
      .next { s with
        imr := 0
        isr := 0
        toArmed := if s.isr.getLsbD 2 then false else s.toArmed
        dslot := some (match s.dslot with
          | some (.irqWork pending) => .irqWork (pending ||| s.isr)
          | _ => .irqWork s.isr)
        trace := s.trace ++ [.regW .imr 0, .regR .isr (statusWord s.cfg.layout s.isr)]
        resp := some (.returned .ok 0) }

/-- R182 and R183 in `INLINE` mode: capture, `PROCESS` of the snapshot, unmask, in one transition; R264: a fault in
`PROCESS` ends the transition there, so the unmask never happens and `IMR` stays 0 (the acknowledge write of R184 (a) is to
another register); R181: without `up` the event is not enabled. Conventions of the model: entries 4, 5 and 6 of its log. -/
def Obligations.InlineIrqProcessesAndUnmasks : Prop :=
  ∀ s : State, s.fault = .none →
    (s.up = false → exec .irq s = .next (s.refused .irq .eNotEnabled)) ∧
    (s.up = true → s.cfg.mode = .inline →
      let captured : State := { s with
        imr := 0
        isr := 0
        toArmed := if s.isr.getLsbD 2 then false else s.toArmed
        trace := s.trace ++ [.regW .imr 0, .regR .isr (statusWord s.cfg.layout s.isr)] }
      (∀ u, process s.isr captured = .done .ok 0 u →
        exec .irq s =
          .next { u with
            imr := 0x7F
            trace := u.trace ++ [.regW .imr (statusWord s.cfg.layout 0x7F)]
            resp := some (.returned .ok 0) }) ∧
      (∀ u, process s.isr captured = .raised u →
        exec .irq s = .next { u with resp := some (.faulted u.fault) } ∧ u.fault ≠ .none ∧
          (s.cfg.ackReg ≠ .imr → u.imr = 0)))

/-- R182, R184, R187, R188 and R189: a snapshot that is empty, or holds only the three bits nothing acts on, still ends with
the unmask and does nothing else, in either mode. Conventions of the model: entries 4 and 6 of its log. -/
def Obligations.IdleSnapshotOnlyUnmasks : Prop :=
  ∀ (s : State) (snap : Byte), s.fault = .none → snap &&& 0xC7 = 0 →
    (s.up = true → s.cfg.mode = .inline → s.isr = snap →
      exec .irq s =
        .next { s with
          imr := 0x7F
          isr := 0
          trace := s.trace ++ [.regW .imr 0, .regR .isr (statusWord s.cfg.layout snap),
            .regW .imr (statusWord s.cfg.layout 0x7F)]
          resp := some (.returned .ok 0) }) ∧
    (s.cfg.mode = .deferred → s.dslot = some (.irqWork snap) → s.inflight = none →
      ∃ t, exec .workerRun s = .next t ∧
        t = { s with dslot := none, inflight := some (.irqWork snap), resp := some (.returned .ok 0) } ∧
        exec .workerDone t =
          .next { s with
            dslot := none
            imr := 0x7F
            trace := s.trace ++ [.regW .imr (statusWord s.cfg.layout 0x7F)]
            resp := some (.returned .ok 0) })

/-- R184: `PROCESS S` does, in this order, what the commands `REG_WRITE ACK_REG`, `POLL_RECEIVE`, `RECLAIM_COMPLETED` do,
each only if its bits are in the snapshot, and then reads `PHYSTAT` into `link_up`; the empty snapshot does nothing; R264
and R266: a fault in the receive or the transmit step ends it there. Conventions of the model: entries 4, 5 and 6 of its
log. -/
def Obligations.ProcessRunsItsStepsInOrder : Prop :=
  (∀ s : State, s.portOpen → exec (.process 0) s = .next { s with resp := some (.returned .ok 0) }) ∧
  ∀ (s a : State) (snap : Byte), s.portOpen → snap ≠ 0 →
    (if snap.getLsbD 7 then exec (.regWrite s.cfg.ackReg s.cfg.ackVal) s = .next a else a = s) →
    (∀ b code, (snap.getLsbD 0 || snap.getLsbD 1) = true → exec .pollReceive a = .next b →
      b.resp = some (.faulted code) → exec (.process snap) s = .next b) ∧
    ∀ b, (if snap.getLsbD 0 || snap.getLsbD 1 then
        exec .pollReceive a = .next b ∧ b.resp = some (.returned .ok 0) else b = a) →
      (∀ c code, snap.getLsbD 2 = true → exec .reclaimCompleted b = .next c → c.resp = some (.faulted code) →
        exec (.process snap) s = .next c) ∧
      ∀ c, (if snap.getLsbD 2 then
          exec .reclaimCompleted b = .next c ∧ c.resp = some (.returned .ok 0) else c = b) →
        exec (.process snap) s =
          .next { c with
            linkUp := if snap.getLsbD 6 then c.phyLink else c.linkUp
            trace := c.trace ++ if snap.getLsbD 6 then [.regR .phystat (linkWord s.cfg.layout c.phyLink)] else []
            resp := some (.returned .ok 0) }

/-- R190: two interrupts before the worker runs are one pass over the union of the two snapshots, stated for a healthy
device whose ring has room for the answers, so that the pass completes. With no answer waiting a callout answers "no frame",
so the premise on room is one on the waiting answers. Conventions of the model: entries 4, 6, 9, 10 and 35 of its log. -/
def Obligations.TwoInterruptsCoalesce : Prop :=
  ∀ (s : State) (s0 s1 : Byte), Healthy s → s.roomForAnswers → s.up = true → s.cfg.mode = .deferred → s.dslot = none →
    s.inflight = none → s.isr = 0 →
    ∃ t1 t2 t3 t4 t5 t6, exec (.macRaise s0) s = .next t1 ∧ exec .irq t1 = .next t2 ∧ t2.dslot = some (.irqWork s0) ∧
      exec (.macRaise s1) t2 = .next t3 ∧ exec .irq t3 = .next t4 ∧
      t4.dslot = some (.irqWork (s0 ||| s1)) ∧ t4.isr = 0 ∧ t4.imr = 0 ∧
      exec .workerRun t4 = .next t5 ∧ t5.dslot = none ∧ t5.inflight = some (.irqWork (s0 ||| s1)) ∧
      process (s0 ||| s1) { t4 with dslot := none, inflight := some (.irqWork (s0 ||| s1)) } =
        .done .ok 0 { t5 with resp := t4.resp } ∧
      exec .workerDone t5 = .next t6 ∧ t6.inflight = none ∧ t6.dslot = none ∧ t6.imr = 0x7F ∧
      exec .workerRun t6 = .next (t6.refused .workerRun .eNotEnabled)

/-- R186: `WORKER_RUN` takes the pending unit in flight and runs its body: `PROCESS` for a snapshot, the timer hook for the
poll unit, one upstream poll for the timeout and the notify unit; R264: if `PROCESS` faults the unit stays in flight and
`IMR` as it was (the acknowledge write of R184 (a) is to another register), and a callout's fault is in
CalloutOnAFullRingFaults; without a unit, with a pass in flight or in `INLINE` mode it is not enabled. Conventions of the
model: entries 4, 5, 6, 7, 9, 10, 30 and 35 of its log. -/
def Obligations.WorkerRunTakesThePendingUnit : Prop :=
  ∀ s : State, s.fault = .none →
    ((s.cfg.mode = .inline ∨ s.dslot = none ∨ s.inflight ≠ none) →
      exec .workerRun s = .next (s.refused .workerRun .eNotEnabled)) ∧
    (s.cfg.mode = .deferred → s.inflight = none → ∀ u, s.dslot = some u →
      let w : State := { s with dslot := none, inflight := some u }
      (∀ snap t, u = .irqWork snap → process snap w = .done .ok 0 t →
        exec .workerRun s = .next { t with resp := some (.returned .ok 0) }) ∧
      (∀ snap t, u = .irqWork snap → process snap w = .raised t →
        exec .workerRun s = .next { t with resp := some (.faulted t.fault) } ∧ t.fault ≠ .none ∧
          t.inflight = some (.irqWork snap) ∧ t.dslot = none ∧ (s.cfg.ackReg ≠ .imr → t.imr = s.imr)) ∧
      (∀ c, (u = .pollWork ∧ c = .timerHook) ∨ (u = .txTimeoutWork ∧ c = .poll) ∨ (u = .txAvailWork ∧ c = .poll) →
        Shape s → s.calloutHasRoom →
        ∃ t, AfterCallout c w t ∧ exec .workerRun s = .next { t with resp := some (.returned .ok 0) }))

/-- R187 and R192: `WORKER_DONE` ends the pass and unmasks, but for a pass that began in the upstream stack's own context.
Conventions of the model: entries 4 and 6 of its log. -/
def Obligations.WorkerDoneRule : Prop :=
  ∀ s : State, s.fault = .none →
    (s.inflight = none → exec .workerDone s = .next (s.refused .workerDone .eNotEnabled)) ∧
    (∀ u, s.inflight = some u → u ≠ .txAvailWork →
      exec .workerDone s =
        .next { s with inflight := none, imr := 0x7F, trace := s.trace ++ [.regW .imr (statusWord s.cfg.layout 0x7F)],
                       resp := some (.returned .ok 0) }) ∧
    (s.inflight = some .txAvailWork →
      exec .workerDone s = .next { s with inflight := none, resp := some (.returned .ok 0) })

/-- R31: the named dispatcher state goes from `Idle` to `InterruptPending` at a deferred capture, to `Processing` when the
worker runs, and back to `Idle` when the pass ends. -/
def Obligations.DispatcherGoesRoundItsStates : Prop :=
  ∀ s : State, s.fault = .none → s.up = true → s.cfg.mode = .deferred → s.dslot = none → s.inflight = none →
    s.dispatcherState = .idle ∧
    ∃ t, exec .irq s = .next t ∧ t.dispatcherState = .interruptPending ∧
      ∀ u, exec .workerRun t = .next u → u.dispatcherState = .processing ∧
        ∀ v, exec .workerDone u = .next v → u.fault = .none → v.dispatcherState = .idle

/-- R191: for one interrupt or one expiry whose pass follows its capture at once, the two modes leave the same state and the
same trace. Conventions of the model: entries 6 and 9 of its log. -/
def Obligations.ModesAgreeWhenThePassFollows : Prop :=
  ∀ (i : Instr) (s t : State), i = .irq ∨ i = .pollExpire ∨ i = .txtoExpire → s.cfg.mode = .deferred →
    s.dslot = none → s.inflight = none → s.fault = .none →
    exec i (s.withMode .inline) = .next t → t.resp = some (.returned .ok 0) →
    ∃ t1 t2, exec i s = .next t1 ∧ exec .workerRun t1 = .next t2 ∧ exec .workerDone t2 = .next (t.withMode .deferred)

/-- R52, R151, R163, R165, R182, R186, R206, R207, R223: on a healthy device whose ring has room for the frames among the
waiting answers, every operation that runs a pass or a callout, wherever it is accepted, completes with `OK`, leaves a
healthy device, and leaves room for the answers still waiting. Conventions of the model: entries 9, 10, 30 and 35 of its
log. -/
def Obligations.PassesCompleteOnAHealthyDevice : Prop :=
  ∀ (i : Instr) (s : State), Healthy s → s.roomForAnswers → enabled i s = true →
    (i = .pollReceive ∨ i = .reclaimCompleted ∨ i = .txpoll ∨ (∃ snap, i = .process snap) ∨ i = .irq ∨ i = .workerRun ∨
      i = .pollExpire ∨ i = .txtoExpire ∨ i = .notifyTxAvailable) →
    ∃ t, exec i s = .next t ∧ t.resp = some (.returned .ok 0) ∧ Healthy t ∧ t.roomForAnswers

/-! ## The timers -/

/-- R201: one tick: an armed count above 0 goes down by one, both on the same tick, and nothing else changes. -/
def Obligations.TickRule : Prop :=
  ∀ s : State, s.fault = .none →
    exec .tick s =
      .next { s with
        ptRem := if s.ptArmed then (if s.ptRem = 0 then 0 else s.ptRem - 1) else s.ptRem
        toRem := if s.toArmed then (if s.toRem = 0 then 0 else s.toRem - 1) else s.toRem
        resp := some (.returned .ok 0) }

/-- R202 to R205 and R209: the four timer operations; a cancel of a timer that is not armed changes nothing. Conventions of
the model: entry 6 of its log. -/
def Obligations.TimerStartAndCancelRules : Prop :=
  ∀ s : State, s.portOpen →
    exec .ptStart s = .next { s with ptArmed := true, ptRem := s.cfg.pollPeriod, resp := some (.returned .ok 0) } ∧
    exec .ptCancel s = .next { s with ptArmed := false, resp := some (.returned .ok 0) } ∧
    exec .txtoStart s = .next { s with toArmed := true, toRem := s.cfg.txTimeout, resp := some (.returned .ok 0) } ∧
    exec .txtoCancel s = .next { s with toArmed := false, resp := some (.returned .ok 0) } ∧
    (s.ptArmed = false → exec .ptCancel s = .next { s with resp := some (.returned .ok 0) }) ∧
    (s.toArmed = false → exec .txtoCancel s = .next { s with resp := some (.returned .ok 0) })

/-- R201 and R211: over a run of `n` ticks each count goes down by `n` and stops at 0, so an armed timer's expiry is enabled
after the run exactly when its count was at most `n`. Conventions of the model: entries 1 and 6 of its log. -/
def Obligations.ExpiryWaitsForItsDuration : Prop :=
  ∀ (n : Nat) (s : State), s.fault = .none →
    let down := fun (armed : Bool) (rem : Word) => if armed then BitVec.ofNat 32 (rem.toNat - n) else rem
    Sys2Proof.core.run n { s with cmds := List.replicate n (encode s.cfg.layout .tick) } =
      .next { s with
        cmds := []
        ptRem := down s.ptArmed s.ptRem
        toRem := down s.toArmed s.toRem
        resp := if n = 0 then s.resp else some (.returned .ok 0) } ∧
    (s.ptArmed = true →
      (enabled .pollExpire { s with ptRem := down s.ptArmed s.ptRem } = true ↔ s.ptRem.toNat ≤ n)) ∧
    (s.toArmed = true →
      (enabled .txtoExpire { s with toRem := down s.toArmed s.toRem } = true ↔ s.toRem.toNat ≤ n))

/-- R206: `POLL_EXPIRE`: not enabled before the count is 0; dropped while a unit is pending in `DEFERRED` mode; scheduled
with the sources masked when none is; run between mask and unmask in `INLINE` mode; re-armed in every case (a frame on a
full ring is in CalloutOnAFullRingFaults). Conventions of the model: entries 4, 6, 7, 9, 10, 30 and 35 of its log. -/
def Obligations.PollExpireRule : Prop :=
  ∀ s : State, s.fault = .none →
    ((s.ptArmed = false ∨ s.ptRem ≠ 0) → exec .pollExpire s = .next (s.refused .pollExpire .eNotEnabled)) ∧
    (s.ptArmed = true → s.ptRem = 0 →
      (s.cfg.mode = .deferred → s.dslot ≠ none →
        exec .pollExpire s = .next { s with ptRem := s.cfg.pollPeriod, resp := some (.returned .ok 0) }) ∧
      (s.cfg.mode = .deferred → s.dslot = none →
        exec .pollExpire s =
          .next { s with ptRem := s.cfg.pollPeriod, imr := 0, dslot := some .pollWork,
                         trace := s.trace ++ [.regW .imr 0], resp := some (.returned .ok 0) }) ∧
      (s.cfg.mode = .inline → Shape s → s.calloutHasRoom →
        ∃ t, AfterCallout .timerHook { s with ptArmed := false, imr := 0, trace := s.trace ++ [.regW .imr 0] } t ∧
          exec .pollExpire s =
            .next { t with ptArmed := true, ptRem := s.cfg.pollPeriod, imr := 0x7F,
                           trace := t.trace ++ [.regW .imr (statusWord s.cfg.layout 0x7F)],
                           resp := some (.returned .ok 0) }))

/-- R207 and R210 (W2): `TXTO_EXPIRE`: not enabled before the count is 0; it does not re-arm; exactly one recovery poll, at
once between mask and unmask (`INLINE`; a frame on a full ring is in CalloutOnAFullRingFaults) or as a unit in place of any
pending one (`DEFERRED`). Conventions of the model: entries 4, 6, 7, 9, 10, 30 and 35 of its log. -/
def Obligations.TxtoExpireRule : Prop :=
  ∀ s : State, s.fault = .none →
    ((s.toArmed = false ∨ s.toRem ≠ 0) → exec .txtoExpire s = .next (s.refused .txtoExpire .eNotEnabled)) ∧
    (s.toArmed = true → s.toRem = 0 →
      (s.cfg.mode = .deferred →
        exec .txtoExpire s =
          .next { s with toArmed := false, imr := 0, dslot := some .txTimeoutWork, trace := s.trace ++ [.regW .imr 0],
                         resp := some (.returned .ok 0) }) ∧
      (s.cfg.mode = .inline → Shape s → s.calloutHasRoom →
        ∃ t, AfterCallout .poll { s with toArmed := false, imr := 0, trace := s.trace ++ [.regW .imr 0] } t ∧
          exec .txtoExpire s =
            .next { t with imr := 0x7F, trace := t.trace ++ [.regW .imr (statusWord s.cfg.layout 0x7F)],
                           resp := some (.returned .ok 0) }))

/-! ## The host interface -/

/-- R220 and R221: `BRING_UP` refuses bad capacities first, then a missing interrupt line, with nothing written; otherwise
it writes both rings, the base registers, the MAC enable, the poll timer and the interrupt enable, in that order, and the
device is up. Conventions of the model: entries 4, 6, 7, 18 and 35 of its log. -/
def Obligations.BringUpRule : Prop :=
  ∀ s : State, s.hostReady →
    (s.up = true → exec .bringUp s = .next (s.refused .bringUp .eNotEnabled)) ∧
    (s.up = false →
      (s.cfg.capacitiesOk = false → exec .bringUp s = .next (s.refused .bringUp .eCfgCapacity)) ∧
      (s.cfg.capacitiesOk = true → s.cfg.irqLineOk = false →
        exec .bringUp s = .next (s.refused .bringUp .eCfgIrq)) ∧
      (s.cfg.capacitiesOk = true → s.cfg.irqLineOk = true → Shape s →
        exec .bringUp s =
          .next { s with
            rxd := (State.construct s.cfg).rxd
            txd := (State.construct s.cfg).txd
            rxCur := 0, txCur := 0, txClean := 0, txPend := 0
            txbase := s.cfg.txRingAddr, rxbase := s.cfg.rxRingAddr
            macTxIdx := 0, macRxIdx := 0, txKick := false
            maccr := 0x7F, imr := 0x7F
            ptArmed := true, ptRem := s.cfg.pollPeriod
            up := true
            trace := s.trace ++ initEvents s.cfg .rx ++ initEvents s.cfg .tx ++
              [.regW .txbase s.cfg.txRingAddr, .regW .rxbase s.cfg.rxRingAddr, .regW .maccr (controlWord s.cfg.layout 0x7F),
                .regW .imr (statusWord s.cfg.layout 0x7F), .hostReturn .ok 0]
            resp := some (.returned .ok 0) }))

/-- R222: `BRING_DOWN` masks, cancels both timers, disables the MAC and drops a pending unit; after it no interrupt, expiry,
worker run or descriptor move is enabled. Conventions of the model: entry 6 of its log. -/
def Obligations.BringDownRule : Prop :=
  ∀ s : State, s.hostReady →
    ∃ t, exec .bringDown s = .next t ∧
      t = { s with
        imr := 0, maccr := 0, ptArmed := false, toArmed := false, dslot := none, up := false
        trace := s.trace ++ [.regW .imr 0, .regW .maccr 0, .hostReturn .ok 0]
        resp := some (.returned .ok 0) } ∧
      (∀ i, opClass i = .event → enabled i t = true → i = .tick) ∧
      (∀ i, opClass i = .env → enabled i t = true → (∃ b, i = .macRaise b) ∨ ∃ l, i = .macPhy l)

/-- R223 and R192: `NOTIFY_TX_AVAILABLE` does not act on a down device or with a unit pending; otherwise it polls at once
(`INLINE`; a frame on a full ring is in CalloutOnAFullRingFaults) or schedules the poll (`DEFERRED`), without touching
`IMR`. Conventions of the model: entries 6, 7, 9, 10 and 35 of its log. -/
def Obligations.NotifyRule : Prop :=
  ∀ s : State, s.hostReady →
    let done := fun t : State =>
      ({ t with resp := some (.returned .ok 0), trace := t.trace ++ [.hostReturn .ok 0] } : State)
    ((s.up = false ∨ s.dslot ≠ none) → exec .notifyTxAvailable s = .next (done s)) ∧
    (s.up = true → s.dslot = none →
      (s.cfg.mode = .deferred → exec .notifyTxAvailable s = .next (done { s with dslot := some .txAvailWork })) ∧
      (s.cfg.mode = .inline → Shape s → s.calloutHasRoom →
        ∃ t, AfterCallout .poll s t ∧ exec .notifyTxAvailable s = .next (done t)))

/-- R224 with R41 to R47: `REG_READ` answers the register's value, the named bits at the positions of the layout and the
reserved bits 0 (RegisterLayoutHoldsEveryNamedBit); reading `ISR` clears it, no other read has a side effect; it is accepted
while a fault is recorded. Conventions of the model: entries 4, 6 and 28 of its log. -/
def Obligations.RegReadRule : Prop :=
  ∀ (r : Reg) (s : State), s.cfg.testPort = true →
    let v : Word := match r with
      | .isr => statusWord s.cfg.layout s.isr
      | .imr => statusWord s.cfg.layout s.imr
      | .txpoll => 0
      | .txbase => s.txbase
      | .rxbase => s.rxbase
      | .maccr => controlWord s.cfg.layout s.maccr
      | .phystat => linkWord s.cfg.layout s.phyLink
      | .tune => s.tune
    exec (.regRead r) s =
      .next { s with
        isr := if r = .isr then 0 else s.isr
        trace := s.trace ++ [.regR r v]
        resp := some (.returned .ok v) }

/-- R225 with R41 to R47: the write rule of each of the eight registers, the named bits taken from the positions of the
layout. Conventions of the model: entries 4, 6, 21 and 28 of its log. -/
def Obligations.RegWriteRule : Prop :=
  ∀ (v : Word) (s : State), s.portOpen →
    let done := fun (r : Reg) (t : State) =>
      ({ t with trace := s.trace ++ [.regW r v], resp := some (.returned .ok 0) } : State)
    exec (.regWrite .isr v) s = .next (done .isr { s with isr := s.isr &&& ~~~statusOf s.cfg.layout v }) ∧
    exec (.regWrite .imr v) s = .next (done .imr { s with imr := statusOf s.cfg.layout v }) ∧
    exec (.regWrite .txpoll v) s = .next (done .txpoll { s with txKick := if v = 1 then true else s.txKick }) ∧
    exec (.regWrite .txbase v) s = .next (done .txbase { s with txbase := v, macTxIdx := 0, txKick := false }) ∧
    exec (.regWrite .rxbase v) s = .next (done .rxbase { s with rxbase := v, macRxIdx := 0 }) ∧
    exec (.regWrite .maccr v) s = .next (done .maccr { s with maccr := controlOf s.cfg.layout v }) ∧
    exec (.regWrite .phystat v) s = .next (done .phystat s) ∧
    exec (.regWrite .tune v) s = .next (done .tune { s with tune := v })

/-- R227 and R116 (d): `ADD_MC` and `REMOVE_MC` are answered `E_RESERVED` with no state change, and `E_FAULTED` while a
fault is recorded, whatever `W1` and `W2` hold. Conventions of the model: entries 6 and 25 of its log. -/
def Obligations.ReservedOperationsAreRefused : Prop :=
  ∀ (w1 w2 : Word) (s : State),
    decode s.cfg.layout ⟨0x45000000, w1, w2⟩ = some .addMc ∧ decode s.cfg.layout ⟨0x46000000, w1, w2⟩ = some .removeMc ∧
    let st : Status := if s.fault = .none then .eReserved else .eFaulted
    exec .addMc s = .next { s with resp := some (.returned st 0) } ∧
    exec .removeMc s = .next { s with resp := some (.returned st 0) }

/-! ## The MAC agent -/

/-- R240 (d) and R242: `MAC_TX_DONE` releases the slot with its status in one write, raises `TX_OK` if the descriptor asks
for it, moves the scan index and takes the poll pulse; without the enables, on a Software-owned slot or out of order it is
not enabled. Conventions of the model: entries 6, 20, 21 and 35 of its log. -/
def Obligations.MacTxDoneRule : Prop :=
  ∀ (idx stat : Half) (s : State), s.fault = .none → idx.toNat < s.cfg.nTx →
    let d := s.desc .tx idx.toNat
    let ready := txEn s.maccr = true ∧ dmaEn s.maccr = true ∧ d.own = .hw ∧
      (s.cfg.macInOrder = true → s.macTxIdx = idx.toNat)
    (¬ ready → exec (.macTxDone idx stat) s = .next (s.refused (.macTxDone idx stat) .eNotEnabled)) ∧
    (ready → Shape s →
      exec (.macTxDone idx stat) s =
        .next { s with
          txd := s.txd.set idx.toNat { d with own := .sw, stat := fitStat s.cfg.layout stat }
          isr := if d.ic then s.isr ||| 0x04 else s.isr
          macTxIdx := if d.wrap then 0 else (idx.toNat + 1) % s.cfg.nTx
          txKick := false
          resp := some (.returned .ok 0) })

/-- R240 (d) and R243: `MAC_RX_FRAME` stores the frame's bytes, then the length and the segment flags, then the status with
the ownership bit; it raises `RX_FINISHED` and moves the scan index; without the enables, with the slot Software-owned or
the frame longer than the buffer offered it is not enabled. Conventions of the model: entries 6, 14, 20, 21, 27 and 35 of
its log. -/
def Obligations.MacRxFrameRule : Prop :=
  ∀ (len stat : Half) (fs ls : Bool) (seed : Byte) (s : State), Shape s → RxBuffers s → s.fault = .none →
    let i := s.macRxIdx
    let d := s.desc .rx i
    let ready := rxEn s.maccr = true ∧ dmaEn s.maccr = true ∧ d.own = .hw ∧ len.toNat ≤ d.len.toNat
    (¬ ready → exec (.macRxFrame len fs ls stat seed) s =
      .next (s.refused (.macRxFrame len fs ls stat seed) .eNotEnabled)) ∧
    (ready → ∃ t, exec (.macRxFrame len fs ls stat seed) s = .next t ∧
      t = { s with
        mem := t.mem
        rxd := s.rxd.set i { d with own := .sw, len := len, fs := fs, ls := ls, stat := fitStat s.cfg.layout stat }
        isr := s.isr ||| 0x01
        macRxIdx := if d.wrap then 0 else (i + 1) % s.cfg.nRx
        resp := some (.returned .ok 0) } ∧
      (∀ k, k < len.toNat → t.readByte (d.buf.toNat + k) = some (seed + BitVec.ofNat 8 k)) ∧
      ∀ a, ¬ (d.buf.toNat ≤ a ∧ a < d.buf.toNat + len.toNat) → ¬ inDesc s.cfg .rx i a → t.readByte a = s.readByte a)

/-- R245 and R246: `MAC_RAISE` sets status bits; `MAC_PHY` sets the link bit and `PHY_CHG`, even if the link did not change;
neither is gated. Conventions of the model: entries 4 and 6 of its log. -/
def Obligations.MacRaiseAndPhyRules : Prop :=
  ∀ (bits : Byte) (link : Bool) (s : State), s.fault = .none →
    exec (.macRaise bits) s = .next { s with isr := s.isr ||| bits, resp := some (.returned .ok 0) } ∧
    exec (.macPhy link) s =
      .next { s with phyLink := link, isr := s.isr ||| 0x40, resp := some (.returned .ok 0) }

/-! ## The whole machine -/

/-- R80 (b), (c): no operation of the block but the ring initialisation of `BRING_UP` writes a descriptor that is
Hardware-owned, and so none turns one Software-owned. Conventions of the model: entries 17 and 19 of its log. -/
def Obligations.BlockNeverWritesHardwareOwnedDescriptors : Prop :=
  ∀ (i : Instr) (s t : State), opClass i ≠ .env → i ≠ .bringUp → exec i s = .next t →
    ∀ r k, (s.desc r k).own = .hw → t.desc r k = s.desc r k

/-- R80 (a), R92 and R240 (a), (b), (e): no move of the MAC agent writes a Software-owned descriptor or the frame buffer of
a Software-owned RX slot; none changes a wrap marker, a buffer pointer, a TX length or flag; none clears a status bit or
writes `IMR`, `MACCR` or a base register. Conventions of the model: entries 14, 19 and 35 of its log. -/
def Obligations.MacAgentKeepsItsContract : Prop :=
  ∀ (i : Instr) (s t : State), opClass i = .env → Shape s → RxBuffers s → exec i s = .next t →
    (∀ r k, (s.desc r k).own = .sw → t.desc r k = s.desc r k) ∧
    (∀ k, k < s.cfg.nRx → (s.desc .rx k).own = .sw → ∀ a, (s.cfg.rxBufAddr.getD k 0).toNat ≤ a →
      a < (s.cfg.rxBufAddr.getD k 0).toNat + s.cfg.rxBufSize.toNat → t.readByte a = s.readByte a) ∧
    (∀ r k, (t.desc r k).wrap = (s.desc r k).wrap ∧ (t.desc r k).buf = (s.desc r k).buf ∧
      (t.desc r k).ic = (s.desc r k).ic) ∧
    (∀ k, (t.desc .tx k).len = (s.desc .tx k).len ∧ (t.desc .tx k).fs = (s.desc .tx k).fs ∧
      (t.desc .tx k).ls = (s.desc .tx k).ls) ∧
    t.isr &&& s.isr = s.isr ∧ t.imr = s.imr ∧ t.maccr = s.maccr ∧ t.txbase = s.txbase ∧ t.rxbase = s.rxbase

/-- R22 to R24, R38, R39, R48 and R70: every step, from any state of the right shape and whatever the command, leaves a
state of the right shape. Conventions of the model: entries 1, 13, 14, 20 and 23 of its log. -/
def Obligations.ShapeKeptByEveryStep : Prop :=
  ∀ s t : State, Shape s → step s = .next t → Shape t

/-- R52, R53: reset, for any parameters that can be constructed, has the shape, the ring invariants and, with the test port
shut and the receive buffers' size and addresses no wider than their fields, the invariant of the block; the reset state is
one of them. Conventions of the model: entries 23 and 35 of its log. -/
def Obligations.ResetHasTheInvariants : Prop :=
  (∀ cfg : Config, cfg.wf = true → Shape (State.construct cfg) ∧ RingInv (State.construct cfg) ∧
    (cfg.testPort = false → cfg.fieldsFit = true → BlockInv (State.construct cfg))) ∧ BlockInv State.reset

/-- R52, R210 (W1), R222, R260, R264: with the test port shut, from every state that meets the invariant of the block, every
step leads to a next state that meets it: the machine never stops, the ring invariants hold while no fault is recorded, an
armed watchdog has a frame to watch, a down device is quiet, and the only fault there can be is `V_ADMISSION`. Conventions
of the model: entries 1, 5, 9, 10, 20 and 35 of its log. -/
def Obligations.BlockInvariantKeptAndNeverStops : Prop :=
  ∀ s : State, BlockInv s → ∃ t, step s = .next t ∧ BlockInv t

/-- R13 and R49: the trace is append-only. Conventions of the model: entries 6 and 7 of its log. -/
def Obligations.TraceOnlyGrows : Prop :=
  ∀ s t : State, step s = .next t → ∃ es, t.trace = s.trace ++ es

/-- R22 to R29, R32, R34 to R36, R41 to R44, R46 to R48: which operations may write which register: an instruction that is
not named leaves the register as it is. Conventions of the model: entries 5, 8 and 9 of its log. -/
def Obligations.RegistersWrittenOnlyByTheirOperations : Prop :=
  ∀ (i : Instr) (s t : State), exec i s = .next t →
    let pass := (∃ snap, i = .process snap) ∨ i = .irq ∨ i = .workerRun
    let ack := fun r : Reg => (∃ v, i = .regWrite r v) ∨ (pass ∧ s.cfg.ackReg = r)
    let callout := pass ∨ i = .pollReceive ∨ i = .reclaimCompleted ∨ i = .txpoll ∨ i = .pollExpire ∨ i = .txtoExpire ∨
      i = .notifyTxAvailable
    let submits := callout ∨ ∃ p n, i = .submit p n
    t.cfg = s.cfg ∧ t.cmds = s.cmds ∧
    (t.rxCur ≠ s.rxCur → pass ∨ i = .pollReceive ∨ i = .bringUp) ∧
    (t.txCur ≠ s.txCur → submits ∨ i = .bringUp) ∧
    (t.txClean ≠ s.txClean → pass ∨ i = .reclaimCompleted ∨ i = .bringUp) ∧
    (t.txPend ≠ s.txPend → submits ∨ i = .bringUp) ∧
    (t.up ≠ s.up → i = .bringUp ∨ i = .bringDown) ∧
    (t.linkUp ≠ s.linkUp → pass ∧ t.linkUp = s.phyLink) ∧
    (t.xlen ≠ s.xlen → callout) ∧
    (t.answers ≠ s.answers → callout) ∧
    (t.dslot ≠ s.dslot → i = .irq ∨ i = .pollExpire ∨ i = .txtoExpire ∨ i = .notifyTxAvailable ∨ i = .workerRun ∨
      i = .bringDown) ∧
    (t.inflight ≠ s.inflight → i = .workerRun ∨ i = .workerDone) ∧
    (t.ptArmed ≠ s.ptArmed → i = .ptStart ∨ i = .ptCancel ∨ i = .pollExpire ∨ i = .bringUp ∨ i = .bringDown) ∧
    (t.ptRem ≠ s.ptRem → i = .ptStart ∨ i = .tick ∨ i = .pollExpire ∨ i = .bringUp) ∧
    (t.toArmed ≠ s.toArmed → submits ∨ i = .txtoStart ∨ i = .txtoCancel ∨ i = .bringDown) ∧
    (t.toRem ≠ s.toRem → submits ∨ i = .txtoStart ∨ i = .tick) ∧
    (t.imr ≠ s.imr → ack .imr ∨ i = .irq ∨ i = .workerDone ∨ i = .pollExpire ∨ i = .txtoExpire ∨ i = .bringUp ∨
      i = .bringDown) ∧
    (t.maccr ≠ s.maccr → ack .maccr ∨ i = .bringUp ∨ i = .bringDown) ∧
    (t.txbase ≠ s.txbase → ack .txbase ∨ i = .bringUp) ∧
    (t.rxbase ≠ s.rxbase → ack .rxbase ∨ i = .bringUp) ∧
    (t.tune ≠ s.tune → ack .tune) ∧
    (t.phyLink ≠ s.phyLink → ∃ l, i = .macPhy l) ∧
    (t.macRxIdx ≠ s.macRxIdx → ack .rxbase ∨ i = .bringUp ∨ ∃ n fs ls st seed, i = .macRxFrame n fs ls st seed) ∧
    (t.macTxIdx ≠ s.macTxIdx → ack .txbase ∨ i = .bringUp ∨ ∃ k st, i = .macTxDone k st) ∧
    (t.txKick ≠ s.txKick → submits ∨ ack .txbase ∨ (∃ v, i = .regWrite .txpoll v) ∨ i = .bringUp ∨
      ∃ k st, i = .macTxDone k st) ∧
    (t.isr ≠ s.isr → ack .isr ∨ i = .irq ∨ i = .regRead .isr ∨ opClass i = .env) ∧
    (t.fault ≠ s.fault → s.fault = .none ∧ t.resp = some (.faulted t.fault))

/-! ## Frames: the bytes an instruction stores to -/

/-- R21, R142, R143, R161, R222, R224, R225, R242, R243, R245, R246: where the instructions that write at most one
descriptor store. The register instructions store nothing; `RELEASE`, `RECLAIM` and `SUBMIT` store to the words of their
slot that hold a field (`DW0` to `DW2` in the layout of R101); `MAC_TX_DONE` to those that hold `own` or `stat` (`DW0`);
`MAC_RX_FRAME` to those that hold `len`, `fs`, `ls`, `own` or `stat` (`DW0` and `DW1`) and to the frame's bytes. Every other
byte of the flat space is as it was. Conventions of the model: entry 14 of its log. -/
def Obligations.SmallInstructionsStoreThere : Prop :=
  ∀ (i : Instr) (s t : State) (a : Nat), s.cfg.layout.wf = true → exec i s = .next t →
    (match i with
      | .advance _ _ | .isHw _ _ | .workerDone | .tick | .ptStart | .ptCancel | .txtoStart | .txtoCancel | .bringDown
      | .regRead _ | .regWrite _ _ | .addMc | .removeMc | .macRaise _ | .macPhy _ => True
      | .release r idx _ _ _ _ _ => ¬ inFields s.cfg DescField.all r idx.toNat a
      | .reclaim r idx => ¬ inFields s.cfg DescField.all r idx.toNat a
      | .submit _ _ => ¬ inFields s.cfg DescField.all .tx s.txCur a
      | .macTxDone idx _ => ¬ inFields s.cfg [.own, .stat] .tx idx.toNat a
      | .macRxFrame len _ _ _ _ =>
        ¬ inFields s.cfg [.len, .fs, .ls, .own, .stat] .rx s.macRxIdx a ∧
          ¬ ((s.desc .rx s.macRxIdx).buf.toNat ≤ a ∧ a < (s.desc .rx s.macRxIdx).buf.toNat + len.toNat)
      | .pollReceive | .reclaimCompleted | .txpoll | .irq | .process _ | .workerRun | .pollExpire | .txtoExpire | .bringUp
      | .notifyTxAvailable => False) →
    t.readByte a = s.readByte a

/-- R72, R80 and R92: an operation that runs a pass or a callout leaves every byte outside the exchange buffer and the
descriptors that are Software-owned as it was; one that only polls upstream stores to the current TX slot and to the
answer's bytes at the start of the exchange buffer; `BRING_UP` stores to the two rings. Conventions of the model: entries 9,
10, 14 and 17 of its log. -/
def Obligations.PassesStoreToTheirOwnPlaces : Prop :=
  ∀ (i : Instr) (s t : State) (a : Nat), exec i s = .next t →
    (match i with
      | .pollReceive | .reclaimCompleted | .process _ | .irq | .workerRun =>
        ¬ inXbuf s.cfg a ∧ ∀ r k, k < (s.ring r).length → (s.desc r k).own = .sw → ¬ inDesc s.cfg r k a
      | .txpoll | .pollExpire | .txtoExpire | .notifyTxAvailable =>
        ¬ inDesc s.cfg .tx s.txCur a ∧
          ¬ (s.cfg.xbufAddr.toNat ≤ a ∧ a < s.cfg.xbufAddr.toNat + s.answerBytes.length)
      | .bringUp => ¬ inRing s.cfg .rx a ∧ ¬ inRing s.cfg .tx a
      | .advance _ _ | .isHw _ _ | .release _ _ _ _ _ _ _ | .reclaim _ _ | .submit _ _ | .workerDone | .tick | .ptStart
      | .ptCancel | .txtoStart | .txtoCancel | .bringDown | .regRead _ | .regWrite _ _ | .addMc | .removeMc
      | .macTxDone _ _ | .macRxFrame _ _ _ _ _ | .macRaise _ | .macPhy _ => False) →
    t.readByte a = s.readByte a

/-! ## The layout of the control block -/

/-- R40 and R104 to R108 with R110 (a), (b): under any layout the eight registers stand at eight distinct offsets and no
other offset names one; each named bit of `ISR`, `IMR`, `MACCR` and `PHYSTAT` stands at its own position, the same in `ISR`
and `IMR`, every other bit reads as 0 and ignores a write, and what is written is read back; under the layout this spec
gives the bits are the low bits in the order of R105 to R107, the block's two masks are `0x7F` (R108), the offsets are those
of R104 and the control block has 32 bytes (R71). Conventions of the model: entries 4 and 28 of its log. -/
def Obligations.RegisterLayoutHoldsEveryNamedBit : Prop :=
  (∀ lay : Layout, lay.wf = true →
    (∀ r, Reg.ofOffset lay (lay.offset r) = some r) ∧
    (∀ off, (∀ r, lay.offset r ≠ off) → Reg.ofOffset lay off = none) ∧
    (∀ (b : Byte) (w : Word),
      (∀ k, k < 8 → (statusWord lay b).getLsbD (lay.statusPositions.getD k 0) = b.getLsbD k ∧
        (statusOf lay w).getLsbD k = w.getLsbD (lay.statusPositions.getD k 0)) ∧
      (∀ p, p ∉ lay.statusPositions → (statusWord lay b).getLsbD p = false) ∧ statusOf lay (statusWord lay b) = b) ∧
    (∀ (m : BitVec 7) (w : Word),
      (∀ k, k < 7 → (controlWord lay m).getLsbD (lay.controlPositions.getD k 0) = m.getLsbD k ∧
        (controlOf lay w).getLsbD k = w.getLsbD (lay.controlPositions.getD k 0)) ∧
      (∀ p, p ∉ lay.controlPositions → (controlWord lay m).getLsbD p = false) ∧ controlOf lay (controlWord lay m) = m) ∧
    ∀ (l : Bool) (p : Nat), (linkWord lay l).getLsbD p = (l && p == lay.link)) ∧
  let lay := Layout.default
  lay.wf = true ∧ (∀ b : Byte, statusWord lay b = b.setWidth 32) ∧ (∀ w : Word, statusOf lay w = w.setWidth 8) ∧
  (∀ m : BitVec 7, controlWord lay m = m.setWidth 32) ∧ (∀ w : Word, controlOf lay w = w.setWidth 7) ∧
  (∀ l : Bool, linkWord lay l = if l then 1 else 0) ∧
  statusWord lay irqEnableSet = 0x7F ∧ controlWord lay maccrUp = 0x7F ∧ lay.regSpan = 32 ∧
  Reg.all.map lay.offset = [0x00, 0x04, 0x08, 0x0C, 0x10, 0x14, 0x18, 0x1C]
end

