-- ==== Sys2Proof/Laws/Places.lean ====
section
/-!
SUPPORT. Laws of the layout (rules R100, R101, R104 to R110): named bits go into a register word and come back, reserved bits
read as 0, a descriptor's fields go into its 128 bits and come back, and what a write leaves in a field fits it.
-/

namespace Sys2Proof

namespace Layout

/-- The parts of `Layout.wf`. -/
theorem wf_iff {lay : Layout} : lay.wf = true ↔ lay.offsetsOk = true ∧ lay.registersOk = true ∧ lay.placesOk = true
    ∧ lay.fieldsApart = true ∧ lay.lenWide = true := by
  simp only [wf, Bool.and_eq_true, and_assoc]

theorem positionsOk_iff {ps : List Nat} : positionsOk ps = true ↔ ps.Nodup ∧ ∀ p ∈ ps, p < 32 := by
  simp only [positionsOk, Bool.and_eq_true, decide_eq_true_eq, List.all_eq_true]

theorem registers {lay : Layout} (h : lay.wf = true) :
    positionsOk lay.statusPositions = true ∧ positionsOk lay.controlPositions = true ∧ positionsOk [lay.link] = true := by
  have := (wf_iff.mp h).2.1
  simpa only [registersOk, Bool.and_eq_true, and_assoc] using this

theorem mem_all (f : DescField) : f ∈ DescField.all := by cases f <;> decide

theorem mem_regs (r : Reg) : r ∈ Reg.all := by cases r <;> decide

/-- What a well-formed layout says of one field's place. -/
theorem place_ok {lay : Layout} (h : lay.wf = true) (f : DescField) :
    1 ≤ (lay.place f).width ∧ (lay.place f).lo + (lay.place f).width ≤ 128 := by
  have := (wf_iff.mp h).2.2.1
  simp only [placesOk, List.all_eq_true, Bool.and_eq_true, decide_eq_true_eq] at this
  exact this f (mem_all f)

theorem apart_symm (p q : Place) : apart p q = apart q p := by simp only [apart, Bool.or_comm]

/-- Two different fields share no bit (rule R110 (c)). -/
theorem fields_apart {lay : Layout} (h : lay.wf = true) {f g : DescField} (hne : f ≠ g) :
    apart (lay.place f) (lay.place g) = true := by
  have hp := (wf_iff.mp h).2.2.2.1
  simp only [fieldsApart, decide_eq_true_eq] at hp
  have : Std.Symm fun f g : DescField => apart (lay.place f) (lay.place g) = true :=
    ⟨fun _ _ h => by rw [apart_symm]; exact h⟩
  exact hp.forall (mem_all f) (mem_all g) hne

/-- Two different registers have different offsets (rule R7). -/
theorem offset_inj {lay : Layout} (h : lay.wf = true) {r q : Reg} (he : lay.offset r = lay.offset q) : r = q := by
  have hn := (wf_iff.mp h).1
  simp only [offsetsOk, Bool.and_eq_true, decide_eq_true_eq] at hn
  exact List.inj_on_of_nodup_map hn.1 (mem_regs r) (mem_regs q) he

/-- The register found at a register's own offset is that register (rule R104). -/
theorem ofOffset_offset {lay : Layout} (h : lay.wf = true) (r : Reg) : Reg.ofOffset lay (lay.offset r) = some r := by
  unfold Reg.ofOffset
  cases hf : Reg.all.find? fun q => lay.offset q == lay.offset r with
  | none =>
    have := List.find?_eq_none.mp hf r (mem_regs r)
    simp at this
  | some q =>
    have := List.find?_some hf
    simp only [beq_iff_eq] at this
    rw [offset_inj h this]

theorem offset_of_ofOffset {lay : Layout} {off : Half} {r : Reg} (h : Reg.ofOffset lay off = some r) : lay.offset r = off := by
  have := List.find?_some h
  simpa only [beq_iff_eq] using this

theorem default_wf : Layout.default.wf = true := by decide

end Layout

namespace Machine

/-! ## Register words -/

/-- One bit at a position. -/
theorem getLsbD_bitAt {m : Nat} (b : Bool) (p j : Nat) :
    ((BitVec.ofBool b).setWidth m <<< p).getLsbD j = (decide (j < m) && (b && p == j)) := by
  rw [BitVec.getLsbD_shiftLeft, BitVec.getLsbD_setWidth, BitVec.getLsbD_ofBool]
  by_cases hj : j < m
  · by_cases he : p = j
    · subst he; cases b <;> simp [hj]; omega
    · by_cases hlt : j < p
      · simp [hlt, he]
      · have h1 : ¬ j - p = 0 := by omega
        simp [h1, he]
  · simp [hj]

theorem getLsbD_spread_aux (ps : List Nat) {n : Nat} (v : BitVec n) (l : List Nat) (w : Word) (b : Nat) :
    (l.foldl (fun w i => w ||| (BitVec.ofBool (v.getLsbD i)).setWidth 32 <<< ps.getD i 0) w).getLsbD b =
      (w.getLsbD b || (decide (b < 32) && l.any fun i => v.getLsbD i && ps.getD i 0 == b)) := by
  induction l generalizing w with
  | nil => simp
  | cons i l ih =>
    rw [List.foldl_cons, ih, BitVec.getLsbD_or, getLsbD_bitAt, List.any_cons, Bool.and_or_distrib_left, Bool.or_assoc]

/-- A bit of a register word: the named bit placed there, if any. -/
theorem getLsbD_spread (ps : List Nat) {n : Nat} (v : BitVec n) (b : Nat) :
    (spread ps v).getLsbD b = (decide (b < 32) && (List.range n).any fun i => v.getLsbD i && ps.getD i 0 == b) := by
  rw [spread, getLsbD_spread_aux]; simp

theorem getLsbD_gather_aux (ps : List Nat) {n : Nat} (w : Word) (l : List Nat) (v : BitVec n) (b : Nat) :
    (l.foldl (fun v i => v ||| (BitVec.ofBool (w.getLsbD (ps.getD i 0))).setWidth n <<< i) v).getLsbD b =
      (v.getLsbD b || (decide (b < n) && l.any fun i => w.getLsbD (ps.getD i 0) && i == b)) := by
  induction l generalizing v with
  | nil => simp
  | cons i l ih =>
    rw [List.foldl_cons, ih, BitVec.getLsbD_or, getLsbD_bitAt, List.any_cons, Bool.and_or_distrib_left, Bool.or_assoc]

/-- A named bit of a word stands at its position. -/
theorem getLsbD_gather (ps : List Nat) (n : Nat) (w : Word) (b : Nat) :
    (gather n ps w).getLsbD b = (decide (b < n) && w.getLsbD (ps.getD b 0)) := by
  rw [gather, getLsbD_gather_aux, show (0 : BitVec n).getLsbD b = false by simp, Bool.false_or]
  by_cases hb : b < n
  · simp only [hb, decide_true, Bool.true_and]
    rw [Bool.eq_iff_iff]
    simp only [List.any_eq_true, List.mem_range, Bool.and_eq_true, beq_iff_eq]
    exact ⟨fun ⟨i, _, h, he⟩ => he ▸ h, fun h => ⟨b, hb, h, rfl⟩⟩
  · simp [hb]

/-- Named bits put into a word come back, whatever the layout (rules R105 and R106). -/
theorem gather_spread {ps : List Nat} (h : Layout.positionsOk ps = true) (v : BitVec ps.length) :
    gather ps.length ps (spread ps v) = v := by
  obtain ⟨hn, hlt⟩ := Layout.positionsOk_iff.mp h
  refine BitVec.eq_of_getLsbD_eq fun b hb => ?_
  have hget : ∀ i, i < ps.length → ps.getD i 0 = ps[i]! := fun i hi => by simp [List.getD_eq_getElem?_getD, hi]
  have hmem : ps.getD b 0 ∈ ps := by simp [List.getD_eq_getElem?_getD, hb]
  rw [getLsbD_gather, getLsbD_spread]
  simp only [hb, hlt _ hmem, decide_true, Bool.true_and]
  rw [Bool.eq_iff_iff]
  simp only [List.any_eq_true, List.mem_range, Bool.and_eq_true, beq_iff_eq]
  refine ⟨fun ⟨i, hi, hv, he⟩ => ?_, fun hv => ⟨b, hb, hv, rfl⟩⟩
  have : i = b := by
    have h1 : ps[i] = ps[b] := by simpa [List.getD_eq_getElem?_getD, hi, hb] using he
    exact (List.Nodup.getElem_inj_iff hn).mp h1
  exact this ▸ hv

/-- A bit no name stands at is reserved and reads as 0 (rule R40). -/
theorem spread_reserved {ps : List Nat} {n : Nat} (v : BitVec n) {b : Nat} (hl : n ≤ ps.length) (h : b ∉ ps) :
    (spread ps v).getLsbD b = false := by
  rw [getLsbD_spread, Bool.and_eq_false_iff]
  right
  rw [List.any_eq_false]
  simp only [List.mem_range, Bool.and_eq_true, beq_iff_eq, not_and]
  intro i hi _ he
  have hm : ps.getD i 0 ∈ ps := by
    have : i < ps.length := by omega
    simp [List.getD_eq_getElem?_getD, this]
  exact h (he ▸ hm)

theorem spread_zero (ps : List Nat) (n : Nat) : spread ps (0 : BitVec n) = 0 := by
  refine BitVec.eq_of_getLsbD_eq fun b _ => ?_
  rw [getLsbD_spread]; simp

@[simp] theorem statusWord_zero (lay : Layout) : statusWord lay 0 = 0 := spread_zero _ 8
@[simp] theorem controlWord_zero (lay : Layout) : controlWord lay 0 = 0 := spread_zero _ 7

theorem statusOf_statusWord {lay : Layout} (h : lay.wf = true) (b : Byte) : statusOf lay (statusWord lay b) = b :=
  gather_spread (ps := lay.statusPositions) (Layout.registers h).1 b

theorem controlOf_controlWord {lay : Layout} (h : lay.wf = true) (m : BitVec 7) : controlOf lay (controlWord lay m) = m :=
  gather_spread (ps := lay.controlPositions) (Layout.registers h).2.1 m

/-- The block's own write of `IMR` is a register write of the word that holds the names it names (rule R42). -/
theorem writeImr_eq_regWrite {s : State} (h : s.cfg.layout.wf = true) (m : Byte) :
    writeImr m s = regWrite .imr (statusWord s.cfg.layout m) s := by
  simp only [writeImr, regWrite, writeEffect, statusOf_statusWord h]

/-- The block's own write of `MACCR` is a register write likewise (rule R43). -/
theorem writeMaccr_eq_regWrite {s : State} (h : s.cfg.layout.wf = true) (m : BitVec 7) :
    writeMaccr m s = regWrite .maccr (controlWord s.cfg.layout m) s := by
  simp only [writeMaccr, regWrite, writeEffect, controlOf_controlWord h]

/-! ## Descriptor images -/

theorem Owner.ofBit_bit (o : Owner) : Owner.ofBit o.bit = o := by cases o <;> rfl

/-- A bit of a value at its place. -/
theorem getLsbD_placed (p : Place) (v b : Nat) :
    (Desc.image.placed p v).getLsbD b = (decide (b < 128) && (decide (p.lo ≤ b ∧ b < p.lo + p.width) && v.testBit (b - p.lo))) := by
  simp only [Desc.image.placed, BitVec.getLsbD_ofNat, Nat.testBit_shiftLeft, Nat.testBit_mod_two_pow]
  by_cases h1 : p.lo ≤ b
  · by_cases h2 : b < p.lo + p.width
    · have : b - p.lo < p.width := by omega
      simp [h1, h2, this]
    · have : ¬ b - p.lo < p.width := by omega
      simp [h2, this]
  · simp [h1]

theorem getLsbD_image_aux (lay : Layout) (d : Desc) (l : List DescField) (x : BitVec 128) (b : Nat) :
    (l.foldl (fun x f => x ||| Desc.image.placed (lay.place f) (d.field f)) x).getLsbD b =
      (x.getLsbD b || l.any fun f => (Desc.image.placed (lay.place f) (d.field f)).getLsbD b) := by
  induction l generalizing x with
  | nil => simp
  | cons f l ih => rw [List.foldl_cons, ih, BitVec.getLsbD_or, List.any_cons, Bool.or_assoc]

/-- A bit of the image: the bit of the field that covers it, if any. -/
theorem getLsbD_image (lay : Layout) (d : Desc) (b : Nat) :
    (d.image lay).getLsbD b = DescField.all.any fun f => (Desc.image.placed (lay.place f) (d.field f)).getLsbD b := by
  rw [Desc.image, getLsbD_image_aux]; simp

/-- Inside a field's place the image is that field. -/
theorem getLsbD_image_field {lay : Layout} (h : lay.wf = true) (d : Desc) (f : DescField) {j : Nat}
    (hj : j < (lay.place f).width) : (d.image lay).getLsbD ((lay.place f).lo + j) = (d.field f).testBit j := by
  have hp := (Layout.place_ok h f).2
  have hb : (lay.place f).lo + j < 128 := by omega
  rw [getLsbD_image, Bool.eq_iff_iff, List.any_eq_true]
  refine ⟨fun ⟨g, _, hg⟩ => ?_, fun hv => ⟨f, Layout.mem_all f, ?_⟩⟩
  · have : f = g := by
      by_contra hne
      have ha := Layout.fields_apart h hne
      simp only [Layout.apart, Bool.or_eq_true, decide_eq_true_eq] at ha
      rw [getLsbD_placed] at hg
      simp only [Bool.and_eq_true, decide_eq_true_eq] at hg
      omega
    subst this
    rw [getLsbD_placed] at hg
    simp only [Bool.and_eq_true, Nat.add_sub_cancel_left] at hg
    exact hg.2.2
  · rw [getLsbD_placed]
    simp only [Bool.and_eq_true, decide_eq_true_eq, Nat.add_sub_cancel_left]
    exact ⟨hb, ⟨by omega, by omega⟩, hv⟩

/-- The field read from an image is the field, as far as its width goes (rule R101). -/
theorem fieldAt_image {lay : Layout} (h : lay.wf = true) (d : Desc) (f : DescField) :
    Desc.fieldAt (lay.place f) (d.image lay) = d.field f % 2 ^ (lay.place f).width := by
  refine Nat.eq_of_testBit_eq fun j => ?_
  simp only [Desc.fieldAt, Nat.testBit_mod_two_pow, Nat.testBit_shiftRight]
  by_cases hj : j < (lay.place f).width
  · simp only [hj, decide_true, Bool.true_and]
    exact getLsbD_image_field h d f hj
  · simp [hj]

theorem Desc.fits_iff {lay : Layout} {d : Desc} : d.fits lay = true ↔ ∀ f, d.field f < 2 ^ (lay.place f).width := by
  simp only [Desc.fits, List.all_eq_true, decide_eq_true_eq]
  exact ⟨fun h f => h f (Layout.mem_all f), fun h f _ => h f⟩

/-- A one-bit field read from an image. -/
theorem bit_image {lay : Layout} (h : lay.wf = true) (d : Desc) (f : DescField) (b : Bool) (hw : (lay.place f).width = 1)
    (hf : d.field f = b.toNat) : (d.image lay).getLsbD (lay.place f).lo = b := by
  have := getLsbD_image_field h d f (j := 0) (by omega)
  rw [Nat.add_zero] at this
  rw [this, hf]
  cases b <;> rfl

/-- A descriptor its words can hold is read back whole (rules R37, R101). -/
theorem Desc.ofImage_image {lay : Layout} (h : lay.wf = true) {d : Desc} (hf : d.fits lay = true) :
    Desc.ofImage lay (d.image lay) = d := by
  have hn := fun f => Nat.mod_eq_of_lt (Desc.fits_iff.mp hf f)
  have h1 := bit_image h d .own d.own.bit rfl rfl
  have h2 := bit_image h d .wrap d.wrap rfl rfl
  have h3 := bit_image h d .fs d.fs rfl rfl
  have h4 := bit_image h d .ls d.ls rfl rfl
  have h5 := bit_image h d .ic d.ic rfl rfl
  have h6 := (fieldAt_image h d .buf).trans (hn .buf)
  have h7 := (fieldAt_image h d .len).trans (hn .len)
  have h8 := (fieldAt_image h d .stat).trans (hn .stat)
  simp only [Layout.place] at h1 h2 h3 h4 h5 h6 h7 h8
  simp only [Desc.ofImage, h1, h2, h3, h4, h5, h6, h7, h8, Owner.ofBit_bit, Desc.field, BitVec.ofNat_toNat, BitVec.setWidth_eq]

/-- A byte of a descriptor depends only on the fields that have a bit in its word (rules R78 and R101). -/
theorem Desc.byte_congr {lay : Layout} (h : lay.wf = true) {d e : Desc} {k : Nat}
    (hf : ∀ f, (lay.place f).lo / 32 ≤ k / 4 → k / 4 ≤ ((lay.place f).lo + (lay.place f).width - 1) / 32 →
      d.field f = e.field f) : d.byte lay k = e.byte lay k := by
  refine BitVec.eq_of_getLsbD_eq fun j hj => ?_
  simp only [Desc.byte, BitVec.getLsbD_extractLsb', hj, decide_true, Bool.true_and]
  rw [getLsbD_image, getLsbD_image]
  refine congrArg (DescField.all.any ·) (funext fun f => ?_)
  by_cases hw : (lay.place f).lo / 32 ≤ k / 4 ∧ k / 4 ≤ ((lay.place f).lo + (lay.place f).width - 1) / 32
  · rw [hf f hw.1 hw.2]
  · have hp := (Layout.place_ok h f).1
    rw [getLsbD_placed, getLsbD_placed, decide_eq_false (p := (lay.place f).lo ≤ 8 * k + j ∧ _) (by omega)]
    simp

/-! ## Values that fit -/

theorem fitNat_lt (width v : Nat) : fitNat width v < 2 ^ width := by
  unfold fitNat
  split
  · assumption
  · exact Nat.mod_lt _ (Nat.two_pow_pos _)

/-- A value its field can hold is written as it stands. -/
theorem fitNat_of_lt {width v : Nat} (h : v < 2 ^ width) : fitNat width v = v := if_pos h

theorem fitBuf_eq {lay : Layout} {v : Word} (h : v.toNat < 2 ^ lay.buf.width) : fitBuf lay v = v := by
  rw [fitBuf, fitNat_of_lt h]; simp

theorem fitLen_eq {lay : Layout} {v : Half} (h : v.toNat < 2 ^ lay.len.width) : fitLen lay v = v := by
  rw [fitLen, fitNat_of_lt h]; simp

theorem fitStat_eq {lay : Layout} {v : Half} (h : v.toNat < 2 ^ lay.stat.width) : fitStat lay v = v := by
  rw [fitStat, fitNat_of_lt h]; simp

/-- With fields as wide as rule R37 makes them every value is written as it stands; the layout of rule R101 is one. -/
theorem fit_full {lay : Layout} (hb : lay.buf.width = 32) (hl : lay.len.width = 16) (hs : lay.stat.width = 16) :
    (∀ v, fitBuf lay v = v) ∧ (∀ v, fitLen lay v = v) ∧ ∀ v, fitStat lay v = v :=
  ⟨fun v => fitBuf_eq (by rw [hb]; exact v.isLt), fun v => fitLen_eq (by rw [hl]; exact v.isLt), 
    fun v => fitStat_eq (by rw [hs]; exact v.isLt)⟩

theorem toNat_fitBuf_lt (lay : Layout) (v : Word) : (fitBuf lay v).toNat < 2 ^ lay.buf.width := by
  rw [fitBuf, BitVec.toNat_ofNat]; exact Nat.lt_of_le_of_lt (Nat.mod_le _ _) (fitNat_lt ..)

theorem toNat_fitLen_lt (lay : Layout) (v : Half) : (fitLen lay v).toNat < 2 ^ lay.len.width := by
  rw [fitLen, BitVec.toNat_ofNat]; exact Nat.lt_of_le_of_lt (Nat.mod_le _ _) (fitNat_lt ..)

theorem toNat_fitStat_lt (lay : Layout) (v : Half) : (fitStat lay v).toNat < 2 ^ lay.stat.width := by
  rw [fitStat, BitVec.toNat_ofNat]; exact Nat.lt_of_le_of_lt (Nat.mod_le _ _) (fitNat_lt ..)

/-- A descriptor fits when its three wide fields do. -/
theorem Desc.fits_of {lay : Layout} {d : Desc} (h1 : d.buf.toNat < 2 ^ lay.buf.width) (h2 : d.len.toNat < 2 ^ lay.len.width)
    (h3 : d.stat.toNat < 2 ^ lay.stat.width) : d.fits lay = true := by
  have hb : ∀ b : Bool, b.toNat < 2 := fun b => by cases b <;> decide
  refine Desc.fits_iff.mpr fun f => ?_
  cases f
  case buf => exact h1
  case len => exact h2
  case stat => exact h3
  all_goals exact hb _

theorem Desc.fits_parts {lay : Layout} {d : Desc} (h : d.fits lay = true) : d.buf.toNat < 2 ^ lay.buf.width ∧
    d.len.toNat < 2 ^ lay.len.width ∧ d.stat.toNat < 2 ^ lay.stat.width :=
  ⟨Desc.fits_iff.mp h .buf, Desc.fits_iff.mp h .len, Desc.fits_iff.mp h .stat⟩

/-- Whatever 128 bits a descriptor is read from, its words can hold it again. -/
theorem Desc.fits_ofImage (lay : Layout) (x : BitVec 128) : (Desc.ofImage lay x).fits lay = true := by
  have h : ∀ p, Desc.fieldAt p x < 2 ^ p.width := fun p => Nat.mod_lt _ (Nat.two_pow_pos _)
  refine Desc.fits_of ?_ ?_ ?_ <;>
    (simp only [Desc.ofImage, BitVec.toNat_ofNat]; exact Nat.lt_of_le_of_lt (Nat.mod_le _ _) (h _))

theorem Desc.fits_setByte (lay : Layout) (d : Desc) (k : Nat) (b : Byte) : (d.setByte lay k b).fits lay = true :=
  Desc.fits_ofImage ..

theorem Desc.fits_clear (lay : Layout) (w : Bool) : (Desc.clear w).fits lay = true :=
  Desc.fits_of (Nat.two_pow_pos _) (Nat.two_pow_pos _) (Nat.two_pow_pos _)

end Machine

end Sys2Proof
end

