-- ==== Sys2Proof/Laws/State.lean ====
section
/-!
SUPPORT. The small lemmas of the state: for each named update, one lemma per field it leaves alone, and what it does to
the fields it changes. They are what keeps later proofs from unfolding a record update.
-/

namespace Sys2Proof.Machine

/-! ## `State.log` changes the trace only -/

@[simp] theorem State.log_cfg (e : Event) (s : State) : (s.log e).cfg = s.cfg := rfl
@[simp] theorem State.log_rxd (e : Event) (s : State) : (s.log e).rxd = s.rxd := rfl
@[simp] theorem State.log_txd (e : Event) (s : State) : (s.log e).txd = s.txd := rfl
@[simp] theorem State.log_mem (e : Event) (s : State) : (s.log e).mem = s.mem := rfl
@[simp] theorem State.log_rxCur (e : Event) (s : State) : (s.log e).rxCur = s.rxCur := rfl
@[simp] theorem State.log_txCur (e : Event) (s : State) : (s.log e).txCur = s.txCur := rfl
@[simp] theorem State.log_txClean (e : Event) (s : State) : (s.log e).txClean = s.txClean := rfl
@[simp] theorem State.log_txPend (e : Event) (s : State) : (s.log e).txPend = s.txPend := rfl
@[simp] theorem State.log_up (e : Event) (s : State) : (s.log e).up = s.up := rfl
@[simp] theorem State.log_linkUp (e : Event) (s : State) : (s.log e).linkUp = s.linkUp := rfl
@[simp] theorem State.log_xlen (e : Event) (s : State) : (s.log e).xlen = s.xlen := rfl
@[simp] theorem State.log_fault (e : Event) (s : State) : (s.log e).fault = s.fault := rfl
@[simp] theorem State.log_dslot (e : Event) (s : State) : (s.log e).dslot = s.dslot := rfl
@[simp] theorem State.log_inflight (e : Event) (s : State) : (s.log e).inflight = s.inflight := rfl
@[simp] theorem State.log_ptArmed (e : Event) (s : State) : (s.log e).ptArmed = s.ptArmed := rfl
@[simp] theorem State.log_ptRem (e : Event) (s : State) : (s.log e).ptRem = s.ptRem := rfl
@[simp] theorem State.log_toArmed (e : Event) (s : State) : (s.log e).toArmed = s.toArmed := rfl
@[simp] theorem State.log_toRem (e : Event) (s : State) : (s.log e).toRem = s.toRem := rfl
@[simp] theorem State.log_isr (e : Event) (s : State) : (s.log e).isr = s.isr := rfl
@[simp] theorem State.log_imr (e : Event) (s : State) : (s.log e).imr = s.imr := rfl
@[simp] theorem State.log_maccr (e : Event) (s : State) : (s.log e).maccr = s.maccr := rfl
@[simp] theorem State.log_txbase (e : Event) (s : State) : (s.log e).txbase = s.txbase := rfl
@[simp] theorem State.log_rxbase (e : Event) (s : State) : (s.log e).rxbase = s.rxbase := rfl
@[simp] theorem State.log_phyLink (e : Event) (s : State) : (s.log e).phyLink = s.phyLink := rfl
@[simp] theorem State.log_tune (e : Event) (s : State) : (s.log e).tune = s.tune := rfl
@[simp] theorem State.log_macTxIdx (e : Event) (s : State) : (s.log e).macTxIdx = s.macTxIdx := rfl
@[simp] theorem State.log_macRxIdx (e : Event) (s : State) : (s.log e).macRxIdx = s.macRxIdx := rfl
@[simp] theorem State.log_txKick (e : Event) (s : State) : (s.log e).txKick = s.txKick := rfl
@[simp] theorem State.log_resp (e : Event) (s : State) : (s.log e).resp = s.resp := rfl
@[simp] theorem State.log_cmds (e : Event) (s : State) : (s.log e).cmds = s.cmds := rfl
@[simp] theorem State.log_answers (e : Event) (s : State) : (s.log e).answers = s.answers := rfl
@[simp] theorem State.log_trace (e : Event) (s : State) : (s.log e).trace = s.trace ++ [e] := rfl

/-! ## `State.setDesc` changes one ring only -/

@[simp] theorem State.setDesc_cfg (s : State) (r : Ring) (i : Nat) (d : Desc) : (s.setDesc r i d).cfg = s.cfg := by cases r <;> rfl
@[simp] theorem State.setDesc_mem (s : State) (r : Ring) (i : Nat) (d : Desc) : (s.setDesc r i d).mem = s.mem := by cases r <;> rfl
@[simp] theorem State.setDesc_rxCur (s : State) (r : Ring) (i : Nat) (d : Desc) : (s.setDesc r i d).rxCur = s.rxCur := by cases r <;> rfl
@[simp] theorem State.setDesc_txCur (s : State) (r : Ring) (i : Nat) (d : Desc) : (s.setDesc r i d).txCur = s.txCur := by cases r <;> rfl
@[simp] theorem State.setDesc_txClean (s : State) (r : Ring) (i : Nat) (d : Desc) : (s.setDesc r i d).txClean = s.txClean := by cases r <;> rfl
@[simp] theorem State.setDesc_txPend (s : State) (r : Ring) (i : Nat) (d : Desc) : (s.setDesc r i d).txPend = s.txPend := by cases r <;> rfl
@[simp] theorem State.setDesc_up (s : State) (r : Ring) (i : Nat) (d : Desc) : (s.setDesc r i d).up = s.up := by cases r <;> rfl
@[simp] theorem State.setDesc_linkUp (s : State) (r : Ring) (i : Nat) (d : Desc) : (s.setDesc r i d).linkUp = s.linkUp := by cases r <;> rfl
@[simp] theorem State.setDesc_xlen (s : State) (r : Ring) (i : Nat) (d : Desc) : (s.setDesc r i d).xlen = s.xlen := by cases r <;> rfl
@[simp] theorem State.setDesc_fault (s : State) (r : Ring) (i : Nat) (d : Desc) : (s.setDesc r i d).fault = s.fault := by cases r <;> rfl
@[simp] theorem State.setDesc_dslot (s : State) (r : Ring) (i : Nat) (d : Desc) : (s.setDesc r i d).dslot = s.dslot := by cases r <;> rfl
@[simp] theorem State.setDesc_inflight (s : State) (r : Ring) (i : Nat) (d : Desc) : (s.setDesc r i d).inflight = s.inflight := by cases r <;> rfl
@[simp] theorem State.setDesc_ptArmed (s : State) (r : Ring) (i : Nat) (d : Desc) : (s.setDesc r i d).ptArmed = s.ptArmed := by cases r <;> rfl
@[simp] theorem State.setDesc_ptRem (s : State) (r : Ring) (i : Nat) (d : Desc) : (s.setDesc r i d).ptRem = s.ptRem := by cases r <;> rfl
@[simp] theorem State.setDesc_toArmed (s : State) (r : Ring) (i : Nat) (d : Desc) : (s.setDesc r i d).toArmed = s.toArmed := by cases r <;> rfl
@[simp] theorem State.setDesc_toRem (s : State) (r : Ring) (i : Nat) (d : Desc) : (s.setDesc r i d).toRem = s.toRem := by cases r <;> rfl
@[simp] theorem State.setDesc_isr (s : State) (r : Ring) (i : Nat) (d : Desc) : (s.setDesc r i d).isr = s.isr := by cases r <;> rfl
@[simp] theorem State.setDesc_imr (s : State) (r : Ring) (i : Nat) (d : Desc) : (s.setDesc r i d).imr = s.imr := by cases r <;> rfl
@[simp] theorem State.setDesc_maccr (s : State) (r : Ring) (i : Nat) (d : Desc) : (s.setDesc r i d).maccr = s.maccr := by cases r <;> rfl
@[simp] theorem State.setDesc_txbase (s : State) (r : Ring) (i : Nat) (d : Desc) : (s.setDesc r i d).txbase = s.txbase := by cases r <;> rfl
@[simp] theorem State.setDesc_rxbase (s : State) (r : Ring) (i : Nat) (d : Desc) : (s.setDesc r i d).rxbase = s.rxbase := by cases r <;> rfl
@[simp] theorem State.setDesc_phyLink (s : State) (r : Ring) (i : Nat) (d : Desc) : (s.setDesc r i d).phyLink = s.phyLink := by cases r <;> rfl
@[simp] theorem State.setDesc_tune (s : State) (r : Ring) (i : Nat) (d : Desc) : (s.setDesc r i d).tune = s.tune := by cases r <;> rfl
@[simp] theorem State.setDesc_macTxIdx (s : State) (r : Ring) (i : Nat) (d : Desc) : (s.setDesc r i d).macTxIdx = s.macTxIdx := by cases r <;> rfl
@[simp] theorem State.setDesc_macRxIdx (s : State) (r : Ring) (i : Nat) (d : Desc) : (s.setDesc r i d).macRxIdx = s.macRxIdx := by cases r <;> rfl
@[simp] theorem State.setDesc_txKick (s : State) (r : Ring) (i : Nat) (d : Desc) : (s.setDesc r i d).txKick = s.txKick := by cases r <;> rfl
@[simp] theorem State.setDesc_trace (s : State) (r : Ring) (i : Nat) (d : Desc) : (s.setDesc r i d).trace = s.trace := by cases r <;> rfl
@[simp] theorem State.setDesc_resp (s : State) (r : Ring) (i : Nat) (d : Desc) : (s.setDesc r i d).resp = s.resp := by cases r <;> rfl
@[simp] theorem State.setDesc_cmds (s : State) (r : Ring) (i : Nat) (d : Desc) : (s.setDesc r i d).cmds = s.cmds := by cases r <;> rfl
@[simp] theorem State.setDesc_answers (s : State) (r : Ring) (i : Nat) (d : Desc) : (s.setDesc r i d).answers = s.answers := by cases r <;> rfl
@[simp] theorem State.setDesc_rx_rxd (s : State) (i : Nat) (d : Desc) : (s.setDesc .rx i d).rxd = s.rxd.set i d := rfl
@[simp] theorem State.setDesc_rx_txd (s : State) (i : Nat) (d : Desc) : (s.setDesc .rx i d).txd = s.txd := rfl
@[simp] theorem State.setDesc_tx_rxd (s : State) (i : Nat) (d : Desc) : (s.setDesc .tx i d).rxd = s.rxd := rfl
@[simp] theorem State.setDesc_tx_txd (s : State) (i : Nat) (d : Desc) : (s.setDesc .tx i d).txd = s.txd.set i d := rfl

/-! ## `descWrite` changes one ring and the trace -/

@[simp] theorem descWrite_cfg (r : Ring) (i : Nat) (w : DescWrite) (s : State) : (descWrite r i w s).cfg = s.cfg := by simp [descWrite]
@[simp] theorem descWrite_mem (r : Ring) (i : Nat) (w : DescWrite) (s : State) : (descWrite r i w s).mem = s.mem := by simp [descWrite]
@[simp] theorem descWrite_rxCur (r : Ring) (i : Nat) (w : DescWrite) (s : State) : (descWrite r i w s).rxCur = s.rxCur := by simp [descWrite]
@[simp] theorem descWrite_txCur (r : Ring) (i : Nat) (w : DescWrite) (s : State) : (descWrite r i w s).txCur = s.txCur := by simp [descWrite]
@[simp] theorem descWrite_txClean (r : Ring) (i : Nat) (w : DescWrite) (s : State) : (descWrite r i w s).txClean = s.txClean := by simp [descWrite]
@[simp] theorem descWrite_txPend (r : Ring) (i : Nat) (w : DescWrite) (s : State) : (descWrite r i w s).txPend = s.txPend := by simp [descWrite]
@[simp] theorem descWrite_up (r : Ring) (i : Nat) (w : DescWrite) (s : State) : (descWrite r i w s).up = s.up := by simp [descWrite]
@[simp] theorem descWrite_linkUp (r : Ring) (i : Nat) (w : DescWrite) (s : State) : (descWrite r i w s).linkUp = s.linkUp := by simp [descWrite]
@[simp] theorem descWrite_xlen (r : Ring) (i : Nat) (w : DescWrite) (s : State) : (descWrite r i w s).xlen = s.xlen := by simp [descWrite]
@[simp] theorem descWrite_fault (r : Ring) (i : Nat) (w : DescWrite) (s : State) : (descWrite r i w s).fault = s.fault := by simp [descWrite]
@[simp] theorem descWrite_dslot (r : Ring) (i : Nat) (w : DescWrite) (s : State) : (descWrite r i w s).dslot = s.dslot := by simp [descWrite]
@[simp] theorem descWrite_inflight (r : Ring) (i : Nat) (w : DescWrite) (s : State) : (descWrite r i w s).inflight = s.inflight := by simp [descWrite]
@[simp] theorem descWrite_ptArmed (r : Ring) (i : Nat) (w : DescWrite) (s : State) : (descWrite r i w s).ptArmed = s.ptArmed := by simp [descWrite]
@[simp] theorem descWrite_ptRem (r : Ring) (i : Nat) (w : DescWrite) (s : State) : (descWrite r i w s).ptRem = s.ptRem := by simp [descWrite]
@[simp] theorem descWrite_toArmed (r : Ring) (i : Nat) (w : DescWrite) (s : State) : (descWrite r i w s).toArmed = s.toArmed := by simp [descWrite]
@[simp] theorem descWrite_toRem (r : Ring) (i : Nat) (w : DescWrite) (s : State) : (descWrite r i w s).toRem = s.toRem := by simp [descWrite]
@[simp] theorem descWrite_isr (r : Ring) (i : Nat) (w : DescWrite) (s : State) : (descWrite r i w s).isr = s.isr := by simp [descWrite]
@[simp] theorem descWrite_imr (r : Ring) (i : Nat) (w : DescWrite) (s : State) : (descWrite r i w s).imr = s.imr := by simp [descWrite]
@[simp] theorem descWrite_maccr (r : Ring) (i : Nat) (w : DescWrite) (s : State) : (descWrite r i w s).maccr = s.maccr := by simp [descWrite]
@[simp] theorem descWrite_txbase (r : Ring) (i : Nat) (w : DescWrite) (s : State) : (descWrite r i w s).txbase = s.txbase := by simp [descWrite]
@[simp] theorem descWrite_rxbase (r : Ring) (i : Nat) (w : DescWrite) (s : State) : (descWrite r i w s).rxbase = s.rxbase := by simp [descWrite]
@[simp] theorem descWrite_phyLink (r : Ring) (i : Nat) (w : DescWrite) (s : State) : (descWrite r i w s).phyLink = s.phyLink := by simp [descWrite]
@[simp] theorem descWrite_tune (r : Ring) (i : Nat) (w : DescWrite) (s : State) : (descWrite r i w s).tune = s.tune := by simp [descWrite]
@[simp] theorem descWrite_macTxIdx (r : Ring) (i : Nat) (w : DescWrite) (s : State) : (descWrite r i w s).macTxIdx = s.macTxIdx := by simp [descWrite]
@[simp] theorem descWrite_macRxIdx (r : Ring) (i : Nat) (w : DescWrite) (s : State) : (descWrite r i w s).macRxIdx = s.macRxIdx := by simp [descWrite]
@[simp] theorem descWrite_txKick (r : Ring) (i : Nat) (w : DescWrite) (s : State) : (descWrite r i w s).txKick = s.txKick := by simp [descWrite]
@[simp] theorem descWrite_resp (r : Ring) (i : Nat) (w : DescWrite) (s : State) : (descWrite r i w s).resp = s.resp := by simp [descWrite]
@[simp] theorem descWrite_cmds (r : Ring) (i : Nat) (w : DescWrite) (s : State) : (descWrite r i w s).cmds = s.cmds := by simp [descWrite]
@[simp] theorem descWrite_answers (r : Ring) (i : Nat) (w : DescWrite) (s : State) : (descWrite r i w s).answers = s.answers := by simp [descWrite]
@[simp] theorem descWrite_trace (r : Ring) (i : Nat) (w : DescWrite) (s : State) :
    (descWrite r i w s).trace = s.trace ++ [.descW r i w] := by simp [descWrite]

/-! ## `writeDesc` changes one ring and the trace -/

@[simp] theorem writeDesc_cfg (r : Ring) (i : Nat) (new : Desc) (s : State) : (writeDesc r i new s).cfg = s.cfg := by simp [writeDesc]
@[simp] theorem writeDesc_mem (r : Ring) (i : Nat) (new : Desc) (s : State) : (writeDesc r i new s).mem = s.mem := by simp [writeDesc]
@[simp] theorem writeDesc_rxCur (r : Ring) (i : Nat) (new : Desc) (s : State) : (writeDesc r i new s).rxCur = s.rxCur := by simp [writeDesc]
@[simp] theorem writeDesc_txCur (r : Ring) (i : Nat) (new : Desc) (s : State) : (writeDesc r i new s).txCur = s.txCur := by simp [writeDesc]
@[simp] theorem writeDesc_txClean (r : Ring) (i : Nat) (new : Desc) (s : State) : (writeDesc r i new s).txClean = s.txClean := by simp [writeDesc]
@[simp] theorem writeDesc_txPend (r : Ring) (i : Nat) (new : Desc) (s : State) : (writeDesc r i new s).txPend = s.txPend := by simp [writeDesc]
@[simp] theorem writeDesc_up (r : Ring) (i : Nat) (new : Desc) (s : State) : (writeDesc r i new s).up = s.up := by simp [writeDesc]
@[simp] theorem writeDesc_linkUp (r : Ring) (i : Nat) (new : Desc) (s : State) : (writeDesc r i new s).linkUp = s.linkUp := by simp [writeDesc]
@[simp] theorem writeDesc_xlen (r : Ring) (i : Nat) (new : Desc) (s : State) : (writeDesc r i new s).xlen = s.xlen := by simp [writeDesc]
@[simp] theorem writeDesc_fault (r : Ring) (i : Nat) (new : Desc) (s : State) : (writeDesc r i new s).fault = s.fault := by simp [writeDesc]
@[simp] theorem writeDesc_dslot (r : Ring) (i : Nat) (new : Desc) (s : State) : (writeDesc r i new s).dslot = s.dslot := by simp [writeDesc]
@[simp] theorem writeDesc_inflight (r : Ring) (i : Nat) (new : Desc) (s : State) : (writeDesc r i new s).inflight = s.inflight := by simp [writeDesc]
@[simp] theorem writeDesc_ptArmed (r : Ring) (i : Nat) (new : Desc) (s : State) : (writeDesc r i new s).ptArmed = s.ptArmed := by simp [writeDesc]
@[simp] theorem writeDesc_ptRem (r : Ring) (i : Nat) (new : Desc) (s : State) : (writeDesc r i new s).ptRem = s.ptRem := by simp [writeDesc]
@[simp] theorem writeDesc_toArmed (r : Ring) (i : Nat) (new : Desc) (s : State) : (writeDesc r i new s).toArmed = s.toArmed := by simp [writeDesc]
@[simp] theorem writeDesc_toRem (r : Ring) (i : Nat) (new : Desc) (s : State) : (writeDesc r i new s).toRem = s.toRem := by simp [writeDesc]
@[simp] theorem writeDesc_isr (r : Ring) (i : Nat) (new : Desc) (s : State) : (writeDesc r i new s).isr = s.isr := by simp [writeDesc]
@[simp] theorem writeDesc_imr (r : Ring) (i : Nat) (new : Desc) (s : State) : (writeDesc r i new s).imr = s.imr := by simp [writeDesc]
@[simp] theorem writeDesc_maccr (r : Ring) (i : Nat) (new : Desc) (s : State) : (writeDesc r i new s).maccr = s.maccr := by simp [writeDesc]
@[simp] theorem writeDesc_txbase (r : Ring) (i : Nat) (new : Desc) (s : State) : (writeDesc r i new s).txbase = s.txbase := by simp [writeDesc]
@[simp] theorem writeDesc_rxbase (r : Ring) (i : Nat) (new : Desc) (s : State) : (writeDesc r i new s).rxbase = s.rxbase := by simp [writeDesc]
@[simp] theorem writeDesc_phyLink (r : Ring) (i : Nat) (new : Desc) (s : State) : (writeDesc r i new s).phyLink = s.phyLink := by simp [writeDesc]
@[simp] theorem writeDesc_tune (r : Ring) (i : Nat) (new : Desc) (s : State) : (writeDesc r i new s).tune = s.tune := by simp [writeDesc]
@[simp] theorem writeDesc_macTxIdx (r : Ring) (i : Nat) (new : Desc) (s : State) : (writeDesc r i new s).macTxIdx = s.macTxIdx := by simp [writeDesc]
@[simp] theorem writeDesc_macRxIdx (r : Ring) (i : Nat) (new : Desc) (s : State) : (writeDesc r i new s).macRxIdx = s.macRxIdx := by simp [writeDesc]
@[simp] theorem writeDesc_txKick (r : Ring) (i : Nat) (new : Desc) (s : State) : (writeDesc r i new s).txKick = s.txKick := by simp [writeDesc]
@[simp] theorem writeDesc_resp (r : Ring) (i : Nat) (new : Desc) (s : State) : (writeDesc r i new s).resp = s.resp := by simp [writeDesc]
@[simp] theorem writeDesc_cmds (r : Ring) (i : Nat) (new : Desc) (s : State) : (writeDesc r i new s).cmds = s.cmds := by simp [writeDesc]
@[simp] theorem writeDesc_answers (r : Ring) (i : Nat) (new : Desc) (s : State) : (writeDesc r i new s).answers = s.answers := by simp [writeDesc]
/-- The three writes of a descriptor enter the trace with the ownership bit last (rule R81). -/
@[simp] theorem writeDesc_trace (r : Ring) (i : Nat) (new : Desc) (s : State) :
    (writeDesc r i new s).trace = s.trace ++ descEvents r i new := by
  simp [writeDesc, descEvents, Desc.bufWrite, Desc.bodyWrite, Desc.statusWrite]

/-! ## A register read changes `ISR` and the trace only -/

@[simp] theorem readEffect_cfg (reg : Reg) (s : State) : (readEffect reg s).cfg = s.cfg := by cases reg <;> rfl
@[simp] theorem readEffect_rxd (reg : Reg) (s : State) : (readEffect reg s).rxd = s.rxd := by cases reg <;> rfl
@[simp] theorem readEffect_txd (reg : Reg) (s : State) : (readEffect reg s).txd = s.txd := by cases reg <;> rfl
@[simp] theorem readEffect_mem (reg : Reg) (s : State) : (readEffect reg s).mem = s.mem := by cases reg <;> rfl
@[simp] theorem readEffect_rxCur (reg : Reg) (s : State) : (readEffect reg s).rxCur = s.rxCur := by cases reg <;> rfl
@[simp] theorem readEffect_txCur (reg : Reg) (s : State) : (readEffect reg s).txCur = s.txCur := by cases reg <;> rfl
@[simp] theorem readEffect_txClean (reg : Reg) (s : State) : (readEffect reg s).txClean = s.txClean := by cases reg <;> rfl
@[simp] theorem readEffect_txPend (reg : Reg) (s : State) : (readEffect reg s).txPend = s.txPend := by cases reg <;> rfl
@[simp] theorem readEffect_up (reg : Reg) (s : State) : (readEffect reg s).up = s.up := by cases reg <;> rfl
@[simp] theorem readEffect_linkUp (reg : Reg) (s : State) : (readEffect reg s).linkUp = s.linkUp := by cases reg <;> rfl
@[simp] theorem readEffect_xlen (reg : Reg) (s : State) : (readEffect reg s).xlen = s.xlen := by cases reg <;> rfl
@[simp] theorem readEffect_fault (reg : Reg) (s : State) : (readEffect reg s).fault = s.fault := by cases reg <;> rfl
@[simp] theorem readEffect_dslot (reg : Reg) (s : State) : (readEffect reg s).dslot = s.dslot := by cases reg <;> rfl
@[simp] theorem readEffect_inflight (reg : Reg) (s : State) : (readEffect reg s).inflight = s.inflight := by cases reg <;> rfl
@[simp] theorem readEffect_ptArmed (reg : Reg) (s : State) : (readEffect reg s).ptArmed = s.ptArmed := by cases reg <;> rfl
@[simp] theorem readEffect_ptRem (reg : Reg) (s : State) : (readEffect reg s).ptRem = s.ptRem := by cases reg <;> rfl
@[simp] theorem readEffect_toArmed (reg : Reg) (s : State) : (readEffect reg s).toArmed = s.toArmed := by cases reg <;> rfl
@[simp] theorem readEffect_toRem (reg : Reg) (s : State) : (readEffect reg s).toRem = s.toRem := by cases reg <;> rfl
@[simp] theorem readEffect_imr (reg : Reg) (s : State) : (readEffect reg s).imr = s.imr := by cases reg <;> rfl
@[simp] theorem readEffect_maccr (reg : Reg) (s : State) : (readEffect reg s).maccr = s.maccr := by cases reg <;> rfl
@[simp] theorem readEffect_txbase (reg : Reg) (s : State) : (readEffect reg s).txbase = s.txbase := by cases reg <;> rfl
@[simp] theorem readEffect_rxbase (reg : Reg) (s : State) : (readEffect reg s).rxbase = s.rxbase := by cases reg <;> rfl
@[simp] theorem readEffect_phyLink (reg : Reg) (s : State) : (readEffect reg s).phyLink = s.phyLink := by cases reg <;> rfl
@[simp] theorem readEffect_tune (reg : Reg) (s : State) : (readEffect reg s).tune = s.tune := by cases reg <;> rfl
@[simp] theorem readEffect_macTxIdx (reg : Reg) (s : State) : (readEffect reg s).macTxIdx = s.macTxIdx := by cases reg <;> rfl
@[simp] theorem readEffect_macRxIdx (reg : Reg) (s : State) : (readEffect reg s).macRxIdx = s.macRxIdx := by cases reg <;> rfl
@[simp] theorem readEffect_txKick (reg : Reg) (s : State) : (readEffect reg s).txKick = s.txKick := by cases reg <;> rfl
@[simp] theorem readEffect_trace (reg : Reg) (s : State) : (readEffect reg s).trace = s.trace := by cases reg <;> rfl
@[simp] theorem readEffect_resp (reg : Reg) (s : State) : (readEffect reg s).resp = s.resp := by cases reg <;> rfl
@[simp] theorem readEffect_cmds (reg : Reg) (s : State) : (readEffect reg s).cmds = s.cmds := by cases reg <;> rfl
@[simp] theorem readEffect_answers (reg : Reg) (s : State) : (readEffect reg s).answers = s.answers := by cases reg <;> rfl

/-! ## `regRead` -/

@[simp] theorem regRead_cfg (reg : Reg) (s : State) : (regRead reg s).cfg = s.cfg := by simp [regRead]
@[simp] theorem regRead_rxd (reg : Reg) (s : State) : (regRead reg s).rxd = s.rxd := by simp [regRead]
@[simp] theorem regRead_txd (reg : Reg) (s : State) : (regRead reg s).txd = s.txd := by simp [regRead]
@[simp] theorem regRead_mem (reg : Reg) (s : State) : (regRead reg s).mem = s.mem := by simp [regRead]
@[simp] theorem regRead_rxCur (reg : Reg) (s : State) : (regRead reg s).rxCur = s.rxCur := by simp [regRead]
@[simp] theorem regRead_txCur (reg : Reg) (s : State) : (regRead reg s).txCur = s.txCur := by simp [regRead]
@[simp] theorem regRead_txClean (reg : Reg) (s : State) : (regRead reg s).txClean = s.txClean := by simp [regRead]
@[simp] theorem regRead_txPend (reg : Reg) (s : State) : (regRead reg s).txPend = s.txPend := by simp [regRead]
@[simp] theorem regRead_up (reg : Reg) (s : State) : (regRead reg s).up = s.up := by simp [regRead]
@[simp] theorem regRead_linkUp (reg : Reg) (s : State) : (regRead reg s).linkUp = s.linkUp := by simp [regRead]
@[simp] theorem regRead_xlen (reg : Reg) (s : State) : (regRead reg s).xlen = s.xlen := by simp [regRead]
@[simp] theorem regRead_fault (reg : Reg) (s : State) : (regRead reg s).fault = s.fault := by simp [regRead]
@[simp] theorem regRead_dslot (reg : Reg) (s : State) : (regRead reg s).dslot = s.dslot := by simp [regRead]
@[simp] theorem regRead_inflight (reg : Reg) (s : State) : (regRead reg s).inflight = s.inflight := by simp [regRead]
@[simp] theorem regRead_ptArmed (reg : Reg) (s : State) : (regRead reg s).ptArmed = s.ptArmed := by simp [regRead]
@[simp] theorem regRead_ptRem (reg : Reg) (s : State) : (regRead reg s).ptRem = s.ptRem := by simp [regRead]
@[simp] theorem regRead_toArmed (reg : Reg) (s : State) : (regRead reg s).toArmed = s.toArmed := by simp [regRead]
@[simp] theorem regRead_toRem (reg : Reg) (s : State) : (regRead reg s).toRem = s.toRem := by simp [regRead]
@[simp] theorem regRead_imr (reg : Reg) (s : State) : (regRead reg s).imr = s.imr := by simp [regRead]
@[simp] theorem regRead_maccr (reg : Reg) (s : State) : (regRead reg s).maccr = s.maccr := by simp [regRead]
@[simp] theorem regRead_txbase (reg : Reg) (s : State) : (regRead reg s).txbase = s.txbase := by simp [regRead]
@[simp] theorem regRead_rxbase (reg : Reg) (s : State) : (regRead reg s).rxbase = s.rxbase := by simp [regRead]
@[simp] theorem regRead_phyLink (reg : Reg) (s : State) : (regRead reg s).phyLink = s.phyLink := by simp [regRead]
@[simp] theorem regRead_tune (reg : Reg) (s : State) : (regRead reg s).tune = s.tune := by simp [regRead]
@[simp] theorem regRead_macTxIdx (reg : Reg) (s : State) : (regRead reg s).macTxIdx = s.macTxIdx := by simp [regRead]
@[simp] theorem regRead_macRxIdx (reg : Reg) (s : State) : (regRead reg s).macRxIdx = s.macRxIdx := by simp [regRead]
@[simp] theorem regRead_txKick (reg : Reg) (s : State) : (regRead reg s).txKick = s.txKick := by simp [regRead]
@[simp] theorem regRead_resp (reg : Reg) (s : State) : (regRead reg s).resp = s.resp := by simp [regRead]
@[simp] theorem regRead_cmds (reg : Reg) (s : State) : (regRead reg s).cmds = s.cmds := by simp [regRead]
@[simp] theorem regRead_answers (reg : Reg) (s : State) : (regRead reg s).answers = s.answers := by simp [regRead]
@[simp] theorem regRead_trace (reg : Reg) (s : State) : (regRead reg s).trace = s.trace ++ [.regR reg (s.regVal reg)] := by
  simp [regRead]
/-- Reading `ISR` clears it; reading any other register does not touch it (rules R41 and R79). -/
@[simp] theorem regRead_isr (reg : Reg) (s : State) : (regRead reg s).isr = if reg = .isr then 0 else s.isr := by
  cases reg <;> simp [regRead, readEffect]

/-! ## A register write changes the control block and the MAC agent's scan state only -/

@[simp] theorem writeEffect_cfg (reg : Reg) (v : Word) (s : State) : (writeEffect reg v s).cfg = s.cfg := by cases reg <;> simp [writeEffect] <;> split <;> rfl
@[simp] theorem writeEffect_rxd (reg : Reg) (v : Word) (s : State) : (writeEffect reg v s).rxd = s.rxd := by cases reg <;> simp [writeEffect] <;> split <;> rfl
@[simp] theorem writeEffect_txd (reg : Reg) (v : Word) (s : State) : (writeEffect reg v s).txd = s.txd := by cases reg <;> simp [writeEffect] <;> split <;> rfl
@[simp] theorem writeEffect_mem (reg : Reg) (v : Word) (s : State) : (writeEffect reg v s).mem = s.mem := by cases reg <;> simp [writeEffect] <;> split <;> rfl
@[simp] theorem writeEffect_rxCur (reg : Reg) (v : Word) (s : State) : (writeEffect reg v s).rxCur = s.rxCur := by cases reg <;> simp [writeEffect] <;> split <;> rfl
@[simp] theorem writeEffect_txCur (reg : Reg) (v : Word) (s : State) : (writeEffect reg v s).txCur = s.txCur := by cases reg <;> simp [writeEffect] <;> split <;> rfl
@[simp] theorem writeEffect_txClean (reg : Reg) (v : Word) (s : State) : (writeEffect reg v s).txClean = s.txClean := by cases reg <;> simp [writeEffect] <;> split <;> rfl
@[simp] theorem writeEffect_txPend (reg : Reg) (v : Word) (s : State) : (writeEffect reg v s).txPend = s.txPend := by cases reg <;> simp [writeEffect] <;> split <;> rfl
@[simp] theorem writeEffect_up (reg : Reg) (v : Word) (s : State) : (writeEffect reg v s).up = s.up := by cases reg <;> simp [writeEffect] <;> split <;> rfl
@[simp] theorem writeEffect_linkUp (reg : Reg) (v : Word) (s : State) : (writeEffect reg v s).linkUp = s.linkUp := by cases reg <;> simp [writeEffect] <;> split <;> rfl
@[simp] theorem writeEffect_xlen (reg : Reg) (v : Word) (s : State) : (writeEffect reg v s).xlen = s.xlen := by cases reg <;> simp [writeEffect] <;> split <;> rfl
@[simp] theorem writeEffect_fault (reg : Reg) (v : Word) (s : State) : (writeEffect reg v s).fault = s.fault := by cases reg <;> simp [writeEffect] <;> split <;> rfl
@[simp] theorem writeEffect_dslot (reg : Reg) (v : Word) (s : State) : (writeEffect reg v s).dslot = s.dslot := by cases reg <;> simp [writeEffect] <;> split <;> rfl
@[simp] theorem writeEffect_inflight (reg : Reg) (v : Word) (s : State) : (writeEffect reg v s).inflight = s.inflight := by cases reg <;> simp [writeEffect] <;> split <;> rfl
@[simp] theorem writeEffect_ptArmed (reg : Reg) (v : Word) (s : State) : (writeEffect reg v s).ptArmed = s.ptArmed := by cases reg <;> simp [writeEffect] <;> split <;> rfl
@[simp] theorem writeEffect_ptRem (reg : Reg) (v : Word) (s : State) : (writeEffect reg v s).ptRem = s.ptRem := by cases reg <;> simp [writeEffect] <;> split <;> rfl
@[simp] theorem writeEffect_toArmed (reg : Reg) (v : Word) (s : State) : (writeEffect reg v s).toArmed = s.toArmed := by cases reg <;> simp [writeEffect] <;> split <;> rfl
@[simp] theorem writeEffect_toRem (reg : Reg) (v : Word) (s : State) : (writeEffect reg v s).toRem = s.toRem := by cases reg <;> simp [writeEffect] <;> split <;> rfl
@[simp] theorem writeEffect_phyLink (reg : Reg) (v : Word) (s : State) : (writeEffect reg v s).phyLink = s.phyLink := by cases reg <;> simp [writeEffect] <;> split <;> rfl
@[simp] theorem writeEffect_trace (reg : Reg) (v : Word) (s : State) : (writeEffect reg v s).trace = s.trace := by cases reg <;> simp [writeEffect] <;> split <;> rfl
@[simp] theorem writeEffect_resp (reg : Reg) (v : Word) (s : State) : (writeEffect reg v s).resp = s.resp := by cases reg <;> simp [writeEffect] <;> split <;> rfl
@[simp] theorem writeEffect_cmds (reg : Reg) (v : Word) (s : State) : (writeEffect reg v s).cmds = s.cmds := by cases reg <;> simp [writeEffect] <;> split <;> rfl
@[simp] theorem writeEffect_answers (reg : Reg) (v : Word) (s : State) : (writeEffect reg v s).answers = s.answers := by cases reg <;> simp [writeEffect] <;> split <;> rfl

/-! ## The block's own writes of `IMR` and `MACCR` -/

@[simp] theorem writeImr_cfg (m : Byte) (s : State) : (writeImr m s).cfg = s.cfg := rfl
@[simp] theorem writeImr_rxd (m : Byte) (s : State) : (writeImr m s).rxd = s.rxd := rfl
@[simp] theorem writeImr_txd (m : Byte) (s : State) : (writeImr m s).txd = s.txd := rfl
@[simp] theorem writeImr_mem (m : Byte) (s : State) : (writeImr m s).mem = s.mem := rfl
@[simp] theorem writeImr_rxCur (m : Byte) (s : State) : (writeImr m s).rxCur = s.rxCur := rfl
@[simp] theorem writeImr_txCur (m : Byte) (s : State) : (writeImr m s).txCur = s.txCur := rfl
@[simp] theorem writeImr_txClean (m : Byte) (s : State) : (writeImr m s).txClean = s.txClean := rfl
@[simp] theorem writeImr_txPend (m : Byte) (s : State) : (writeImr m s).txPend = s.txPend := rfl
@[simp] theorem writeImr_up (m : Byte) (s : State) : (writeImr m s).up = s.up := rfl
@[simp] theorem writeImr_linkUp (m : Byte) (s : State) : (writeImr m s).linkUp = s.linkUp := rfl
@[simp] theorem writeImr_xlen (m : Byte) (s : State) : (writeImr m s).xlen = s.xlen := rfl
@[simp] theorem writeImr_fault (m : Byte) (s : State) : (writeImr m s).fault = s.fault := rfl
@[simp] theorem writeImr_dslot (m : Byte) (s : State) : (writeImr m s).dslot = s.dslot := rfl
@[simp] theorem writeImr_inflight (m : Byte) (s : State) : (writeImr m s).inflight = s.inflight := rfl
@[simp] theorem writeImr_ptArmed (m : Byte) (s : State) : (writeImr m s).ptArmed = s.ptArmed := rfl
@[simp] theorem writeImr_ptRem (m : Byte) (s : State) : (writeImr m s).ptRem = s.ptRem := rfl
@[simp] theorem writeImr_toArmed (m : Byte) (s : State) : (writeImr m s).toArmed = s.toArmed := rfl
@[simp] theorem writeImr_toRem (m : Byte) (s : State) : (writeImr m s).toRem = s.toRem := rfl
@[simp] theorem writeImr_isr (m : Byte) (s : State) : (writeImr m s).isr = s.isr := rfl
@[simp] theorem writeImr_imr (m : Byte) (s : State) : (writeImr m s).imr = m := rfl
@[simp] theorem writeImr_maccr (m : Byte) (s : State) : (writeImr m s).maccr = s.maccr := rfl
@[simp] theorem writeImr_txbase (m : Byte) (s : State) : (writeImr m s).txbase = s.txbase := rfl
@[simp] theorem writeImr_rxbase (m : Byte) (s : State) : (writeImr m s).rxbase = s.rxbase := rfl
@[simp] theorem writeImr_phyLink (m : Byte) (s : State) : (writeImr m s).phyLink = s.phyLink := rfl
@[simp] theorem writeImr_tune (m : Byte) (s : State) : (writeImr m s).tune = s.tune := rfl
@[simp] theorem writeImr_macTxIdx (m : Byte) (s : State) : (writeImr m s).macTxIdx = s.macTxIdx := rfl
@[simp] theorem writeImr_macRxIdx (m : Byte) (s : State) : (writeImr m s).macRxIdx = s.macRxIdx := rfl
@[simp] theorem writeImr_txKick (m : Byte) (s : State) : (writeImr m s).txKick = s.txKick := rfl
@[simp] theorem writeImr_resp (m : Byte) (s : State) : (writeImr m s).resp = s.resp := rfl
@[simp] theorem writeImr_cmds (m : Byte) (s : State) : (writeImr m s).cmds = s.cmds := rfl
@[simp] theorem writeImr_answers (m : Byte) (s : State) : (writeImr m s).answers = s.answers := rfl
@[simp] theorem writeImr_trace (m : Byte) (s : State) :
    (writeImr m s).trace = s.trace ++ [.regW .imr (statusWord s.cfg.layout m)] := rfl

@[simp] theorem writeMaccr_cfg (m : BitVec 7) (s : State) : (writeMaccr m s).cfg = s.cfg := rfl
@[simp] theorem writeMaccr_rxd (m : BitVec 7) (s : State) : (writeMaccr m s).rxd = s.rxd := rfl
@[simp] theorem writeMaccr_txd (m : BitVec 7) (s : State) : (writeMaccr m s).txd = s.txd := rfl
@[simp] theorem writeMaccr_mem (m : BitVec 7) (s : State) : (writeMaccr m s).mem = s.mem := rfl
@[simp] theorem writeMaccr_rxCur (m : BitVec 7) (s : State) : (writeMaccr m s).rxCur = s.rxCur := rfl
@[simp] theorem writeMaccr_txCur (m : BitVec 7) (s : State) : (writeMaccr m s).txCur = s.txCur := rfl
@[simp] theorem writeMaccr_txClean (m : BitVec 7) (s : State) : (writeMaccr m s).txClean = s.txClean := rfl
@[simp] theorem writeMaccr_txPend (m : BitVec 7) (s : State) : (writeMaccr m s).txPend = s.txPend := rfl
@[simp] theorem writeMaccr_up (m : BitVec 7) (s : State) : (writeMaccr m s).up = s.up := rfl
@[simp] theorem writeMaccr_linkUp (m : BitVec 7) (s : State) : (writeMaccr m s).linkUp = s.linkUp := rfl
@[simp] theorem writeMaccr_xlen (m : BitVec 7) (s : State) : (writeMaccr m s).xlen = s.xlen := rfl
@[simp] theorem writeMaccr_fault (m : BitVec 7) (s : State) : (writeMaccr m s).fault = s.fault := rfl
@[simp] theorem writeMaccr_dslot (m : BitVec 7) (s : State) : (writeMaccr m s).dslot = s.dslot := rfl
@[simp] theorem writeMaccr_inflight (m : BitVec 7) (s : State) : (writeMaccr m s).inflight = s.inflight := rfl
@[simp] theorem writeMaccr_ptArmed (m : BitVec 7) (s : State) : (writeMaccr m s).ptArmed = s.ptArmed := rfl
@[simp] theorem writeMaccr_ptRem (m : BitVec 7) (s : State) : (writeMaccr m s).ptRem = s.ptRem := rfl
@[simp] theorem writeMaccr_toArmed (m : BitVec 7) (s : State) : (writeMaccr m s).toArmed = s.toArmed := rfl
@[simp] theorem writeMaccr_toRem (m : BitVec 7) (s : State) : (writeMaccr m s).toRem = s.toRem := rfl
@[simp] theorem writeMaccr_isr (m : BitVec 7) (s : State) : (writeMaccr m s).isr = s.isr := rfl
@[simp] theorem writeMaccr_imr (m : BitVec 7) (s : State) : (writeMaccr m s).imr = s.imr := rfl
@[simp] theorem writeMaccr_maccr (m : BitVec 7) (s : State) : (writeMaccr m s).maccr = m := rfl
@[simp] theorem writeMaccr_txbase (m : BitVec 7) (s : State) : (writeMaccr m s).txbase = s.txbase := rfl
@[simp] theorem writeMaccr_rxbase (m : BitVec 7) (s : State) : (writeMaccr m s).rxbase = s.rxbase := rfl
@[simp] theorem writeMaccr_phyLink (m : BitVec 7) (s : State) : (writeMaccr m s).phyLink = s.phyLink := rfl
@[simp] theorem writeMaccr_tune (m : BitVec 7) (s : State) : (writeMaccr m s).tune = s.tune := rfl
@[simp] theorem writeMaccr_macTxIdx (m : BitVec 7) (s : State) : (writeMaccr m s).macTxIdx = s.macTxIdx := rfl
@[simp] theorem writeMaccr_macRxIdx (m : BitVec 7) (s : State) : (writeMaccr m s).macRxIdx = s.macRxIdx := rfl
@[simp] theorem writeMaccr_txKick (m : BitVec 7) (s : State) : (writeMaccr m s).txKick = s.txKick := rfl
@[simp] theorem writeMaccr_resp (m : BitVec 7) (s : State) : (writeMaccr m s).resp = s.resp := rfl
@[simp] theorem writeMaccr_cmds (m : BitVec 7) (s : State) : (writeMaccr m s).cmds = s.cmds := rfl
@[simp] theorem writeMaccr_answers (m : BitVec 7) (s : State) : (writeMaccr m s).answers = s.answers := rfl
@[simp] theorem writeMaccr_trace (m : BitVec 7) (s : State) :
    (writeMaccr m s).trace = s.trace ++ [.regW .maccr (controlWord s.cfg.layout m)] := rfl

/-! ## `regWrite` -/

@[simp] theorem regWrite_cfg (reg : Reg) (v : Word) (s : State) : (regWrite reg v s).cfg = s.cfg := by simp [regWrite]
@[simp] theorem regWrite_rxd (reg : Reg) (v : Word) (s : State) : (regWrite reg v s).rxd = s.rxd := by simp [regWrite]
@[simp] theorem regWrite_txd (reg : Reg) (v : Word) (s : State) : (regWrite reg v s).txd = s.txd := by simp [regWrite]
@[simp] theorem regWrite_mem (reg : Reg) (v : Word) (s : State) : (regWrite reg v s).mem = s.mem := by simp [regWrite]
@[simp] theorem regWrite_rxCur (reg : Reg) (v : Word) (s : State) : (regWrite reg v s).rxCur = s.rxCur := by simp [regWrite]
@[simp] theorem regWrite_txCur (reg : Reg) (v : Word) (s : State) : (regWrite reg v s).txCur = s.txCur := by simp [regWrite]
@[simp] theorem regWrite_txClean (reg : Reg) (v : Word) (s : State) : (regWrite reg v s).txClean = s.txClean := by simp [regWrite]
@[simp] theorem regWrite_txPend (reg : Reg) (v : Word) (s : State) : (regWrite reg v s).txPend = s.txPend := by simp [regWrite]
@[simp] theorem regWrite_up (reg : Reg) (v : Word) (s : State) : (regWrite reg v s).up = s.up := by simp [regWrite]
@[simp] theorem regWrite_linkUp (reg : Reg) (v : Word) (s : State) : (regWrite reg v s).linkUp = s.linkUp := by simp [regWrite]
@[simp] theorem regWrite_xlen (reg : Reg) (v : Word) (s : State) : (regWrite reg v s).xlen = s.xlen := by simp [regWrite]
@[simp] theorem regWrite_fault (reg : Reg) (v : Word) (s : State) : (regWrite reg v s).fault = s.fault := by simp [regWrite]
@[simp] theorem regWrite_dslot (reg : Reg) (v : Word) (s : State) : (regWrite reg v s).dslot = s.dslot := by simp [regWrite]
@[simp] theorem regWrite_inflight (reg : Reg) (v : Word) (s : State) : (regWrite reg v s).inflight = s.inflight := by simp [regWrite]
@[simp] theorem regWrite_ptArmed (reg : Reg) (v : Word) (s : State) : (regWrite reg v s).ptArmed = s.ptArmed := by simp [regWrite]
@[simp] theorem regWrite_ptRem (reg : Reg) (v : Word) (s : State) : (regWrite reg v s).ptRem = s.ptRem := by simp [regWrite]
@[simp] theorem regWrite_toArmed (reg : Reg) (v : Word) (s : State) : (regWrite reg v s).toArmed = s.toArmed := by simp [regWrite]
@[simp] theorem regWrite_toRem (reg : Reg) (v : Word) (s : State) : (regWrite reg v s).toRem = s.toRem := by simp [regWrite]
@[simp] theorem regWrite_phyLink (reg : Reg) (v : Word) (s : State) : (regWrite reg v s).phyLink = s.phyLink := by simp [regWrite]
@[simp] theorem regWrite_resp (reg : Reg) (v : Word) (s : State) : (regWrite reg v s).resp = s.resp := by simp [regWrite]
@[simp] theorem regWrite_cmds (reg : Reg) (v : Word) (s : State) : (regWrite reg v s).cmds = s.cmds := by simp [regWrite]
@[simp] theorem regWrite_answers (reg : Reg) (v : Word) (s : State) : (regWrite reg v s).answers = s.answers := by simp [regWrite]
@[simp] theorem regWrite_trace (reg : Reg) (v : Word) (s : State) : (regWrite reg v s).trace = s.trace ++ [.regW reg v] := by
  simp [regWrite]

/-! ### each register's own write rule (rules R41 to R47) -/

@[simp] theorem regWrite_isr_isr (v : Word) (s : State) : (regWrite .isr v s).isr = s.isr &&& ~~~statusOf s.cfg.layout v := by
  simp [regWrite, writeEffect]
@[simp] theorem regWrite_isr_imr (v : Word) (s : State) : (regWrite .isr v s).imr = s.imr := by
  simp [regWrite, writeEffect]
@[simp] theorem regWrite_isr_maccr (v : Word) (s : State) : (regWrite .isr v s).maccr = s.maccr := by
  simp [regWrite, writeEffect]
@[simp] theorem regWrite_isr_txbase (v : Word) (s : State) : (regWrite .isr v s).txbase = s.txbase := by
  simp [regWrite, writeEffect]
@[simp] theorem regWrite_isr_rxbase (v : Word) (s : State) : (regWrite .isr v s).rxbase = s.rxbase := by
  simp [regWrite, writeEffect]
@[simp] theorem regWrite_isr_tune (v : Word) (s : State) : (regWrite .isr v s).tune = s.tune := by
  simp [regWrite, writeEffect]
@[simp] theorem regWrite_isr_macTxIdx (v : Word) (s : State) : (regWrite .isr v s).macTxIdx = s.macTxIdx := by
  simp [regWrite, writeEffect]
@[simp] theorem regWrite_isr_macRxIdx (v : Word) (s : State) : (regWrite .isr v s).macRxIdx = s.macRxIdx := by
  simp [regWrite, writeEffect]
@[simp] theorem regWrite_isr_txKick (v : Word) (s : State) : (regWrite .isr v s).txKick = s.txKick := by
  simp [regWrite, writeEffect]
@[simp] theorem regWrite_imr_isr (v : Word) (s : State) : (regWrite .imr v s).isr = s.isr := by
  simp [regWrite, writeEffect]
@[simp] theorem regWrite_imr_imr (v : Word) (s : State) : (regWrite .imr v s).imr = statusOf s.cfg.layout v := by
  simp [regWrite, writeEffect]
@[simp] theorem regWrite_imr_maccr (v : Word) (s : State) : (regWrite .imr v s).maccr = s.maccr := by
  simp [regWrite, writeEffect]
@[simp] theorem regWrite_imr_txbase (v : Word) (s : State) : (regWrite .imr v s).txbase = s.txbase := by
  simp [regWrite, writeEffect]
@[simp] theorem regWrite_imr_rxbase (v : Word) (s : State) : (regWrite .imr v s).rxbase = s.rxbase := by
  simp [regWrite, writeEffect]
@[simp] theorem regWrite_imr_tune (v : Word) (s : State) : (regWrite .imr v s).tune = s.tune := by
  simp [regWrite, writeEffect]
@[simp] theorem regWrite_imr_macTxIdx (v : Word) (s : State) : (regWrite .imr v s).macTxIdx = s.macTxIdx := by
  simp [regWrite, writeEffect]
@[simp] theorem regWrite_imr_macRxIdx (v : Word) (s : State) : (regWrite .imr v s).macRxIdx = s.macRxIdx := by
  simp [regWrite, writeEffect]
@[simp] theorem regWrite_imr_txKick (v : Word) (s : State) : (regWrite .imr v s).txKick = s.txKick := by
  simp [regWrite, writeEffect]
@[simp] theorem regWrite_txpoll_isr (v : Word) (s : State) : (regWrite .txpoll v s).isr = s.isr := by
  simp [regWrite, writeEffect] <;> split <;> rfl
@[simp] theorem regWrite_txpoll_imr (v : Word) (s : State) : (regWrite .txpoll v s).imr = s.imr := by
  simp [regWrite, writeEffect] <;> split <;> rfl
@[simp] theorem regWrite_txpoll_maccr (v : Word) (s : State) : (regWrite .txpoll v s).maccr = s.maccr := by
  simp [regWrite, writeEffect] <;> split <;> rfl
@[simp] theorem regWrite_txpoll_txbase (v : Word) (s : State) : (regWrite .txpoll v s).txbase = s.txbase := by
  simp [regWrite, writeEffect] <;> split <;> rfl
@[simp] theorem regWrite_txpoll_rxbase (v : Word) (s : State) : (regWrite .txpoll v s).rxbase = s.rxbase := by
  simp [regWrite, writeEffect] <;> split <;> rfl
@[simp] theorem regWrite_txpoll_tune (v : Word) (s : State) : (regWrite .txpoll v s).tune = s.tune := by
  simp [regWrite, writeEffect] <;> split <;> rfl
@[simp] theorem regWrite_txpoll_macTxIdx (v : Word) (s : State) : (regWrite .txpoll v s).macTxIdx = s.macTxIdx := by
  simp [regWrite, writeEffect] <;> split <;> rfl
@[simp] theorem regWrite_txpoll_macRxIdx (v : Word) (s : State) : (regWrite .txpoll v s).macRxIdx = s.macRxIdx := by
  simp [regWrite, writeEffect] <;> split <;> rfl
@[simp] theorem regWrite_txpoll_txKick (v : Word) (s : State) : (regWrite .txpoll v s).txKick = (if v = 1 then true else s.txKick) := by
  simp [regWrite, writeEffect] <;> split <;> simp_all
@[simp] theorem regWrite_txbase_isr (v : Word) (s : State) : (regWrite .txbase v s).isr = s.isr := by
  simp [regWrite, writeEffect]
@[simp] theorem regWrite_txbase_imr (v : Word) (s : State) : (regWrite .txbase v s).imr = s.imr := by
  simp [regWrite, writeEffect]
@[simp] theorem regWrite_txbase_maccr (v : Word) (s : State) : (regWrite .txbase v s).maccr = s.maccr := by
  simp [regWrite, writeEffect]
@[simp] theorem regWrite_txbase_txbase (v : Word) (s : State) : (regWrite .txbase v s).txbase = v := by
  simp [regWrite, writeEffect]
@[simp] theorem regWrite_txbase_rxbase (v : Word) (s : State) : (regWrite .txbase v s).rxbase = s.rxbase := by
  simp [regWrite, writeEffect]
@[simp] theorem regWrite_txbase_tune (v : Word) (s : State) : (regWrite .txbase v s).tune = s.tune := by
  simp [regWrite, writeEffect]
@[simp] theorem regWrite_txbase_macTxIdx (v : Word) (s : State) : (regWrite .txbase v s).macTxIdx = 0 := by
  simp [regWrite, writeEffect]
@[simp] theorem regWrite_txbase_macRxIdx (v : Word) (s : State) : (regWrite .txbase v s).macRxIdx = s.macRxIdx := by
  simp [regWrite, writeEffect]
@[simp] theorem regWrite_txbase_txKick (v : Word) (s : State) : (regWrite .txbase v s).txKick = false := by
  simp [regWrite, writeEffect]
@[simp] theorem regWrite_rxbase_isr (v : Word) (s : State) : (regWrite .rxbase v s).isr = s.isr := by
  simp [regWrite, writeEffect]
@[simp] theorem regWrite_rxbase_imr (v : Word) (s : State) : (regWrite .rxbase v s).imr = s.imr := by
  simp [regWrite, writeEffect]
@[simp] theorem regWrite_rxbase_maccr (v : Word) (s : State) : (regWrite .rxbase v s).maccr = s.maccr := by
  simp [regWrite, writeEffect]
@[simp] theorem regWrite_rxbase_txbase (v : Word) (s : State) : (regWrite .rxbase v s).txbase = s.txbase := by
  simp [regWrite, writeEffect]
@[simp] theorem regWrite_rxbase_rxbase (v : Word) (s : State) : (regWrite .rxbase v s).rxbase = v := by
  simp [regWrite, writeEffect]
@[simp] theorem regWrite_rxbase_tune (v : Word) (s : State) : (regWrite .rxbase v s).tune = s.tune := by
  simp [regWrite, writeEffect]
@[simp] theorem regWrite_rxbase_macTxIdx (v : Word) (s : State) : (regWrite .rxbase v s).macTxIdx = s.macTxIdx := by
  simp [regWrite, writeEffect]
@[simp] theorem regWrite_rxbase_macRxIdx (v : Word) (s : State) : (regWrite .rxbase v s).macRxIdx = 0 := by
  simp [regWrite, writeEffect]
@[simp] theorem regWrite_rxbase_txKick (v : Word) (s : State) : (regWrite .rxbase v s).txKick = s.txKick := by
  simp [regWrite, writeEffect]
@[simp] theorem regWrite_maccr_isr (v : Word) (s : State) : (regWrite .maccr v s).isr = s.isr := by
  simp [regWrite, writeEffect]
@[simp] theorem regWrite_maccr_imr (v : Word) (s : State) : (regWrite .maccr v s).imr = s.imr := by
  simp [regWrite, writeEffect]
@[simp] theorem regWrite_maccr_maccr (v : Word) (s : State) : (regWrite .maccr v s).maccr = controlOf s.cfg.layout v := by
  simp [regWrite, writeEffect]
@[simp] theorem regWrite_maccr_txbase (v : Word) (s : State) : (regWrite .maccr v s).txbase = s.txbase := by
  simp [regWrite, writeEffect]
@[simp] theorem regWrite_maccr_rxbase (v : Word) (s : State) : (regWrite .maccr v s).rxbase = s.rxbase := by
  simp [regWrite, writeEffect]
@[simp] theorem regWrite_maccr_tune (v : Word) (s : State) : (regWrite .maccr v s).tune = s.tune := by
  simp [regWrite, writeEffect]
@[simp] theorem regWrite_maccr_macTxIdx (v : Word) (s : State) : (regWrite .maccr v s).macTxIdx = s.macTxIdx := by
  simp [regWrite, writeEffect]
@[simp] theorem regWrite_maccr_macRxIdx (v : Word) (s : State) : (regWrite .maccr v s).macRxIdx = s.macRxIdx := by
  simp [regWrite, writeEffect]
@[simp] theorem regWrite_maccr_txKick (v : Word) (s : State) : (regWrite .maccr v s).txKick = s.txKick := by
  simp [regWrite, writeEffect]
@[simp] theorem regWrite_phystat_isr (v : Word) (s : State) : (regWrite .phystat v s).isr = s.isr := by
  simp [regWrite, writeEffect]
@[simp] theorem regWrite_phystat_imr (v : Word) (s : State) : (regWrite .phystat v s).imr = s.imr := by
  simp [regWrite, writeEffect]
@[simp] theorem regWrite_phystat_maccr (v : Word) (s : State) : (regWrite .phystat v s).maccr = s.maccr := by
  simp [regWrite, writeEffect]
@[simp] theorem regWrite_phystat_txbase (v : Word) (s : State) : (regWrite .phystat v s).txbase = s.txbase := by
  simp [regWrite, writeEffect]
@[simp] theorem regWrite_phystat_rxbase (v : Word) (s : State) : (regWrite .phystat v s).rxbase = s.rxbase := by
  simp [regWrite, writeEffect]
@[simp] theorem regWrite_phystat_tune (v : Word) (s : State) : (regWrite .phystat v s).tune = s.tune := by
  simp [regWrite, writeEffect]
@[simp] theorem regWrite_phystat_macTxIdx (v : Word) (s : State) : (regWrite .phystat v s).macTxIdx = s.macTxIdx := by
  simp [regWrite, writeEffect]
@[simp] theorem regWrite_phystat_macRxIdx (v : Word) (s : State) : (regWrite .phystat v s).macRxIdx = s.macRxIdx := by
  simp [regWrite, writeEffect]
@[simp] theorem regWrite_phystat_txKick (v : Word) (s : State) : (regWrite .phystat v s).txKick = s.txKick := by
  simp [regWrite, writeEffect]
@[simp] theorem regWrite_tune_isr (v : Word) (s : State) : (regWrite .tune v s).isr = s.isr := by
  simp [regWrite, writeEffect]
@[simp] theorem regWrite_tune_imr (v : Word) (s : State) : (regWrite .tune v s).imr = s.imr := by
  simp [regWrite, writeEffect]
@[simp] theorem regWrite_tune_maccr (v : Word) (s : State) : (regWrite .tune v s).maccr = s.maccr := by
  simp [regWrite, writeEffect]
@[simp] theorem regWrite_tune_txbase (v : Word) (s : State) : (regWrite .tune v s).txbase = s.txbase := by
  simp [regWrite, writeEffect]
@[simp] theorem regWrite_tune_rxbase (v : Word) (s : State) : (regWrite .tune v s).rxbase = s.rxbase := by
  simp [regWrite, writeEffect]
@[simp] theorem regWrite_tune_tune (v : Word) (s : State) : (regWrite .tune v s).tune = v := by
  simp [regWrite, writeEffect]
@[simp] theorem regWrite_tune_macTxIdx (v : Word) (s : State) : (regWrite .tune v s).macTxIdx = s.macTxIdx := by
  simp [regWrite, writeEffect]
@[simp] theorem regWrite_tune_macRxIdx (v : Word) (s : State) : (regWrite .tune v s).macRxIdx = s.macRxIdx := by
  simp [regWrite, writeEffect]
@[simp] theorem regWrite_tune_txKick (v : Word) (s : State) : (regWrite .tune v s).txKick = s.txKick := by
  simp [regWrite, writeEffect]

/-! ## Answering a command changes the response and, for a host call, the trace -/

@[simp] theorem respond_cfg (cls : OpClass) (st : Status) (res : Word) (s : State) : (respond cls st res s).cfg = s.cfg := by cases cls <;> rfl
@[simp] theorem respond_rxd (cls : OpClass) (st : Status) (res : Word) (s : State) : (respond cls st res s).rxd = s.rxd := by cases cls <;> rfl
@[simp] theorem respond_txd (cls : OpClass) (st : Status) (res : Word) (s : State) : (respond cls st res s).txd = s.txd := by cases cls <;> rfl
@[simp] theorem respond_mem (cls : OpClass) (st : Status) (res : Word) (s : State) : (respond cls st res s).mem = s.mem := by cases cls <;> rfl
@[simp] theorem respond_rxCur (cls : OpClass) (st : Status) (res : Word) (s : State) : (respond cls st res s).rxCur = s.rxCur := by cases cls <;> rfl
@[simp] theorem respond_txCur (cls : OpClass) (st : Status) (res : Word) (s : State) : (respond cls st res s).txCur = s.txCur := by cases cls <;> rfl
@[simp] theorem respond_txClean (cls : OpClass) (st : Status) (res : Word) (s : State) : (respond cls st res s).txClean = s.txClean := by cases cls <;> rfl
@[simp] theorem respond_txPend (cls : OpClass) (st : Status) (res : Word) (s : State) : (respond cls st res s).txPend = s.txPend := by cases cls <;> rfl
@[simp] theorem respond_up (cls : OpClass) (st : Status) (res : Word) (s : State) : (respond cls st res s).up = s.up := by cases cls <;> rfl
@[simp] theorem respond_linkUp (cls : OpClass) (st : Status) (res : Word) (s : State) : (respond cls st res s).linkUp = s.linkUp := by cases cls <;> rfl
@[simp] theorem respond_xlen (cls : OpClass) (st : Status) (res : Word) (s : State) : (respond cls st res s).xlen = s.xlen := by cases cls <;> rfl
@[simp] theorem respond_fault (cls : OpClass) (st : Status) (res : Word) (s : State) : (respond cls st res s).fault = s.fault := by cases cls <;> rfl
@[simp] theorem respond_dslot (cls : OpClass) (st : Status) (res : Word) (s : State) : (respond cls st res s).dslot = s.dslot := by cases cls <;> rfl
@[simp] theorem respond_inflight (cls : OpClass) (st : Status) (res : Word) (s : State) : (respond cls st res s).inflight = s.inflight := by cases cls <;> rfl
@[simp] theorem respond_ptArmed (cls : OpClass) (st : Status) (res : Word) (s : State) : (respond cls st res s).ptArmed = s.ptArmed := by cases cls <;> rfl
@[simp] theorem respond_ptRem (cls : OpClass) (st : Status) (res : Word) (s : State) : (respond cls st res s).ptRem = s.ptRem := by cases cls <;> rfl
@[simp] theorem respond_toArmed (cls : OpClass) (st : Status) (res : Word) (s : State) : (respond cls st res s).toArmed = s.toArmed := by cases cls <;> rfl
@[simp] theorem respond_toRem (cls : OpClass) (st : Status) (res : Word) (s : State) : (respond cls st res s).toRem = s.toRem := by cases cls <;> rfl
@[simp] theorem respond_isr (cls : OpClass) (st : Status) (res : Word) (s : State) : (respond cls st res s).isr = s.isr := by cases cls <;> rfl
@[simp] theorem respond_imr (cls : OpClass) (st : Status) (res : Word) (s : State) : (respond cls st res s).imr = s.imr := by cases cls <;> rfl
@[simp] theorem respond_maccr (cls : OpClass) (st : Status) (res : Word) (s : State) : (respond cls st res s).maccr = s.maccr := by cases cls <;> rfl
@[simp] theorem respond_txbase (cls : OpClass) (st : Status) (res : Word) (s : State) : (respond cls st res s).txbase = s.txbase := by cases cls <;> rfl
@[simp] theorem respond_rxbase (cls : OpClass) (st : Status) (res : Word) (s : State) : (respond cls st res s).rxbase = s.rxbase := by cases cls <;> rfl
@[simp] theorem respond_phyLink (cls : OpClass) (st : Status) (res : Word) (s : State) : (respond cls st res s).phyLink = s.phyLink := by cases cls <;> rfl
@[simp] theorem respond_tune (cls : OpClass) (st : Status) (res : Word) (s : State) : (respond cls st res s).tune = s.tune := by cases cls <;> rfl
@[simp] theorem respond_macTxIdx (cls : OpClass) (st : Status) (res : Word) (s : State) : (respond cls st res s).macTxIdx = s.macTxIdx := by cases cls <;> rfl
@[simp] theorem respond_macRxIdx (cls : OpClass) (st : Status) (res : Word) (s : State) : (respond cls st res s).macRxIdx = s.macRxIdx := by cases cls <;> rfl
@[simp] theorem respond_txKick (cls : OpClass) (st : Status) (res : Word) (s : State) : (respond cls st res s).txKick = s.txKick := by cases cls <;> rfl
@[simp] theorem respond_cmds (cls : OpClass) (st : Status) (res : Word) (s : State) : (respond cls st res s).cmds = s.cmds := by cases cls <;> rfl
@[simp] theorem respond_answers (cls : OpClass) (st : Status) (res : Word) (s : State) : (respond cls st res s).answers = s.answers := by cases cls <;> rfl
@[simp] theorem respond_resp (cls : OpClass) (st : Status) (res : Word) (s : State) :
    (respond cls st res s).resp = some (.returned st res) := by cases cls <;> rfl
@[simp] theorem respond_host_trace (st : Status) (res : Word) (s : State) :
    (respond .host st res s).trace = s.trace ++ [.hostReturn st res] := rfl
theorem respond_trace_of_ne_host (cls : OpClass) (st : Status) (res : Word) (s : State) (h : cls ≠ .host) :
    (respond cls st res s).trace = s.trace := by cases cls <;> first | rfl | exact absurd rfl h
/-- Answering a command that is no host call changes the response only. -/
theorem respond_of_ne_host (cls : OpClass) (st : Status) (res : Word) (s : State) (h : cls ≠ .host) :
    respond cls st res s = { s with resp := some (.returned st res) } := by cases cls <;> first | rfl | exact absurd rfl h

/-! ## `initSlots` changes the rings and the trace -/

@[simp] theorem initSlots_cfg (r : Ring) (i n : Nat) (s : State) : (initSlots r i n s).cfg = s.cfg := by
  induction n generalizing i s with
  | zero => rfl
  | succ n ih => simp [initSlots, ih]
@[simp] theorem initSlots_mem (r : Ring) (i n : Nat) (s : State) : (initSlots r i n s).mem = s.mem := by
  induction n generalizing i s with
  | zero => rfl
  | succ n ih => simp [initSlots, ih]
@[simp] theorem initSlots_rxCur (r : Ring) (i n : Nat) (s : State) : (initSlots r i n s).rxCur = s.rxCur := by
  induction n generalizing i s with
  | zero => rfl
  | succ n ih => simp [initSlots, ih]
@[simp] theorem initSlots_txCur (r : Ring) (i n : Nat) (s : State) : (initSlots r i n s).txCur = s.txCur := by
  induction n generalizing i s with
  | zero => rfl
  | succ n ih => simp [initSlots, ih]
@[simp] theorem initSlots_txClean (r : Ring) (i n : Nat) (s : State) : (initSlots r i n s).txClean = s.txClean := by
  induction n generalizing i s with
  | zero => rfl
  | succ n ih => simp [initSlots, ih]
@[simp] theorem initSlots_txPend (r : Ring) (i n : Nat) (s : State) : (initSlots r i n s).txPend = s.txPend := by
  induction n generalizing i s with
  | zero => rfl
  | succ n ih => simp [initSlots, ih]
@[simp] theorem initSlots_up (r : Ring) (i n : Nat) (s : State) : (initSlots r i n s).up = s.up := by
  induction n generalizing i s with
  | zero => rfl
  | succ n ih => simp [initSlots, ih]
@[simp] theorem initSlots_linkUp (r : Ring) (i n : Nat) (s : State) : (initSlots r i n s).linkUp = s.linkUp := by
  induction n generalizing i s with
  | zero => rfl
  | succ n ih => simp [initSlots, ih]
@[simp] theorem initSlots_xlen (r : Ring) (i n : Nat) (s : State) : (initSlots r i n s).xlen = s.xlen := by
  induction n generalizing i s with
  | zero => rfl
  | succ n ih => simp [initSlots, ih]
@[simp] theorem initSlots_fault (r : Ring) (i n : Nat) (s : State) : (initSlots r i n s).fault = s.fault := by
  induction n generalizing i s with
  | zero => rfl
  | succ n ih => simp [initSlots, ih]
@[simp] theorem initSlots_dslot (r : Ring) (i n : Nat) (s : State) : (initSlots r i n s).dslot = s.dslot := by
  induction n generalizing i s with
  | zero => rfl
  | succ n ih => simp [initSlots, ih]
@[simp] theorem initSlots_inflight (r : Ring) (i n : Nat) (s : State) : (initSlots r i n s).inflight = s.inflight := by
  induction n generalizing i s with
  | zero => rfl
  | succ n ih => simp [initSlots, ih]
@[simp] theorem initSlots_ptArmed (r : Ring) (i n : Nat) (s : State) : (initSlots r i n s).ptArmed = s.ptArmed := by
  induction n generalizing i s with
  | zero => rfl
  | succ n ih => simp [initSlots, ih]
@[simp] theorem initSlots_ptRem (r : Ring) (i n : Nat) (s : State) : (initSlots r i n s).ptRem = s.ptRem := by
  induction n generalizing i s with
  | zero => rfl
  | succ n ih => simp [initSlots, ih]
@[simp] theorem initSlots_toArmed (r : Ring) (i n : Nat) (s : State) : (initSlots r i n s).toArmed = s.toArmed := by
  induction n generalizing i s with
  | zero => rfl
  | succ n ih => simp [initSlots, ih]
@[simp] theorem initSlots_toRem (r : Ring) (i n : Nat) (s : State) : (initSlots r i n s).toRem = s.toRem := by
  induction n generalizing i s with
  | zero => rfl
  | succ n ih => simp [initSlots, ih]
@[simp] theorem initSlots_isr (r : Ring) (i n : Nat) (s : State) : (initSlots r i n s).isr = s.isr := by
  induction n generalizing i s with
  | zero => rfl
  | succ n ih => simp [initSlots, ih]
@[simp] theorem initSlots_imr (r : Ring) (i n : Nat) (s : State) : (initSlots r i n s).imr = s.imr := by
  induction n generalizing i s with
  | zero => rfl
  | succ n ih => simp [initSlots, ih]
@[simp] theorem initSlots_maccr (r : Ring) (i n : Nat) (s : State) : (initSlots r i n s).maccr = s.maccr := by
  induction n generalizing i s with
  | zero => rfl
  | succ n ih => simp [initSlots, ih]
@[simp] theorem initSlots_txbase (r : Ring) (i n : Nat) (s : State) : (initSlots r i n s).txbase = s.txbase := by
  induction n generalizing i s with
  | zero => rfl
  | succ n ih => simp [initSlots, ih]
@[simp] theorem initSlots_rxbase (r : Ring) (i n : Nat) (s : State) : (initSlots r i n s).rxbase = s.rxbase := by
  induction n generalizing i s with
  | zero => rfl
  | succ n ih => simp [initSlots, ih]
@[simp] theorem initSlots_phyLink (r : Ring) (i n : Nat) (s : State) : (initSlots r i n s).phyLink = s.phyLink := by
  induction n generalizing i s with
  | zero => rfl
  | succ n ih => simp [initSlots, ih]
@[simp] theorem initSlots_tune (r : Ring) (i n : Nat) (s : State) : (initSlots r i n s).tune = s.tune := by
  induction n generalizing i s with
  | zero => rfl
  | succ n ih => simp [initSlots, ih]
@[simp] theorem initSlots_macTxIdx (r : Ring) (i n : Nat) (s : State) : (initSlots r i n s).macTxIdx = s.macTxIdx := by
  induction n generalizing i s with
  | zero => rfl
  | succ n ih => simp [initSlots, ih]
@[simp] theorem initSlots_macRxIdx (r : Ring) (i n : Nat) (s : State) : (initSlots r i n s).macRxIdx = s.macRxIdx := by
  induction n generalizing i s with
  | zero => rfl
  | succ n ih => simp [initSlots, ih]
@[simp] theorem initSlots_txKick (r : Ring) (i n : Nat) (s : State) : (initSlots r i n s).txKick = s.txKick := by
  induction n generalizing i s with
  | zero => rfl
  | succ n ih => simp [initSlots, ih]
@[simp] theorem initSlots_resp (r : Ring) (i n : Nat) (s : State) : (initSlots r i n s).resp = s.resp := by
  induction n generalizing i s with
  | zero => rfl
  | succ n ih => simp [initSlots, ih]
@[simp] theorem initSlots_cmds (r : Ring) (i n : Nat) (s : State) : (initSlots r i n s).cmds = s.cmds := by
  induction n generalizing i s with
  | zero => rfl
  | succ n ih => simp [initSlots, ih]
@[simp] theorem initSlots_answers (r : Ring) (i n : Nat) (s : State) : (initSlots r i n s).answers = s.answers := by
  induction n generalizing i s with
  | zero => rfl
  | succ n ih => simp [initSlots, ih]

/-! ## A byte write changes the rings and memory only -/

@[simp] theorem State.writeByte_cfg (s : State) (a : Nat) (b : Byte) : (s.writeByte a b).cfg = s.cfg := by
  unfold State.writeByte; split
  · simp
  · split <;> simp
@[simp] theorem State.writeByte_rxCur (s : State) (a : Nat) (b : Byte) : (s.writeByte a b).rxCur = s.rxCur := by
  unfold State.writeByte; split
  · simp
  · split <;> simp
@[simp] theorem State.writeByte_txCur (s : State) (a : Nat) (b : Byte) : (s.writeByte a b).txCur = s.txCur := by
  unfold State.writeByte; split
  · simp
  · split <;> simp
@[simp] theorem State.writeByte_txClean (s : State) (a : Nat) (b : Byte) : (s.writeByte a b).txClean = s.txClean := by
  unfold State.writeByte; split
  · simp
  · split <;> simp
@[simp] theorem State.writeByte_txPend (s : State) (a : Nat) (b : Byte) : (s.writeByte a b).txPend = s.txPend := by
  unfold State.writeByte; split
  · simp
  · split <;> simp
@[simp] theorem State.writeByte_up (s : State) (a : Nat) (b : Byte) : (s.writeByte a b).up = s.up := by
  unfold State.writeByte; split
  · simp
  · split <;> simp
@[simp] theorem State.writeByte_linkUp (s : State) (a : Nat) (b : Byte) : (s.writeByte a b).linkUp = s.linkUp := by
  unfold State.writeByte; split
  · simp
  · split <;> simp
@[simp] theorem State.writeByte_xlen (s : State) (a : Nat) (b : Byte) : (s.writeByte a b).xlen = s.xlen := by
  unfold State.writeByte; split
  · simp
  · split <;> simp
@[simp] theorem State.writeByte_fault (s : State) (a : Nat) (b : Byte) : (s.writeByte a b).fault = s.fault := by
  unfold State.writeByte; split
  · simp
  · split <;> simp
@[simp] theorem State.writeByte_dslot (s : State) (a : Nat) (b : Byte) : (s.writeByte a b).dslot = s.dslot := by
  unfold State.writeByte; split
  · simp
  · split <;> simp
@[simp] theorem State.writeByte_inflight (s : State) (a : Nat) (b : Byte) : (s.writeByte a b).inflight = s.inflight := by
  unfold State.writeByte; split
  · simp
  · split <;> simp
@[simp] theorem State.writeByte_ptArmed (s : State) (a : Nat) (b : Byte) : (s.writeByte a b).ptArmed = s.ptArmed := by
  unfold State.writeByte; split
  · simp
  · split <;> simp
@[simp] theorem State.writeByte_ptRem (s : State) (a : Nat) (b : Byte) : (s.writeByte a b).ptRem = s.ptRem := by
  unfold State.writeByte; split
  · simp
  · split <;> simp
@[simp] theorem State.writeByte_toArmed (s : State) (a : Nat) (b : Byte) : (s.writeByte a b).toArmed = s.toArmed := by
  unfold State.writeByte; split
  · simp
  · split <;> simp
@[simp] theorem State.writeByte_toRem (s : State) (a : Nat) (b : Byte) : (s.writeByte a b).toRem = s.toRem := by
  unfold State.writeByte; split
  · simp
  · split <;> simp
@[simp] theorem State.writeByte_isr (s : State) (a : Nat) (b : Byte) : (s.writeByte a b).isr = s.isr := by
  unfold State.writeByte; split
  · simp
  · split <;> simp
@[simp] theorem State.writeByte_imr (s : State) (a : Nat) (b : Byte) : (s.writeByte a b).imr = s.imr := by
  unfold State.writeByte; split
  · simp
  · split <;> simp
@[simp] theorem State.writeByte_maccr (s : State) (a : Nat) (b : Byte) : (s.writeByte a b).maccr = s.maccr := by
  unfold State.writeByte; split
  · simp
  · split <;> simp
@[simp] theorem State.writeByte_txbase (s : State) (a : Nat) (b : Byte) : (s.writeByte a b).txbase = s.txbase := by
  unfold State.writeByte; split
  · simp
  · split <;> simp
@[simp] theorem State.writeByte_rxbase (s : State) (a : Nat) (b : Byte) : (s.writeByte a b).rxbase = s.rxbase := by
  unfold State.writeByte; split
  · simp
  · split <;> simp
@[simp] theorem State.writeByte_phyLink (s : State) (a : Nat) (b : Byte) : (s.writeByte a b).phyLink = s.phyLink := by
  unfold State.writeByte; split
  · simp
  · split <;> simp
@[simp] theorem State.writeByte_tune (s : State) (a : Nat) (b : Byte) : (s.writeByte a b).tune = s.tune := by
  unfold State.writeByte; split
  · simp
  · split <;> simp
@[simp] theorem State.writeByte_macTxIdx (s : State) (a : Nat) (b : Byte) : (s.writeByte a b).macTxIdx = s.macTxIdx := by
  unfold State.writeByte; split
  · simp
  · split <;> simp
@[simp] theorem State.writeByte_macRxIdx (s : State) (a : Nat) (b : Byte) : (s.writeByte a b).macRxIdx = s.macRxIdx := by
  unfold State.writeByte; split
  · simp
  · split <;> simp
@[simp] theorem State.writeByte_txKick (s : State) (a : Nat) (b : Byte) : (s.writeByte a b).txKick = s.txKick := by
  unfold State.writeByte; split
  · simp
  · split <;> simp
@[simp] theorem State.writeByte_trace (s : State) (a : Nat) (b : Byte) : (s.writeByte a b).trace = s.trace := by
  unfold State.writeByte; split
  · simp
  · split <;> simp
@[simp] theorem State.writeByte_resp (s : State) (a : Nat) (b : Byte) : (s.writeByte a b).resp = s.resp := by
  unfold State.writeByte; split
  · simp
  · split <;> simp
@[simp] theorem State.writeByte_cmds (s : State) (a : Nat) (b : Byte) : (s.writeByte a b).cmds = s.cmds := by
  unfold State.writeByte; split
  · simp
  · split <;> simp
@[simp] theorem State.writeByte_answers (s : State) (a : Nat) (b : Byte) : (s.writeByte a b).answers = s.answers := by
  unfold State.writeByte; split
  · simp
  · split <;> simp

/-! ## `writeBytes` -/

@[simp] theorem State.writeBytes_cfg (s : State) (a : Nat) (bs : List Byte) : (s.writeBytes a bs).cfg = s.cfg := by
  induction bs generalizing s a with
  | nil => rfl
  | cons b bs ih => simp [State.writeBytes, ih]
@[simp] theorem State.writeBytes_rxCur (s : State) (a : Nat) (bs : List Byte) : (s.writeBytes a bs).rxCur = s.rxCur := by
  induction bs generalizing s a with
  | nil => rfl
  | cons b bs ih => simp [State.writeBytes, ih]
@[simp] theorem State.writeBytes_txCur (s : State) (a : Nat) (bs : List Byte) : (s.writeBytes a bs).txCur = s.txCur := by
  induction bs generalizing s a with
  | nil => rfl
  | cons b bs ih => simp [State.writeBytes, ih]
@[simp] theorem State.writeBytes_txClean (s : State) (a : Nat) (bs : List Byte) : (s.writeBytes a bs).txClean = s.txClean := by
  induction bs generalizing s a with
  | nil => rfl
  | cons b bs ih => simp [State.writeBytes, ih]
@[simp] theorem State.writeBytes_txPend (s : State) (a : Nat) (bs : List Byte) : (s.writeBytes a bs).txPend = s.txPend := by
  induction bs generalizing s a with
  | nil => rfl
  | cons b bs ih => simp [State.writeBytes, ih]
@[simp] theorem State.writeBytes_up (s : State) (a : Nat) (bs : List Byte) : (s.writeBytes a bs).up = s.up := by
  induction bs generalizing s a with
  | nil => rfl
  | cons b bs ih => simp [State.writeBytes, ih]
@[simp] theorem State.writeBytes_linkUp (s : State) (a : Nat) (bs : List Byte) : (s.writeBytes a bs).linkUp = s.linkUp := by
  induction bs generalizing s a with
  | nil => rfl
  | cons b bs ih => simp [State.writeBytes, ih]
@[simp] theorem State.writeBytes_xlen (s : State) (a : Nat) (bs : List Byte) : (s.writeBytes a bs).xlen = s.xlen := by
  induction bs generalizing s a with
  | nil => rfl
  | cons b bs ih => simp [State.writeBytes, ih]
@[simp] theorem State.writeBytes_fault (s : State) (a : Nat) (bs : List Byte) : (s.writeBytes a bs).fault = s.fault := by
  induction bs generalizing s a with
  | nil => rfl
  | cons b bs ih => simp [State.writeBytes, ih]
@[simp] theorem State.writeBytes_dslot (s : State) (a : Nat) (bs : List Byte) : (s.writeBytes a bs).dslot = s.dslot := by
  induction bs generalizing s a with
  | nil => rfl
  | cons b bs ih => simp [State.writeBytes, ih]
@[simp] theorem State.writeBytes_inflight (s : State) (a : Nat) (bs : List Byte) : (s.writeBytes a bs).inflight = s.inflight := by
  induction bs generalizing s a with
  | nil => rfl
  | cons b bs ih => simp [State.writeBytes, ih]
@[simp] theorem State.writeBytes_ptArmed (s : State) (a : Nat) (bs : List Byte) : (s.writeBytes a bs).ptArmed = s.ptArmed := by
  induction bs generalizing s a with
  | nil => rfl
  | cons b bs ih => simp [State.writeBytes, ih]
@[simp] theorem State.writeBytes_ptRem (s : State) (a : Nat) (bs : List Byte) : (s.writeBytes a bs).ptRem = s.ptRem := by
  induction bs generalizing s a with
  | nil => rfl
  | cons b bs ih => simp [State.writeBytes, ih]
@[simp] theorem State.writeBytes_toArmed (s : State) (a : Nat) (bs : List Byte) : (s.writeBytes a bs).toArmed = s.toArmed := by
  induction bs generalizing s a with
  | nil => rfl
  | cons b bs ih => simp [State.writeBytes, ih]
@[simp] theorem State.writeBytes_toRem (s : State) (a : Nat) (bs : List Byte) : (s.writeBytes a bs).toRem = s.toRem := by
  induction bs generalizing s a with
  | nil => rfl
  | cons b bs ih => simp [State.writeBytes, ih]
@[simp] theorem State.writeBytes_isr (s : State) (a : Nat) (bs : List Byte) : (s.writeBytes a bs).isr = s.isr := by
  induction bs generalizing s a with
  | nil => rfl
  | cons b bs ih => simp [State.writeBytes, ih]
@[simp] theorem State.writeBytes_imr (s : State) (a : Nat) (bs : List Byte) : (s.writeBytes a bs).imr = s.imr := by
  induction bs generalizing s a with
  | nil => rfl
  | cons b bs ih => simp [State.writeBytes, ih]
@[simp] theorem State.writeBytes_maccr (s : State) (a : Nat) (bs : List Byte) : (s.writeBytes a bs).maccr = s.maccr := by
  induction bs generalizing s a with
  | nil => rfl
  | cons b bs ih => simp [State.writeBytes, ih]
@[simp] theorem State.writeBytes_txbase (s : State) (a : Nat) (bs : List Byte) : (s.writeBytes a bs).txbase = s.txbase := by
  induction bs generalizing s a with
  | nil => rfl
  | cons b bs ih => simp [State.writeBytes, ih]
@[simp] theorem State.writeBytes_rxbase (s : State) (a : Nat) (bs : List Byte) : (s.writeBytes a bs).rxbase = s.rxbase := by
  induction bs generalizing s a with
  | nil => rfl
  | cons b bs ih => simp [State.writeBytes, ih]
@[simp] theorem State.writeBytes_phyLink (s : State) (a : Nat) (bs : List Byte) : (s.writeBytes a bs).phyLink = s.phyLink := by
  induction bs generalizing s a with
  | nil => rfl
  | cons b bs ih => simp [State.writeBytes, ih]
@[simp] theorem State.writeBytes_tune (s : State) (a : Nat) (bs : List Byte) : (s.writeBytes a bs).tune = s.tune := by
  induction bs generalizing s a with
  | nil => rfl
  | cons b bs ih => simp [State.writeBytes, ih]
@[simp] theorem State.writeBytes_macTxIdx (s : State) (a : Nat) (bs : List Byte) : (s.writeBytes a bs).macTxIdx = s.macTxIdx := by
  induction bs generalizing s a with
  | nil => rfl
  | cons b bs ih => simp [State.writeBytes, ih]
@[simp] theorem State.writeBytes_macRxIdx (s : State) (a : Nat) (bs : List Byte) : (s.writeBytes a bs).macRxIdx = s.macRxIdx := by
  induction bs generalizing s a with
  | nil => rfl
  | cons b bs ih => simp [State.writeBytes, ih]
@[simp] theorem State.writeBytes_txKick (s : State) (a : Nat) (bs : List Byte) : (s.writeBytes a bs).txKick = s.txKick := by
  induction bs generalizing s a with
  | nil => rfl
  | cons b bs ih => simp [State.writeBytes, ih]
@[simp] theorem State.writeBytes_trace (s : State) (a : Nat) (bs : List Byte) : (s.writeBytes a bs).trace = s.trace := by
  induction bs generalizing s a with
  | nil => rfl
  | cons b bs ih => simp [State.writeBytes, ih]
@[simp] theorem State.writeBytes_resp (s : State) (a : Nat) (bs : List Byte) : (s.writeBytes a bs).resp = s.resp := by
  induction bs generalizing s a with
  | nil => rfl
  | cons b bs ih => simp [State.writeBytes, ih]
@[simp] theorem State.writeBytes_cmds (s : State) (a : Nat) (bs : List Byte) : (s.writeBytes a bs).cmds = s.cmds := by
  induction bs generalizing s a with
  | nil => rfl
  | cons b bs ih => simp [State.writeBytes, ih]
@[simp] theorem State.writeBytes_answers (s : State) (a : Nat) (bs : List Byte) : (s.writeBytes a bs).answers = s.answers := by
  induction bs generalizing s a with
  | nil => rfl
  | cons b bs ih => simp [State.writeBytes, ih]

end Sys2Proof.Machine
end

