-- ==== Sys2Proof/Laws/Descriptor.lean ====
section
/-!
SUPPORT. Laws of whole-descriptor writes: what `writeDesc` leaves in its slot, in every other slot and in the trace.
-/

namespace Sys2Proof.Machine

/-- The three writes in the order of a release leave the new descriptor, whatever stood there. -/
@[simp] theorem Desc.apply_release (x d : Desc) :
    ((x.apply d.bufWrite).apply d.bodyWrite).apply d.statusWrite = d := rfl

/-! ## Slots -/

theorem State.desc_rx (s : State) (i : Nat) : s.desc .rx i = s.rxd.getD i Desc.beyond := rfl
theorem State.desc_tx (s : State) (i : Nat) : s.desc .tx i = s.txd.getD i Desc.beyond := rfl

theorem State.desc_of_le {s : State} {r : Ring} {i : Nat} (h : (s.ring r).length ≤ i) : s.desc r i = Desc.beyond := by
  simp [State.desc, List.getD_eq_getElem?_getD, List.getElem?_eq_none h]

theorem State.lt_length_of_sw {s : State} {r : Ring} {i : Nat} (h : (s.desc r i).own = .sw) : i < (s.ring r).length := by
  by_contra hn
  rw [State.desc_of_le (Nat.le_of_not_lt hn)] at h
  cases h

@[simp] theorem State.ring_setDesc_same (s : State) (r : Ring) (i : Nat) (d : Desc) :
    (s.setDesc r i d).ring r = (s.ring r).set i d := by cases r <;> rfl

theorem State.ring_setDesc_ne (s : State) {r q : Ring} (i : Nat) (d : Desc) (h : q ≠ r) :
    (s.setDesc r i d).ring q = s.ring q := by cases r <;> cases q <;> first | rfl | exact absurd rfl h

@[simp] theorem State.length_ring_setDesc (s : State) (r q : Ring) (i : Nat) (d : Desc) :
    ((s.setDesc r i d).ring q).length = (s.ring q).length := by
  cases r <;> cases q <;> simp [State.setDesc, State.ring]

theorem State.desc_setDesc (s : State) (r q : Ring) (i j : Nat) (d : Desc) :
    (s.setDesc r i d).desc q j = if q = r ∧ j = i ∧ i < (s.ring r).length then d else s.desc q j := by
  by_cases hq : q = r
  · subst hq
    rw [State.desc, State.ring_setDesc_same]
    by_cases hj : j = i
    · subst hj
      by_cases hl : j < (s.ring q).length
      · simp [List.getD_eq_getElem?_getD, hl]
      · simp [State.desc, List.getD_eq_getElem?_getD, hl]
    · have : ((s.ring q).set i d)[j]? = (s.ring q)[j]? := List.getElem?_set_ne (fun h => hj h.symm)
      simp [State.desc, List.getD_eq_getElem?_getD, hj, this]
  · simp [State.desc, State.ring_setDesc_ne s i d hq, hq]

theorem State.desc_setDesc_same {s : State} {r : Ring} {i : Nat} (d : Desc) (h : i < (s.ring r).length) :
    (s.setDesc r i d).desc r i = d := by simp [State.desc_setDesc, h]

theorem State.desc_setDesc_ne {s : State} {r q : Ring} {i j : Nat} (d : Desc) (h : ¬(q = r ∧ j = i)) :
    (s.setDesc r i d).desc q j = s.desc q j := by
  rw [State.desc_setDesc, if_neg]
  exact fun ⟨a, b, _⟩ => h ⟨a, b⟩

theorem State.setDesc_setDesc (s : State) (r : Ring) (i : Nat) (d e : Desc) :
    (s.setDesc r i d).setDesc r i e = s.setDesc r i e := by
  cases r <;> simp [State.setDesc]

/-! ## Descriptor writes -/

/-- A whole-descriptor write: the slot holds the new descriptor and the trace has its three writes. -/
theorem writeDesc_eq (r : Ring) (i : Nat) (new : Desc) (s : State) :
    writeDesc r i new s = { s.setDesc r i new with trace := s.trace ++ descEvents r i new } := by
  have aux : ∀ (l : List Desc) (f : Desc → Desc),
      (l.set i (f (l.getD i Desc.beyond))).set i new = l.set i new := fun l f => by simp
  by_cases hl : i < (s.ring r).length
  · cases r <;>
      simp_all [writeDesc, descWrite, State.setDesc, State.log, State.desc, State.ring, descEvents, Desc.apply, Desc.bufWrite,
        Desc.bodyWrite, Desc.statusWrite, List.getD_eq_getElem?_getD]
  · cases r <;>
      simp_all [writeDesc, descWrite, State.setDesc, State.log, State.desc, State.ring, descEvents, Desc.apply, Desc.bufWrite,
        Desc.bodyWrite, Desc.statusWrite, List.set_eq_of_length_le]

theorem desc_writeDesc (r q : Ring) (i j : Nat) (new : Desc) (s : State) :
    (writeDesc r i new s).desc q j = if q = r ∧ j = i ∧ i < (s.ring r).length then new else s.desc q j := by
  rw [writeDesc_eq, ← State.desc_setDesc]
  rfl

@[simp] theorem length_ring_writeDesc (r q : Ring) (i : Nat) (new : Desc) (s : State) :
    ((writeDesc r i new s).ring q).length = (s.ring q).length := by
  rw [writeDesc_eq, ← State.length_ring_setDesc s r q i new]
  rfl

theorem writeDesc_rx_txd (i : Nat) (new : Desc) (s : State) : (writeDesc .rx i new s).txd = s.txd := by
  rw [writeDesc_eq]; rfl
theorem writeDesc_tx_rxd (i : Nat) (new : Desc) (s : State) : (writeDesc .tx i new s).rxd = s.rxd := by
  rw [writeDesc_eq]; rfl
theorem writeDesc_rx_rxd (i : Nat) (new : Desc) (s : State) : (writeDesc .rx i new s).rxd = s.rxd.set i new := by
  rw [writeDesc_eq]; rfl
theorem writeDesc_tx_txd (i : Nat) (new : Desc) (s : State) : (writeDesc .tx i new s).txd = s.txd.set i new := by
  rw [writeDesc_eq]; rfl

end Sys2Proof.Machine
end

