-- ==== Sys2Proof/Laws/Memory.lean ====
section
/-!
SUPPORT. Laws of memory: a read after a write, the canonical form kept by every memory operation, and what a byte write
or a descriptor write leaves at every address of the flat space.
-/

namespace Sys2Proof.Machine

/-! ## Read after write -/

theorem Memory.read_insert (m : Memory) (a x : Nat) (b : Byte) :
    (m.insert a b).read x = if x = a then some b else m.read x := by
  induction m with
  | nil => simp [Memory.insert, Memory.read, eq_comm]
  | cons c m ih =>
    obtain ⟨k, v⟩ := c
    simp only [Memory.insert]
    split
    · simp only [Memory.read]; grind
    · split
      · simp only [Memory.read]; grind
      · simp only [Memory.read, ih]; grind

/-- Every listed address is above `a`. -/
def Memory.above (m : Memory) (a : Nat) : Prop := ∀ c ∈ m, a < c.1

theorem Memory.wf_cons {c : Host.Cell} {m : Memory} :
    Memory.wf (c :: m) = true ↔ Memory.above m c.1 ∧ Memory.wf m = true := by
  induction m generalizing c with
  | nil => simp [Memory.wf, Memory.above]
  | cons d m ih =>
    obtain ⟨a, x⟩ := c
    obtain ⟨b, y⟩ := d
    simp only [Memory.wf, Bool.and_eq_true, decide_eq_true_eq, ih, Memory.above, List.mem_cons, forall_eq_or_imp]
    constructor
    · rintro ⟨h1, h2, h3⟩
      exact ⟨⟨h1, fun c hc => Nat.lt_trans h1 (h2 c hc)⟩, h2, h3⟩
    · rintro ⟨⟨h1, _⟩, h2, h3⟩
      exact ⟨h1, h2, h3⟩

theorem Memory.read_none_of_above {m : Memory} {a x : Nat} (h : Memory.above m a) (hx : x ≤ a) : m.read x = none := by
  induction m with
  | nil => rfl
  | cons c m ih =>
    obtain ⟨k, v⟩ := c
    have hk : a < k := h _ (List.mem_cons_self ..)
    simp only [Memory.read]
    rw [if_neg (by omega)]
    exact ih fun c hc => h c (List.mem_cons_of_mem _ hc)

theorem Memory.read_erase {m : Memory} (hw : m.wf = true) (a x : Nat) :
    (m.erase a).read x = if x = a then none else m.read x := by
  induction m with
  | nil => simp [Memory.erase, Memory.read]
  | cons c m ih =>
    obtain ⟨k, v⟩ := c
    obtain ⟨ha, hm⟩ := Memory.wf_cons.mp hw
    simp only [Memory.erase]
    split
    · next hk =>
      simp only [Memory.read]
      split
      · next hx => exact Memory.read_none_of_above ha (by simp_all)
      · next hx => rw [if_neg (by simp_all; exact fun h => hx h.symm)]
    · next hk =>
      simp only [Memory.read, ih hm]
      grind

theorem Memory.read_write {m : Memory} (hw : m.wf = true) (a x : Nat) (o : Option Byte) :
    (m.write a o).read x = if x = a then o else m.read x := by
  cases o with
  | none => exact Memory.read_erase hw a x
  | some b => exact Memory.read_insert m a x b

/-! ## The canonical form -/

theorem Memory.mem_insert {m : Memory} {a : Nat} {b : Byte} {c : Host.Cell} (h : c ∈ m.insert a b) :
    c = (a, b) ∨ c ∈ m := by
  induction m with
  | nil => simpa [Memory.insert] using h
  | cons d m ih =>
    obtain ⟨k, v⟩ := d
    simp only [Memory.insert] at h
    split at h
    · simpa using h
    · split at h
      · rcases List.mem_cons.mp h with h | h
        · exact .inl h
        · exact .inr (List.mem_cons_of_mem _ h)
      · rcases List.mem_cons.mp h with h | h
        · exact .inr (h ▸ List.mem_cons_self ..)
        · exact (ih h).imp_right (List.mem_cons_of_mem _)

theorem Memory.mem_of_mem_erase {m : Memory} {a : Nat} {c : Host.Cell} (h : c ∈ m.erase a) : c ∈ m := by
  induction m with
  | nil => exact h
  | cons d m ih =>
    obtain ⟨k, v⟩ := d
    simp only [Memory.erase] at h
    split at h
    · exact List.mem_cons_of_mem _ h
    · rcases List.mem_cons.mp h with h | h
      · exact h ▸ List.mem_cons_self ..
      · exact List.mem_cons_of_mem _ (ih h)

theorem Memory.wf_insert {m : Memory} (hw : m.wf = true) (a : Nat) (b : Byte) : (m.insert a b).wf = true := by
  induction m with
  | nil => rfl
  | cons c m ih =>
    obtain ⟨k, v⟩ := c
    obtain ⟨ha, hm⟩ := Memory.wf_cons.mp hw
    simp only [Memory.insert]
    split
    · next h =>
      refine Memory.wf_cons.mpr ⟨?_, hw⟩
      intro c hc
      rcases List.mem_cons.mp hc with rfl | hc
      · exact h
      · exact Nat.lt_trans h (ha c hc)
    · split
      · next h => subst h; exact Memory.wf_cons.mpr ⟨ha, hm⟩
      · next h1 h2 =>
        refine Memory.wf_cons.mpr ⟨?_, ih hm⟩
        intro c hc
        rcases Memory.mem_insert hc with rfl | hc
        · show k < a; omega
        · exact ha c hc

theorem Memory.wf_erase {m : Memory} (hw : m.wf = true) (a : Nat) : (m.erase a).wf = true := by
  induction m with
  | nil => rfl
  | cons c m ih =>
    obtain ⟨k, v⟩ := c
    obtain ⟨ha, hm⟩ := Memory.wf_cons.mp hw
    simp only [Memory.erase]
    split
    · exact hm
    · exact Memory.wf_cons.mpr ⟨fun c hc => ha c (Memory.mem_of_mem_erase hc), ih hm⟩

theorem Memory.wf_write {m : Memory} (hw : m.wf = true) (a : Nat) (o : Option Byte) : (m.write a o).wf = true := by
  cases o with
  | none => exact Memory.wf_erase hw a
  | some b => exact Memory.wf_insert hw a b

theorem Memory.wf_writeList {m : Memory} (hw : m.wf = true) (a : Nat) (bs : List (Option Byte)) :
    (m.writeList a bs).wf = true := by
  induction bs generalizing m a with
  | nil => exact hw
  | cons b bs ih => exact ih (Memory.wf_write hw a b) (a + 1)

theorem Memory.mem_write {m : Memory} {a : Nat} {o : Option Byte} {c : Host.Cell} (h : c ∈ m.write a o) :
    c.1 = a ∨ c ∈ m := by
  cases o with
  | none => exact .inr (Memory.mem_of_mem_erase h)
  | some b => exact (Memory.mem_insert h).imp_left fun h => congrArg Prod.fst h

/-- A list write lists no address but its own and those that were listed. -/
theorem Memory.mem_writeList {m : Memory} {a : Nat} {bs : List (Option Byte)} {c : Host.Cell}
    (h : c ∈ m.writeList a bs) : (a ≤ c.1 ∧ c.1 < a + bs.length) ∨ c ∈ m := by
  induction bs generalizing m a with
  | nil => exact .inr h
  | cons b bs ih =>
    rcases ih h with ⟨h1, h2⟩ | h
    · exact .inl ⟨by omega, by simp only [List.length_cons]; omega⟩
    · rcases Memory.mem_write h with h | h
      · exact .inl ⟨by omega, by simp only [List.length_cons]; omega⟩
      · exact .inr h

/-- A list write answers its own bytes inside its range and leaves every other address as it was. -/
theorem Memory.read_writeList {m : Memory} (hw : m.wf = true) (a x : Nat) (bs : List (Option Byte)) :
    (m.writeList a bs).read x =
      if a ≤ x ∧ x < a + bs.length then bs.getD (x - a) none else m.read x := by
  induction bs generalizing m a with
  | nil => simp only [Memory.writeList, List.length_nil]; rw [if_neg (by omega)]
  | cons b bs ih =>
    simp only [Memory.writeList, ih (Memory.wf_write hw a b), Memory.read_write hw, List.length_cons]
    by_cases hx : x = a
    · subst hx; simp
    · by_cases hr : a + 1 ≤ x ∧ x < a + 1 + bs.length
      · rw [if_pos hr, if_pos (by omega)]
        obtain ⟨k, hk⟩ : ∃ k, x - a = k + 1 := ⟨x - a - 1, by omega⟩
        rw [hk, show x - (a + 1) = k by omega]
        simp
      · rw [if_neg hr, if_neg hx, if_neg (by omega)]

/-! ## The flat space -/

/-- An address has a slot only inside its ring. -/
theorem State.slotAt_eq_some {s : State} {r : Ring} {a i k : Nat} (h : s.slotAt r a = some (i, k)) :
    a = descAddr s.cfg r i + k ∧ k < 16 ∧ i < (s.ring r).length := by
  simp only [State.slotAt] at h
  split at h
  · next hc =>
    simp only [Option.some.injEq, Prod.mk.injEq] at h
    obtain ⟨rfl, rfl⟩ := h
    refine ⟨?_, Nat.mod_lt _ (by omega), ?_⟩
    · have := Nat.div_add_mod (a - (s.cfg.ringAddr r).toNat) 16
      simp only [descAddr]; omega
    · omega
  · cases h

theorem State.slotAt_eq_none_iff {s : State} {r : Ring} {a : Nat} :
    s.slotAt r a = none ↔ ¬((s.cfg.ringAddr r).toNat ≤ a ∧ a < (s.cfg.ringAddr r).toNat + 16 * (s.ring r).length) := by
  simp only [State.slotAt]
  split <;> simp_all

theorem State.slotAt_of_inDesc {s : State} {r : Ring} {i k : Nat} (hi : i < (s.ring r).length) (hk : k < 16) :
    s.slotAt r (descAddr s.cfg r i + k) = some (i, k) := by
  have h1 : descAddr s.cfg r i + k - (s.cfg.ringAddr r).toNat = 16 * i + k := by simp only [descAddr]; omega
  have h2 : (s.cfg.ringAddr r).toNat ≤ descAddr s.cfg r i + k
      ∧ descAddr s.cfg r i + k < (s.cfg.ringAddr r).toNat + 16 * (s.ring r).length := by
    simp only [descAddr]; omega
  simp only [State.slotAt, if_pos h2, h1, Option.some.injEq, Prod.mk.injEq]
  omega

theorem State.slotAt_congr {s t : State} {r : Ring} (hc : t.cfg = s.cfg) (hl : (t.ring r).length = (s.ring r).length)
    (a : Nat) : t.slotAt r a = s.slotAt r a := by unfold State.slotAt; rw [hc, hl]

/-- Reading a byte depends on where the rings stand, on the slot that holds the address, and on memory. -/
theorem State.readByte_congr {s t : State} (hs : ∀ r a, t.slotAt r a = s.slotAt r a)
    (hd : ∀ r i k, s.slotAt r a = some (i, k) → (t.desc r i).byte t.cfg.layout k = (s.desc r i).byte s.cfg.layout k)
    (hm : s.slotAt .rx a = none → s.slotAt .tx a = none → t.mem.read a = s.mem.read a) :
    t.readByte a = s.readByte a := by
  unfold State.readByte
  rw [hs .rx, hs .tx]
  cases h : s.slotAt .rx a with
  | some p => simp only [hd .rx _ _ h]
  | none =>
    cases h' : s.slotAt .tx a with
    | some p => simp only [hd .tx _ _ h']
    | none => simp only [hm h h']

/-- Two states with the same configuration, rings and memory have the same bytes. -/
theorem State.readByte_eq_of {s t : State} (hc : t.cfg = s.cfg) (hr : t.rxd = s.rxd) (ht : t.txd = s.txd)
    (hm : t.mem = s.mem) (a : Nat) : t.readByte a = s.readByte a := by
  have hring : ∀ q, t.ring q = s.ring q := fun q => by cases q <;> assumption
  refine State.readByte_congr (fun r a => State.slotAt_congr hc (by rw [hring]) a) (fun r i k _ => ?_) (fun _ _ => by rw [hm])
  rw [State.desc, State.desc, hring, hc]

/-- Outside both rings the flat space is memory. -/
theorem State.readByte_of_none {s : State} {a : Nat} (h : s.slotAt .rx a = none) (h' : s.slotAt .tx a = none) :
    s.readByte a = s.mem.read a := by
  unfold State.readByte
  rw [h, h']

/-- A write of memory bytes is seen at its own addresses outside the rings and nowhere else. -/
theorem State.readByte_writeList {s : State} (hw : s.mem.wf = true) (a x : Nat) (bs : List (Option Byte)) :
    State.readByte { s with mem := s.mem.writeList a bs } x =
      if s.slotAt .rx x = none ∧ s.slotAt .tx x = none ∧ a ≤ x ∧ x < a + bs.length then bs.getD (x - a) none
      else s.readByte x := by
  split
  · next h =>
    exact (State.readByte_of_none (s := { s with mem := s.mem.writeList a bs }) h.1 h.2.1).trans
      ((Memory.read_writeList hw _ _ _).trans (if_pos h.2.2))
  · next h =>
    refine State.readByte_congr (fun _ _ => rfl) (fun _ _ _ _ => rfl) fun h1 h2 => ?_
    rw [Memory.read_writeList hw, if_neg fun h3 => h ⟨h1, h2, h3⟩]

/-- Without the canonical form: outside the written range every byte reads as before. -/
theorem Memory.read_insert_ne (m : Memory) {a x : Nat} (b : Byte) (h : x ≠ a) : (m.insert a b).read x = m.read x := by
  rw [Memory.read_insert, if_neg h]

theorem Memory.read_erase_ne (m : Memory) {a x : Nat} (h : x ≠ a) : (m.erase a).read x = m.read x := by
  induction m with
  | nil => rfl
  | cons c m ih =>
    obtain ⟨k, v⟩ := c
    simp only [Memory.erase]
    split
    · simp only [Memory.read]; rw [if_neg (by omega)]
    · simp only [Memory.read, ih]

theorem Memory.read_writeList_outside (m : Memory) (a x : Nat) (bs : List (Option Byte))
    (h : ¬(a ≤ x ∧ x < a + bs.length)) : (m.writeList a bs).read x = m.read x := by
  induction bs generalizing m a with
  | nil => rfl
  | cons b bs ih =>
    simp only [List.length_cons] at h
    rw [Memory.writeList, ih _ _ (by omega)]
    cases b with
    | none => exact Memory.read_erase_ne m (by omega)
    | some b => exact Memory.read_insert_ne m b (by omega)

theorem State.readByte_writeList_outside (s : State) (a x : Nat) (bs : List (Option Byte))
    (h : ¬(a ≤ x ∧ x < a + bs.length)) :
    State.readByte { s with mem := s.mem.writeList a bs } x = s.readByte x :=
  State.readByte_congr (fun _ _ => rfl) (fun _ _ _ _ => rfl) fun _ _ => Memory.read_writeList_outside _ _ _ _ h

/-- A descriptor replaced: every byte outside the slot reads as before. -/
theorem State.readByte_setDesc_outside (s : State) (r : Ring) (i : Nat) (d : Desc) (x : Nat)
    (h : ¬(descAddr s.cfg r i ≤ x ∧ x < descAddr s.cfg r i + 16)) : (s.setDesc r i d).readByte x = s.readByte x := by
  refine State.readByte_congr (fun q y => State.slotAt_congr (by simp) (by simp) y) (fun q j k hq => ?_)
    (fun _ _ => by simp)
  obtain ⟨h1, h2, _⟩ := State.slotAt_eq_some hq
  rw [State.desc_setDesc_ne, State.setDesc_cfg]
  rintro ⟨rfl, rfl⟩
  exact h ⟨by omega, by omega⟩

/-- Byte `k` of RX descriptor `i` stands at `RXRING_ADDR + 16*i + k`. -/
theorem State.readByte_of_inDesc {s : State} {i k : Nat} (hi : i < s.rxd.length) (hk : k < 16) :
    s.readByte (descAddr s.cfg .rx i + k) = some ((s.desc .rx i).byte s.cfg.layout k) := by
  have h := State.slotAt_of_inDesc (s := s) (r := .rx) hi hk
  unfold State.readByte
  rw [h]

/-- Byte `k` of TX descriptor `i` stands at `TXRING_ADDR + 16*i + k`, where the RX ring does not lie over it. -/
theorem State.readByte_of_inDesc_tx {s : State} {i k : Nat} (hi : i < s.txd.length) (hk : k < 16)
    (hr : s.slotAt .rx (descAddr s.cfg .tx i + k) = none) :
    s.readByte (descAddr s.cfg .tx i + k) = some ((s.desc .tx i).byte s.cfg.layout k) := by
  have h := State.slotAt_of_inDesc (s := s) (r := .tx) hi hk
  unfold State.readByte
  rw [hr, h]

end Sys2Proof.Machine
end

