-- ==== Sys2Proof/Laws/Ops.lean ====
section
/-!
SUPPORT. Laws of the shared operations: sequencing of results, the command port (one gate and one body per instruction), and
one lemma for each procedure that says what it answers and leaves.
-/

namespace Sys2Proof.Machine

/-! ## Results -/

namespace Res

@[simp] theorem ok_andThen (s : State) (k : State → Res) : (Res.ok s).andThen k = k s := rfl
@[simp] theorem done_andThen (st : Status) (res : Word) (s : State) (k : State → Res) :
    (Res.done st res s).andThen k = k s := rfl
@[simp] theorem raised_andThen (s : State) (k : State → Res) : (Res.raised s).andThen k = .raised s := rfl
@[simp] theorem stop_andThen (f : Fault) (k : State → Res) : (Res.stop f).andThen k = .stop f := rfl

theorem andThen_assoc (r : Res) (k l : State → Res) : (r.andThen k).andThen l = r.andThen fun s => (k s).andThen l := by
  cases r <;> rfl

/-- A sequence completes when its first part completes and its second part completes from there. -/
theorem andThen_eq_done {r : Res} {k : State → Res} {st : Status} {res : Word} {t : State}
    (h : r.andThen k = .done st res t) : ∃ st' res' u, r = .done st' res' u ∧ k u = .done st res t := by
  cases r with
  | done st' res' u => exact ⟨st', res', u, rfl, h⟩
  | raised u => cases h
  | stop f => cases h

/-- Everything a result leaves is related to the state it began from. -/
def Rel (R : State → State → Prop) (s : State) : Res → Prop
  | .done _ _ t => R s t
  | .raised t => R s t
  | .stop _ => True

/-- A transitive relation passes through a sequence. -/
theorem Rel.andThen {R : State → State → Prop} (tr : ∀ a b c, R a b → R b c → R a c) {s : State} {r : Res}
    {k : State → Res} (h : r.Rel R s) (hk : ∀ t, R s t → (k t).Rel R t) : (r.andThen k).Rel R s := by
  cases r with
  | done st res t =>
    have := hk t h
    simp only [done_andThen]
    cases hkt : k t with
    | done st' res' u => rw [hkt] at this; exact tr _ _ _ h this
    | raised u => rw [hkt] at this; exact tr _ _ _ h this
    | stop f => trivial
  | raised t => exact h
  | stop f => trivial

end Res

/-! ## The command port -/

/-- The operation behind an instruction's gate. -/
def bodyOf (i : Instr) (s : State) : Res :=
  match i with
  | .advance r c => .done .ok (BitVec.ofNat 32 (advanceCursor s.cfg r c.toNat)) s
  | .isHw r idx => .done .ok (if (s.desc r idx.toNat).own = .hw then 1 else 0) s
  | .release r idx buf len fs ls ic => Machine.release r idx.toNat buf len fs ls ic s
  | .reclaim r idx => Machine.reclaim r idx.toNat s
  | .pollReceive => Machine.pollReceive s
  | .submit p n => Machine.submit p n s
  | .reclaimCompleted => Machine.reclaimCompleted s
  | .txpoll => Machine.txpoll s
  | .irq => Machine.irq s
  | .process snap => Machine.process snap s
  | .workerRun => Machine.workerRun s
  | .workerDone => .ok (Machine.workerDone s)
  | .tick => .ok (Machine.tick s)
  | .pollExpire => Machine.pollExpire s
  | .txtoExpire => Machine.txtoExpire s
  | .ptStart => .ok (Machine.ptStart s)
  | .ptCancel => .ok (Machine.ptCancel s)
  | .txtoStart => .ok (Machine.txtoStart s)
  | .txtoCancel => .ok (Machine.txtoCancel s)
  | .bringUp => Machine.bringUp s
  | .bringDown => .ok (Machine.bringDown s)
  | .notifyTxAvailable => Machine.notifyTxAvailable s
  | .regRead reg => .done .ok (s.regVal reg) (Machine.regRead reg s)
  | .regWrite reg v => .ok (Machine.regWrite reg v s)
  | .addMc => .ok s
  | .removeMc => .ok s
  | .macTxDone idx stat => .ok (Machine.macTxDone idx.toNat stat s)
  | .macRxFrame len fs ls stat seed => Machine.macRxFrame len fs ls stat seed s
  | .macRaise bits => .ok (raiseBits bits s)
  | .macPhy link => .ok (raiseBits phyChg { s with phyLink := link })

/-- Every instruction is its gate and its body. -/
theorem exec_eq_command (i : Instr) (s : State) : exec i s = command (gateOf i s) (bodyOf i) s := by cases i <;> rfl

@[simp] theorem gateOf_cls (i : Instr) (s : State) : (gateOf i s).cls = opClass i := rfl

/-- What the port answers when the gate is open. -/
theorem exec_of_portCheck {i : Instr} {s : State} (h : portCheck (gateOf i s) s = .ok) :
    exec i s = answerCommand (opClass i) (bodyOf i s) := by
  rw [exec_eq_command, command, h]
  rfl

/-- An answer with a status, as the claims write it. -/
theorem respond_eq (i : Instr) (st : Status) (res : Word) (s : State) :
    respond (opClass i) st res s =
      { s with
        resp := some (.returned st res)
        trace := s.trace ++ (if opClass i = .host then [.hostReturn st res] else []) } := by
  cases h : opClass i <;> simp [respond, State.log]

/-- What the port answers when the gate is shut: a status, and nothing else changes. -/
theorem exec_of_refused {i : Instr} {s : State} (h : portCheck (gateOf i s) s ≠ .ok) :
    exec i s = .next (s.refused i (portCheck (gateOf i s) s)) := by
  rw [exec_eq_command, command]
  cases ha : portCheck (gateOf i s) s with
  | ok => exact absurd ha h
  | _ => simp only [gateOf_cls, respond_eq, State.refused]

/-- The gate is open exactly when no check of rule R261 fails. -/
theorem portCheck_eq_ok_iff (g : Gate) (s : State) :
    portCheck g s = .ok ↔ g.legal = true ∧ (s.fault = .none ∨ g.exempt = true) ∧ g.cls ≠ .reserved
      ∧ (g.cls = .internal → s.cfg.testPort = true) ∧ (g.cls = .host → s.inflight = none) ∧ g.guard = true := by
  have hi : s.inflight.isSome = false ↔ s.inflight = none := by cases s.inflight <;> simp
  obtain ⟨cls, legal, exempt, guard⟩ := g
  cases hf : s.inflight <;> cases cls <;> cases legal <;> cases exempt <;> cases guard <;> cases hc : s.cfg.testPort <;>
    by_cases hn : s.fault = .none <;> simp [portCheck, hc, hf, hn]

/-- An `INTERNAL` operation with legal operands runs at an open test port. -/
theorem exec_open {i : Instr} {s : State} (hp : s.portOpen) (hc : opClass i = .internal) (hw : i.wf s.cfg = true)
    (hg : (gateOf i s).guard = true) : exec i s = answerCommand .internal (bodyOf i s) := by
  rw [exec_of_portCheck ((portCheck_eq_ok_iff _ _).mpr
    ⟨hw, .inl hp.2, by simp [hc], fun _ => hp.1, by simp [hc], hg⟩), hc]

/-- An event whose guard holds runs on a device without a fault. -/
theorem exec_event {i : Instr} {s : State} (hf : s.fault = .none) (hc : opClass i = .event) (hw : i.wf s.cfg = true)
    (hg : (gateOf i s).guard = true) : exec i s = answerCommand .event (bodyOf i s) := by
  rw [exec_of_portCheck ((portCheck_eq_ok_iff _ _).mpr ⟨hw, .inl hf, by simp [hc], by simp [hc], by simp [hc], hg⟩), hc]

/-- A move of the MAC agent whose guard holds runs on a device without a fault. -/
theorem exec_env {i : Instr} {s : State} (hf : s.fault = .none) (hc : opClass i = .env) (hw : i.wf s.cfg = true)
    (hg : (gateOf i s).guard = true) : exec i s = answerCommand .env (bodyOf i s) := by
  rw [exec_of_portCheck ((portCheck_eq_ok_iff _ _).mpr ⟨hw, .inl hf, by simp [hc], by simp [hc], by simp [hc], hg⟩), hc]

/-- A host call runs while no pass is in flight on a device without a fault. -/
theorem exec_host {i : Instr} {s : State} (hr : s.hostReady) (hc : opClass i = .host) (hw : i.wf s.cfg = true)
    (hg : (gateOf i s).guard = true) : exec i s = answerCommand .host (bodyOf i s) := by
  rw [exec_of_portCheck ((portCheck_eq_ok_iff _ _).mpr
    ⟨hw, .inl hr.2, by simp [hc], by simp [hc], fun _ => hr.1, hg⟩), hc]

/-- A next state of the machine is a refusal, or what the body left. -/
theorem exec_next_cases {i : Instr} {s t : State} (h : exec i s = .next t) :
    (portCheck (gateOf i s) s ≠ .ok ∧ t = s.refused i (portCheck (gateOf i s) s)) ∨
    (portCheck (gateOf i s) s = .ok ∧
      ((∃ st res u, bodyOf i s = .done st res u ∧ t = respond (opClass i) st res u) ∨
       (∃ u, bodyOf i s = .raised u ∧ t = respondFault u))) := by
  by_cases ha : portCheck (gateOf i s) s = .ok
  · refine .inr ⟨ha, ?_⟩
    rw [exec_of_portCheck ha] at h
    cases hb : bodyOf i s with
    | done st res u =>
      rw [hb] at h
      exact .inl ⟨st, res, u, rfl, by simpa [answerCommand] using h.symm⟩
    | raised u =>
      rw [hb] at h
      exact .inr ⟨u, rfl, by simpa [answerCommand] using h.symm⟩
    | stop f => rw [hb] at h; cases h
  · refine .inl ⟨ha, ?_⟩
    rw [exec_of_refused ha] at h
    simpa using h.symm

/-- A relation that holds through the body of an instruction, of a refusal and of an answer holds through the instruction. -/
theorem exec_rel {R : State → State → Prop} (tr : ∀ a b c, R a b → R b c → R a c)
    (href : ∀ (i : Instr) (st : Status) (s : State), R s (s.refused i st))
    (hresp : ∀ (i : Instr) (st : Status) (res : Word) (s : State), R s (respond (opClass i) st res s))
    (hfault : ∀ s, R s (respondFault s))
    {i : Instr} {s t : State} (hb : (bodyOf i s).Rel R s) (h : exec i s = .next t) : R s t := by
  rcases exec_next_cases h with ⟨_, rfl⟩ | ⟨_, ⟨st, res, u, hu, rfl⟩ | ⟨u, hu, rfl⟩⟩
  · exact href ..
  · rw [hu] at hb; exact tr _ _ _ hb (hresp ..)
  · rw [hu] at hb; exact tr _ _ _ hb (hfault u)

/-! ## Ring arithmetic -/

/-- A legal capacity is a power of two. -/
theorem capacityOk_iff {n : Nat} : Config.capacityOk n = true ↔ ∃ k, k < 16 ∧ n = 2 ^ k := by
  simp [Config.capacityOk, List.any_eq_true, List.mem_range]

/-- On a ring of legal capacity `ADVANCE` is addition of 1 modulo the capacity (rules R140 and R145). -/
theorem advanceCursor_eq {cfg : Config} {r : Ring} (h : Config.capacityOk (cfg.capacity r) = true) (c : Nat) :
    advanceCursor cfg r c = (c + 1) % cfg.capacity r := by
  obtain ⟨k, _, hk⟩ := capacityOk_iff.mp h
  rw [advanceCursor, hk, Nat.and_two_pow_sub_one_eq_mod]

theorem advanceCursor_lt {cfg : Config} {r : Ring} (h : 1 ≤ cfg.capacity r) (c : Nat) :
    advanceCursor cfg r c < cfg.capacity r := by
  have := Nat.and_le_right (n := c + 1) (m := cfg.capacity r - 1)
  simp only [advanceCursor]; omega

theorem macNext_lt {cfg : Config} {r : Ring} (h : 1 ≤ cfg.capacity r) (w : Bool) (i : Nat) :
    macNext cfg r w i < cfg.capacity r := by
  unfold macNext
  split
  · omega
  · exact Nat.mod_lt _ (by omega)

/-! ## Ring primitives -/

theorem release_hw {r : Ring} {i : Nat} {s : State} (buf : Word) (len : Half) (fs ls ic : Bool)
    (h : (s.desc r i).own = .hw) : release r i buf len fs ls ic s = raise .vReleaseHw s := if_pos h

theorem release_sw {r : Ring} {i : Nat} {s : State} (buf : Word) (len : Half) (fs ls ic : Bool)
    (h : (s.desc r i).own = .sw) :
    release r i buf len fs ls ic s = .ok (writeDesc r i
      { own := .hw, buf := fitBuf s.cfg.layout buf, len := fitLen s.cfg.layout len, fs := fs, ls := ls,
        wrap := (s.desc r i).wrap, ic := ic, stat := 0 } s) :=
  if_neg (by rw [h]; decide)

theorem reclaim_hw {r : Ring} {i : Nat} {s : State} (h : (s.desc r i).own = .hw) :
    reclaim r i s = raise .vReclaimHw s := if_pos h

theorem reclaim_sw {r : Ring} {i : Nat} {s : State} (h : (s.desc r i).own = .sw) :
    reclaim r i s = .ok (writeDesc r i (Desc.clear (s.desc r i).wrap) s) := if_neg (by rw [h]; decide)

theorem fits_submitted (s : State) (p : Word) (n : Half) : (s.submitted p n).fits s.cfg.layout = true :=
  Desc.fits_of (toNat_fitBuf_lt ..) (toNat_fitLen_lt ..) (Nat.two_pow_pos _)

theorem fits_recycled (s : State) (i : Nat) : (s.recycled i).fits s.cfg.layout = true :=
  Desc.fits_of (toNat_fitBuf_lt ..) (toNat_fitLen_lt ..) (Nat.two_pow_pos _)

/-! ## The transmit path -/

theorem clampLen_eq (n : Half) : clampLen n = if n.toNat ≤ 60 then 60 else n := by
  unfold clampLen
  have hm : minFrame.toNat = 60 := rfl
  rw [hm]
  split
  · rw [if_pos (by omega)]; rfl
  · split
    · next h1 h2 => exact BitVec.eq_of_toNat_eq (by show n.toNat = 60; omega)
    · rfl

theorem submit_down {s : State} (p : Word) (n : Half) (h : s.up = false) : submit p n s = .done .eDown 0 s := by
  simp [submit, h]

theorem submit_full {s : State} (p : Word) (n : Half) (h : s.up = true) (hf : s.txPend = s.cfg.nTx) :
    submit p n s = raise .vAdmission s := by
  simp [submit, h, hf]

/-- An accepted submission (rule R161). -/
theorem submit_ok {s : State} (p : Word) (n : Half) (h : s.up = true) (hf : s.txPend ≠ s.cfg.nTx)
    (ho : (s.desc .tx s.txCur).own = .sw) : submit p n s = .ok (s.withSubmitted p n) := by
  have hs : Desc.mk .hw (fitBuf s.cfg.layout p) (fitLen s.cfg.layout (clampLen n)) true true (s.desc .tx s.txCur).wrap true 0 = s.submitted p n := by
    rw [clampLen_eq]; rfl
  rw [submit]
  simp only [h, Bool.not_true, Bool.false_eq_true, if_false, hf, release_sw _ _ _ _ _ ho, Res.ok_andThen, hs]
  rw [writeDesc_eq]
  simp [afterSubmit, regWrite, writeEffect, State.log, txtoStart, State.withSubmitted, State.setDesc, advanceCursor,
    Config.capacity, descEvents]

end Sys2Proof.Machine
end

