-- ==== Sys2Proof/Laws/Layout.lean ====
section
/-!
SUPPORT. What a well-formed configuration says of the address space (rules R7, R71, R90), and the laws of the accesses to
frame buffers and the exchange buffer that rest on it: such an access never leaves the address space, never meets the
control block and never meets a ring.
-/

namespace Sys2Proof

namespace Config

/-- The parts of `Config.wf`. -/
theorem wf_iff {cfg : Config} : cfg.wf = true ↔ cfg.ringsNonempty = true ∧ cfg.buffersNamed = true ∧ cfg.sizesOk = true
    ∧ cfg.aligned = true ∧ cfg.insideSpace = true ∧ cfg.disjointRegions = true ∧ cfg.ackWritable = true
    ∧ cfg.layout.wf = true := by
  simp only [wf, Bool.and_eq_true, and_assoc]

theorem capacity_pos {cfg : Config} (h : cfg.wf = true) (r : Ring) : 1 ≤ cfg.capacity r := by
  have := (wf_iff.mp h).1
  simp only [ringsNonempty, Bool.and_eq_true, decide_eq_true_eq] at this
  cases r
  · exact this.1
  · exact this.2

theorem buffers_length {cfg : Config} (h : cfg.wf = true) : cfg.rxBufAddr.length = cfg.nRx := by
  simpa [buffersNamed] using (wf_iff.mp h).2.1

theorem xbufSize_ge {cfg : Config} (h : cfg.wf = true) : cfg.rxBufSize.toNat ≤ cfg.xbufSize := by
  have := (wf_iff.mp h).2.2.1
  simp only [sizesOk, Bool.and_eq_true, decide_eq_true_eq] at this
  exact this.2

theorem inside {cfg : Config} (h : cfg.wf = true) {r : Region} (hr : r ∈ cfg.regions) : r.1 + r.2 ≤ 2 ^ 32 := by
  have := (wf_iff.mp h).2.2.2.2.1
  simp only [insideSpace, List.all_eq_true, decide_eq_true_eq] at this
  exact this r hr

/-- Two regions in the order of rule R71 share no address. -/
theorem pairwise {cfg : Config} (h : cfg.wf = true) :
    cfg.regions.Pairwise fun r q => r.1 + r.2 ≤ q.1 ∨ q.1 + q.2 ≤ r.1 := by
  have := (wf_iff.mp h).2.2.2.2.2.1
  simp only [disjointRegions, decide_eq_true_eq] at this
  exact this.imp fun {r q} h => by simpa [Region.disjoint] using h

theorem layout_wf {cfg : Config} (h : cfg.wf = true) : cfg.layout.wf = true := (wf_iff.mp h).2.2.2.2.2.2.2

/-- The receive buffers' addresses and the configured size are written as they stand when they fit. -/
theorem fit_rxBufAddr {cfg : Config} (h : cfg.fieldsFit = true) (i : Nat) :
    Machine.fitBuf cfg.layout (cfg.rxBufAddr.getD i 0) = cfg.rxBufAddr.getD i 0 := by
  simp only [fieldsFit, Bool.and_eq_true, decide_eq_true_eq, List.all_eq_true] at h
  refine Machine.fitBuf_eq ?_
  rw [List.getD_eq_getElem?_getD]
  cases hi : cfg.rxBufAddr[i]? with
  | none => exact Nat.two_pow_pos _
  | some a => exact h.2 a (List.mem_of_getElem? hi)

theorem fit_rxBufSize {cfg : Config} (h : cfg.fieldsFit = true) : Machine.fitLen cfg.layout cfg.rxBufSize = cfg.rxBufSize := by
  simp only [fieldsFit, Bool.and_eq_true, decide_eq_true_eq] at h
  exact Machine.fitLen_eq h.1

/-- What construction writes is cut to its fields, so its words can hold it. -/
theorem fits_constructed (cfg : Config) (r : Ring) (i : Nat) : (Machine.Desc.constructed cfg r i).fits cfg.layout = true := by
  cases r
  · exact Machine.Desc.fits_of (Machine.toNat_fitBuf_lt ..) (Machine.toNat_fitLen_lt ..) (Nat.two_pow_pos _)
  · exact Machine.Desc.fits_clear ..

theorem mem_regions_xbuf (cfg : Config) : cfg.xbufRegion ∈ cfg.regions := by simp [regions]
theorem mem_regions_buf {cfg : Config} {i : Nat} (hi : i < cfg.rxBufAddr.length) :
    ((cfg.rxBufAddr.getD i 0).toNat, cfg.rxBufSize.toNat) ∈ cfg.regions := by
  simp only [regions, rxBufRegions]
  refine List.mem_append_left _ (List.mem_cons_of_mem _ (List.mem_cons_of_mem _ ?_))
  refine List.mem_map.mpr ⟨cfg.rxBufAddr[i], List.getElem_mem hi, ?_⟩
  simp [List.getD_eq_getElem?_getD, hi]

/-- The exchange buffer meets neither a ring nor the control block. -/
theorem xbuf_apart {cfg : Config} (h : cfg.wf = true) :
    let x := cfg.xbufRegion
    let apart := fun q : Region => q.1 + q.2 ≤ x.1 ∨ x.1 + x.2 ≤ q.1
    apart cfg.rxRingRegion ∧ apart cfg.txRingRegion ∧ apart cfg.regRegion := by
  have hp := pairwise h
  simp only [regions, List.cons_append, List.pairwise_cons, List.mem_cons, List.mem_append] at hp
  obtain ⟨h1, h2, h3⟩ := hp
  have h4 := (List.pairwise_append.mp h3).2.1
  simp only [List.pairwise_cons, List.mem_cons] at h4
  exact ⟨h1 _ (by simp), h2 _ (by simp), (h4.1 _ (by simp)).symm⟩

/-- An RX frame buffer meets neither a ring, nor the exchange buffer, nor the control block. -/
theorem buf_apart {cfg : Config} (h : cfg.wf = true) {i : Nat} (hi : i < cfg.nRx) :
    let b : Region := ((cfg.rxBufAddr.getD i 0).toNat, cfg.rxBufSize.toNat)
    let apart := fun q : Region => q.1 + q.2 ≤ b.1 ∨ b.1 + b.2 ≤ q.1
    apart cfg.rxRingRegion ∧ apart cfg.txRingRegion ∧ apart cfg.xbufRegion ∧ apart cfg.regRegion := by
  have hl : i < cfg.rxBufAddr.length := by rw [buffers_length h]; exact hi
  have hb : ((cfg.rxBufAddr.getD i 0).toNat, cfg.rxBufSize.toNat) ∈ cfg.rxBufRegions :=
    List.mem_map.mpr ⟨cfg.rxBufAddr[i], List.getElem_mem hl, by simp [List.getD_eq_getElem?_getD, hl]⟩
  have hp := pairwise h
  simp only [regions, List.cons_append, List.pairwise_cons, List.mem_cons, List.mem_append] at hp
  obtain ⟨h1, h2, h3⟩ := hp
  have h4 := (List.pairwise_append.mp h3).2.2 _ hb
  exact ⟨h1 _ (.inr (.inl hb)), h2 _ (.inl hb), (h4 _ (by simp)).symm, (h4 _ (by simp)).symm⟩

/-- Two RX frame buffers share no address. -/
theorem bufs_apart {cfg : Config} (h : cfg.wf = true) {i j : Nat} (hi : i < cfg.nRx) (hj : j < cfg.nRx) (hne : i ≠ j) :
    (cfg.rxBufAddr.getD i 0).toNat + cfg.rxBufSize.toNat ≤ (cfg.rxBufAddr.getD j 0).toNat ∨
    (cfg.rxBufAddr.getD j 0).toNat + cfg.rxBufSize.toNat ≤ (cfg.rxBufAddr.getD i 0).toNat := by
  have hl := buffers_length h
  have hp := pairwise h
  simp only [regions, List.cons_append, List.pairwise_cons] at hp
  have h4 := (List.pairwise_append.mp hp.2.2).1
  rw [rxBufRegions, List.pairwise_map, List.pairwise_iff_getElem] at h4
  rcases Nat.lt_or_gt_of_ne hne with hlt | hlt
  · have := h4 i j (by omega) (by omega) hlt
    simpa [List.getD_eq_getElem?_getD, hl, hi, hj] using this
  · have := h4 j i (by omega) (by omega) hlt
    have := this.symm
    simpa [List.getD_eq_getElem?_getD, hl, hi, hj] using this

end Config

namespace Machine

theorem rangesMeet_false {a n b m : Nat} (h : a + n ≤ b ∨ b + m ≤ a) : rangesMeet a n b m = false := by
  simp only [rangesMeet, Bool.and_eq_false_iff, decide_eq_false_iff_not]; omega

/-- Frame bytes inside an RX buffer can be accessed. -/
theorem frameFault_buf {cfg : Config} (h : cfg.wf = true) {i n : Nat} (hi : i < cfg.nRx) (hn : n ≤ cfg.rxBufSize.toNat) :
    frameFault cfg (cfg.rxBufAddr.getD i 0).toNat n = none := by
  have h1 := Config.inside h (Config.mem_regions_buf (cfg := cfg) (i := i) (by rw [Config.buffers_length h]; exact hi))
  have h2 := (Config.buf_apart h hi).2.2.2
  simp only [Config.regRegion] at h1 h2
  unfold frameFault
  rw [if_neg (by omega : ¬ 2 ^ 32 < _), rangesMeet_false (by omega)]
  simp

/-- The exchange buffer can be written up to its size. -/
theorem xbufFault_none {cfg : Config} (h : cfg.wf = true) {n : Nat} (hn : n ≤ cfg.xbufSize) : xbufFault cfg n = none := by
  have h1 := Config.inside h (Config.mem_regions_xbuf cfg)
  obtain ⟨h2, h3, h4⟩ := Config.xbuf_apart h
  simp only [Config.xbufRegion, Config.rxRingRegion, Config.txRingRegion, Config.regRegion] at h1 h2 h3 h4
  have hf : frameFault cfg cfg.xbufAddr.toNat n = none := by
    unfold frameFault
    rw [if_neg (by omega : ¬ 2 ^ 32 < _), rangesMeet_false (by omega)]
    simp
  unfold xbufFault
  rw [hf, rangesMeet_false (by omega), rangesMeet_false (by omega)]
  simp

/-- A write of the exchange buffer that is not refused never meets a ring, nor the control block, nor the top of the
address space. -/
theorem xbufFault_eq_none {cfg : Config} {n : Nat} (h : xbufFault cfg n = none) (hn : n ≠ 0) :
    cfg.xbufAddr.toNat + n ≤ 2 ^ 32 ∧
    rangesMeet cfg.xbufAddr.toNat n cfg.regBase.toNat cfg.layout.regSpan = false ∧
    rangesMeet cfg.xbufAddr.toNat n cfg.rxRingAddr.toNat (16 * cfg.nRx) = false ∧
    rangesMeet cfg.xbufAddr.toNat n cfg.txRingAddr.toNat (16 * cfg.nTx) = false := by
  unfold xbufFault at h
  cases hf : frameFault cfg cfg.xbufAddr.toNat n with
  | some f => rw [hf] at h; cases h
  | none =>
    rw [hf] at h
    simp only [ite_eq_right_iff, reduceCtorEq, imp_false, not_and, not_or, Bool.not_eq_true] at h
    unfold frameFault at hf
    rw [if_neg hn] at hf
    split at hf
    · cases hf
    · split at hf
      · cases hf
      · next h1 h2 => exact ⟨by omega, by simpa using h2, h hn⟩

theorem rangesMeet_eq_false {a n b m : Nat} (h : rangesMeet a n b m = false) {x : Nat} (hx : a ≤ x ∧ x < a + n) :
    ¬(b ≤ x ∧ x < b + m) := by
  simp only [rangesMeet, Bool.and_eq_false_iff, decide_eq_false_iff_not] at h
  omega

/-! ## The exchange buffer and the callouts -/

/-- The state one upstream callout leaves, before anything is submitted. -/
def afterCallState (c : Callout) (s : State) : State :=
  { s with
    mem := s.mem.writeList s.cfg.xbufAddr.toNat (s.answerBytes.map some)
    xlen := s.nextAnswer.len
    answers := s.answers.tail
    trace := s.trace ++ [.call c s.nextAnswer.len] }

theorem callUp_ok {s : State} (c : Callout) (h : xbufFault s.cfg s.answerBytes.length = none) :
    callUp c s = .ok (afterCallState c s) := by
  have h' : xbufFault s.cfg ((s.nextAnswer.bytes.take s.cfg.xbufSize).map some).length = none := by
    rw [List.length_map]; exact h
  unfold callUp writeXbuf
  simp only [h', Res.ok_andThen]
  rfl

theorem answerBytes_length_le (s : State) : s.answerBytes.length ≤ s.cfg.xbufSize := by
  simp only [State.answerBytes, List.length_take]; omega

/-- Inside the exchange buffer the flat space is memory. -/
theorem slotAt_xbuf {s : State} (hs : Shape s) {x : Nat} (h1 : s.cfg.xbufAddr.toNat ≤ x)
    (h2 : x < s.cfg.xbufAddr.toNat + s.cfg.xbufSize) : s.slotAt .rx x = none ∧ s.slotAt .tx x = none := by
  obtain ⟨a, b, _⟩ := Config.xbuf_apart hs.cfg_wf
  simp only [Config.xbufRegion, Config.rxRingRegion, Config.txRingRegion] at a b
  have hr := hs.rx_length
  have ht := hs.tx_length
  constructor
  · rw [State.slotAt_eq_none_iff]
    simp only [Config.ringAddr, State.ring, hr]; omega
  · rw [State.slotAt_eq_none_iff]
    simp only [Config.ringAddr, State.ring, ht]; omega

/-- What a callout leaves, as the claims write it (rule R228). -/
theorem afterCall_state {s : State} (hs : Shape s) (c : Callout) : AfterCall c s (afterCallState c s) := by
  refine ⟨rfl, fun a => ?_⟩
  have h := State.readByte_writeList hs.mem_wf s.cfg.xbufAddr.toNat a (s.answerBytes.map some)
  have h' : (afterCallState c s).readByte a =
      State.readByte { s with mem := s.mem.writeList s.cfg.xbufAddr.toNat (s.answerBytes.map some) } a :=
    State.readByte_eq_of rfl rfl rfl rfl a
  rw [h', h, List.length_map]
  have hl := answerBytes_length_le s
  by_cases hr : s.cfg.xbufAddr.toNat ≤ a ∧ a < s.cfg.xbufAddr.toNat + s.answerBytes.length
  · have := slotAt_xbuf hs hr.1 (by omega)
    rw [if_pos ⟨this.1, this.2, hr.1, hr.2⟩, if_pos hr]
    have hlt : a - s.cfg.xbufAddr.toNat < s.answerBytes.length := by omega
    simp [List.getD_eq_getElem?_getD, hlt]
  · rw [if_neg (fun h => hr ⟨h.2.2.1, h.2.2.2⟩), if_neg hr]

/-- A callout never stops under a well-formed configuration. -/
theorem callUp_of_wf {s : State} (c : Callout) (h : s.cfg.wf = true) : callUp c s = .ok (afterCallState c s) :=
  callUp_ok c (xbufFault_none h (answerBytes_length_le s))

/-- A callout and the submission that follows it, when the ring has room (rules R165, R208, R151). -/
theorem callout_ok {s : State} (c : Callout) (h : s.cfg.wf = true) (hr : s.calloutHasRoom) :
    ∃ st res, (callUp c s).andThen submitAnswer = .done st res
      (if s.nextAnswer.len ≠ 0 ∧ s.up = true then
        (afterCallState c s).withSubmitted s.cfg.xbufAddr s.nextAnswer.len
      else afterCallState c s) := by
  rw [callUp_of_wf c h, Res.ok_andThen, submitAnswer]
  by_cases hl : s.nextAnswer.len = 0
  · exact ⟨.ok, 0, by simp [afterCallState, hl, Res.ok]⟩
  · cases hu : s.up with
    | false =>
      refine ⟨.eDown, 0, ?_⟩
      rw [if_pos (show (afterCallState c s).xlen ≠ 0 from hl), submit_down _ _ (show (afterCallState c s).up = false from hu)]
      simp
    | true =>
      obtain ⟨h1, h2⟩ := hr hl hu
      refine ⟨.ok, 0, ?_⟩
      rw [if_pos (show (afterCallState c s).xlen ≠ 0 from hl),
        submit_ok _ _ (show (afterCallState c s).up = true from hu) h1 h2, if_pos ⟨hl, rfl⟩]
      rfl

theorem afterCallout_state {s : State} (hs : Shape s) (c : Callout) :
    AfterCallout c s (if s.nextAnswer.len ≠ 0 ∧ s.up = true then
        (afterCallState c s).withSubmitted s.cfg.xbufAddr s.nextAnswer.len
      else afterCallState c s) := ⟨_, afterCall_state hs c, rfl⟩

/-- `TXPOLL` and `TIMER_HOOK` when the ring has room. -/
theorem txpoll_ok {s : State} (hs : Shape s) (hr : s.calloutHasRoom) :
    ∃ t, AfterCallout .poll s t ∧ txpoll s = .ok t := by
  obtain ⟨st, res, h⟩ := callout_ok .poll hs.cfg_wf hr
  exact ⟨_, afterCallout_state hs .poll, by rw [txpoll, h]; rfl⟩

theorem timerHook_ok {s : State} (hs : Shape s) (hr : s.calloutHasRoom) :
    ∃ t, AfterCallout .timerHook s t ∧ timerHook s = .ok t := by
  obtain ⟨st, res, h⟩ := callout_ok .timerHook hs.cfg_wf hr
  exact ⟨_, afterCallout_state hs .timerHook, by rw [timerHook, h]; rfl⟩

end Machine

end Sys2Proof
end

