-- ==== Sys2Proof/Laws/BlockStep.lean ====
section
/-!
SUPPORT. Everything an operation of the block can do, said once. `Common` is what every instruction keeps, the MAC agent's
moves and `BRING_UP` among them; `Owned` is what every operation of the block but `BRING_UP` keeps besides: a Hardware-owned
descriptor, and every byte outside the exchange buffer and the descriptors that are Software-owned.
-/

namespace Sys2Proof.Machine

/-- What every instruction keeps: the parameters, the command stream, the rings' sizes, the trace so far, a recorded fault,
and the shape of the state. -/
structure Common (s t : State) : Prop where
  cfg    : t.cfg = s.cfg
  cmds   : t.cmds = s.cmds
  rx_len : t.rxd.length = s.rxd.length
  tx_len : t.txd.length = s.txd.length
  trace  : ∃ es, t.trace = s.trace ++ es
  fault  : s.fault ≠ .none → t.fault = s.fault
  shape  : Shape s → Shape t

/-- What every operation of the block but `BRING_UP` keeps besides. -/
structure Owned (s t : State) : Prop where
  kept    : ∀ r i, (s.desc r i).own = .hw → t.desc r i = s.desc r i
  mem     : ∀ a, ¬ inXbuf s.cfg a → t.mem.read a = s.mem.read a
  answers : ∃ n, t.answers = s.answers.drop n
  phy     : t.phyLink = s.phyLink

/-- Both. -/
structure BlockStep (s t : State) : Prop where
  common : Common s t
  owned  : Owned s t

theorem Common.refl (s : State) : Common s s := ⟨rfl, rfl, rfl, rfl, ⟨[], by simp⟩, fun _ => rfl, id⟩

theorem Common.trans {a b c : State} (h : Common a b) (k : Common b c) : Common a c where
  cfg := k.cfg.trans h.cfg
  cmds := k.cmds.trans h.cmds
  rx_len := k.rx_len.trans h.rx_len
  tx_len := k.tx_len.trans h.tx_len
  trace := by
    obtain ⟨x, hx⟩ := h.trace
    obtain ⟨y, hy⟩ := k.trace
    exact ⟨x ++ y, by rw [hy, hx, List.append_assoc]⟩
  fault hf := (k.fault (by rw [h.fault hf]; exact hf)).trans (h.fault hf)
  shape hs := k.shape (h.shape hs)

theorem BlockStep.refl (s : State) : BlockStep s s :=
  ⟨.refl s, fun _ _ _ => rfl, fun _ _ => rfl, ⟨0, by simp⟩, rfl⟩

theorem BlockStep.trans {a b c : State} (h : BlockStep a b) (k : BlockStep b c) : BlockStep a c where
  common := h.common.trans k.common
  owned := {
    kept := fun r i ho => by
      have := h.owned.kept r i ho
      exact (k.owned.kept r i (by rw [this]; exact ho)).trans this
    mem := fun x hx => (k.owned.mem x (by rw [h.common.cfg]; exact hx)).trans (h.owned.mem x hx)
    answers := by
      obtain ⟨x, hx⟩ := h.owned.answers
      obtain ⟨y, hy⟩ := k.owned.answers
      exact ⟨x + y, by rw [hy, hx, List.drop_drop]⟩
    phy := k.owned.phy.trans h.owned.phy }

/-! ## Register updates -/

/-- An address is plain in any state with the same configuration and ring sizes. -/
theorem State.plainAddress_congr {s t : State} (hc : t.cfg = s.cfg) (hr : t.rxd.length = s.rxd.length)
    (ht : t.txd.length = s.txd.length) (a : Nat) : t.plainAddress a ↔ s.plainAddress a := by
  unfold State.plainAddress
  rw [State.slotAt_congr (r := .rx) hc hr, State.slotAt_congr (r := .tx) hc ht, hc]

/-- Shape is a matter of the configuration, the rings' sizes, the indices and memory. -/
theorem Shape.of {s t : State} (hs : Shape s) (hc : t.cfg = s.cfg) (hr : t.rxd.length = s.rxd.length)
    (ht : t.txd.length = s.txd.length)
    (h1 : t.rxCur = s.rxCur ∨ t.rxCur < s.cfg.nRx) (h2 : t.txCur = s.txCur ∨ t.txCur < s.cfg.nTx)
    (h3 : t.txClean = s.txClean ∨ t.txClean < s.cfg.nTx) (h4 : t.macTxIdx = s.macTxIdx ∨ t.macTxIdx < s.cfg.nTx)
    (h5 : t.macRxIdx = s.macRxIdx ∨ t.macRxIdx < s.cfg.nRx) (hw : t.mem.wf = true)
    (hp : ∀ c ∈ t.mem, s.plainAddress c.1) (hd : ∀ q, ∀ d ∈ t.ring q, d.fits s.cfg.layout = true) : Shape t where
  cfg_wf := by rw [hc]; exact hs.cfg_wf
  rx_length := by rw [hr, hc]; exact hs.rx_length
  tx_length := by rw [ht, hc]; exact hs.tx_length
  desc_fits q d hq := by rw [hc]; exact hd q d hq
  rx_cur := by rw [hc]; rcases h1 with h | h; · rw [h]; exact hs.rx_cur
               · exact h
  tx_cur := by rw [hc]; rcases h2 with h | h; · rw [h]; exact hs.tx_cur
               · exact h
  tx_clean := by rw [hc]; rcases h3 with h | h; · rw [h]; exact hs.tx_clean
                 · exact h
  mac_tx_idx := by rw [hc]; rcases h4 with h | h; · rw [h]; exact hs.mac_tx_idx
                   · exact h
  mac_rx_idx := by rw [hc]; rcases h5 with h | h; · rw [h]; exact hs.mac_rx_idx
                   · exact h
  mem_wf := hw
  mem_places c hc' := (State.plainAddress_congr hc hr ht _).mpr (hp c hc')

/-- A change of registers only: rings and memory stay, an index stays or is inside its ring. -/
theorem BlockStep.regs {s t : State} (hc : t.cfg = s.cfg := by rfl) (hk : t.cmds = s.cmds := by rfl)
    (hr : t.rxd = s.rxd := by rfl) (ht : t.txd = s.txd := by rfl) (hm : t.mem = s.mem := by rfl)
    (ha : ∃ n, t.answers = s.answers.drop n := by exact ⟨0, rfl⟩)
    (he : ∃ es, t.trace = s.trace ++ es := by exact ⟨[], (List.append_nil _).symm⟩)
    (hf : s.fault ≠ .none → t.fault = s.fault := by exact fun _ => rfl) (hy : t.phyLink = s.phyLink := by rfl)
    (h1 : t.rxCur = s.rxCur ∨ (1 ≤ s.cfg.nRx → t.rxCur < s.cfg.nRx) := by exact .inl rfl)
    (h2 : t.txCur = s.txCur ∨ (1 ≤ s.cfg.nTx → t.txCur < s.cfg.nTx) := by exact .inl rfl)
    (h3 : t.txClean = s.txClean ∨ (1 ≤ s.cfg.nTx → t.txClean < s.cfg.nTx) := by exact .inl rfl)
    (h4 : t.macTxIdx = s.macTxIdx ∨ (1 ≤ s.cfg.nTx → t.macTxIdx < s.cfg.nTx) := by exact .inl rfl)
    (h5 : t.macRxIdx = s.macRxIdx ∨ (1 ≤ s.cfg.nRx → t.macRxIdx < s.cfg.nRx) := by exact .inl rfl) : BlockStep s t where
  common := {
    cfg := hc, cmds := hk, rx_len := by rw [hr], tx_len := by rw [ht], trace := he, fault := hf
    shape := fun hs => by
      have hx : 1 ≤ s.cfg.nRx := Config.capacity_pos hs.cfg_wf .rx
      have hy : 1 ≤ s.cfg.nTx := Config.capacity_pos hs.cfg_wf .tx
      exact hs.of hc (by rw [hr]) (by rw [ht]) (h1.imp_right (· hx)) (h2.imp_right (· hy)) (h3.imp_right (· hy))
        (h4.imp_right (· hy)) (h5.imp_right (· hx)) (by rw [hm]; exact hs.mem_wf) (by rw [hm]; exact hs.mem_places)
        (fun q d hq => hs.desc_fits q d (by cases q <;> simpa only [State.ring, hr, ht] using hq)) }
  owned := {
    kept := fun r i _ => by cases r <;> simp only [State.desc, State.ring, hr, ht]
    mem := fun a _ => by rw [hm]
    answers := ha
    phy := hy }

theorem blockStep_log (e : Event) (s : State) : BlockStep s (s.log e) := .regs (he := ⟨[e], rfl⟩)

theorem blockStep_writeEffect (reg : Reg) (v : Word) (s : State) : BlockStep s (writeEffect reg v s) := by
  cases reg
  case txpoll => simp only [writeEffect]
                 split
                 · exact .regs
                 · exact .refl s
  case txbase => exact .regs (h4 := .inr fun h => h)
  case rxbase => exact .regs (h5 := .inr fun h => h)
  case phystat => exact .refl s
  all_goals exact .regs

theorem blockStep_regWrite (reg : Reg) (v : Word) (s : State) : BlockStep s (regWrite reg v s) :=
  (blockStep_writeEffect reg v s).trans (blockStep_log _ _)

theorem blockStep_regRead (reg : Reg) (s : State) : BlockStep s (regRead reg s) := by
  refine BlockStep.trans (b := readEffect reg s) ?_ (blockStep_log _ _)
  cases reg <;> first | exact .refl s | exact .regs

theorem blockStep_raise (code : FaultCode) (s : State) : (raise code s).Rel BlockStep s :=
  show BlockStep s _ from .regs (hf := fun h => if_neg h)

/-! ## Descriptor writes and the exchange buffer -/

theorem blockStep_writeImr (m : Byte) (s : State) : BlockStep s (writeImr m s) := .regs (he := ⟨[_], rfl⟩)

theorem blockStep_writeMaccr (m : BitVec 7) (s : State) : BlockStep s (writeMaccr m s) := .regs (he := ⟨[_], rfl⟩)

/-- The descriptors of a ring after one was replaced. -/
theorem State.mem_ring_setDesc {s : State} {r q : Ring} {i : Nat} {new d : Desc} (h : d ∈ (s.setDesc r i new).ring q) :
    d = new ∨ d ∈ s.ring q := by
  by_cases hq : q = r
  · subst hq
    rw [State.ring_setDesc_same] at h
    exact (List.mem_or_eq_of_mem_set h).symm
  · rw [State.ring_setDesc_ne s i new hq] at h
    exact .inr h

/-- A whole-descriptor write of a descriptor its words can hold, to a Software-owned slot. -/
theorem blockStep_writeDesc {r : Ring} {i : Nat} {new : Desc} {s : State} (hn : new.fits s.cfg.layout = true)
    (h : (s.desc r i).own = .sw) :
    BlockStep s (writeDesc r i new s) where
  common := {
    cfg := by simp, cmds := by simp
    rx_len := length_ring_writeDesc r .rx i new s
    tx_len := length_ring_writeDesc r .tx i new s
    trace := ⟨descEvents r i new, by rw [writeDesc_eq]⟩
    fault := fun _ => by simp
    shape := fun hs => hs.of (by simp) (length_ring_writeDesc r .rx i new s) (length_ring_writeDesc r .tx i new s)
      (.inl (by simp)) (.inl (by simp)) (.inl (by simp)) (.inl (by simp)) (.inl (by simp))
      (by simpa using hs.mem_wf) (by simpa using hs.mem_places) fun q d hq => by
        have hq' : d ∈ (s.setDesc r i new).ring q := by rw [writeDesc_eq] at hq; exact hq
        rcases State.mem_ring_setDesc hq' with rfl | hd
        · exact hn
        · exact hs.desc_fits q d hd }
  owned := {
    kept := fun q j ho => by
      rw [desc_writeDesc, if_neg]
      rintro ⟨rfl, rfl, _⟩
      rw [h] at ho; cases ho
    mem := fun a _ => by simp
    answers := ⟨0, by simp⟩
    phy := by simp }

theorem blockStep_release (r : Ring) (i : Nat) (buf : Word) (len : Half) (fs ls ic : Bool) (s : State) :
    (release r i buf len fs ls ic s).Rel BlockStep s := by
  cases ho : (s.desc r i).own with
  | hw => rw [release_hw _ _ _ _ _ ho]; exact blockStep_raise _ s
  | sw => 
    rw [release_sw _ _ _ _ _ ho]
    exact blockStep_writeDesc (Desc.fits_of (toNat_fitBuf_lt ..) (toNat_fitLen_lt ..) (Nat.two_pow_pos _)) ho

theorem blockStep_reclaim (r : Ring) (i : Nat) (s : State) : (reclaim r i s).Rel BlockStep s := by
  cases ho : (s.desc r i).own with
  | hw => rw [reclaim_hw ho]; exact blockStep_raise _ s
  | sw => rw [reclaim_sw ho]; exact blockStep_writeDesc (Desc.fits_clear ..) ho

/-- A write of the exchange buffer, no longer than its size. -/
theorem blockStep_writeXbuf (bs : List (Option Byte)) (s : State) (hb : bs.length ≤ s.cfg.xbufSize) :
    (writeXbuf bs s).Rel BlockStep s := by
  unfold writeXbuf
  split
  · trivial
  · next h =>
    refine ⟨⟨rfl, rfl, rfl, rfl, ⟨[], (List.append_nil _).symm⟩, fun _ => rfl, fun hs => ?_⟩,
      fun _ _ _ => rfl, fun a ha => ?_, ⟨0, rfl⟩, rfl⟩
    · refine hs.of rfl rfl rfl (.inl rfl) (.inl rfl) (.inl rfl) (.inl rfl) (.inl rfl)
        (Memory.wf_writeList hs.mem_wf _ _) (fun c hc => ?_) hs.desc_fits
      rcases Memory.mem_writeList hc with hr | hm
      · have hn : bs.length ≠ 0 := by omega
        obtain ⟨h1, h2, h3, h4⟩ := xbufFault_eq_none h hn
        refine ⟨by omega, ?_, ?_, rangesMeet_eq_false h2 hr⟩
        · rw [State.slotAt_eq_none_iff]
          have := rangesMeet_eq_false h3 hr
          rw [← hs.rx_length] at this
          exact this
        · rw [State.slotAt_eq_none_iff]
          have := rangesMeet_eq_false h4 hr
          rw [← hs.tx_length] at this
          exact this
      · exact hs.mem_places c hm
    · refine Memory.read_writeList_outside _ _ _ _ fun hr => ha ?_
      exact ⟨hr.1, by omega⟩

theorem blockStep_andThen {s : State} {r : Res} {k : State → Res} (h : r.Rel BlockStep s)
    (hk : ∀ t, BlockStep s t → (k t).Rel BlockStep t) : (r.andThen k).Rel BlockStep s :=
  Res.Rel.andThen (R := BlockStep) (fun _ _ _ h k => BlockStep.trans h k) h hk

theorem blockStep_ok {s t : State} (h : BlockStep s t) : (Res.ok t).Rel BlockStep s := h

/-! ## Procedures -/

theorem blockStep_callUp (c : Callout) (s : State) : (callUp c s).Rel BlockStep s := by
  unfold callUp
  refine blockStep_andThen (s := s) ?_ fun t _ => blockStep_ok ?_
  · have h1 : BlockStep s { s with answers := s.answers.tail } := .regs (ha := ⟨1, by simp⟩)
    have h2 := blockStep_writeXbuf ((s.nextAnswer.bytes.take s.cfg.xbufSize).map some)
      { s with answers := s.answers.tail } (by simp only [List.length_map, List.length_take]; omega)
    generalize writeXbuf _ _ = w at h2
    cases w with
    | done st res t => exact h1.trans h2
    | raised t => exact h1.trans h2
    | stop f => trivial
  · exact .regs (he := ⟨[_], rfl⟩)

theorem blockStep_submit (p : Word) (n : Half) (s : State) : (submit p n s).Rel BlockStep s := by
  unfold submit
  split
  · exact .refl s
  · split
    · exact blockStep_raise _ s
    · refine blockStep_andThen (blockStep_release ..) fun t _ => blockStep_ok ?_
      have h1 : BlockStep t { t with txCur := advanceCursor t.cfg .tx t.txCur, txPend := t.txPend + 1 } :=
        .regs (h2 := .inr fun h => advanceCursor_lt (r := .tx) h _)
      exact (h1.trans (blockStep_regWrite _ _ _)).trans .regs

theorem blockStep_submitAnswer (s : State) : (submitAnswer s).Rel BlockStep s := by
  unfold submitAnswer
  split
  · exact blockStep_submit ..
  · exact .refl s

theorem blockStep_txpoll (s : State) : (txpoll s).Rel BlockStep s :=
  blockStep_andThen (blockStep_andThen (blockStep_callUp ..) fun t _ => blockStep_submitAnswer t) fun t _ => .refl t

theorem blockStep_timerHook (s : State) : (timerHook s).Rel BlockStep s :=
  blockStep_andThen (blockStep_andThen (blockStep_callUp ..) fun t _ => blockStep_submitAnswer t) fun t _ => .refl t

theorem blockStep_reclaimOne (s : State) : (reclaimOne s).Rel BlockStep s :=
  blockStep_andThen (blockStep_reclaim ..) fun _ _ => blockStep_ok
    (.regs (h3 := .inr fun h => advanceCursor_lt (r := .tx) h _))

theorem blockStep_reclaimLoop (fuel : Nat) (s : State) : (reclaimLoop fuel s).Rel BlockStep s := by
  induction fuel generalizing s with
  | zero => exact .refl s
  | succ fuel ih =>
    unfold reclaimLoop
    split
    · exact .refl s
    · split
      · exact .refl s
      · exact blockStep_andThen (blockStep_reclaimOne s) fun t _ => ih t

theorem blockStep_reclaimCompleted (s : State) : (reclaimCompleted s).Rel BlockStep s := by
  refine blockStep_andThen (blockStep_reclaimLoop ..) fun t _ => ?_
  have h1 : BlockStep t (txtoCancel t) := .regs
  have h2 := blockStep_txpoll (txtoCancel t)
  generalize txpoll (txtoCancel t) = w at h2
  cases w with
  | done st res u => exact h1.trans h2
  | raised u => exact h1.trans h2
  | stop f => trivial

/-- A relation passes from a state that a first update reached. -/
theorem blockStep_from {s u : State} {r : Res} (h : BlockStep s u) (hr : r.Rel BlockStep u) : r.Rel BlockStep s := by
  cases r with
  | done st res t => exact h.trans hr
  | raised t => exact h.trans hr
  | stop f => trivial

theorem blockStep_copyFrame (a n : Nat) (s : State) (hn : n ≤ s.cfg.xbufSize) : (copyFrame a n s).Rel BlockStep s := by
  unfold copyFrame
  split
  · trivial
  · exact blockStep_writeXbuf _ _ (by simpa [State.readBytes] using hn)

theorem blockStep_deliverFrame (i : Nat) (s : State) : (deliverFrame i s).Rel BlockStep s := by
  unfold deliverFrame
  dsimp only
  split
  · exact blockStep_raise _ s
  · refine blockStep_andThen (blockStep_andThen (blockStep_copyFrame _ _ _ (by omega)) fun t _ => ?_)
      fun t _ => blockStep_submitAnswer t
    exact blockStep_from .regs (blockStep_callUp ..)

theorem blockStep_recycle (i : Nat) (s : State) : (recycle i s).Rel BlockStep s :=
  blockStep_andThen (blockStep_release ..) fun _ _ => blockStep_ok
    (.regs (h1 := .inr fun h => advanceCursor_lt (r := .rx) h _))

theorem blockStep_consumeSlot (i : Nat) (s : State) : (consumeSlot i s).Rel BlockStep s := by
  unfold consumeSlot
  refine blockStep_andThen ?_ fun t _ => blockStep_recycle i t
  split
  · exact blockStep_deliverFrame i s
  · exact .refl s

theorem blockStep_pollLoop (fuel : Nat) (s : State) : (pollLoop fuel s).Rel BlockStep s := by
  induction fuel generalizing s with
  | zero => exact .refl s
  | succ fuel ih =>
    unfold pollLoop
    split
    · exact .refl s
    · split
      · exact blockStep_andThen (blockStep_consumeSlot ..) fun t _ => .refl t
      · exact blockStep_andThen (blockStep_consumeSlot ..) fun t _ => ih t

theorem blockStep_pollReceive (s : State) : (pollReceive s).Rel BlockStep s := blockStep_pollLoop _ s

theorem blockStep_schedule (u : DeferredUnit) (s : State) : BlockStep s (schedule u s) := by
  unfold schedule
  split <;> exact .regs

theorem blockStep_process (snap : Byte) (s : State) : (process snap s).Rel BlockStep s := by
  unfold process
  split
  · exact .refl s
  · refine blockStep_andThen (blockStep_andThen (blockStep_andThen ?_ fun t _ => ?_) fun t _ => ?_) fun t _ => ?_
    · unfold stepAck; split
      · exact blockStep_regWrite _ _ s
      · exact .refl s
    · unfold stepReceive; split
      · exact blockStep_pollReceive t
      · exact .refl t
    · unfold stepTransmit; split
      · exact blockStep_reclaimCompleted t
      · exact .refl t
    · unfold stepPhy; split
      · exact (blockStep_regRead .phystat t).trans .regs
      · exact .refl t

theorem blockStep_capture (s : State) : BlockStep s (cancelIfTxOk s.snapshot (capture s)) := by
  refine ((blockStep_writeImr 0 s).trans (blockStep_regRead .isr _)).trans ?_
  unfold cancelIfTxOk; split
  · exact .regs
  · exact .refl _

theorem blockStep_irq (s : State) : (irq s).Rel BlockStep s := by
  unfold irq
  dsimp only
  refine blockStep_from (blockStep_capture s) ?_
  split
  · exact blockStep_andThen (blockStep_process ..) fun t _ => blockStep_ok (blockStep_writeImr _ t)
  · exact blockStep_ok (blockStep_schedule _ _)

theorem blockStep_workerRun (s : State) : (workerRun s).Rel BlockStep s := by
  unfold workerRun
  split
  · exact .refl s
  · next u _ =>
    refine blockStep_andThen (blockStep_from (u := { s with dslot := none, inflight := some u }) .regs ?_) fun t _ => .refl t
    cases u with
    | irqWork snap => exact blockStep_process ..
    | pollWork => exact blockStep_timerHook _
    | txTimeoutWork => exact blockStep_txpoll _
    | txAvailWork => exact blockStep_txpoll _

theorem blockStep_workerDone (s : State) : BlockStep s (workerDone s) := by
  unfold workerDone
  split
  · exact .regs
  · exact (blockStep_writeImr irqEnableSet s).trans .regs

theorem blockStep_pollExpire (s : State) : (pollExpire s).Rel BlockStep s := by
  unfold pollExpire
  dsimp only
  refine blockStep_andThen (blockStep_from (u := { s with ptArmed := false }) .regs ?_) fun t _ => blockStep_ok .regs
  split
  · exact blockStep_andThen (blockStep_from (blockStep_writeImr ..) (blockStep_timerHook _))
      fun t _ => blockStep_ok (blockStep_writeImr ..)
  · split
    · exact blockStep_ok ((blockStep_writeImr ..).trans (blockStep_schedule ..))
    · exact .refl _

theorem blockStep_txtoExpire (s : State) : (txtoExpire s).Rel BlockStep s := by
  unfold txtoExpire
  dsimp only
  refine blockStep_from (BlockStep.trans (b := { s with toArmed := false }) .regs (blockStep_writeImr 0 _)) ?_
  split
  · exact blockStep_andThen (blockStep_txpoll _) fun t _ => blockStep_ok (blockStep_writeImr ..)
  · exact blockStep_ok (blockStep_schedule ..)

theorem blockStep_bringDown (s : State) : BlockStep s (bringDown s) := by
  unfold bringDown
  exact ((((blockStep_writeImr 0 s).trans .regs).trans .regs).trans (blockStep_writeMaccr 0 _)).trans .regs

theorem blockStep_notify (s : State) : (notifyTxAvailable s).Rel BlockStep s := by
  unfold notifyTxAvailable
  split
  · exact .refl s
  · split
    · exact .refl s
    · split
      · exact blockStep_andThen (blockStep_txpoll s) fun t _ => .refl t
      · exact blockStep_ok (blockStep_schedule ..)

/-! ## Instructions -/

/-- The body of every operation of the block but `BRING_UP`. -/
theorem blockStep_bodyOf {i : Instr} (hm : isMacMove i = false) (hb : i ≠ .bringUp) (s : State) :
    (bodyOf i s).Rel BlockStep s := by
  cases i <;> first | (exact absurd hm (by decide)) | (exact absurd rfl hb) | skip
  case advance => exact .refl s
  case isHw => exact .refl s
  case release => exact blockStep_release ..
  case reclaim => exact blockStep_reclaim ..
  case pollReceive => exact blockStep_pollReceive s
  case submit => exact blockStep_submit ..
  case reclaimCompleted => exact blockStep_reclaimCompleted s
  case txpoll => exact blockStep_txpoll s
  case irq => exact blockStep_irq s
  case process => exact blockStep_process ..
  case workerRun => exact blockStep_workerRun s
  case workerDone => exact blockStep_workerDone s
  case tick => exact blockStep_ok .regs
  case pollExpire => exact blockStep_pollExpire s
  case txtoExpire => exact blockStep_txtoExpire s
  case ptStart => exact blockStep_ok .regs
  case ptCancel => exact blockStep_ok .regs
  case txtoStart => exact blockStep_ok .regs
  case txtoCancel => exact blockStep_ok .regs
  case bringDown => exact blockStep_bringDown s
  case notifyTxAvailable => exact blockStep_notify s
  case regRead => exact blockStep_regRead ..
  case regWrite => exact blockStep_regWrite ..
  case addMc => exact .refl s
  case removeMc => exact .refl s
  all_goals exact absurd hm (by simp [isMacMove, opClass])

theorem blockStep_respond (i : Instr) (st : Status) (res : Word) (s : State) :
    BlockStep s (respond (opClass i) st res s) := by
  rw [respond_eq]
  exact .regs (he := ⟨_, rfl⟩)

theorem blockStep_refused (i : Instr) (st : Status) (s : State) : BlockStep s (s.refused i st) :=
  .regs (he := ⟨_, rfl⟩)

theorem blockStep_respondFault (s : State) : BlockStep s (respondFault s) := .regs

end Sys2Proof.Machine
end

