-- ==== Sys2Proof/Laws/Checks.lean ====
section
/-!
SUPPORT. Checkers that compute, one for each predicate on states of Safety.lean, each proved sound: a witness on a concrete
state is then closed by evaluation.
-/

namespace Sys2Proof.Machine

/-- Computes `State.plainAddress`. -/
def plainCheck (s : State) (a : Nat) : Bool :=
  decide (a < 2 ^ 32) && (s.slotAt .rx a).isNone && (s.slotAt .tx a).isNone
    && !(decide (s.cfg.regBase.toNat ≤ a) && decide (a < s.cfg.regBase.toNat + s.cfg.layout.regSpan))

theorem plain_of_check {s : State} {a : Nat} (h : plainCheck s a = true) : s.plainAddress a := by
  simp only [plainCheck, Bool.and_eq_true, Bool.not_eq_true', Bool.and_eq_false_iff, decide_eq_true_eq, decide_eq_false_iff_not,
    Option.isNone_iff_eq_none] at h
  refine ⟨h.1.1.1, h.1.1.2, h.1.2, fun hr => ?_⟩
  rcases h.2 with h2 | h2
  · exact h2 hr.1
  · exact h2 hr.2

/-- Computes `Shape`. -/
def shapeCheck (s : State) : Bool :=
  s.cfg.wf && (decide (s.rxd.length = s.cfg.nRx ∧ s.txd.length = s.cfg.nTx ∧ s.rxCur < s.cfg.nRx ∧ s.txCur < s.cfg.nTx ∧
    s.txClean < s.cfg.nTx ∧ s.macTxIdx < s.cfg.nTx ∧ s.macRxIdx < s.cfg.nRx) && ((s.mem.wf && s.mem.all fun c => plainCheck s c.1) &&
    (s.rxd ++ s.txd).all fun d => d.fits s.cfg.layout))

theorem shape_of_check {s : State} (h : shapeCheck s = true) : Shape s := by
  simp only [shapeCheck, Bool.and_eq_true, decide_eq_true_eq, List.all_eq_true] at h
  obtain ⟨hc, ⟨h1, h2, h3, h4, h5, h6, h7⟩, ⟨hm, hp⟩, hf⟩ := h
  refine ⟨hc, h1, h2, fun r d hd => hf d (List.mem_append.mpr ?_), h3, h4, h5, h6, h7, hm, fun c hc => plain_of_check (hp c hc)⟩
  cases r
  · exact .inl hd
  · exact .inr hd

/-- Computes `State.inWindow`. -/
def windowCheck (s : State) (i : Nat) : Bool := decide ((i + s.cfg.nTx - s.txClean) % s.cfg.nTx < s.txPend)

theorem window_iff_check {s : State} {i : Nat} : windowCheck s i = true ↔ s.inWindow i := by
  simp [windowCheck, State.inWindow]

/-- Computes `RingInv`. -/
def ringCheck (s : State) : Bool :=
  decide (s.txPend ≤ s.cfg.nTx ∧ s.txCur = (s.txClean + s.txPend) % s.cfg.nTx)
    && ((List.range s.cfg.nTx).all (fun i =>
          (windowCheck s i || decide (s.desc .tx i = Desc.clear (decide (i + 1 = s.cfg.nTx))))
            && decide ((s.desc .tx i).wrap = decide (i + 1 = s.cfg.nTx)))
        && (List.range s.cfg.nRx).all fun i => decide ((s.desc .rx i).wrap = decide (i + 1 = s.cfg.nRx)))

theorem ringInv_of_check {s : State} (h : ringCheck s = true) : RingInv s := by
  simp only [ringCheck, Bool.and_eq_true, Bool.or_eq_true, decide_eq_true_eq, List.all_eq_true, List.mem_range,
    window_iff_check] at h
  obtain ⟨⟨h1, h2⟩, ht, hr⟩ := h
  have hout : ∀ i, i < s.cfg.nTx → ¬ s.inWindow i → s.desc .tx i = Desc.clear (decide (i + 1 = s.cfg.nTx)) :=
    fun i hi hw => (ht i hi).1.resolve_left hw
  refine ⟨h1, h2, hout, fun i hi ho => ?_, hr, fun i hi => (ht i hi).2⟩
  by_contra hw
  rw [hout i hi hw] at ho
  cases ho

/-- Computes `RxBuffers`. -/
def rxBuffersCheck (s : State) : Bool :=
  s.cfg.fieldsFit && (List.range s.cfg.nRx).all fun i =>
    decide ((s.desc .rx i).buf = s.cfg.rxBufAddr.getD i 0 ∧ (s.desc .rx i).len.toNat ≤ s.cfg.rxBufSize.toNat)
      && (decide ((s.desc .rx i).own = .sw) || decide ((s.desc .rx i).len = s.cfg.rxBufSize))

theorem rxBuffers_of_check {s : State} (h : rxBuffersCheck s = true) : RxBuffers s := by
  simp only [rxBuffersCheck, Bool.and_eq_true, Bool.or_eq_true, decide_eq_true_eq, List.all_eq_true, List.mem_range] at h
  exact ⟨h.1, fun i hi => (h.2 i hi).1.1, fun i hi => (h.2 i hi).1.2,
    fun i hi ho => (h.2 i hi).2.resolve_left (by rw [ho]; decide)⟩

/-- Computes `Healthy`. -/
def healthyCheck (s : State) : Bool :=
  shapeCheck s && (s.cfg.capacitiesOk && (ringCheck s && (rxBuffersCheck s && decide (s.fault = .none))))

theorem healthy_of_check {s : State} (h : healthyCheck s = true) : Healthy s := by
  simp only [healthyCheck, Bool.and_eq_true, decide_eq_true_eq] at h
  exact ⟨shape_of_check h.1, h.2.1, ringInv_of_check h.2.2.1, rxBuffers_of_check h.2.2.2.1, h.2.2.2.2⟩

/-- Computes `Quiet`. -/
def quietCheck (s : State) : Bool :=
  decide (s.imr = 0 ∧ s.maccr = 0 ∧ s.ptArmed = false ∧ s.toArmed = false ∧ s.dslot = none ∧ s.inflight = none)

theorem quiet_of_check {s : State} (h : quietCheck s = true) : Quiet s := by
  simp only [quietCheck, decide_eq_true_eq] at h
  exact ⟨h.1, h.2.1, h.2.2.1, h.2.2.2.1, h.2.2.2.2.1, h.2.2.2.2.2⟩

/-- Computes `BlockInv`. -/
def blockCheck (s : State) : Bool :=
  shapeCheck s && (rxBuffersCheck s && ((s.up || quietCheck s) && ((decide (s.fault ≠ .none) || ringCheck s) &&
    decide (s.cfg.testPort = false ∧ (s.cfg.mode = .inline → s.dslot = none ∧ s.inflight = none) ∧
      (s.up = true → s.cfg.capacitiesOk = true ∧ s.cfg.irqLineOk = true) ∧
      (s.fault = .none → s.toArmed = true → 1 ≤ s.txPend) ∧ (s.fault = .none ∨ s.fault = .vAdmission)))))

theorem blockInv_of_check {s : State} (h : blockCheck s = true) : BlockInv s := by
  simp only [blockCheck, Bool.and_eq_true, Bool.or_eq_true, decide_eq_true_eq] at h
  obtain ⟨hs, hx, hq, hr, hc, hm, hu, hw, hf⟩ := h
  refine ⟨shape_of_check hs, hc, hm, hu, fun hd => quiet_of_check (hq.resolve_left (by simp [hd])), rxBuffers_of_check hx,
    fun h0 => ringInv_of_check (hr.resolve_left fun h1 => h1 h0), hw, hf⟩

/-- Computes `State.roomForAnswers`. -/
def roomCheck (s : State) : Bool := decide (s.txPend + s.answers.countP (fun a => a.len ≠ 0) ≤ s.cfg.nTx)

theorem room_of_check {s : State} (h : roomCheck s = true) : s.roomForAnswers := by
  simpa [roomCheck, State.roomForAnswers] using h

end Sys2Proof.Machine
end

