-- ==== Sys2Proof/Laws/Passes.lean ====
section
/-!
SUPPORT. Laws of the passes: the snapshot's bits, the capture, the mask and the unmask as one record update each, the four
steps of `PROCESS` one by one, the two regimes of `IRQ` and of the expiries, and the walk of `POLL_RECEIVE` unrolled.
-/

namespace Sys2Proof.Machine

/-! ## Bits of a snapshot -/

theorem hasBit_rpktAvail (x : Byte) : hasBit x rpktAvail = x.getLsbD 7 := by revert x; decide
theorem hasBit_receive (x : Byte) : hasBit x (rxFinished ||| noRxbuf) = (x.getLsbD 0 || x.getLsbD 1) := by
  revert x; decide
theorem hasBit_txOk (x : Byte) : hasBit x txOk = x.getLsbD 2 := by revert x; decide
theorem hasBit_phyChg (x : Byte) : hasBit x phyChg = x.getLsbD 6 := by revert x; decide

/-! ## Mask, capture, unmask -/

theorem maskAll_eq (s : State) : maskAll s = { s with imr := 0, trace := s.trace ++ [.regW .imr 0] } := by
  simp only [maskAll, writeImr, State.log, statusWord_zero]

theorem unmask_eq (s : State) :
    unmask s = { s with imr := 0x7F, trace := s.trace ++ [.regW .imr (statusWord s.cfg.layout 0x7F)] } := rfl

/-- The capture of an interrupt with its cancel (rules R182 and R183). -/
theorem capture_eq (s : State) :
    cancelIfTxOk s.snapshot (capture s) =
      { s with
        imr := 0
        isr := 0
        toArmed := if s.isr.getLsbD 2 then false else s.toArmed
        trace := s.trace ++ [.regW .imr 0, .regR .isr (statusWord s.cfg.layout s.isr)] } := by
  rw [cancelIfTxOk, hasBit_txOk]
  have h : capture s = { s with
      imr := 0, isr := 0, trace := s.trace ++ [.regW .imr 0] ++ [.regR .isr (statusWord s.cfg.layout s.isr)] } := by
    rw [capture, maskAll_eq]; rfl
  rw [h, List.append_assoc]
  change (if s.isr.getLsbD 2 = true then _ else _) = _
  cases s.isr.getLsbD 2 <;> rfl

/-! ## The four steps of `PROCESS` -/

theorem stepAck_eq (snap : Byte) (s : State) :
    stepAck snap s = if snap.getLsbD 7 then .ok (regWrite s.cfg.ackReg s.cfg.ackVal s) else .ok s := by
  rw [stepAck, hasBit_rpktAvail]

theorem stepReceive_eq (snap : Byte) (s : State) :
    stepReceive snap s = if snap.getLsbD 0 || snap.getLsbD 1 then pollReceive s else .ok s := by
  rw [stepReceive, hasBit_receive]

theorem stepTransmit_eq (snap : Byte) (s : State) :
    stepTransmit snap s = if snap.getLsbD 2 then reclaimCompleted s else .ok s := by
  rw [stepTransmit, hasBit_txOk]

theorem stepPhy_eq (snap : Byte) (s : State) :
    stepPhy snap s = .ok { s with
      linkUp := if snap.getLsbD 6 then s.phyLink else s.linkUp
      trace := s.trace ++ if snap.getLsbD 6 then [.regR .phystat (linkWord s.cfg.layout s.phyLink)] else [] } := by
  rw [stepPhy, hasBit_phyChg]
  cases snap.getLsbD 6
  · simp
  · rfl

/-! ## The two regimes -/

theorem irq_inline {s : State} (h : s.cfg.mode = .inline) :
    irq s = (process s.isr (cancelIfTxOk s.snapshot (capture s))).andThen fun u => .ok (unmask u) := by
  have hc : (cancelIfTxOk s.snapshot (capture s)).cfg.mode = .inline := by rw [capture_eq]; exact h
  unfold irq
  dsimp only
  split
  · rfl
  · next h' => rw [hc] at h'; cases h'

theorem irq_deferred {s : State} (h : s.cfg.mode = .deferred) :
    irq s = .ok (schedule (.irqWork s.isr) (cancelIfTxOk s.snapshot (capture s))) := by
  have hc : (cancelIfTxOk s.snapshot (capture s)).cfg.mode = .deferred := by rw [capture_eq]; exact h
  unfold irq
  dsimp only
  split
  · next h' => rw [hc] at h'; cases h'
  · rfl

theorem schedule_eq (u : DeferredUnit) (s : State) :
    schedule u s = { s with dslot := some (match s.dslot, u with
      | some (.irqWork s0), .irqWork s1 => .irqWork (s0 ||| s1)
      | _, _ => u) } := by
  unfold schedule
  rcases s.dslot with _ | (_ | _ | _ | _) <;> cases u <;> rfl

theorem txtoExpire_inline {s : State} (h : s.cfg.mode = .inline) :
    txtoExpire s = (txpoll (maskAll { s with toArmed := false })).andThen fun u => .ok (unmask u) := by
  unfold txtoExpire
  dsimp only
  split
  · rfl
  · next h' => rw [show (maskAll { s with toArmed := false }).cfg = s.cfg from rfl, h] at h'; cases h'

theorem txtoExpire_deferred {s : State} (h : s.cfg.mode = .deferred) :
    txtoExpire s = .ok (schedule .txTimeoutWork (maskAll { s with toArmed := false })) := by
  unfold txtoExpire
  dsimp only
  split
  · next h' => rw [show (maskAll { s with toArmed := false }).cfg = s.cfg from rfl, h] at h'; cases h'
  · rfl

theorem pollExpire_inline {s : State} (h : s.cfg.mode = .inline) :
    pollExpire s = (timerHook (maskAll { s with ptArmed := false })).andThen fun u => .ok (ptStart (unmask u)) := by
  unfold pollExpire
  dsimp only
  rw [h]
  dsimp only
  rw [Res.andThen_assoc]
  rfl

theorem pollExpire_free {s : State} (h : s.cfg.mode = .deferred) (hd : s.dslot = none) :
    pollExpire s = .ok (ptStart (schedule .pollWork (maskAll { s with ptArmed := false }))) := by
  unfold pollExpire
  dsimp only
  rw [h]
  dsimp only
  rw [if_pos hd]
  rfl

theorem pollExpire_dropped {s : State} (h : s.cfg.mode = .deferred) (hd : s.dslot ≠ none) :
    pollExpire s = .ok (ptStart { s with ptArmed := false }) := by
  unfold pollExpire
  dsimp only
  rw [h]
  dsimp only
  rw [if_neg hd]
  rfl

/-- `WORKER_RUN` on the pending unit `u` (rule R186). -/
theorem workerRun_some {s : State} {u : DeferredUnit} (h : s.dslot = some u) :
    workerRun s = (unitBody u { s with dslot := none, inflight := some u }).andThen .ok := by
  unfold workerRun
  split
  · next h' => rw [h] at h'; cases h'
  · next v h' => rw [h] at h'; cases h'; rfl

/-! ## The receive walk -/

theorem deliverFrame_rxd (i : Nat) (s : State) :
    (deliverFrame i s).Rel (fun s t => t.rxd = s.rxd ∧ t.cfg = s.cfg ∧ t.rxCur = s.rxCur) s := by
  have tr : ∀ a b c : State, (b.rxd = a.rxd ∧ b.cfg = a.cfg ∧ b.rxCur = a.rxCur) →
      (c.rxd = b.rxd ∧ c.cfg = b.cfg ∧ c.rxCur = b.rxCur) → (c.rxd = a.rxd ∧ c.cfg = a.cfg ∧ c.rxCur = a.rxCur) :=
    fun a b c h k => ⟨k.1.trans h.1, k.2.1.trans h.2.1, k.2.2.trans h.2.2⟩
  have hx (bs : List (Option Byte)) (s : State) :
      (writeXbuf bs s).Rel (fun s t => t.rxd = s.rxd ∧ t.cfg = s.cfg ∧ t.rxCur = s.rxCur) s := by
    unfold writeXbuf; split
    · trivial
    · exact ⟨rfl, rfl, rfl⟩
  have hsub (t : State) : (submitAnswer t).Rel (fun s t => t.rxd = s.rxd ∧ t.cfg = s.cfg ∧ t.rxCur = s.rxCur) t := by
    unfold submitAnswer
    split
    · unfold submit
      split
      · exact ⟨rfl, rfl, rfl⟩
      · split
        · exact ⟨rfl, rfl, rfl⟩
        · refine Res.Rel.andThen tr ?_ fun u _ => ?_
          · unfold release; split
            · exact ⟨rfl, rfl, rfl⟩
            · exact ⟨writeDesc_tx_rxd .., by simp, by simp⟩
          · exact ⟨rfl, rfl, rfl⟩
    · exact ⟨rfl, rfl, rfl⟩
  unfold deliverFrame
  dsimp only
  split
  · exact ⟨rfl, rfl, rfl⟩
  · refine Res.Rel.andThen tr (Res.Rel.andThen tr ?_ fun t _ => ?_) fun t _ => hsub t
    · unfold copyFrame; split
      · trivial
      · exact hx _ s
    · unfold callUp
      dsimp only
      refine Res.Rel.andThen tr ?_ fun u _ => ?_
      · have := hx ((State.nextAnswer { t with xlen := (s.desc .rx i).len }).bytes.take t.cfg.xbufSize |>.map some)
          { t with xlen := (s.desc .rx i).len, answers := t.answers.tail }
        exact this
      · exact ⟨rfl, rfl, rfl⟩

/-- A consumed slot that completes: the RX ring differs in that slot, which is Hardware-owned again, and the cursor has
advanced. -/
theorem consumeSlot_done {i : Nat} {s t : State} {st : Status} {res : Word} (h : consumeSlot i s = .done st res t) :
    (s.desc .rx i).own = .sw ∧ t.rxd = s.rxd.set i (s.recycled i) ∧ t.cfg = s.cfg ∧ t.rxCur = advanceCursor s.cfg .rx i := by
  unfold consumeSlot at h
  obtain ⟨st', res', u, hu, hk⟩ := Res.andThen_eq_done h
  have hr : u.rxd = s.rxd ∧ u.cfg = s.cfg ∧ u.rxCur = s.rxCur := by
    split at hu
    · have := deliverFrame_rxd i s
      rw [hu] at this
      exact this
    · cases hu; exact ⟨rfl, rfl, rfl⟩
  have hd : u.desc .rx i = s.desc .rx i := by simp only [State.desc, State.ring, hr.1]
  unfold recycle at hk
  cases ho : (u.desc .rx i).own with
  | hw => rw [release_hw _ _ _ _ _ ho] at hk; cases hk
  | sw =>
    rw [release_sw _ _ _ _ _ ho, Res.ok_andThen] at hk
    cases hk
    refine ⟨hd ▸ ho, ?_, by simp [hr.2.1], by simp [hr.2.1]⟩
    simp only [writeDesc_rx_rxd, hr.1, hd, hr.2.1, State.recycled]

/-- How many slots of the RX ring are Software-owned. -/
def released (s : State) : Nat := s.rxd.countP fun d => d.own == .sw

theorem countP_set_lt {α : Type} (p : α → Bool) (l : List α) (i : Nat) (a : α) (hi : i < l.length) (h1 : p l[i] = true)
    (h2 : p a = false) : (l.set i a).countP p + 1 = l.countP p := by
  induction l generalizing i with
  | nil => cases hi
  | cons b l ih =>
    cases i with
    | zero => simp_all
    | succ i =>
      have := ih i (by simpa using hi) (by simpa using h1)
      simp only [List.set_cons_succ, List.countP_cons]
      omega

/-- Each iteration of the walk leaves one released slot fewer (rule R156). -/
theorem released_consumeSlot {i : Nat} {s t : State} {st : Status} {res : Word} (h : consumeSlot i s = .done st res t) :
    released t + 1 = released s := by
  obtain ⟨ho, hr, _, _⟩ := consumeSlot_done h
  have hi : i < s.rxd.length := State.lt_length_of_sw ho
  unfold released
  rw [hr]
  refine countP_set_lt _ _ _ _ hi ?_ rfl
  have : s.desc .rx i = s.rxd[i] := by
    simp only [State.desc, State.ring, List.getD_eq_getElem?_getD]
    rw [List.getElem?_eq_getElem hi]
    rfl
  rw [← this, ho]
  rfl

theorem released_pos {s : State} {i : Nat} (h : (s.desc .rx i).own = .sw) : 0 < released s := by
  have hi : i < s.rxd.length := State.lt_length_of_sw h
  refine List.countP_pos_iff.mpr ⟨s.rxd[i]'hi, List.getElem_mem _, ?_⟩
  have : s.desc .rx i = s.rxd[i]'hi := by
    simp only [State.desc, State.ring, List.getD_eq_getElem?_getD]
    rw [List.getElem?_eq_getElem hi]
    rfl
  rw [← this, h]
  rfl

/-- More iterations than released slots make no difference. -/
theorem pollLoop_enough (n m : Nat) (s : State) (hn : released s < n) (hm : released s < m) : pollLoop n s = pollLoop m s := by
  induction n generalizing m s with
  | zero => omega
  | succ n ih =>
    obtain ⟨m, rfl⟩ : ∃ k, m = k + 1 := ⟨m - 1, by omega⟩
    unfold pollLoop
    split
    · rfl
    · split
      · rfl
      · cases hc : consumeSlot s.rxCur s with
        | done st res t =>
          have := released_consumeSlot hc
          exact ih m t (by omega) (by omega)
        | raised t => rfl
        | stop f => rfl

theorem released_le (s : State) : released s ≤ s.rxd.length := List.countP_le_length

/-- The walk of `POLL_RECEIVE`, one iteration unrolled (rules R151 and R155). -/
theorem pollReceive_step (s : State) : pollReceive s =
    if (s.desc .rx s.rxCur).own = .hw then .ok s
    else (consumeSlot s.rxCur s).andThen fun t =>
      if s.cfg.rxScan = .oneFrame ∧ (s.desc .rx s.rxCur).fs = true ∧ (s.desc .rx s.rxCur).ls = true then .ok t
      else pollReceive t := by
  have hw : walkEndsAfter s.rxCur s = decide (s.cfg.rxScan = .oneFrame ∧ (s.desc .rx s.rxCur).fs = true ∧
      (s.desc .rx s.rxCur).ls = true) := by
    cases hr : s.cfg.rxScan <;> cases hf : (s.desc .rx s.rxCur).fs <;> cases hl : (s.desc .rx s.rxCur).ls <;>
      simp [walkEndsAfter, Desc.complete, hr, hf, hl]
  have hl := released_le s
  rw [pollReceive, pollLoop]
  split
  · rfl
  · rw [hw]
    split
    · next h =>
      simp only [decide_eq_true_eq] at h
      simp only [h, and_self, if_true]
    · next h =>
      simp only [decide_eq_true_eq] at h
      simp only [h, if_false]
      cases hc : consumeSlot s.rxCur s with
      | done st res t =>
        have := released_consumeSlot hc
        exact pollLoop_enough _ _ t (by omega) (Nat.lt_succ_of_le (released_le t))
      | raised t => rfl
      | stop f => rfl

end Sys2Proof.Machine
end

