-- ==== Sys2Proof/Laws/Healthy.lean ====
section
/-!
SUPPORT. A pass on a healthy device, procedure by procedure: it completes and leaves a healthy device, or it raises
`V_ADMISSION` because the upstream stack answered with more frames than the ring has room for (rule R228 (c)); it never stops.
The window arithmetic of rule R52 and the watchdog's invariant (R210) stand here too.
-/

namespace Sys2Proof.Machine

/-! ## Window arithmetic -/

/-- The distance of slot `i` from the clean cursor `c` around a ring of `n` slots. -/
theorem distance_eq {n c i : Nat} (hc : c < n) (hi : i < n) : (i + n - c) % n = if c ≤ i then i - c else i + n - c := by
  split
  · rw [show i + n - c = (i - c) + n by omega, Nat.add_mod_right, Nat.mod_eq_of_lt (by omega)]
  · exact Nat.mod_eq_of_lt (by omega)

/-- One turn at most around a ring. -/
theorem around_eq {n c p : Nat} (hc : c < n) (hp : p ≤ n) : (c + p) % n = if c + p < n then c + p else c + p - n := by
  split
  · next h => exact Nat.mod_eq_of_lt h
  · rw [Nat.mod_eq_sub_mod (by omega), Nat.mod_eq_of_lt (by omega)]

/-- The current cursor stands `tx_pend` slots from the clean cursor. -/
theorem distance_cur {n c p : Nat} (hc : c < n) (hp : p < n) : ((c + p) % n + n - c) % n = p := by
  have h := around_eq hc (p := p) (by omega)
  rw [distance_eq hc (Nat.mod_lt _ (by omega)), h]
  split <;> split <;> omega

theorem inWindow_iff {s : State} (hs : Shape s) {i : Nat} (hi : i < s.cfg.nTx) :
    s.inWindow i ↔ (if s.txClean ≤ i then i - s.txClean else i + s.cfg.nTx - s.txClean) < s.txPend := by
  rw [State.inWindow, distance_eq hs.tx_clean hi]

/-! ## Rings -/

/-- The ring invariants are a matter of the configuration, the rings and their bookkeeping. -/
theorem RingInv.of {s t : State} (h : RingInv s) (hc : t.cfg = s.cfg) (hr : t.rxd = s.rxd) (ht : t.txd = s.txd)
    (h1 : t.txCur = s.txCur) (h2 : t.txClean = s.txClean) (h3 : t.txPend = s.txPend) : RingInv t := by
  have hd : ∀ r i, t.desc r i = s.desc r i := fun r i => by cases r <;> simp only [State.desc, State.ring, hr, ht]
  have hw : ∀ i, t.inWindow i ↔ s.inWindow i := fun i => by simp only [State.inWindow, hc, h2, h3]
  refine ⟨by rw [h3, hc]; exact h.pend_le, by rw [h1, h2, h3, hc]; exact h.cur_eq, fun i hi hn => ?_, fun i hi ho => ?_,
    fun i hi => ?_, fun i hi => ?_⟩
  · rw [hd, hc]; exact h.outside_clear i (by rw [← hc]; exact hi) fun hx => hn ((hw i).mpr hx)
  · exact (hw i).mpr (h.hw_in_window i (by rw [← hc]; exact hi) (by rw [← hd]; exact ho))
  · rw [hd, hc]; exact h.rx_wrap i (by rw [← hc]; exact hi)
  · rw [hd, hc]; exact h.tx_wrap i (by rw [← hc]; exact hi)

theorem RxBuffers.of {s t : State} (h : RxBuffers s) (hc : t.cfg = s.cfg) (hr : t.rxd = s.rxd) : RxBuffers t := by
  have hd : ∀ i, t.desc .rx i = s.desc .rx i := fun i => by simp only [State.desc, State.ring, hr]
  refine ⟨by rw [hc]; exact h.fields_fit, fun i hi => ?_, fun i hi => ?_, fun i hi ho => ?_⟩
  · rw [hd, hc]; exact h.own_buffer i (by rw [← hc]; exact hi)
  · rw [hd, hc]; exact h.len_le i (by rw [← hc]; exact hi)
  · rw [hd, hc]; exact h.offered i (by rw [← hc]; exact hi) (by rw [← hd]; exact ho)

/-- With room in the ring the current TX slot is Software-owned (rule R161). -/
theorem Healthy.tx_free {s : State} (h : Healthy s) (hf : s.txPend ≠ s.cfg.nTx) : (s.desc .tx s.txCur).own = .sw := by
  have hp := h.rings.pend_le
  have hn : ¬ s.inWindow s.txCur := by
    rw [State.inWindow, h.rings.cur_eq, distance_cur h.shape.tx_clean (by omega)]
    exact Nat.lt_irrefl _
  rw [h.rings.outside_clear _ h.shape.tx_cur hn]
  rfl

theorem nTx_ok {s : State} (h : Healthy s) : Config.capacityOk (s.cfg.capacity .tx) = true := by
  have := h.capacities
  simp only [Config.capacitiesOk, Bool.and_eq_true] at this
  exact this.2

theorem desc_tx_set (l : List Desc) (i j : Nat) (d : Desc) (hi : i < l.length) :
    (l.set i d).getD j Desc.beyond = if j = i then d else l.getD j Desc.beyond := by
  simp only [List.getD_eq_getElem?_getD, List.getElem?_set]
  by_cases h : i = j
  · subst h; simp [hi]
  · simp [h, Ne.symm h]

/-- A submission keeps the ring invariants (rules R52 and R161). -/
theorem ringInv_withSubmitted {s : State} (h : Healthy s) (hf : s.txPend ≠ s.cfg.nTx) (p : Word) (n : Half) :
    RingInv (s.withSubmitted p n) := by
  have hp := h.rings.pend_le
  have hl := h.shape.tx_length
  have hcl := h.shape.tx_clean
  have hcur := h.shape.tx_cur
  have hd : ∀ j, (s.withSubmitted p n).desc .tx j = if j = s.txCur then s.submitted p n else s.desc .tx j :=
    fun j => desc_tx_set _ _ _ _ (by omega)
  have hce := h.rings.cur_eq
  have hw : ∀ i, i < s.cfg.nTx → ((s.withSubmitted p n).inWindow i ↔ (s.inWindow i ∨ i = s.txCur)) := fun i hi => by
    have ha := around_eq hcl (p := s.txPend) hp
    rw [inWindow_iff h.shape hi]
    show (i + s.cfg.nTx - s.txClean) % s.cfg.nTx < s.txPend + 1 ↔ _
    rw [distance_eq hcl hi, hce, ha]
    split <;> split <;> omega
  refine ⟨?_, ?_, fun i hi hn => ?_, fun i hi ho => ?_, h.rings.rx_wrap, fun i hi => ?_⟩
  · show s.txPend + 1 ≤ s.cfg.nTx; omega
  · show (s.txCur + 1) &&& (s.cfg.nTx - 1) = (s.txClean + (s.txPend + 1)) % s.cfg.nTx
    have := advanceCursor_eq (nTx_ok h) s.txCur
    simp only [advanceCursor, Config.capacity] at this
    rw [this, hce, Nat.mod_add_mod, Nat.add_assoc]
  · have hn' := fun hx => hn ((hw i hi).mpr hx)
    rw [hd, if_neg fun he => hn' (.inr he)]
    exact h.rings.outside_clear i hi fun hx => hn' (.inl hx)
  · rw [hd] at ho
    refine (hw i hi).mpr ?_
    split at ho
    · next he => exact .inr he
    · exact .inl (h.rings.hw_in_window i hi ho)
  · rw [hd]
    split
    · next he => rw [he]; exact h.rings.tx_wrap _ hcur
    · exact h.rings.tx_wrap i hi

/-- The state one reclaimed slot leaves (rule R163). -/
def afterReclaim (s : State) : State :=
  { s with
    txd     := s.txd.set s.txClean (Desc.clear (s.desc .tx s.txClean).wrap)
    txClean := advanceCursor s.cfg .tx s.txClean
    txPend  := s.txPend - 1
    trace   := s.trace ++ descEvents .tx s.txClean (Desc.clear (s.desc .tx s.txClean).wrap) }

theorem reclaimOne_sw {s : State} (h : (s.desc .tx s.txClean).own = .sw) : reclaimOne s = .ok (afterReclaim s) := by
  rw [reclaimOne, reclaim_sw h, Res.ok_andThen, writeDesc_eq]
  rfl

/-- Reclaiming the oldest pending slot keeps the ring invariants (rules R52 and R163). -/
theorem ringInv_afterReclaim {s : State} (h : Healthy s) (hp0 : s.txPend ≠ 0) : RingInv (afterReclaim s) := by
  have hp := h.rings.pend_le
  have hl := h.shape.tx_length
  have hcl := h.shape.tx_clean
  have hce := h.rings.cur_eq
  have hwr := h.rings.tx_wrap s.txClean hcl
  have hd : ∀ j, (afterReclaim s).desc .tx j = if j = s.txClean then Desc.clear (s.desc .tx s.txClean).wrap else s.desc .tx j :=
    fun j => desc_tx_set _ _ _ _ (by omega)
  have hadv : advanceCursor s.cfg .tx s.txClean = (s.txClean + 1) % s.cfg.nTx := advanceCursor_eq (nTx_ok h) _
  have hadv' : (s.txClean + 1) % s.cfg.nTx = if s.txClean + 1 < s.cfg.nTx then s.txClean + 1 else s.txClean + 1 - s.cfg.nTx :=
    around_eq hcl (by omega)
  have hw : ∀ i, i < s.cfg.nTx → ((afterReclaim s).inWindow i ↔ (s.inWindow i ∧ i ≠ s.txClean)) := fun i hi => by
    rw [inWindow_iff h.shape hi]
    show (i + s.cfg.nTx - advanceCursor s.cfg .tx s.txClean) % s.cfg.nTx < s.txPend - 1 ↔ _
    have hlt : advanceCursor s.cfg .tx s.txClean < s.cfg.nTx := by rw [hadv]; exact Nat.mod_lt _ (by omega)
    rw [distance_eq hlt hi, hadv, hadv']
    split <;> split <;> split <;> omega
  refine ⟨?_, ?_, fun i hi hn => ?_, fun i hi ho => ?_, h.rings.rx_wrap, fun i hi => ?_⟩
  · show s.txPend - 1 ≤ s.cfg.nTx; omega
  · show s.txCur = (advanceCursor s.cfg .tx s.txClean + (s.txPend - 1)) % s.cfg.nTx
    rw [hadv, Nat.mod_add_mod, hce, show s.txClean + 1 + (s.txPend - 1) = s.txClean + s.txPend by omega]
  · rw [hd]
    split
    · next he => rw [he, hwr]; rfl
    · next he => exact h.rings.outside_clear i hi fun hx => hn ((hw i hi).mpr ⟨hx, he⟩)
  · rw [hd] at ho
    split at ho
    · cases ho
    · next he => exact (hw i hi).mpr ⟨h.rings.hw_in_window i hi ho, he⟩
  · rw [hd]
    split
    · next he => rw [he]; exact hwr
    · exact h.rings.tx_wrap i hi

/-- The recycle of a released RX slot (rule R153). -/
theorem healthy_recycled {s t : State} (h : Healthy s) (ht : Shape t) {i : Nat} (hc : t.cfg = s.cfg)
    (hr : t.rxd = s.rxd.set i (s.recycled i)) (htx : t.txd = s.txd) (hi : i < s.rxd.length) (h1 : t.txCur = s.txCur)
    (h2 : t.txClean = s.txClean) (h3 : t.txPend = s.txPend) (hf : t.fault = s.fault) : Healthy t := by
  have hd : ∀ j, t.desc .rx j = if j = i then s.recycled i else s.desc .rx j := fun j => by
    show t.rxd.getD j Desc.beyond = _
    rw [hr]; exact desc_tx_set _ _ _ _ hi
  have hk : RingInv { t with rxd := s.rxd } := h.rings.of hc rfl htx h1 h2 h3
  have hi' : i < s.cfg.nRx := by rw [← h.shape.rx_length]; exact hi
  have hbuf : (s.recycled i).buf = s.cfg.rxBufAddr.getD i 0 := by
    show fitBuf s.cfg.layout (s.desc .rx i).buf = _
    rw [h.rx_buffers.own_buffer i hi', Config.fit_rxBufAddr h.rx_buffers.fields_fit]
  have hlen : (s.recycled i).len = s.cfg.rxBufSize := Config.fit_rxBufSize h.rx_buffers.fields_fit
  refine ⟨ht, by rw [hc]; exact h.capacities, ⟨hk.pend_le, hk.cur_eq, hk.outside_clear, hk.hw_in_window, fun j hj => ?_, hk.tx_wrap⟩,
    ⟨by rw [hc]; exact h.rx_buffers.fields_fit, fun j hj => ?_, fun j hj => ?_, fun j hj ho => ?_⟩,
    by rw [hf]; exact h.no_fault⟩
  all_goals rw [hc] at hj
  · rw [hd, hc]
    split
    · next he => rw [he]; exact h.rings.rx_wrap i hi'
    · exact h.rings.rx_wrap j hj
  · rw [hd, hc]
    split
    · next he => rw [he]; exact hbuf
    · exact h.rx_buffers.own_buffer j hj
  · rw [hd, hc]
    split
    · rw [hlen]
    · exact h.rx_buffers.len_le j hj
  · rw [hd] at ho ⊢
    rw [hc]
    split
    · exact hlen
    · next he => rw [if_neg he] at ho; exact h.rx_buffers.offered j hj ho

/-! ## Passes -/

/-- The TX slots taken and still to be taken: the pending count and the frames among the waiting answers. -/
def owedSlots (s : State) : Nat := s.txPend + s.answers.countP (fun a => a.len ≠ 0)

theorem room_iff (s : State) : s.roomForAnswers ↔ owedSlots s ≤ s.cfg.nTx := Iff.rfl

/-- What a part of a pass that completes leaves. -/
structure Pass (s t : State) : Prop where
  healthy : Healthy t
  cfg     : t.cfg = s.cfg
  up      : t.up = s.up
  owed    : owedSlots t ≤ owedSlots s

theorem Pass.trans {a b c : State} (h : Pass a b) (k : Pass b c) : Pass a c :=
  ⟨k.healthy, k.cfg.trans h.cfg, k.up.trans h.up, k.owed.trans h.owed⟩

theorem Pass.room {s t : State} (h : Pass s t) (hr : s.roomForAnswers) : t.roomForAnswers := by
  rw [room_iff] at hr ⊢
  rw [h.cfg]
  exact h.owed.trans hr

/-- A change of registers that no part of `Healthy` speaks of. -/
theorem Healthy.pass_of {s t : State} (h : Healthy s) (ht : Shape t) (hc : t.cfg = s.cfg := by rfl) (hr : t.rxd = s.rxd := by rfl)
    (hx : t.txd = s.txd := by rfl) (h1 : t.txCur = s.txCur := by rfl) (h2 : t.txClean = s.txClean := by rfl)
    (h3 : t.txPend = s.txPend := by rfl) (hf : t.fault = s.fault := by rfl) (hu : t.up = s.up := by rfl)
    (ha : t.answers.countP (fun a => a.len ≠ 0) ≤ s.answers.countP (fun a => a.len ≠ 0) := by exact Nat.le_refl _) : Pass s t :=
  ⟨⟨ht, by rw [hc]; exact h.capacities, h.rings.of hc hr hx h1 h2 h3, h.rx_buffers.of hc hr, by rw [hf]; exact h.no_fault⟩, hc, hu,
    by simp only [owedSlots, h3]; omega⟩

theorem Pass.refl {s : State} (h : Healthy s) : Pass s s := h.pass_of h.shape

/-- The result of a part of a pass on a healthy device. -/
def PassRes (s : State) : Res → Prop
  | .done _ _ t => Pass s t
  | .raised t => t.fault = .vAdmission ∧ RxBuffers t ∧ ¬ s.roomForAnswers
  | .stop _ => False

theorem PassRes.andThen {s : State} {r : Res} {k : State → Res} (h : PassRes s r) (hk : ∀ t, Pass s t → PassRes t (k t)) :
    PassRes s (r.andThen k) := by
  cases r with
  | done st res t =>
    have := hk t h
    simp only [Res.done_andThen]
    cases hkt : k t with
    | done st' res' u => rw [hkt] at this; exact h.trans this
    | raised u => rw [hkt] at this; exact ⟨this.1, this.2.1, fun hr => this.2.2 (h.room hr)⟩
    | stop f => rw [hkt] at this; exact this
  | raised t => exact h
  | stop f => exact h

theorem PassRes.from {s u : State} {r : Res} (h : Pass s u) (hr : PassRes u r) : PassRes s r := by
  cases r with
  | done st res t => exact h.trans hr
  | raised t => exact ⟨hr.1, hr.2.1, fun hs => hr.2.2 (h.room hs)⟩
  | stop f => exact hr

theorem PassRes.ok_of {s t : State} (h : Pass s t) : PassRes s (.ok t) := h

/-- With room for the answers still waiting, a part of a pass completes. -/
theorem PassRes.completes {s : State} {r : Res} (h : PassRes s r) (hr : s.roomForAnswers) :
    ∃ st res t, r = .done st res t ∧ Pass s t := by
  cases r with
  | done st res t => exact ⟨st, res, t, rfl, h⟩
  | raised t => exact absurd hr h.2.2
  | stop f => exact h.elim

theorem shape_afterCallState {s : State} (hs : Shape s) (c : Callout) : Shape (afterCallState c s) := by
  have := blockStep_callUp c s
  rw [callUp_of_wf c hs.cfg_wf] at this
  exact this.common.shape hs

theorem shape_withSubmitted {s : State} (hs : Shape s) (hu : s.up = true) (hf : s.txPend ≠ s.cfg.nTx)
    (ho : (s.desc .tx s.txCur).own = .sw) (p : Word) (n : Half) : Shape (s.withSubmitted p n) := by
  have := blockStep_submit p n s
  rw [submit_ok _ _ hu hf ho] at this
  exact this.common.shape hs

/-- An accepted submission on a healthy device. -/
theorem healthy_withSubmitted {s : State} (h : Healthy s) (hu : s.up = true) (hf : s.txPend ≠ s.cfg.nTx) (p : Word) (n : Half) :
    Healthy (s.withSubmitted p n) :=
  ⟨shape_withSubmitted h.shape hu hf (h.tx_free hf) p n, h.capacities, ringInv_withSubmitted h hf p n, h.rx_buffers.of rfl rfl,
    h.no_fault⟩

theorem frames_tail (l : List Answer) :
    l.tail.countP (fun a => a.len ≠ 0) + (if (l.headD Answer.noFrame).len = 0 then 0 else 1) = l.countP (fun a => a.len ≠ 0) := by
  cases l with
  | nil => rfl
  | cons a l =>
    simp only [List.tail_cons, List.headD_cons, List.countP_cons]
    by_cases h : a.len = 0#16 <;> simp [h]

/-- A callout with the submission of its answer. -/
theorem passRes_callout {s : State} (h : Healthy s) (c : Callout) : PassRes s ((callUp c s).andThen submitAnswer) := by
  have hframes := frames_tail s.answers
  have hpass : Pass s (afterCallState c s) := h.pass_of (shape_afterCallState h.shape c) (ha := by
    show s.answers.tail.countP _ ≤ _
    omega)
  rw [callUp_of_wf c h.shape.cfg_wf, Res.ok_andThen, submitAnswer]
  by_cases hl : s.nextAnswer.len = 0
  · rw [if_neg (show ¬ (afterCallState c s).xlen ≠ 0 from fun hx => hx hl)]
    exact hpass
  · rw [if_pos (show (afterCallState c s).xlen ≠ 0 from hl)]
    have hframes' : s.answers.tail.countP (fun a => a.len ≠ 0) + 1 = s.answers.countP (fun a => a.len ≠ 0) := by
      rw [if_neg (show ¬ (s.answers.headD Answer.noFrame).len = 0 from hl)] at hframes
      exact hframes
    cases hu : s.up with
    | false => rw [submit_down _ _ (show (afterCallState c s).up = false from hu)]; exact hpass
    | true =>
      by_cases hf : s.txPend = s.cfg.nTx
      · rw [submit_full _ _ (show (afterCallState c s).up = true from hu) hf]
        refine ⟨?_, h.rx_buffers.of rfl rfl, fun hr => ?_⟩
        · show (if s.fault = .none then FaultCode.vAdmission else s.fault) = _
          rw [if_pos h.no_fault]
        · have : owedSlots s ≤ s.cfg.nTx := hr
          simp only [owedSlots] at this
          omega
      · rw [submit_ok _ _ (show (afterCallState c s).up = true from hu) hf (h.tx_free hf)]
        refine ⟨healthy_withSubmitted hpass.healthy hu hf _ _, rfl, rfl, ?_⟩
        show s.txPend + 1 + s.answers.tail.countP _ ≤ s.txPend + s.answers.countP _
        omega

theorem passRes_txpoll {s : State} (h : Healthy s) : PassRes s (txpoll s) :=
  (passRes_callout h .poll).andThen fun _ ht => Pass.refl ht.healthy

theorem passRes_timerHook {s : State} (h : Healthy s) : PassRes s (timerHook s) :=
  (passRes_callout h .timerHook).andThen fun _ ht => Pass.refl ht.healthy

theorem passRes_reclaimLoop {s : State} (h : Healthy s) (fuel : Nat) : PassRes s (reclaimLoop fuel s) := by
  induction fuel generalizing s with
  | zero => exact Pass.refl h
  | succ fuel ih =>
    unfold reclaimLoop
    split
    · exact Pass.refl h
    · next hp =>
      split
      · exact Pass.refl h
      · next ho =>
        have ho' : (s.desc .tx s.txClean).own = .sw := by cases hx : (s.desc .tx s.txClean).own <;> simp_all
        rw [reclaimOne_sw ho', Res.ok_andThen]
        have hb := blockStep_reclaimOne s
        rw [reclaimOne_sw ho'] at hb
        have hpass : Pass s (afterReclaim s) :=
          ⟨⟨hb.common.shape h.shape, h.capacities, ringInv_afterReclaim h hp, h.rx_buffers.of rfl rfl, h.no_fault⟩, rfl, rfl, by
            show s.txPend - 1 + s.answers.countP _ ≤ s.txPend + s.answers.countP _
            omega⟩
        exact PassRes.from hpass (ih hpass.healthy)

/-- Registers no part of `Healthy` speaks of. -/
theorem Healthy.pass_regs {s t : State} (h : Healthy s) (hb : BlockStep s t) (hr : t.rxd = s.rxd := by rfl)
    (hx : t.txd = s.txd := by rfl) (h1 : t.txCur = s.txCur := by rfl) (h2 : t.txClean = s.txClean := by rfl)
    (h3 : t.txPend = s.txPend := by rfl) (hf : t.fault = s.fault := by rfl) (hu : t.up = s.up := by rfl)
    (ha : t.answers = s.answers := by rfl) : Pass s t :=
  h.pass_of (hb.common.shape h.shape) hb.common.cfg hr hx h1 h2 h3 hf hu (by rw [ha])

theorem passRes_reclaimCompleted {s : State} (h : Healthy s) : PassRes s (reclaimCompleted s) :=
  (passRes_reclaimLoop h _).andThen fun _ ht => by
    have hc := ht.healthy.pass_regs (t := txtoCancel _) .regs
    exact PassRes.from hc (passRes_txpoll hc.healthy)

/-! ## The receive path -/

/-- Copying a released frame to the exchange buffer. -/
theorem copyFrame_ok {s : State} (hs : Shape s) (hb : RxBuffers s) {i : Nat} (hi : i < s.cfg.nRx) :
    copyFrame (s.desc .rx i).buf.toNat (s.desc .rx i).len.toNat s = .ok { s with
      mem := s.mem.writeList s.cfg.xbufAddr.toNat (s.readBytes (s.desc .rx i).buf.toNat (s.desc .rx i).len.toNat) } := by
  have hlen := hb.len_le i hi
  have hx := Config.xbufSize_ge hs.cfg_wf
  rw [copyFrame, hb.own_buffer i hi, frameFault_buf hs.cfg_wf hi hlen, ← hb.own_buffer i hi]
  dsimp only
  rw [writeXbuf, xbufFault_none hs.cfg_wf (by simp only [State.readBytes, List.length_map, List.length_range]; omega)]

theorem passRes_deliverFrame {s : State} (h : Healthy s) {i : Nat} (hi : i < s.cfg.nRx) : PassRes s (deliverFrame i s) := by
  have hlen := h.rx_buffers.len_le i hi
  have hx := Config.xbufSize_ge h.shape.cfg_wf
  have hcopy := blockStep_copyFrame (s.desc .rx i).buf.toNat (s.desc .rx i).len.toNat s (by omega)
  unfold deliverFrame
  dsimp only
  rw [if_neg (by omega), Res.andThen_assoc]
  rw [copyFrame_ok h.shape h.rx_buffers hi] at hcopy ⊢
  rw [Res.ok_andThen]
  have hp : Pass s { s with
      mem := s.mem.writeList s.cfg.xbufAddr.toNat (s.readBytes (s.desc .rx i).buf.toNat (s.desc .rx i).len.toNat)
      xlen := (s.desc .rx i).len } := h.pass_of ((hcopy.trans .regs).common.shape h.shape)
  exact PassRes.from hp (passRes_callout hp.healthy _)

/-- The state the recycle of RX slot `i` leaves (rule R153). -/
def afterRecycle (i : Nat) (s : State) : State :=
  { s with
    rxd   := s.rxd.set i (s.recycled i)
    rxCur := advanceCursor s.cfg .rx i
    trace := s.trace ++ descEvents .rx i (s.recycled i) }

theorem recycle_sw {s : State} {i : Nat} (h : (s.desc .rx i).own = .sw) : recycle i s = .ok (afterRecycle i s) := by
  rw [recycle, release_sw _ _ _ _ _ h, Res.ok_andThen, writeDesc_eq]
  rfl

theorem passRes_consumeSlot {s : State} (h : Healthy s) {i : Nat} (ho : (s.desc .rx i).own = .sw) :
    PassRes s (consumeSlot i s) := by
  have hi : i < s.rxd.length := State.lt_length_of_sw ho
  have hi' : i < s.cfg.nRx := by rw [← h.shape.rx_length]; exact hi
  have hrec : ∀ t, Pass s t → t.rxd = s.rxd → PassRes t (recycle i t) := fun t ht hr => by
    have hd : t.desc .rx i = s.desc .rx i := by simp only [State.desc, State.ring, hr]
    have ho' : (t.desc .rx i).own = .sw := by rw [hd]; exact ho
    have hb := blockStep_recycle i t
    rw [recycle_sw ho'] at hb ⊢
    exact ⟨healthy_recycled ht.healthy (hb.common.shape ht.healthy.shape) rfl rfl rfl (by rw [hr]; exact hi) rfl rfl rfl rfl, rfl, rfl,
      Nat.le_refl _⟩
  unfold consumeSlot
  by_cases hc : (s.desc .rx i).complete = true
  · rw [if_pos hc]
    have h1 := passRes_deliverFrame h hi'
    have h2 := deliverFrame_rxd i s
    cases hd : deliverFrame i s with
    | done st res t =>
      rw [hd] at h1 h2
      exact PassRes.from h1 (hrec t h1 h2.1)
    | raised t => rw [hd] at h1; exact h1
    | stop f => rw [hd] at h1; exact h1
  · rw [if_neg hc]
    exact hrec s (Pass.refl h) rfl

theorem own_sw_of_ne {d : Desc} (h : ¬ d.own = .hw) : d.own = .sw := by cases hx : d.own <;> simp_all

theorem passRes_pollLoop {s : State} (h : Healthy s) (fuel : Nat) : PassRes s (pollLoop fuel s) := by
  induction fuel generalizing s with
  | zero => exact Pass.refl h
  | succ fuel ih =>
    unfold pollLoop
    split
    · exact Pass.refl h
    · next ho =>
      split
      · exact (passRes_consumeSlot h (own_sw_of_ne ho)).andThen fun _ ht => Pass.refl ht.healthy
      · exact (passRes_consumeSlot h (own_sw_of_ne ho)).andThen fun _ ht => ih ht.healthy

theorem passRes_pollReceive {s : State} (h : Healthy s) : PassRes s (pollReceive s) := passRes_pollLoop h _

/-! ## The dispatcher -/

theorem pass_regWrite {s : State} (h : Healthy s) (reg : Reg) (v : Word) : Pass s (regWrite reg v s) := by
  refine h.pass_regs (blockStep_regWrite reg v s) ?_ ?_ ?_ ?_ ?_ ?_ ?_ ?_ <;> cases reg <;>
    simp only [regWrite, writeEffect, State.log] <;> split <;> rfl

theorem passRes_process {s : State} (h : Healthy s) (snap : Byte) : PassRes s (process snap s) := by
  unfold process
  split
  · exact Pass.refl h
  · refine (((PassRes.andThen ?_ fun t ht => ?_).andThen fun t ht => ?_).andThen fun t ht => ?_)
    · rw [stepAck_eq]; split
      · exact pass_regWrite h _ _
      · exact Pass.refl h
    · rw [stepReceive_eq]; split
      · exact passRes_pollReceive ht.healthy
      · exact Pass.refl ht.healthy
    · rw [stepTransmit_eq]; split
      · exact passRes_reclaimCompleted ht.healthy
      · exact Pass.refl ht.healthy
    · rw [stepPhy_eq]
      exact ht.healthy.pass_regs (.regs (he := ⟨_, rfl⟩))

theorem passRes_unitBody {s : State} (h : Healthy s) (u : DeferredUnit) : PassRes s (unitBody u s) := by
  cases u with
  | irqWork snap => exact passRes_process h snap
  | pollWork => exact passRes_timerHook h
  | txTimeoutWork => exact passRes_txpoll h
  | txAvailWork => exact passRes_txpoll h

end Sys2Proof.Machine
end

