-- ==== Sys2Proof/Laws/PerInstr.lean ====
section
/-!
SUPPORT. One fact about every instruction as syntax: the first word the encoder writes agrees with the instruction's row of the
opcode table, its `match` under its `mask` (rules R111 and R114).
-/

namespace Sys2Proof.Laws.MatchesTable

/-- The `mask` and the `match` of an instruction's row of the opcode table, which bear on `W0`. -/
def row : Instr → Word × Word
  | .advance _ _ => (0xFF7F0000, 0x01000000)
  | .isHw _ _ => (0xFF7F0000, 0x02000000)
  | .release _ _ _ _ _ _ _ => (0xFF0F0000, 0x03000000)
  | .reclaim _ _ => (0xFF7F0000, 0x04000000)
  | .pollReceive => (0xFFFFFFFF, 0x10000000)
  | .submit _ _ => (0xFFFFFFFF, 0x11000000)
  | .reclaimCompleted => (0xFFFFFFFF, 0x12000000)
  | .txpoll => (0xFFFFFFFF, 0x13000000)
  | .irq => (0xFFFFFFFF, 0x20000000)
  | .process _ => (0xFFFFFFFF, 0x21000000)
  | .workerRun => (0xFFFFFFFF, 0x22000000)
  | .workerDone => (0xFFFFFFFF, 0x23000000)
  | .tick => (0xFFFFFFFF, 0x30000000)
  | .pollExpire => (0xFFFFFFFF, 0x31000000)
  | .txtoExpire => (0xFFFFFFFF, 0x32000000)
  | .ptStart => (0xFFFFFFFF, 0x33000000)
  | .ptCancel => (0xFFFFFFFF, 0x34000000)
  | .txtoStart => (0xFFFFFFFF, 0x35000000)
  | .txtoCancel => (0xFFFFFFFF, 0x36000000)
  | .bringUp => (0xFFFFFFFF, 0x40000000)
  | .bringDown => (0xFFFFFFFF, 0x41000000)
  | .notifyTxAvailable => (0xFFFFFFFF, 0x42000000)
  | .regRead _ => (0xFFFF0000, 0x43000000)
  | .regWrite _ _ => (0xFFFF0000, 0x44000000)
  | .addMc => (0xFFFFFFFF, 0x45000000)
  | .removeMc => (0xFFFFFFFF, 0x46000000)
  | .macTxDone _ _ => (0xFFFF0000, 0x80000000)
  | .macRxFrame _ _ _ _ _ => (0xFF9FFFFF, 0x81000000)
  | .macRaise _ => (0xFFFFFFFF, 0x82000000)
  | .macPhy _ => (0xFFFFFFFF, 0x83000000)

/-- The first word of the instruction's encoding matches its row, whatever the layout of the registers. -/
def Statement (i : Instr) : Prop := ∀ lay : Layout, (encode lay i).w0 &&& (row i).1 = (row i).2

/-- A mask that covers the upper half only sees only the upper half. -/
theorem high_masked (hi mask low : Half) : (hi ++ low) &&& (mask ++ 0#16) = (hi &&& mask) ++ 0#16 := by
  rw [BitVec.and_append]
  simp

theorem advance (r : Ring) (c : Half) : Statement (.advance r c) := by
  intro lay; cases r <;> exact high_masked _ 0xFF7F#16 c
theorem isHw (r : Ring) (i : Half) : Statement (.isHw r i) := by
  intro lay; cases r <;> exact high_masked _ 0xFF7F#16 i
theorem release (r : Ring) (i : Half) (buf : Word) (len : Half) (fs ls ic : Bool) : Statement (.release r i buf len fs ls ic) := by
  intro lay; cases r <;> cases fs <;> cases ls <;> cases ic <;> exact high_masked _ 0xFF0F#16 i
theorem reclaim (r : Ring) (i : Half) : Statement (.reclaim r i) := by
  intro lay; cases r <;> exact high_masked _ 0xFF7F#16 i
theorem pollReceive : Statement .pollReceive := by
  intro lay; change (0x10#8 ++ 0#24) &&& 0xFFFFFFFF#32 = 0x10000000#32; decide
theorem submit (p : Word) (n : Half) : Statement (.submit p n) := by
  intro lay; change (0x11#8 ++ 0#24) &&& 0xFFFFFFFF#32 = 0x11000000#32; decide
theorem reclaimCompleted : Statement .reclaimCompleted := by
  intro lay; change (0x12#8 ++ 0#24) &&& 0xFFFFFFFF#32 = 0x12000000#32; decide
theorem txpoll : Statement .txpoll := by
  intro lay; change (0x13#8 ++ 0#24) &&& 0xFFFFFFFF#32 = 0x13000000#32; decide
theorem irq : Statement .irq := by
  intro lay; change (0x20#8 ++ 0#24) &&& 0xFFFFFFFF#32 = 0x20000000#32; decide
theorem process (snap : Byte) : Statement (.process snap) := by
  intro lay; change (0x21#8 ++ 0#24) &&& 0xFFFFFFFF#32 = 0x21000000#32; decide
theorem workerRun : Statement .workerRun := by
  intro lay; change (0x22#8 ++ 0#24) &&& 0xFFFFFFFF#32 = 0x22000000#32; decide
theorem workerDone : Statement .workerDone := by
  intro lay; change (0x23#8 ++ 0#24) &&& 0xFFFFFFFF#32 = 0x23000000#32; decide
theorem tick : Statement .tick := by
  intro lay; change (0x30#8 ++ 0#24) &&& 0xFFFFFFFF#32 = 0x30000000#32; decide
theorem pollExpire : Statement .pollExpire := by
  intro lay; change (0x31#8 ++ 0#24) &&& 0xFFFFFFFF#32 = 0x31000000#32; decide
theorem txtoExpire : Statement .txtoExpire := by
  intro lay; change (0x32#8 ++ 0#24) &&& 0xFFFFFFFF#32 = 0x32000000#32; decide
theorem ptStart : Statement .ptStart := by
  intro lay; change (0x33#8 ++ 0#24) &&& 0xFFFFFFFF#32 = 0x33000000#32; decide
theorem ptCancel : Statement .ptCancel := by
  intro lay; change (0x34#8 ++ 0#24) &&& 0xFFFFFFFF#32 = 0x34000000#32; decide
theorem txtoStart : Statement .txtoStart := by
  intro lay; change (0x35#8 ++ 0#24) &&& 0xFFFFFFFF#32 = 0x35000000#32; decide
theorem txtoCancel : Statement .txtoCancel := by
  intro lay; change (0x36#8 ++ 0#24) &&& 0xFFFFFFFF#32 = 0x36000000#32; decide
theorem bringUp : Statement .bringUp := by
  intro lay; change (0x40#8 ++ 0#24) &&& 0xFFFFFFFF#32 = 0x40000000#32; decide
theorem bringDown : Statement .bringDown := by
  intro lay; change (0x41#8 ++ 0#24) &&& 0xFFFFFFFF#32 = 0x41000000#32; decide
theorem notifyTxAvailable : Statement .notifyTxAvailable := by
  intro lay; change (0x42#8 ++ 0#24) &&& 0xFFFFFFFF#32 = 0x42000000#32; decide
theorem regRead (r : Reg) : Statement (.regRead r) := by
  intro lay; cases r <;> exact high_masked 0x4300#16 0xFFFF#16 _
theorem regWrite (r : Reg) (v : Word) : Statement (.regWrite r v) := by
  intro lay; cases r <;> exact high_masked 0x4400#16 0xFFFF#16 _
theorem addMc : Statement .addMc := by
  intro lay; change (0x45#8 ++ 0#24) &&& 0xFFFFFFFF#32 = 0x45000000#32; decide
theorem removeMc : Statement .removeMc := by
  intro lay; change (0x46#8 ++ 0#24) &&& 0xFFFFFFFF#32 = 0x46000000#32; decide
theorem macTxDone (i stat : Half) : Statement (.macTxDone i stat) := fun _ => high_masked 0x8000#16 0xFFFF#16 i
theorem macRxFrame (len : Half) (fs ls : Bool) (stat : Half) (seed : Byte) : Statement (.macRxFrame len fs ls stat seed) := by
  intro lay
  have h : ∀ f l : Bool, (0x81#8 ++ 0#1 ++ bitField f ++ bitField l ++ 0#21 : BitVec 32) &&& 0xFF9FFFFF#32 = 0x81000000#32 := by
    decide
  exact h fs ls
theorem macRaise (bits : Byte) : Statement (.macRaise bits) := by
  intro lay; change (0x82#8 ++ 0#24) &&& 0xFFFFFFFF#32 = 0x82000000#32; decide
theorem macPhy (link : Bool) : Statement (.macPhy link) := by
  intro lay; change (0x83#8 ++ 0#24) &&& 0xFFFFFFFF#32 = 0x83000000#32; decide

end Sys2Proof.Laws.MatchesTable
end

