-- ==== Sys2Proof/Laws/Walk.lean ====
section
/-!
SUPPORT. The registers a walk of the rings never writes, said once for every procedure below a pass, and the watchdog's
invariant (rule R210 (W1)) through the same procedures.
-/

namespace Sys2Proof.Machine

/-- `s` with everything a walk may write taken from `t`: rings, memory, cursors, `xlen`, answers, the watchdog, the transmit
kick, the fault and the trace. -/
def State.walked (s t : State) : State :=
  { s with
    rxd := t.rxd, txd := t.txd, mem := t.mem, rxCur := t.rxCur, txCur := t.txCur, txClean := t.txClean, txPend := t.txPend
    xlen := t.xlen, fault := t.fault, toArmed := t.toArmed, toRem := t.toRem, txKick := t.txKick, trace := t.trace
    answers := t.answers }

/-- Nothing else differs. -/
def Walked (s t : State) : Prop := t = s.walked t

theorem Walked.refl (s : State) : Walked s s := rfl

theorem Walked.of {s t : State} (h : t = s.walked t := by rfl) : Walked s t := h

theorem Walked.trans (a b c : State) (h : Walked a b) (k : Walked b c) : Walked a c := by
  unfold Walked at *
  have : b.walked c = a.walked c := by rw [h]; rfl
  rw [← this]
  exact k

theorem Walked.cfg {s t : State} (h : Walked s t) : t.cfg = s.cfg := Eq.trans (congrArg State.cfg h) rfl
theorem Walked.up {s t : State} (h : Walked s t) : t.up = s.up := Eq.trans (congrArg State.up h) rfl
theorem Walked.linkUp {s t : State} (h : Walked s t) : t.linkUp = s.linkUp := Eq.trans (congrArg State.linkUp h) rfl
theorem Walked.dslot {s t : State} (h : Walked s t) : t.dslot = s.dslot := Eq.trans (congrArg State.dslot h) rfl
theorem Walked.inflight {s t : State} (h : Walked s t) : t.inflight = s.inflight := Eq.trans (congrArg State.inflight h) rfl
theorem Walked.ptArmed {s t : State} (h : Walked s t) : t.ptArmed = s.ptArmed := Eq.trans (congrArg State.ptArmed h) rfl
theorem Walked.ptRem {s t : State} (h : Walked s t) : t.ptRem = s.ptRem := Eq.trans (congrArg State.ptRem h) rfl
theorem Walked.isr {s t : State} (h : Walked s t) : t.isr = s.isr := Eq.trans (congrArg State.isr h) rfl
theorem Walked.imr {s t : State} (h : Walked s t) : t.imr = s.imr := Eq.trans (congrArg State.imr h) rfl
theorem Walked.maccr {s t : State} (h : Walked s t) : t.maccr = s.maccr := Eq.trans (congrArg State.maccr h) rfl
theorem Walked.txbase {s t : State} (h : Walked s t) : t.txbase = s.txbase := Eq.trans (congrArg State.txbase h) rfl
theorem Walked.rxbase {s t : State} (h : Walked s t) : t.rxbase = s.rxbase := Eq.trans (congrArg State.rxbase h) rfl
theorem Walked.phyLink {s t : State} (h : Walked s t) : t.phyLink = s.phyLink := Eq.trans (congrArg State.phyLink h) rfl
theorem Walked.tune {s t : State} (h : Walked s t) : t.tune = s.tune := Eq.trans (congrArg State.tune h) rfl
theorem Walked.macTxIdx {s t : State} (h : Walked s t) : t.macTxIdx = s.macTxIdx := Eq.trans (congrArg State.macTxIdx h) rfl
theorem Walked.macRxIdx {s t : State} (h : Walked s t) : t.macRxIdx = s.macRxIdx := Eq.trans (congrArg State.macRxIdx h) rfl
theorem Walked.resp {s t : State} (h : Walked s t) : t.resp = s.resp := Eq.trans (congrArg State.resp h) rfl

theorem walked_andThen {s : State} {r : Res} {k : State → Res} (h : r.Rel Walked s) (hk : ∀ t, (k t).Rel Walked t) :
    (r.andThen k).Rel Walked s := Res.Rel.andThen Walked.trans h fun t _ => hk t

theorem walked_from {s u : State} {r : Res} (h : Walked s u) (hr : r.Rel Walked u) : r.Rel Walked s := by
  cases r with
  | done st res t => exact Walked.trans _ _ _ h hr
  | raised t => exact Walked.trans _ _ _ h hr
  | stop f => trivial

theorem walked_writeDesc (r : Ring) (i : Nat) (d : Desc) (s : State) : Walked s (writeDesc r i d s) := by
  rw [writeDesc_eq]; cases r <;> rfl

theorem walked_release (r : Ring) (i : Nat) (buf : Word) (len : Half) (fs ls ic : Bool) (s : State) :
    (release r i buf len fs ls ic s).Rel Walked s := by
  unfold release; split
  · exact Walked.of
  · exact walked_writeDesc ..

theorem walked_reclaim (r : Ring) (i : Nat) (s : State) : (reclaim r i s).Rel Walked s := by
  unfold reclaim; split
  · exact Walked.of
  · exact walked_writeDesc ..

theorem walked_writeXbuf (bs : List (Option Byte)) (s : State) : (writeXbuf bs s).Rel Walked s := by
  unfold writeXbuf; split
  · trivial
  · exact Walked.of

theorem walked_callUp (c : Callout) (s : State) : (callUp c s).Rel Walked s := by
  unfold callUp
  exact walked_andThen (walked_from (u := { s with answers := s.answers.tail }) rfl (walked_writeXbuf ..)) fun t => Walked.of (s := t)

theorem walked_submit (p : Word) (n : Half) (s : State) : (submit p n s).Rel Walked s := by
  unfold submit; split
  · exact Walked.refl s
  · split
    · exact Walked.of
    · exact walked_andThen (walked_release ..) fun t => Walked.of (s := t)

theorem walked_submitAnswer (s : State) : (submitAnswer s).Rel Walked s := by
  unfold submitAnswer; split
  · exact walked_submit ..
  · exact Walked.refl s

theorem walked_txpoll (s : State) : (txpoll s).Rel Walked s :=
  walked_andThen (walked_andThen (walked_callUp ..) walked_submitAnswer) Walked.refl

theorem walked_timerHook (s : State) : (timerHook s).Rel Walked s :=
  walked_andThen (walked_andThen (walked_callUp ..) walked_submitAnswer) Walked.refl

theorem walked_reclaimLoop (fuel : Nat) (s : State) : (reclaimLoop fuel s).Rel Walked s := by
  induction fuel generalizing s with
  | zero => exact Walked.refl s
  | succ fuel ih =>
    unfold reclaimLoop; split
    · exact Walked.refl s
    · split
      · exact Walked.refl s
      · exact walked_andThen (walked_andThen (walked_reclaim ..) fun t => Walked.of (s := t)) ih

theorem walked_reclaimCompleted (s : State) : (reclaimCompleted s).Rel Walked s :=
  walked_andThen (walked_reclaimLoop ..) fun t => walked_from (u := txtoCancel t) rfl (walked_txpoll _)

theorem walked_deliverFrame (i : Nat) (s : State) : (deliverFrame i s).Rel Walked s := by
  unfold deliverFrame
  dsimp only
  split
  · exact Walked.of
  · refine walked_andThen (walked_andThen ?_ fun t => walked_from (u := { t with xlen := (s.desc .rx i).len }) rfl (walked_callUp ..))
      walked_submitAnswer
    unfold copyFrame; split
    · trivial
    · exact walked_writeXbuf ..

theorem walked_consumeSlot (i : Nat) (s : State) : (consumeSlot i s).Rel Walked s := by
  unfold consumeSlot
  refine walked_andThen ?_ fun t => walked_andThen (walked_release ..) fun u => Walked.of (s := u)
  split
  · exact walked_deliverFrame i s
  · exact Walked.refl s

theorem walked_pollLoop (fuel : Nat) (s : State) : (pollLoop fuel s).Rel Walked s := by
  induction fuel generalizing s with
  | zero => exact Walked.refl s
  | succ fuel ih =>
    unfold pollLoop; split
    · exact Walked.refl s
    · split
      · exact walked_andThen (walked_consumeSlot ..) Walked.refl
      · exact walked_andThen (walked_consumeSlot ..) ih

theorem walked_pollReceive (s : State) : (pollReceive s).Rel Walked s := walked_pollLoop _ s

/-! ## The watchdog (rule R210 (W1)) -/

/-- An armed watchdog has a frame to watch. -/
def Watched (s : State) : Prop := s.toArmed = true → 1 ≤ s.txPend

/-- A part of a pass that keeps it. -/
def KeepsWatch (s t : State) : Prop := Watched s → Watched t

theorem watch_andThen {s : State} {r : Res} {k : State → Res} (h : r.Rel KeepsWatch s) (hk : ∀ t, (k t).Rel KeepsWatch t) :
    (r.andThen k).Rel KeepsWatch s := Res.Rel.andThen (fun _ _ _ h k hs => k (h hs)) h fun t _ => hk t

theorem watch_from {s u : State} {r : Res} (h : KeepsWatch s u) (hr : r.Rel KeepsWatch u) : r.Rel KeepsWatch s := by
  cases r with
  | done st res t => exact fun hs => hr (h hs)
  | raised t => exact fun hs => hr (h hs)
  | stop f => trivial

theorem KeepsWatch.of {s t : State} (ha : t.toArmed = s.toArmed := by rfl) (hp : t.txPend = s.txPend := by rfl) : KeepsWatch s t := by
  intro h
  unfold Watched at *
  rw [ha, hp]
  exact h

theorem watch_writeXbuf (bs : List (Option Byte)) (s : State) : (writeXbuf bs s).Rel KeepsWatch s := by
  unfold writeXbuf; split
  · trivial
  · exact KeepsWatch.of

theorem watch_callUp (c : Callout) (s : State) : (callUp c s).Rel KeepsWatch s := by
  unfold callUp
  exact watch_andThen (watch_from (u := { s with answers := s.answers.tail }) .of (watch_writeXbuf ..)) fun t => KeepsWatch.of (s := t)

theorem watch_submit (p : Word) (n : Half) (s : State) : (submit p n s).Rel KeepsWatch s := by
  unfold submit; split
  · exact KeepsWatch.of
  · split
    · exact KeepsWatch.of
    · refine watch_andThen ?_ fun t => ?_
      · unfold release; split
        · exact KeepsWatch.of
        · exact KeepsWatch.of (by simp) (by simp)
      · exact fun _ _ => show 1 ≤ t.txPend + 1 from Nat.le_add_left _ _

theorem watch_submitAnswer (s : State) : (submitAnswer s).Rel KeepsWatch s := by
  unfold submitAnswer; split
  · exact watch_submit ..
  · exact KeepsWatch.of

theorem watch_txpoll (s : State) : (txpoll s).Rel KeepsWatch s :=
  watch_andThen (watch_andThen (watch_callUp ..) watch_submitAnswer) fun _ => KeepsWatch.of

theorem watch_timerHook (s : State) : (timerHook s).Rel KeepsWatch s :=
  watch_andThen (watch_andThen (watch_callUp ..) watch_submitAnswer) fun _ => KeepsWatch.of

/-- Draining never faults: it reclaims only slots it has found Software-owned (rule R163). -/
theorem reclaimLoop_ok (fuel : Nat) (s : State) : ∃ t, reclaimLoop fuel s = .ok t := by
  induction fuel generalizing s with
  | zero => exact ⟨s, rfl⟩
  | succ fuel ih =>
    unfold reclaimLoop
    split
    · exact ⟨s, rfl⟩
    · split
      · exact ⟨s, rfl⟩
      · next ho => rw [reclaimOne_sw (own_sw_of_ne ho), Res.ok_andThen]; exact ih _

/-- `RECLAIM_COMPLETED` ends its draining with a cancel, so it leaves the watchdog right whatever it found. -/
theorem watch_reclaimCompleted (s : State) : (reclaimCompleted s).Rel (fun _ t => Watched t) s := by
  obtain ⟨t, ht⟩ := reclaimLoop_ok s.txPend s
  have h := watch_txpoll (txtoCancel t)
  have h0 : Watched (txtoCancel t) := fun hx => by cases hx
  rw [reclaimCompleted, ht, Res.ok_andThen]
  cases hk : txpoll (txtoCancel t) with
  | done st res u => rw [hk] at h; exact h h0
  | raised u => rw [hk] at h; exact h h0
  | stop f => trivial

theorem watch_deliverFrame (i : Nat) (s : State) : (deliverFrame i s).Rel KeepsWatch s := by
  unfold deliverFrame
  dsimp only
  split
  · exact KeepsWatch.of
  · refine watch_andThen (watch_andThen ?_ fun t => watch_from (u := { t with xlen := (s.desc .rx i).len }) .of (watch_callUp ..))
      watch_submitAnswer
    unfold copyFrame; split
    · trivial
    · exact watch_writeXbuf ..

theorem watch_pollLoop (fuel : Nat) (s : State) : (pollLoop fuel s).Rel KeepsWatch s := by
  have hc : ∀ i s, (consumeSlot i s).Rel KeepsWatch s := fun i s => by
    unfold consumeSlot
    refine watch_andThen ?_ fun t => watch_andThen ?_ fun u => KeepsWatch.of (s := u)
    · split
      · exact watch_deliverFrame i s
      · exact KeepsWatch.of
    · unfold release; split
      · exact KeepsWatch.of
      · exact KeepsWatch.of (by simp) (by simp)
  induction fuel generalizing s with
  | zero => exact KeepsWatch.of
  | succ fuel ih =>
    unfold pollLoop; split
    · exact KeepsWatch.of
    · split
      · exact watch_andThen (hc ..) fun _ => KeepsWatch.of
      · exact watch_andThen (hc ..) ih

theorem watch_pollReceive (s : State) : (pollReceive s).Rel KeepsWatch s := watch_pollLoop _ s

end Sys2Proof.Machine
end

