-- ==== Sys2Proof/Machine/Text.lean ====
section
/-!
DEFINITION. The text form of a command (rule R118) and the pseudo-instructions (rule R119). The text has no effect on the
machine: it is how a program of commands is written down.
-/

namespace Sys2Proof.Machine

/-- Lower-case hexadecimal with the prefix `0x`. -/
def hexText (n : Nat) : String := "0x" ++ String.ofList (Nat.toDigits 16 n)

/-- Decimal. -/
def decText (n : Nat) : String := String.ofList (Nat.toDigits 10 n)

/-- `rx` or `tx`. -/
def ringText : Ring → String
  | .rx => "rx"
  | .tx => "tx"

/-- The name of a register. -/
def regText : Reg → String
  | .isr => "ISR"
  | .imr => "IMR"
  | .txpoll => "TXPOLL"
  | .txbase => "TXBASE"
  | .rxbase => "RXBASE"
  | .maccr => "MACCR"
  | .phystat => "PHYSTAT"
  | .tune => "TUNE"

/-- The name of a flag that is set; nothing for one that is not. -/
def flagText (name : String) (b : Bool) : List String := if b then [name] else []

/-- A command's text: the mnemonic and its operands, separated by commas. -/
def lineText (mnemonic : String) : List String → String
  | [] => mnemonic
  | ops => mnemonic ++ " " ++ String.intercalate ", " ops

/-- The text form of an instruction: the mnemonic in lower case, operands in the order of rule R118. -/
def asmText : Instr → String
  | .advance r c => lineText "advance" [ringText r, decText c.toNat]
  | .isHw r i => lineText "is_hw" [ringText r, decText i.toNat]
  | .release r i buf len fs ls ic =>
    lineText "release" ([ringText r, decText i.toNat, hexText buf.toNat, decText len.toNat] ++ flagText "fs" fs
      ++ flagText "ls" ls ++ flagText "ic" ic)
  | .reclaim r i => lineText "reclaim" [ringText r, decText i.toNat]
  | .pollReceive => "poll_receive"
  | .submit p n => lineText "submit" [hexText p.toNat, decText n.toNat]
  | .reclaimCompleted => "reclaim_completed"
  | .txpoll => "txpoll"
  | .irq => "irq"
  | .process snap => lineText "process" [hexText snap.toNat]
  | .workerRun => "worker_run"
  | .workerDone => "worker_done"
  | .tick => "tick"
  | .pollExpire => "poll_expire"
  | .txtoExpire => "txto_expire"
  | .ptStart => "pt_start"
  | .ptCancel => "pt_cancel"
  | .txtoStart => "txto_start"
  | .txtoCancel => "txto_cancel"
  | .bringUp => "bring_up"
  | .bringDown => "bring_down"
  | .notifyTxAvailable => "notify_tx_available"
  | .regRead reg => lineText "reg_read" [regText reg]
  | .regWrite reg v => lineText "reg_write" [regText reg, hexText v.toNat]
  | .addMc => "add_mc"
  | .removeMc => "remove_mc"
  | .macTxDone i stat => lineText "mac_tx_done" [decText i.toNat, decText stat.toNat]
  | .macRxFrame len fs ls stat seed =>
    lineText "mac_rx_frame" ([decText len.toNat] ++ flagText "fs" fs ++ flagText "ls" ls
      ++ [decText stat.toNat, decText seed.toNat])
  | .macRaise bits => lineText "mac_raise" [hexText bits.toNat]
  | .macPhy link => lineText "mac_phy" [if link then "1" else "0"]

/-! ## Pseudo-instructions (rule R119) -/

/-- `tick n`. -/
def pseudoTick (n : Nat) : List Instr := List.replicate n .tick

/-- `mask_all`. -/
def pseudoMaskAll : Instr := .regWrite .imr 0

/-- `unmask`: `0x7f` is `IRQ_ENABLE_SET` in the layout this spec gives (rule R108). -/
def pseudoUnmask (lay : Layout) : Instr := .regWrite .imr (statusWord lay irqEnableSet)

/-- `kick_tx`. -/
def pseudoKickTx : Instr := .regWrite .txpoll 1

/-- `mac_rx_nobuf`. -/
def pseudoMacRxNobuf : Instr := .macRaise 0x02

end Sys2Proof.Machine
end

