-- ==== Sys2Proof/Tests/Slice0.lean ====
section
/-!
SUPPORT. The model's own tests. Expected values come from the test vectors of the spec (V-E, V-RP, V-RX, V-TX, V-D, V-T, V-H,
V-M, programs P1 to P6; the vector is named at each test) or are computed by hand from the rule named. A theorem `test_…` is
one fact about decoding, well-formedness or one step; a theorem `witness_<obligation>` gives states and operands that meet
the hypotheses of that obligation.
-/

namespace Sys2Proof.Tests

open Sys2Proof Sys2Proof.Machine

/-! ## Helpers -/

/-- The outcome is a next state with the property `p`. -/
def left (o : Host.Outcome State Fault Refusal) (p : State → Bool) : Bool :=
  match o with
  | .next t => p t
  | .fault _ => false
  | .refused _ => false

theorem next_of_left {o : Host.Outcome State Fault Refusal} {p : State → Bool} (h : left o p = true) :
    ∃ t, o = .next t ∧ p t = true := by
  cases o with
  | next t => exact ⟨t, rfl, h⟩
  | fault f => cases h
  | refused r => cases h

/-- The answer to the command is this status and this result. -/
def answered (st : Status) (res : Word) (t : State) : Bool := t.resp == some (.returned st res)

/-- The command raised this fault. -/
def raised (code : FaultCode) (t : State) : Bool := t.resp == some (.faulted code) && t.fault == code

/-- The layout this spec gives (R101, R104 to R107). -/
abbrev lay : Layout := Layout.default

/-- The three words of a descriptor that hold fields, `DW2` first. -/
def words (d : Desc) : Word × Word × Word := (d.word lay 2, d.word lay 1, d.word lay 0)

/-- Another layout that R110 allows: registers in another order, status and control bits from the top down, `own` beside the
flags in the fourth word, `len` of 11 bits. -/
def otherLayout : Layout where
  offsets := { isr := 0x1C, imr := 0x18, txpoll := 0x14, txbase := 0x10, rxbase := 0x0C, maccr := 0x40, phystat := 0x04, tune := 0x00 }
  status  := { rxFinished := 31, noRxbuf := 30, txOk := 29, txLost := 28, rxLost := 27, busErr := 26, phyChg := 25, rpktAvail := 0 }
  control := { txEn := 31, rxEn := 30, dmaEn := 29, fullDuplex := 28, crcAppend := 27, runtAccept := 26, bcastAccept := 25 }
  link    := 31
  own     := 96
  wrap    := 97
  fs      := 98
  ls      := 99
  ic      := 100
  buf     := ⟨0, 32⟩
  len     := ⟨32, 11⟩
  stat    := ⟨64, 16⟩

/-- A layout with a field wider than its value (`stat`), one across two words (`len`) and one narrower (`buf`). -/
def acrossLayout : Layout := { lay with stat := ⟨0, 20⟩, len := ⟨88, 16⟩, buf := ⟨104, 24⟩ }

/-- The default parameters with the test port open and that layout. -/
def cfgA : Config := { Config.default with testPort := true, layout := acrossLayout }

/-- The default parameters with the test port open and the layout `otherLayout`. -/
def cfgO : Config := { Config.default with testPort := true, layout := otherLayout }

/-- The default parameters with the test port open. -/
def cfgI : Config := { Config.default with testPort := true }

/-- The same in `DEFERRED` mode. -/
def cfgD : Config := { cfgI with mode := .deferred }

/-- The constructed state of a configuration with the test port open. -/
def down : State := State.construct cfgI

/-- A device that is up, as `BRING_UP` leaves it, without the trace. -/
def up (cfg : Config) : State :=
  { State.construct cfg with up := true, maccr := 0x7F, imr := 0x7F, ptArmed := true, ptRem := cfg.pollPeriod }

/-- A submitted TX descriptor: 64 bytes at the exchange buffer. -/
def sent (own : Owner) (wrap : Bool) : Desc :=
  { own := own, buf := 0x30000000, len := 64, fs := true, ls := true, wrap := wrap, ic := true, stat := 0 }

/-- One frame submitted, its slot with the owner `own`. -/
def oneSent (own : Owner) (cfg : Config) : State :=
  { up cfg with txd := (up cfg).txd.set 0 (sent own false), txCur := 1, txPend := 1, toArmed := true, toRem := 25, txKick := true }

/-- The TX ring full of submitted frames. -/
def full (cfg : Config) : State :=
  { up cfg with
    txd := [sent .hw false, sent .hw false, sent .hw false, sent .hw true]
    txPend := 4, toArmed := true, toRem := 25, txKick := true }

/-- RX slot 0 released by the MAC agent with these contents, three bytes of its buffer written. -/
def received (len : Half) (fs ls : Bool) (cfg : Config) : State :=
  { up cfg with
    rxd := (up cfg).rxd.set 0
      { own := .sw, buf := 0x20000000, len := len, fs := fs, ls := ls, wrap := false, ic := false, stat := 0 }
    mem := [(0x20000000, 7), (0x20000001, 8), (0x20000002, 9)]
    macRxIdx := 1 }

/-- A pending interrupt unit in `DEFERRED` mode. -/
def pendingIrq (snap : Byte) : State := { up cfgD with dslot := some (.irqWork snap), imr := 0 }

/-! ## Well-formedness: one ill-formed term for each check -/

theorem test_wf_advance : Instr.wf cfgI (.advance .rx 4) = false ∧ Instr.wf cfgI (.advance .rx 3) = true := by decide
theorem test_wf_isHw : Instr.wf cfgI (.isHw .tx 4) = false ∧ Instr.wf cfgI (.isHw .tx 3) = true := by decide
theorem test_wf_release : Instr.wf cfgI (.release .rx 4 0x20000000 64 false false false) = false := by decide
theorem test_wf_reclaim : Instr.wf cfgI (.reclaim .tx 0xFFFF) = false := by decide
theorem test_wf_macTxDone : Instr.wf cfgI (.macTxDone 4 0) = false ∧ Instr.wf cfgI (.macTxDone 3 0) = true := by decide
theorem test_cfg_wf : Config.default.wf = true := by decide
theorem test_cfg_ringsNonempty : ({ Config.default with nTx := 0 } : Config).wf = false := by decide
theorem test_cfg_buffersNamed : ({ Config.default with nRx := 2 } : Config).wf = false := by decide
theorem test_cfg_rxBufSize : ({ Config.default with rxBufSize := 0 } : Config).wf = false := by decide
theorem test_cfg_pollPeriod : ({ Config.default with pollPeriod := 0 } : Config).wf = false := by decide
theorem test_cfg_txTimeout : ({ Config.default with txTimeout := 0 } : Config).wf = false := by decide
theorem test_cfg_xbufSize : ({ Config.default with xbufSize := 1535 } : Config).wf = false := by decide
theorem test_cfg_alignedRings :
    ({ Config.default with rxRingAddr := 0x10000008 } : Config).wf = false ∧
    ({ Config.default with txRingAddr := 0x10001004 } : Config).wf = false := by decide
theorem test_cfg_alignedRegs : ({ Config.default with regBase := 0x40000002 } : Config).wf = false := by decide
theorem test_cfg_insideSpace : ({ Config.default with xbufAddr := 0xFFFFFFF0 } : Config).wf = false := by decide
theorem test_cfg_disjointRegions : ({ Config.default with xbufAddr := 0x10000000 } : Config).wf = false := by decide
theorem test_cfg_fieldsFit :
    ({ cfgO with rxBufSize := 2048, xbufSize := 2048 } : Config).fieldsFit = false ∧ cfgA.fieldsFit = false ∧
    cfgO.fieldsFit = true ∧ Config.default.fieldsFit = true := by decide
/-- R100, R110: a configuration is constructed whether or not its sizes and addresses fit the layout's fields. -/
theorem test_cfg_narrowFields :
    ({ cfgO with rxBufSize := 2048, xbufSize := 2048 } : Config).wf = true ∧ cfgA.wf = true := by decide
theorem test_cfg_layout : ({ Config.default with layout := { lay with link := 32 } } : Config).wf = false := by decide
theorem test_layout_wf : lay.wf = true ∧ otherLayout.wf = true ∧ acrossLayout.wf = true := by decide
theorem test_layout_offsets :
    ({ lay with offsets := { lay.offsets with imr := 0x00 } } : Layout).wf = false ∧
    ({ lay with offsets := { lay.offsets with imr := 0x22 } } : Layout).wf = false := by decide
/-- R110 (a) and (b). -/
theorem test_layout_registerBits :
    ({ lay with status := { lay.status with txOk := 0 } } : Layout).wf = false ∧
    ({ lay with control := { lay.control with bcastAccept := 32 } } : Layout).wf = false := by decide
/-- R101: no field without a bit, none beyond the four words. -/
theorem test_layout_places :
    ({ lay with stat := ⟨0, 0⟩ } : Layout).wf = false ∧ ({ lay with buf := ⟨97, 32⟩ } : Layout).wf = false ∧
    ({ lay with own := 128 } : Layout).wf = false := by decide
/-- R110 (c) and (e). -/
theorem test_layout_fieldsApart : ({ lay with own := 15 } : Layout).wf = false := by decide
theorem test_layout_lenWide : ({ lay with len := ⟨32, 10⟩ } : Layout).wf = false := by decide
theorem test_cfg_ackWritable : ({ Config.default with ackReg := .phystat } : Config).wf = false := by decide
/-- R7, R8: capacities are the powers of two from 1 to 32768; `BRING_UP` is what refuses another. -/
theorem test_capacityOk :
    Config.capacityOk 1 = true ∧ Config.capacityOk 32768 = true ∧ Config.capacityOk 0 = false ∧ Config.capacityOk 3 = false ∧
    Config.capacityOk 65536 = false := by decide
theorem test_resetWith_refuses : State.resetWith { Config.default with nTx := 0 } = none := by decide

/-! ## Decoding: every constructor from a word written out from the opcode map (R112, R114) -/

theorem test_decode_ringPrimitives :
    decode lay ⟨0x01800002, 0, 0⟩ = some (.advance .tx 2) ∧ decode lay ⟨0x02000003, 0, 0⟩ = some (.isHw .rx 3) ∧
    decode lay ⟨0x03300001, 0x00000600, 0x20000800⟩ = some (.release .rx 1 0x20000800 1536 false true true) ∧
    decode lay ⟨0x04800003, 0, 0⟩ = some (.reclaim .tx 3) := by decide
theorem test_decode_receiveAndTransmit :
    decode lay ⟨0x10000000, 0, 0⟩ = some .pollReceive ∧ decode lay ⟨0x11000000, 0x000005DC, 0x30000800⟩ = some (.submit 0x30000800 1500) ∧
    decode lay ⟨0x12000000, 0, 0⟩ = some .reclaimCompleted ∧ decode lay ⟨0x13000000, 0, 0⟩ = some .txpoll := by decide
theorem test_decode_dispatcher :
    decode lay ⟨0x20000000, 0, 0⟩ = some .irq ∧ decode lay ⟨0x21000000, 0xFF, 0⟩ = some (.process 0xFF) ∧
    decode lay ⟨0x22000000, 0, 0⟩ = some .workerRun ∧ decode lay ⟨0x23000000, 0, 0⟩ = some .workerDone := by decide
theorem test_decode_timers :
    decode lay ⟨0x30000000, 0, 0⟩ = some .tick ∧ decode lay ⟨0x31000000, 0, 0⟩ = some .pollExpire ∧
    decode lay ⟨0x32000000, 0, 0⟩ = some .txtoExpire ∧ decode lay ⟨0x33000000, 0, 0⟩ = some .ptStart ∧
    decode lay ⟨0x34000000, 0, 0⟩ = some .ptCancel ∧ decode lay ⟨0x35000000, 0, 0⟩ = some .txtoStart ∧
    decode lay ⟨0x36000000, 0, 0⟩ = some .txtoCancel := by decide
theorem test_decode_host :
    decode lay ⟨0x40000000, 0, 0⟩ = some .bringUp ∧ decode lay ⟨0x41000000, 0, 0⟩ = some .bringDown ∧
    decode lay ⟨0x42000000, 0, 0⟩ = some .notifyTxAvailable ∧ decode lay ⟨0x45000000, 0, 0⟩ = some .addMc ∧
    decode lay ⟨0x46000000, 0x5, 0x6⟩ = some .removeMc ∧ decode lay ⟨0x46000001, 0, 0⟩ = none := by decide
/-- R104: the eight offsets; the next offset and an unaligned one name no register (V-E11, V-E12). -/
theorem test_decode_registers :
    decode lay ⟨0x43000000, 0, 0⟩ = some (.regRead .isr) ∧ decode lay ⟨0x43000004, 0, 0⟩ = some (.regRead .imr) ∧
    decode lay ⟨0x43000008, 0, 0⟩ = some (.regRead .txpoll) ∧ decode lay ⟨0x4300000C, 0, 0⟩ = some (.regRead .txbase) ∧
    decode lay ⟨0x43000010, 0, 0⟩ = some (.regRead .rxbase) ∧ decode lay ⟨0x43000014, 0, 0⟩ = some (.regRead .maccr) ∧
    decode lay ⟨0x43000018, 0, 0⟩ = some (.regRead .phystat) ∧ decode lay ⟨0x4400001C, 0x12345678, 0⟩ = some (.regWrite .tune 0x12345678) ∧
    decode lay ⟨0x43000020, 0, 0⟩ = none ∧ decode lay ⟨0x43000002, 0, 0⟩ = none := by decide
theorem test_decode_mac :
    decode lay ⟨0x80000002, 0x00000005, 0⟩ = some (.macTxDone 2 5) ∧
    decode lay ⟨0x81200000, 0x80010040, 0xFF⟩ = some (.macRxFrame 64 false true 0x8001 0xFF) ∧
    decode lay ⟨0x82000000, 0x38, 0⟩ = some (.macRaise 0x38) ∧ decode lay ⟨0x83000000, 1, 0⟩ = some (.macPhy true) ∧
    decode lay ⟨0x83000000, 2, 0⟩ = none := by decide
/-- V-E20: the first unassigned opcode after each group. -/
theorem test_decode_unassigned :
    decode lay ⟨0x05000000, 0, 0⟩ = none ∧ decode lay ⟨0x14000000, 0, 0⟩ = none ∧ decode lay ⟨0x24000000, 0, 0⟩ = none ∧
    decode lay ⟨0x37000000, 0, 0⟩ = none ∧ decode lay ⟨0x47000000, 0, 0⟩ = none ∧ decode lay ⟨0x84000000, 0, 0⟩ = none ∧
    decode lay ⟨0xFF000000, 0, 0⟩ = none := by decide
/-- R110: under another layout another offset names a register, and `IMR` has its bits elsewhere. -/
theorem test_otherLayout_registers :
    decode otherLayout ⟨0x44000040, 0xE0000000, 0⟩ = some (.regWrite .maccr 0xE0000000) ∧ decode otherLayout ⟨0x43000008, 0, 0⟩ = none ∧
    left (exec (.regWrite .maccr 0xE0000000) (State.construct cfgO)) (fun t => t.maccr == 0x07) = true ∧
    statusWord otherLayout irqEnableSet = 0xFE000000 ∧ otherLayout.regSpan = 0x44 := by decide
/-- R110: the words of a filled TX slot under another layout; its length field holds 11 bits. -/
theorem test_otherLayout_submit :
    left (exec (.submit 0x30000000 2047) (up cfgO)) (fun t =>
      [0, 1, 2, 3].map ((t.desc .tx 0).word otherLayout) == [0x30000000, 0x7FF, 0, 0x1D] && t.readByte 0x10001005 == some 7) = true := by
  decide
/-- R110: the same with a length across the third and the fourth word. -/
theorem test_acrossLayout_submit :
    left (exec (.submit 0x300000 0x240) (up cfgA)) (fun t =>
      [0, 1, 2, 3].map ((t.desc .tx 0).word acrossLayout) == [0x80000000, 0x70000000, 0x40000000, 0x30000002] &&
        t.readByte 0x1000100C == some 2) = true := by
  decide
/-- R111: words are little-endian in a byte stream (V-E1). -/
theorem test_decode_bytes :
    decodeBytes lay [0, 0, 0, 0x11, 0x40, 0, 0, 0, 0, 0, 0, 0x30, 0xAA] = some (.submit 0x30000000 64, [0xAA]) ∧
    decodeBytes lay [0, 0, 0, 0x20] = none := by decide
/-- The table numbers `W1` from bit 32 and `W2` from bit 64 (V-E1). -/
theorem test_decodeTableWord :
    decodeTableWord 96 (0x30000000 * 2 ^ 64 + 0x40 * 2 ^ 32 + 0x11000000) = some (.submit 0x30000000 64) ∧
    decodeTableWord 32 0x20000000 = some .irq := by decide
theorem test_withFetchWord :
    step (State.reset.withFetchWord 32 0x40000000) = exec .bringUp State.reset := rfl
/-- R118: the text form, in the notation of the vectors. -/
theorem test_asmText :
    asmText (.release .tx 3 0x30000000 64 true true true) = "release tx, 3, 0x30000000, 64, fs, ls, ic" ∧
    asmText (.macRxFrame 64 true false 3 0) = "mac_rx_frame 64, fs, 3, 0" ∧ asmText (.regWrite .imr 0x7F) = "reg_write IMR, 0x7f" := by
  decide

/-! ## Ring primitives -/

/-- V-RP1. -/
theorem test_advance_wraps : left (exec (.advance .tx 3) down) (answered .ok 0) = true := by decide
/-- V-RP12. -/
theorem test_advance_internalOnly :
    left (exec (.advance .tx 0) (State.construct Config.default)) (answered .eInternalOnly 0) = true := by decide
/-- V-RP5. -/
theorem test_isHw_rx : left (exec (.isHw .rx 3) down) (answered .ok 1) = true := by decide
theorem test_isHw_tx : left (exec (.isHw .tx 0) down) (answered .ok 0) = true := by decide
/-- V-RP6. -/
theorem test_release_tx :
    left (exec (.release .tx 3 0x30000000 64 true true true) down) (fun t =>
      words (t.desc .tx 3) == (0x30000000, 0xF0000040, 0x80000000) && t.txCur == 0 && t.txPend == 0 &&
      t.trace == [.descW .tx 3 (.buf 0x30000000), .descW .tx 3 (.body 64 true true true true), .descW .tx 3 (.status 0 .hw)]) =
      true := by decide
/-- V-RP8. -/
theorem test_release_hw :
    left (exec (.release .rx 0 0x20000000 1536 false false false) down) (fun t => raised .vReleaseHw t && t.rxd == down.rxd) = true := by
  decide
/-- V-RP9. -/
theorem test_reclaim_tx :
    left (exec (.reclaim .tx 3) { down with txd := down.txd.set 3 { sent .sw true with stat := 3 } }) (fun t =>
      words (t.desc .tx 3) == (0, 0x80000000, 0)) = true := by decide
/-- V-RP10. -/
theorem test_reclaim_hw : left (exec (.reclaim .rx 0) down) (raised .vReclaimHw) = true := by decide

/-! ## Receive -/

/-- V-RX1, R151 case 1. -/
theorem test_pollReceive_noop : left (exec .pollReceive (up cfgI)) (fun t => t.rxCur == 0 && t.trace.isEmpty) = true := by decide
/-- V-RX2 with three bytes. -/
theorem test_pollReceive_delivers :
    left (exec .pollReceive (received 3 true true cfgI)) (fun t =>
      t.xbuf 0 == some 7 && t.xbuf 2 == some 9 && t.xbuf 3 == none && t.rxCur == 1 && t.xlen == 0 &&
      t.trace == [.call (.deliver 3) 0, .descW .rx 0 (.buf 0x20000000), .descW .rx 0 (.body 1536 false false false false),
        .descW .rx 0 (.status 0 .hw)]) = true := by decide

/-! ## Transmit -/

/-- V-TX2. -/
theorem test_submit :
    left (exec (.submit 0x30000000 64) (up cfgI)) (fun t =>
      words (t.desc .tx 0) == (0x30000000, 0x70000040, 0x80000000) && t.txCur == 1 && t.txPend == 1 && t.txKick && t.toArmed &&
      t.toRem == 25) = true := by decide
/-- V-TX6. -/
theorem test_submit_full : left (exec (.submit 0x30002000 64) (full cfgI)) (fun t => raised .vAdmission t && t.txd == (full cfgI).txd) =
    true := by decide
/-- V-TX7. -/
theorem test_reclaimCompleted :
    left (exec .reclaimCompleted (oneSent .sw cfgI)) (fun t =>
      t.txClean == 1 && t.txPend == 0 && !t.toArmed && words (t.desc .tx 0) == (0, 0, 0) &&
      t.trace == [.descW .tx 0 (.buf 0), .descW .tx 0 (.body 0 false false false false), .descW .tx 0 (.status 0 .sw),
        .call .poll 0]) = true := by decide
/-- V-TX8. -/
theorem test_reclaimCompleted_hw :
    left (exec .reclaimCompleted (oneSent .hw cfgI)) (fun t => t.txPend == 1 && !t.toArmed && t.trace == [.call .poll 0]) = true := by
  decide
/-- V-TX11: the poll's frame of 64 bytes is submitted. -/
theorem test_txpoll :
    left (exec .txpoll ((up cfgI).answer 64)) (fun t =>
      words (t.desc .tx 0) == (0x30000000, 0x70000040, 0x80000000) && t.xlen == 64 && t.txPend == 1) = true := by decide

/-! ## Dispatcher -/

/-- V-D2. -/
theorem test_irq_inline :
    left (exec .irq { up cfgI with isr := 0x38 }) (fun t =>
      t.trace == [.regW .imr 0, .regR .isr 0x38, .regW .imr 0x7F] && t.isr == 0) = true := by decide
/-- V-D8. -/
theorem test_irq_duringPass :
    left (exec .irq { up cfgD with inflight := some (.irqWork 1), isr := 0x40 }) (fun t =>
      t.dslot == some (.irqWork 0x40) && t.inflight == some (.irqWork 1) && t.imr == 0) = true := by decide
/-- V-D14. -/
theorem test_process_zero : left (exec (.process 0) (up cfgI)) (fun t => t.trace.isEmpty) = true := by decide
/-- V-D3 and V-D4, the steps (a) and (d). -/
theorem test_process_ackAndPhy :
    left (exec (.process 0xC0) { up cfgI with phyLink := true }) (fun t =>
      t.trace == [.regW .isr 0x80, .regR .phystat 1] && t.linkUp) = true := by decide
/-- V-D7. -/
theorem test_workerRun :
    left (exec .workerRun (pendingIrq 1)) (fun t =>
      t.dslot == none && t.inflight == some (.irqWork 1) && t.imr == 0 && t.dispatcherState == .processing) = true := by decide
/-- V-D10. -/
theorem test_workerRun_idle : left (exec .workerRun (up cfgD)) (answered .eNotEnabled 0) = true := by decide
/-- V-D9. -/
theorem test_workerDone :
    left (exec .workerDone { up cfgD with inflight := some (.irqWork 1), imr := 0 }) (fun t =>
      t.imr == 0x7F && t.inflight == none && t.trace == [.regW .imr 0x7F]) = true := by decide
/-- V-H9: a pass in the upstream stack's own context writes no `IMR`. -/
theorem test_workerDone_notify :
    left (exec .workerDone { up cfgD with inflight := some .txAvailWork, imr := 0x55 }) (fun t => t.imr == 0x55 && t.trace.isEmpty) =
    true := by decide

/-! ## Timers -/

/-- P2 step 3. -/
theorem test_tick : left (exec .tick (oneSent .hw cfgI)) (fun t => t.ptRem == 9 && t.toRem == 24) = true := by decide
/-- V-T4. -/
theorem test_tick_disarmed : left (exec .tick { down with toArmed := true }) (fun t => t.ptRem == 0 && t.toRem == 0) = true := by decide
/-- V-T2. -/
theorem test_pollExpire :
    left (exec .pollExpire { up cfgI with ptRem := 0 }) (fun t =>
      t.trace == [.regW .imr 0, .call .timerHook 0, .regW .imr 0x7F] && t.ptArmed && t.ptRem == 10) = true := by decide
/-- P6 step 5. -/
theorem test_pollExpire_dropped :
    left (exec .pollExpire { pendingIrq 1 with ptRem := 0 }) (fun t =>
      t.trace.isEmpty && t.dslot == some (.irqWork 1) && t.ptRem == 10) = true := by decide
/-- P4 step 6. -/
theorem test_txtoExpire :
    left (exec .txtoExpire { oneSent .hw cfgI with toRem := 0 }) (fun t =>
      t.trace == [.regW .imr 0, .call .poll 0, .regW .imr 0x7F] && !t.toArmed && t.txPend == 1) = true := by decide
/-- V-D13: the timeout unit takes the place of a pending one. -/
theorem test_txtoExpire_replaces :
    left (exec .txtoExpire { pendingIrq 1 with toArmed := true }) (fun t => t.dslot == some .txTimeoutWork && !t.toArmed) = true := by
  decide
/-- R202. -/
theorem test_ptStart : left (exec .ptStart down) (fun t => t.ptArmed && t.ptRem == 10) = true := by decide
/-- R203. -/
theorem test_ptCancel : left (exec .ptCancel (up cfgI)) (fun t => !t.ptArmed && t.ptRem == 10) = true := by decide
/-- R204. -/
theorem test_txtoStart : left (exec .txtoStart down) (fun t => t.toArmed && t.toRem == 25) = true := by decide
/-- V-T8. -/
theorem test_txtoCancel : left (exec .txtoCancel down) (fun t => !t.toArmed && answered .ok 0 t) = true := by decide

/-! ## Host interface -/

/-- V-H1. -/
theorem test_bringUp :
    left (exec .bringUp down) (fun t =>
      t.up && t.ptArmed && t.ptRem == 10 && t.imr == 0x7F && t.maccr == 0x7F &&
      t.trace.drop 24 == [.regW .txbase 0x10001000, .regW .rxbase 0x10000000, .regW .maccr 0x7F, .regW .imr 0x7F,
        .hostReturn .ok 0]) = true := by decide
/-- V-H5: the capacity test comes first. -/
theorem test_bringUp_capacity :
    left (exec .bringUp (State.construct { cfgI with nTx := 3, irqLineOk := false })) (fun t => answered .eCfgCapacity 0 t && !t.up) =
    true := by decide
/-- V-H6. -/
theorem test_bringDown :
    left (exec .bringDown (oneSent .hw cfgI)) (fun t =>
      !t.up && t.imr == 0 && t.maccr == 0 && !t.ptArmed && !t.toArmed && t.txPend == 1 &&
      t.trace == [.regW .imr 0, .regW .maccr 0, .hostReturn .ok 0]) = true := by decide
/-- V-D12. -/
theorem test_bringDown_inPass :
    left (exec .bringDown { up cfgD with inflight := some .pollWork }) (answered .eNotEnabled 0) = true := by decide
/-- V-H9. -/
theorem test_notify_deferred :
    left (exec .notifyTxAvailable (up cfgD)) (fun t => t.dslot == some .txAvailWork && t.imr == 0x7F) = true := by decide
/-- V-TX11: no `IMR` write. -/
theorem test_notify_inline :
    left (exec .notifyTxAvailable ((up cfgI).answer 64)) (fun t =>
      t.trace.take 1 == [.call .poll 64] && t.txPend == 1 && t.imr == 0x7F) = true := by decide
/-- V-H12. -/
theorem test_regRead_isrClears : left (exec (.regRead .isr) { down with isr := 1 }) (fun t => answered .ok 1 t && t.isr == 0) = true := by
  decide
/-- V-H16: accepted while a fault is recorded. -/
theorem test_regRead_faulted :
    left (exec (.regRead .imr) { up cfgI with fault := .vAdmission }) (fun t => answered .ok 0x7F t && t.fault == .vAdmission) = true := by
  decide
/-- V-H12. -/
theorem test_regWrite_isr : left (exec (.regWrite .isr 0x80) { down with isr := 0x81 }) (fun t => t.isr == 1) = true := by decide
/-- V-H13 and V-H14. -/
theorem test_regWrite_phystatAndTxpoll :
    left (exec (.regWrite .phystat 1) down) (fun t => !t.phyLink) = true ∧
    left (exec (.regWrite .txpoll 2) down) (fun t => !t.txKick) = true := by decide
/-- V-H15. -/
theorem test_addMc : left (exec .addMc down) (answered .eReserved 0) = true := by decide
/-- V-E18: `W1` and `W2` are ignored. -/
theorem test_removeMc :
    left (step { down with cmds := [⟨0x46000000, 0x5, 0x6⟩] }) (fun t => answered .eReserved 0 t && t.cmds.isEmpty) = true := by decide

/-! ## MAC agent -/

/-- V-M1. -/
theorem test_macTxDone :
    left (exec (.macTxDone 0 0) (oneSent .hw cfgI)) (fun t =>
      words (t.desc .tx 0) == (0x30000000, 0x70000040, 0) && t.isr == 4 && t.macTxIdx == 1 && !t.txKick && t.txPend == 1 &&
      t.trace.isEmpty) = true := by decide
/-- V-M5: the wrap marker on slot 3. -/
theorem test_macTxDone_wrap :
    left (exec (.macTxDone 3 0) { full cfgI with macTxIdx := 3 }) (fun t => t.macTxIdx == 0) = true := by decide
/-- V-M6 with three bytes. -/
theorem test_macRxFrame :
    left (exec (.macRxFrame 3 true true 0 7) (up cfgI)) (fun t =>
      words (t.desc .rx 0) == (0x20000000, 0x60000003, 0) && t.readByte 0x20000000 == some 7 &&
      t.readByte 0x20000002 == some 9 && t.readByte 0x20000003 == none && t.isr == 1 && t.macRxIdx == 1) = true := by decide
/-- V-RX12. -/
theorem test_macRxFrame_tooLong : left (exec (.macRxFrame 1537 true true 0 0) (up cfgI)) (answered .eNotEnabled 0) = true := by decide
/-- V-M8. -/
theorem test_macRaise : left (exec (.macRaise 2) { down with isr := 0x40 }) (fun t => t.isr == 0x42 && !irqOwed t) = true := by decide
/-- V-M8. -/
theorem test_macPhy : left (exec (.macPhy true) down) (fun t => t.isr == 0x40 && t.phyLink) = true := by decide

/-! ## The port -/

/-- V-H17: the order of the checks on a device with a fault and a shut test port. -/
theorem test_port_order :
    let s := { State.construct Config.default with fault := .vAdmission }
    left (exec (.regRead .imr) s) (answered .eInternalOnly 0) = true ∧ left (exec (.advance .tx 0) s) (answered .eFaulted 0) = true ∧
    left (exec .addMc s) (answered .eFaulted 0) = true ∧ left (step { s with cmds := [⟨0, 0, 0⟩] }) (answered .eIllegal 0) = true := by
  decide
/-- V-E5. -/
theorem test_port_badIndex :
    left (step { down with cmds := [⟨0x03000004, 0x00000040, 0x20000000⟩] }) (answered .eIllegal 0) = true := by decide
/-- R90: a frame that would cross the top of the address space stops the machine by name. -/
theorem test_stop_outsideAddressSpace :
    exec (.macRxFrame 2 true true 0 0) { up cfgI with rxd := (up cfgI).rxd.set 0 { (up cfgI).desc .rx 0 with buf := 0xFFFFFFFF } } =
      .fault .outsideAddressSpace := rfl

/-! ## Witnesses: the hypotheses of each obligation can be met -/

/-- A next state with a property exists: the form in which a witness meets `exec i s = .next t`. -/
def Runs (i : Instr) (s : State) (p : State → Bool) : Prop := ∃ t, exec i s = .next t ∧ p t = true

theorem runs {i : Instr} {s : State} {p : State → Bool} (h : left (exec i s) p = true) : Runs i s p := next_of_left h

theorem healthy_upI : Healthy (up cfgI) := healthy_of_check (by decide)
theorem healthy_upD : Healthy (up cfgD) := healthy_of_check (by decide)
theorem healthy_full : Healthy (full cfgI) := healthy_of_check (by decide)
theorem healthy_oneSent (own : Owner) (m : Mode) : Healthy (oneSent own { cfgI with mode := m }) := by
  cases own <;> cases m <;> exact healthy_of_check (by decide)
theorem shape_received (fs ls : Bool) : Shape (received 3 fs ls cfgI) := by
  cases fs <;> cases ls <;> exact shape_of_check (by decide)
theorem open_upI : (up cfgI).portOpen := ⟨by decide, by decide⟩

theorem witness_UnreservedInstructionHasOneCommand :
    (decode lay ⟨0x11000000, 0x0000FFFF, 0xFFFFFFFF⟩ = some (.submit 0xFFFFFFFF 0xFFFF) ∧ opClass (.submit 0xFFFFFFFF 0xFFFF) ≠ .reserved) ∧
    (decode lay ⟨0x46000000, 0x5, 0x6⟩ = some .removeMc ∧ opClass .removeMc = .reserved) := by decide
theorem witness_DecodeEncodeRoundTrip : lay.wf = true ∧ otherLayout.wf = true ∧ acrossLayout.wf = true := by decide
theorem witness_DescriptorLayoutHoldsEveryField :
    otherLayout.wf = true ∧ (let d := { sent .hw true with len := 2047, stat := 0xFFFF }
      d.buf.toNat < 2 ^ otherLayout.buf.width ∧ d.len.toNat < 2 ^ otherLayout.len.width ∧ d.stat.toNat < 2 ^ otherLayout.stat.width) ∧
    (acrossLayout.wf = true ∧ 17 < acrossLayout.stat.width ∧ 15 < acrossLayout.len.width) ∧
    (10 < otherLayout.len.width ∧ ∀ f, ¬ ((otherLayout.place f).lo ≤ 43 ∧ 43 < (otherLayout.place f).lo + (otherLayout.place f).width)) :=
  ⟨by decide, by decide, by decide, by decide, fun f => by cases f <;> decide⟩
theorem witness_RegisterLayoutHoldsEveryNamedBit :
    otherLayout.wf = true ∧ (∀ r, otherLayout.offset r ≠ 0x08) ∧ 24 ∉ otherLayout.statusPositions ∧ 0 ∉ otherLayout.controlPositions :=
  ⟨by decide, fun r => by cases r <;> decide, by decide, by decide⟩
theorem witness_DescriptorStandsAtItsAddress : Shape State.reset ∧ 3 < State.reset.cfg.capacity .rx ∧ 3 < State.reset.cfg.capacity .tx :=
  ⟨shape_of_check (by decide), by decide⟩
theorem witness_StepRunsTheDecodedCommand :
    State.reset.cmds = [] ∧
    (decode lay ⟨0x01000003, 0, 0⟩ = some (.advance .rx 3) ∧ Instr.wf State.reset.cfg (.advance .rx 3) = true) ∧ decode lay ⟨0, 0, 0⟩ = none ∧
    (decode lay ⟨0x01000004, 0, 0⟩ = some (.advance .rx 4) ∧ Instr.wf State.reset.cfg (.advance .rx 4) = false) ∧
    ({ State.reset with cmds := [⟨0x01000003, 0, 0⟩] } : State).cmds = ⟨0x01000003, 0, 0⟩ :: [] := by decide
theorem witness_ResetLeavesTheConstructedState : 0 < Config.default.nRx ∧ 3 < Config.default.nRx ∧ 3 < Config.default.nTx := by decide
theorem witness_ResetAcceptsOnlyTheQuietOperations :
    Config.default.testPort = false ∧ Instr.wf Config.default (.macTxDone 3 0) = true ∧
    enabled (.macTxDone 3 0) (State.construct Config.default) = false ∧ enabled .tick (State.construct Config.default) = true := by decide
theorem witness_PortChecksInOrder :
    Instr.wf cfgI (.advance .tx 4) = false ∧
    (Instr.wf cfgI .tick = true ∧ { down with fault := .vRxLen }.fault ≠ .none ∧ ∀ r, Instr.tick ≠ .regRead r) ∧
    (down.fault = .none ∧ opClass .addMc = .reserved) ∧ (opClass (.regRead .isr) = .internal ∧ State.reset.cfg.testPort = false) ∧
    (opClass .bringUp = .host ∧ { up cfgD with inflight := some .pollWork }.inflight ≠ none) :=
  ⟨by decide, ⟨by decide, by decide, fun r => nofun⟩, by decide, by decide, by decide⟩
theorem witness_StatusAndResultOfEveryCommand :
    Runs .bringUp (up cfgI) (answered .eNotEnabled 0) ∧ Runs (.advance .tx 0) down (answered .ok 1) ∧
    Runs (.reclaim .rx 0) down (raised .vReclaimHw) := ⟨runs (by decide), runs (by decide), runs (by decide)⟩
theorem witness_FaultIsSticky :
    Runs .tick { down with fault := .vAdmission } (answered .eFaulted 0) ∧ Instr.wf cfgI .tick = true ∧
    ({ down with fault := .vAdmission } : State).cfg.testPort = true := ⟨runs (by decide), by decide, by decide⟩
theorem witness_AdvanceRule :
    Config.capacityOk (down.cfg.capacity .tx) = true ∧ down.portOpen ∧ (3#16).toNat < down.cfg.capacity .tx ∧
    down.cfg.capacity .tx ≤ (4#16).toNat ∧ (0 < 3 ∧ 3 < down.cfg.capacity .tx) :=
  ⟨by decide, ⟨by decide, by decide⟩, by decide, by decide, by decide⟩
theorem witness_IsHwRule : down.portOpen ∧ (3#16).toNat < down.cfg.capacity .rx ∧ down.cfg.capacity .rx ≤ (4#16).toNat :=
  ⟨⟨by decide, by decide⟩, by decide, by decide⟩
theorem witness_ReleaseRule :
    down.cfg.capacity .tx ≤ (4#16).toNat ∧ down.portOpen ∧ ((3#16).toNat < down.cfg.capacity .tx ∧ (down.desc .tx 3).own = .sw) ∧
    ((0#16).toNat < down.cfg.capacity .rx ∧ (down.desc .rx 0).own = .hw) := ⟨by decide, ⟨by decide, by decide⟩, by decide, by decide⟩
theorem witness_ReclaimRule :
    down.cfg.capacity .tx ≤ (4#16).toNat ∧ down.portOpen ∧ ((3#16).toNat < down.cfg.capacity .tx ∧ (down.desc .tx 3).own = .sw) ∧
    ((0#16).toNat < down.cfg.capacity .rx ∧ (down.desc .rx 0).own = .hw) := ⟨by decide, ⟨by decide, by decide⟩, by decide, by decide⟩
theorem witness_SubmitRule :
    (State.reset.hostReady ∧ State.reset.up = false) ∧ ((full cfgI).hostReady ∧ (full cfgI).up = true ∧ (full cfgI).txPend = (full cfgI).cfg.nTx) ∧
    ((up cfgI).hostReady ∧ (up cfgI).up = true ∧ (up cfgI).txPend ≠ (up cfgI).cfg.nTx ∧ ((up cfgI).desc .tx (up cfgI).txCur).own = .sw) :=
  ⟨⟨⟨by decide, by decide⟩, by decide⟩, ⟨⟨by decide, by decide⟩, by decide⟩, ⟨by decide, by decide⟩, by decide⟩
theorem witness_SubmitWithRoomIsAccepted :
    Healthy (oneSent .hw cfgI) ∧ (oneSent .hw cfgI).inflight = none ∧ (oneSent .hw cfgI).up = true ∧
    (oneSent .hw cfgI).txPend < (oneSent .hw cfgI).cfg.nTx := ⟨healthy_oneSent .hw .inline, by decide⟩

/-- A device that is up with one answer of 64 bytes waiting. -/
def asked (cfg : Config) : State := (up cfg).answer 64

theorem room_asked (m : Mode) : (asked { cfgI with mode := m }).calloutHasRoom := fun _ _ => by cases m <;> exact ⟨by decide, by decide⟩
theorem shape_asked (m : Mode) : Shape (asked { cfgI with mode := m }) := by cases m <;> exact shape_of_check (by decide)
theorem witness_TxpollRule : Shape (asked cfgI) ∧ (asked cfgI).portOpen ∧ (asked cfgI).calloutHasRoom ∧ (asked cfgI).nextAnswer.len ≠ 0 :=
  ⟨shape_asked .inline, ⟨by decide, by decide⟩, room_asked .inline, by decide⟩

/-- A full ring, both timers expired, an answer waiting and, in `DEFERRED` mode, this unit pending. -/
def overrun (m : Mode) (u : DeferredUnit) : State :=
  { full { cfgI with mode := m } with
    toRem := 0, ptRem := 0, answers := [Answer.ofLength 64], dslot := if m = .inline then none else some u }

theorem shape_overrun (m : Mode) (u : DeferredUnit) : Shape (overrun m u) := by
  have h : Shape (overrun m .pollWork) := by cases m <;> exact shape_of_check (by decide)
  exact ⟨h.1, h.2, h.3, h.4, h.5, h.6, h.7, h.8, h.9, h.10, h.11⟩
theorem witness_CalloutOnAFullRingFaults :
    (∀ m u, Shape (overrun m u) ∧ (overrun m u).fault = .none ∧ (overrun m u).up = true ∧ (overrun m u).txPend = (overrun m u).cfg.nTx ∧
      (overrun m u).nextAnswer.len ≠ 0) ∧
    (let s := overrun .inline .pollWork;
      s.cfg.testPort = true ∧ (s.desc .tx s.txClean).own = .hw ∧ s.cfg.mode = .inline ∧ s.inflight = none ∧ s.dslot = none ∧
      (s.ptArmed = true ∧ s.ptRem = 0) ∧ (s.toArmed = true ∧ s.toRem = 0)) ∧
    ∀ u, (overrun .deferred u).cfg.mode = .deferred ∧ (overrun .deferred u).inflight = none ∧ (overrun .deferred u).dslot = some u :=
  ⟨fun m u => ⟨shape_overrun m u, by cases m <;> exact ⟨rfl, rfl, rfl, (by decide : 64#16 ≠ 0)⟩⟩, by decide, fun u => ⟨rfl, rfl, rfl⟩⟩

/-- A full ring whose oldest frame is completed, and an answer waiting. -/
def drained : State := { full cfgI with txd := (full cfgI).txd.set 0 (sent .sw false), answers := [Answer.ofLength 64] }

theorem witness_ReclaimCompletedDrains :
    (Healthy (asked cfgI) ∧ (asked cfgI).portOpen ∧ (asked cfgI).nextAnswer.len ≠ 0 ∧ (asked cfgI).txPend ≠ (asked cfgI).cfg.nTx) ∧
    (Healthy drained ∧ drained.portOpen ∧ drained.nextAnswer.len ≠ 0 ∧ (drained.desc .tx drained.txClean).own = .sw) ∧
    (Healthy (full cfgI) ∧ (full cfgI).portOpen ∧ (full cfgI).nextAnswer.len = 0) :=
  ⟨⟨healthy_of_check (by decide), ⟨rfl, rfl⟩, by decide⟩, ⟨healthy_of_check (by decide), ⟨rfl, rfl⟩, by decide⟩,
    healthy_full, ⟨rfl, rfl⟩, by decide⟩
theorem witness_SubmitCompletionInterruptClearsPending :
    ∀ s, s = up cfgI ∨ s = up cfgD → Healthy s ∧ s.inflight = none ∧ s.up = true ∧ s.txPend = 0 ∧ txEn s.maccr = true ∧ dmaEn s.maccr = true ∧
      (s.cfg.macInOrder = true → s.macTxIdx = s.txCur) ∧ s.answers = [] := by
  rintro s (rfl | rfl)
  · exact ⟨healthy_upI, by decide⟩
  · exact ⟨healthy_upD, by decide⟩
theorem witness_PollReceiveNoReleasedSlotNoOp : (up cfgI).portOpen ∧ ((up cfgI).desc .rx (up cfgI).rxCur).own = .hw := ⟨open_upI, by decide⟩
theorem witness_IncompleteSlotIsRecycled :
    ∀ ls : Bool, let s := received 3 false ls cfgI
      s.portOpen ∧ (s.desc .rx s.rxCur).own = .sw ∧ ((s.desc .rx s.rxCur).fs && (s.desc .rx s.rxCur).ls) = false := by
  intro ls
  exact ⟨⟨rfl, rfl⟩, by cases ls <;> decide⟩
theorem witness_CompleteFrameIsDelivered :
    ∀ scan, let s := received 3 true true { cfgI with rxScan := scan }
      Shape s ∧ RxBuffers s ∧ s.portOpen ∧ s.calloutHasRoom ∧ (s.desc .rx s.rxCur).own = .sw ∧ (s.desc .rx s.rxCur).fs = true ∧
      (s.desc .rx s.rxCur).ls = true := by
  intro scan
  cases scan <;>
    exact ⟨shape_of_check (by decide), rxBuffers_of_check (by decide), ⟨rfl, rfl⟩, fun _ _ => ⟨by decide, by decide⟩, by decide⟩
theorem witness_DrainingWalkEndsAtAHardwareSlot :
    Runs .pollReceive (received 3 true true cfgI) (answered .ok 0) ∧ enabled .pollReceive (received 3 true true cfgI) = true ∧
    (received 3 true true cfgI).cfg.rxScan = .drain := ⟨runs (by decide), by decide, by decide⟩

/-- A complete frame one byte longer than the exchange buffer, as only a `RELEASE` at the test port can offer it. -/
def tooLong : State := received 1537 true true cfgI

/-- A complete frame received while the TX ring is full and a reply is waiting. -/
def replyOnFull : State :=
  { received 3 true true cfgI with txd := (full cfgI).txd, txPend := 4, answers := [Answer.ofLength 64] }

theorem witness_ReceiveFaultsLeaveTheSlot :
    (tooLong.portOpen ∧ (tooLong.desc .rx tooLong.rxCur).own = .sw ∧ (tooLong.desc .rx tooLong.rxCur).fs = true ∧
      (tooLong.desc .rx tooLong.rxCur).ls = true ∧ tooLong.cfg.xbufSize < (tooLong.desc .rx tooLong.rxCur).len.toNat) ∧
    (replyOnFull.portOpen ∧ Shape replyOnFull ∧ RxBuffers replyOnFull ∧ replyOnFull.up = true ∧ replyOnFull.txPend = replyOnFull.cfg.nTx ∧
      replyOnFull.nextAnswer.len ≠ 0 ∧ (replyOnFull.desc .rx replyOnFull.rxCur).own = .sw ∧
      (replyOnFull.desc .rx replyOnFull.rxCur).fs = true ∧ (replyOnFull.desc .rx replyOnFull.rxCur).ls = true) :=
  ⟨⟨⟨rfl, rfl⟩, by decide⟩, ⟨rfl, rfl⟩, shape_of_check (by decide), rxBuffers_of_check (by decide), by decide⟩
theorem witness_DeferredIrqCaptures : (up cfgD).up = true ∧ (up cfgD).fault = .none ∧ (up cfgD).cfg.mode = .deferred := by decide
/-- A pass that faults: the ring is full, nothing of it is completed, `TX_OK` is set and the poll answers with a frame. -/
def faultingPass (m : Mode) : State := { full { cfgI with mode := m } with isr := 0x04, answers := [Answer.ofLength 64] }

/-- The state an interrupt's capture leaves. -/
def captured (s : State) : State :=
  { s with
    imr := 0, isr := 0, toArmed := if s.isr.getLsbD 2 then false else s.toArmed
    trace := s.trace ++ [.regW .imr 0, .regR .isr (statusWord s.cfg.layout s.isr)] }

theorem witness_InlineIrqProcessesAndUnmasks :
    (State.reset.fault = .none ∧ State.reset.up = false) ∧ ((up cfgI).fault = .none ∧ (up cfgI).up = true ∧ (up cfgI).cfg.mode = .inline) ∧
    (∃ u, process (up cfgI).isr (captured (up cfgI)) = .done .ok 0 u) ∧
    (let s := faultingPass .inline;
      s.fault = .none ∧ s.up = true ∧ s.cfg.mode = .inline ∧ s.cfg.ackReg ≠ .imr ∧ ∃ u, process s.isr (captured s) = .raised u) :=
  ⟨by decide, by decide, ⟨_, rfl⟩, by decide, by decide, by decide, by decide, _, rfl⟩
theorem witness_IdleSnapshotOnlyUnmasks :
    ((0x38#8) &&& 0xC7 = 0 ∧ { up cfgI with isr := 0x38 }.up = true ∧ { up cfgI with isr := 0x38 }.isr = 0x38) ∧
    ((0#8) &&& 0xC7 = 0 ∧ (pendingIrq 0).cfg.mode = .deferred ∧ (pendingIrq 0).dslot = some (.irqWork 0) ∧ (pendingIrq 0).inflight = none ∧
      (pendingIrq 0).fault = .none) := by decide
theorem witness_ProcessRunsItsStepsInOrder :
    ((up cfgI).portOpen ∧ (0x85#8) ≠ 0 ∧ ∃ a b c,
      exec (.regWrite (up cfgI).cfg.ackReg (up cfgI).cfg.ackVal) (up cfgI) = .next a ∧
      (exec .pollReceive a = .next b ∧ b.resp = some (.returned .ok 0)) ∧
      (exec .reclaimCompleted b = .next c ∧ c.resp = some (.returned .ok 0))) ∧
    (replyOnFull.portOpen ∧ (1#8).getLsbD 0 = true ∧ Runs .pollReceive replyOnFull (raised .vAdmission)) ∧
    ((faultingPass .inline).portOpen ∧ (4#8).getLsbD 2 = true ∧ Runs .reclaimCompleted (faultingPass .inline) (raised .vAdmission)) :=
  ⟨⟨open_upI, by decide, _, _, _, rfl, ⟨rfl, rfl⟩, rfl, rfl⟩, ⟨⟨rfl, rfl⟩, by decide, runs (by decide)⟩,
    ⟨rfl, rfl⟩, by decide, runs (by decide)⟩
theorem witness_TwoInterruptsCoalesce :
    Healthy (up cfgD) ∧ (up cfgD).roomForAnswers ∧ (up cfgD).up = true ∧ (up cfgD).cfg.mode = .deferred ∧ (up cfgD).dslot = none ∧
    (up cfgD).inflight = none ∧ (up cfgD).isr = 0 := ⟨healthy_upD, room_of_check (by decide), by decide⟩
theorem witness_WorkerRunTakesThePendingUnit :
    (up cfgI).cfg.mode = .inline ∧ (up cfgD).dslot = none ∧ { up cfgD with inflight := some .pollWork }.inflight ≠ none ∧
    ((pendingIrq 4).fault = .none ∧ (pendingIrq 4).cfg.mode = .deferred ∧ (pendingIrq 4).inflight = none ∧
      (pendingIrq 4).dslot = some (.irqWork 4) ∧
      ∃ t, process 4 { pendingIrq 4 with dslot := none, inflight := some (.irqWork 4) } = .done .ok 0 t) ∧
    (let s := { faultingPass .deferred with dslot := some (.irqWork 4) };
      s.fault = .none ∧ s.cfg.mode = .deferred ∧ s.inflight = none ∧ s.cfg.ackReg ≠ .imr ∧
      ∃ t, process 4 { s with dslot := none, inflight := some (.irqWork 4) } = .raised t) ∧
    ∀ u, let s := { asked cfgD with dslot := some u }
      s.fault = .none ∧ s.dslot = some u ∧ s.cfg.mode = .deferred ∧ s.inflight = none ∧ Shape s ∧ s.calloutHasRoom :=
  ⟨by decide, by decide, by decide, ⟨by decide, by decide, by decide, by decide, _, rfl⟩,
    ⟨by decide, by decide, by decide, by decide, _, rfl⟩, fun u => ⟨rfl, rfl, rfl, rfl, by
    have h := shape_asked .deferred
    exact ⟨h.1, h.2, h.3, h.4, h.5, h.6, h.7, h.8, h.9, h.10, h.11⟩, room_asked .deferred⟩⟩
theorem witness_WorkerDoneRule :
    (up cfgD).fault = .none ∧ (up cfgD).inflight = none ∧ ({ up cfgD with inflight := some (.irqWork 1) } : State).inflight = some (.irqWork 1) ∧
    DeferredUnit.irqWork 1 ≠ .txAvailWork ∧ ({ up cfgD with inflight := some .txAvailWork } : State).inflight = some .txAvailWork := by decide
theorem witness_DispatcherGoesRoundItsStates :
    ((up cfgD).fault = .none ∧ (up cfgD).up = true ∧ (up cfgD).cfg.mode = .deferred ∧ (up cfgD).dslot = none ∧ (up cfgD).inflight = none) ∧
    ∃ t u v, exec .irq (up cfgD) = .next t ∧ exec .workerRun t = .next u ∧ exec .workerDone u = .next v ∧ u.fault = .none :=
  ⟨by decide, _, _, _, rfl, rfl, rfl, rfl⟩

/-- A device in `DEFERRED` mode with a status bit pending and both timers expired. -/
def expired : State := { oneSent .hw cfgD with isr := 0x04, ptRem := 0, toRem := 0 }

theorem witness_ModesAgreeWhenThePassFollows :
    (expired.cfg.mode = .deferred ∧ expired.dslot = none ∧ expired.inflight = none ∧ expired.fault = .none) ∧
    ∀ i, i = .irq ∨ i = .pollExpire ∨ i = .txtoExpire → Runs i (expired.withMode .inline) (answered .ok 0) := by
  refine ⟨by decide, ?_⟩
  rintro i (rfl | rfl | rfl) <;> exact runs (by decide)
theorem witness_PassesCompleteOnAHealthyDevice :
    (∀ i, i = .pollReceive ∨ i = .reclaimCompleted ∨ i = .txpoll ∨ i = .process 0xFF ∨ i = .irq ∨ i = .pollExpire ∨ i = .txtoExpire ∨
      i = .notifyTxAvailable → enabled i expired = true) ∧ enabled .workerRun { expired with dslot := some .pollWork } = true ∧
    Healthy expired ∧ expired.roomForAnswers := by
  refine ⟨?_, by decide, healthy_of_check (by decide), room_of_check (by decide)⟩
  rintro i (rfl | rfl | rfl | rfl | rfl | rfl | rfl | rfl) <;> decide
theorem witness_TickRule : (up cfgI).fault = .none := rfl
theorem witness_TimerStartAndCancelRules : down.portOpen ∧ down.ptArmed = false ∧ down.toArmed = false := ⟨⟨rfl, rfl⟩, rfl, rfl⟩
theorem witness_ExpiryWaitsForItsDuration :
    (oneSent .hw cfgI).fault = .none ∧ (oneSent .hw cfgI).ptArmed = true ∧ (oneSent .hw cfgI).toArmed = true ∧
    ¬ (oneSent .hw cfgI).ptRem.toNat ≤ 9 ∧ (oneSent .hw cfgI).ptRem.toNat ≤ 10 := by decide
theorem witness_PollExpireRule :
    (down.fault = .none ∧ down.ptArmed = false) ∧ ((up cfgI).ptRem ≠ 0) ∧
    (∃ s : State, s.fault = .none ∧ s.ptArmed = true ∧ s.ptRem = 0 ∧ s.cfg.mode = .deferred ∧ s.dslot ≠ none) ∧
    (∃ s : State, s.fault = .none ∧ s.ptArmed = true ∧ s.ptRem = 0 ∧ s.cfg.mode = .deferred ∧ s.dslot = none) ∧
    (∃ s : State, s.fault = .none ∧ s.ptArmed = true ∧ s.ptRem = 0 ∧ s.cfg.mode = .inline ∧ Shape s ∧ s.calloutHasRoom) :=
  ⟨by decide, by decide, ⟨{ pendingIrq 1 with ptRem := 0 }, by decide⟩, ⟨expired, by decide⟩,
    ⟨{ asked cfgI with ptRem := 0 }, by decide, by decide, by decide, by decide, shape_of_check (by decide), room_asked .inline⟩⟩
theorem witness_TxtoExpireRule :
    (down.fault = .none ∧ down.toArmed = false) ∧ ((oneSent .hw cfgI).toRem ≠ 0) ∧
    (expired.fault = .none ∧ expired.toArmed = true ∧ expired.toRem = 0 ∧ expired.cfg.mode = .deferred) ∧
    (∃ s : State, s.fault = .none ∧ s.toArmed = true ∧ s.toRem = 0 ∧ s.cfg.mode = .inline ∧ Shape s ∧ s.calloutHasRoom) :=
  ⟨by decide, by decide, by decide,
    ⟨{ asked cfgI with toArmed := true }, by decide, by decide, by decide, by decide, shape_of_check (by decide), room_asked .inline⟩⟩
theorem witness_BringUpRule :
    ((up cfgI).hostReady ∧ (up cfgI).up = true) ∧ (down.hostReady ∧ down.up = false) ∧ ({ cfgI with nTx := 3 } : Config).capacitiesOk = false ∧
    (({ cfgI with irqLineOk := false } : Config).capacitiesOk = true ∧ ({ cfgI with irqLineOk := false } : Config).irqLineOk = false) ∧
    (down.cfg.capacitiesOk = true ∧ down.cfg.irqLineOk = true ∧ Shape down) :=
  ⟨⟨⟨rfl, rfl⟩, rfl⟩, ⟨⟨rfl, rfl⟩, rfl⟩, by decide, by decide, by decide, by decide, shape_of_check (by decide)⟩
theorem witness_BringDownRule : (oneSent .hw cfgI).hostReady ∧ enabled .tick down = true ∧ enabled (.macRaise 1) down = true :=
  ⟨⟨rfl, rfl⟩, by decide, by decide⟩
theorem witness_NotifyRule :
    (down.hostReady ∧ down.up = false) ∧ ((pendingIrq 1).hostReady ∧ (pendingIrq 1).dslot ≠ none) ∧
    ∀ m, let s := asked { cfgI with mode := m }
      s.hostReady ∧ s.up = true ∧ s.dslot = none ∧ s.cfg.mode = m ∧ Shape s ∧ s.calloutHasRoom :=
  ⟨⟨⟨rfl, rfl⟩, rfl⟩, ⟨⟨rfl, rfl⟩, by decide⟩, fun m => ⟨⟨rfl, rfl⟩, rfl, rfl, rfl, shape_asked m, room_asked m⟩⟩
theorem witness_RegReadRule : ({ down with fault := .vRxLen, isr := 0xFF } : State).cfg.testPort = true := rfl
theorem witness_RegWriteRule : down.portOpen := ⟨rfl, rfl⟩
theorem witness_MacTxDoneRule :
    ((up cfgI).fault = .none ∧ (3#16).toNat < (up cfgI).cfg.nTx ∧ ((up cfgI).desc .tx 3).own = .sw) ∧
    (let s := { full cfgI with macTxIdx := 3 }
     s.fault = .none ∧ (3#16).toNat < s.cfg.nTx ∧ txEn s.maccr = true ∧ dmaEn s.maccr = true ∧ (s.desc .tx 3).own = .hw ∧
     (s.cfg.macInOrder = true → s.macTxIdx = 3)) ∧ Shape { full cfgI with macTxIdx := 3 } :=
  ⟨by decide, by decide, shape_of_check (by decide)⟩
theorem witness_MacRxFrameRule :
    Healthy (up cfgI) ∧ rxEn (up cfgI).maccr = true ∧ dmaEn (up cfgI).maccr = true ∧ ((up cfgI).desc .rx (up cfgI).macRxIdx).own = .hw ∧
    (1536#16).toNat ≤ ((up cfgI).desc .rx (up cfgI).macRxIdx).len.toNat ∧ ¬ (1537#16).toNat ≤ ((up cfgI).desc .rx (up cfgI).macRxIdx).len.toNat :=
  ⟨healthy_upI, by decide⟩
theorem witness_MacRaiseAndPhyRules : State.reset.fault = .none := rfl
theorem witness_BlockNeverWritesHardwareOwnedDescriptors :
    opClass .irq ≠ .env ∧ Instr.irq ≠ .bringUp ∧ Runs .irq (received 3 true true cfgI) (fun _ => true) ∧
    ((received 3 true true cfgI).desc .rx 1).own = .hw := ⟨by decide, by decide, runs (by decide), by decide⟩
theorem witness_MacAgentKeepsItsContract :
    opClass (.macRxFrame 3 true true 0 7) = .env ∧ Shape (received 3 true true cfgI) ∧ RxBuffers (received 3 true true cfgI) ∧
    Runs (.macRxFrame 3 true true 0 7) (received 3 true true cfgI) (answered .ok 0) ∧ ((received 3 true true cfgI).desc .rx 0).own = .sw :=
  ⟨by decide, shape_received true true, rxBuffers_of_check (by decide), runs (by decide), by decide⟩
theorem witness_ShapeKeptByEveryStep : Shape State.reset ∧ ∃ t, step (State.reset.withFetchWord 96 0x40000000) = .next t :=
  ⟨shape_of_check (by decide), _, rfl⟩
theorem witness_ResetHasTheInvariants :
    Config.default.wf = true ∧ Config.default.testPort = false ∧ Config.default.fieldsFit = true := by decide
theorem witness_BlockInvariantKeptAndNeverStops :
    BlockInv State.reset ∧ BlockInv (full { Config.default with mode := .deferred }) ∧
    BlockInv { full Config.default with fault := .vAdmission } :=
  ⟨blockInv_of_check (by decide), blockInv_of_check (by decide), blockInv_of_check (by decide)⟩
theorem witness_TraceOnlyGrows : ∃ t, step (State.reset.withFetchWord 96 0x40000000) = .next t := ⟨_, rfl⟩
theorem witness_RegistersWrittenOnlyByTheirOperations : Runs .bringUp down (fun t => t.imr == 0x7F) := runs (by decide)
theorem witness_SmallInstructionsStoreThere :
    down.cfg.layout.wf = true ∧ (Runs (.release .tx 3 0x30000000 64 true true true) down (answered .ok 0) ∧
      ¬ inFields down.cfg DescField.all .tx 3 0x1000103C) ∧ Runs .tick down (answered .ok 0) ∧
    (Runs (.macRxFrame 3 true true 0 7) (up cfgI) (answered .ok 0) ∧ ¬ inFields (up cfgI).cfg [.len, .fs, .ls, .own, .stat] .rx 0 0x10000008) :=
  ⟨by decide, ⟨runs (by decide), by simp [inFields, DescField.all]; decide⟩, runs (by decide), runs (by decide),
    by simp [inFields]; decide⟩
theorem witness_PassesStoreToTheirOwnPlaces :
    Runs .pollReceive (received 3 true true cfgI) (answered .ok 0) ∧ Runs .txpoll (asked cfgI) (answered .ok 0) ∧
    Runs .bringUp down (answered .ok 0) ∧ ¬ (cfgI.xbufAddr.toNat ≤ 0x20000000 ∧ 0x20000000 < cfgI.xbufAddr.toNat + cfgI.xbufSize) :=
  ⟨runs (by decide), runs (by decide), runs (by decide), by decide⟩

end Sys2Proof.Tests
end

section
/-!
The reset state against the reset table (O7), and the trace as an append-only record through every instruction and step
(O56): the block's operations by their step relation, `BRING_UP` and the MAC agent's moves by lemmas of their own.
-/

namespace Sys2Proof.Machine

/-! ## Reset (rules R53 and R300) -/

/-- Slot `i` of a ring that construction left holds what the reset table gives it. -/
theorem getD_constructedRing {cfg : Config} {r : Ring} {i : Nat} (h : i < cfg.capacity r) :
    (constructedRing cfg r).getD i Desc.beyond = Desc.constructed cfg r i := by
  simp [constructedRing, List.getD_eq_getElem?_getD, h]

@[simp] theorem length_constructedRing (cfg : Config) (r : Ring) : (constructedRing cfg r).length = cfg.capacity r := by
  simp [constructedRing]

theorem desc_construct {cfg : Config} {r : Ring} {i : Nat} (h : i < cfg.capacity r) :
    (State.construct cfg).desc r i = Desc.constructed cfg r i := by
  cases r <;> exact getD_constructedRing h

/-- Settles O7: the rings slot by slot, every other field by construction. -/
theorem resetLeavesTheConstructedState : Obligations.ResetLeavesTheConstructedState := by
  unfold Obligations.ResetLeavesTheConstructedState
  refine ⟨fun cfg => ⟨rfl, length_constructedRing cfg .rx, length_constructedRing cfg .tx, ?rx, ?tx, ?_⟩, rfl⟩
  case rx => exact fun i hi => desc_construct (r := .rx) hi
  case tx => exact fun i hi => desc_construct (r := .tx) hi
  simp [State.construct]

/-! ## The trace (rules R13 and R49) -/

/-- The trace of `s` is a beginning of the trace of `t`. -/
def Traced (s t : State) : Prop := s.trace <+: t.trace

theorem Traced.trans (a b c : State) (h : Traced a b) (k : Traced b c) : Traced a c := List.IsPrefix.trans h k

theorem Traced.of_eq {s t : State} (h : t.trace = s.trace) : Traced s t := by
  unfold Traced; rw [h]

theorem BlockStep.traced {s t : State} (h : BlockStep s t) : Traced s t := by
  obtain ⟨es, he⟩ := h.common.trace
  exact ⟨es, he.symm⟩

/-- A relation through a result may be weakened. -/
theorem Res.Rel.imp {R Q : State → State → Prop} {s : State} {r : Res} (h : r.Rel R s) (hq : ∀ t, R s t → Q s t) :
    r.Rel Q s := by
  cases r with
  | done st res t => exact hq t h
  | raised t => exact hq t h
  | stop f => trivial

theorem traced_initSlots (r : Ring) (i n : Nat) (s : State) : Traced s (initSlots r i n s) := by
  induction n generalizing i s with
  | zero => exact .of_eq rfl
  | succ n ih => exact Traced.trans _ (writeDesc r i (Desc.constructed s.cfg r i) s) _ ⟨_, (writeDesc_trace ..).symm⟩ (ih ..)

theorem traced_ringInit (s : State) : Traced s (ringInit s) :=
  Traced.trans _ _ _ (traced_initSlots .rx 0 s.cfg.nRx s) (traced_initSlots .tx 0 s.cfg.nTx _)

/-- What `BRING_UP` writes after `RING_INIT`: four registers (rule R221). -/
theorem trace_bringUpWrites (s : State) : (bringUpWrites s).trace = (ringInit s).trace ++
    [.regW .txbase s.cfg.txRingAddr, .regW .rxbase s.cfg.rxRingAddr, .regW .maccr (controlWord s.cfg.layout maccrUp),
      .regW .imr (statusWord s.cfg.layout irqEnableSet)] := by
  simp [bringUpWrites, ptStart, ringInit]

theorem traced_bringUpWrites (s : State) : Traced s (bringUpWrites s) :=
  Traced.trans _ (ringInit s) _ (traced_ringInit s) ⟨_, (trace_bringUpWrites s).symm⟩

theorem traced_bringUp (s : State) : (bringUp s).Rel Traced s := by
  unfold bringUp
  split
  · exact .of_eq rfl
  · split
    · exact .of_eq rfl
    · exact traced_bringUpWrites s

/-- The MAC agent's stores enter no trace. -/
theorem traced_macRxFrame (len : Half) (fs ls : Bool) (stat : Half) (seed : Byte) (s : State) :
    (macRxFrame len fs ls stat seed s).Rel Traced s := by
  unfold macRxFrame
  dsimp only
  split
  · trivial
  · exact .of_eq (by simp [raiseBits])

theorem trace_macTxDone (idx : Nat) (stat : Half) (s : State) : (macTxDone idx stat s).trace = s.trace := by
  unfold macTxDone raiseBits
  dsimp only
  split <;> simp

theorem isMacMove_cases {i : Instr} (h : isMacMove i = true) :
    (∃ idx stat, i = .macTxDone idx stat) ∨ (∃ len fs ls stat seed, i = .macRxFrame len fs ls stat seed) ∨
    (∃ bits, i = .macRaise bits) ∨ ∃ link, i = .macPhy link := by
  cases i <;> simp [isMacMove, opClass] at h ⊢

theorem traced_bodyOf (i : Instr) (s : State) : (bodyOf i s).Rel Traced s := by
  by_cases hb : i = .bringUp
  · subst hb; exact traced_bringUp s
  · cases hm : isMacMove i with
    | false => exact (blockStep_bodyOf hm hb s).imp fun _ h => h.traced
    | true =>
      obtain ⟨idx, stat, rfl⟩ | ⟨len, fs, ls, stat, seed, rfl⟩ | ⟨bits, rfl⟩ | ⟨link, rfl⟩ := isMacMove_cases hm
      · exact .of_eq (trace_macTxDone idx.toNat stat s)
      · exact traced_macRxFrame ..
      · exact .of_eq rfl
      · exact .of_eq rfl

theorem traced_exec {i : Instr} {s t : State} (h : exec i s = .next t) : Traced s t :=
  exec_rel Traced.trans (fun _ _ _ => (blockStep_refused ..).traced) (fun _ _ _ _ => (blockStep_respond ..).traced)
    (fun s => (blockStep_respondFault s).traced) (traced_bodyOf i s) h

theorem traced_step {s t : State} (h : step s = .next t) : Traced s t := by
  unfold step at h
  split at h
  · cases h; exact .of_eq rfl
  · next c rest _ =>
    split at h
    · cases h; exact .of_eq rfl
    · exact traced_exec (s := { s with cmds := rest }) h

/-- Settles O56: every step extends the trace, whatever command it takes. -/
theorem traceOnlyGrows : Obligations.TraceOnlyGrows := by
  unfold Obligations.TraceOnlyGrows
  intro s t h
  obtain ⟨es, he⟩ := traced_step h
  exact ⟨es, he.symm⟩

end Sys2Proof.Machine
end

section
/-!
How every operation ends (O10): with a status, a result and a state, or with a fault. Three predicates on results, each
proved once per procedure: what becomes of the fault register, when the answer is `OK` with result 0, and what a status other
than `OK` leaves.
-/

namespace Sys2Proof.Machine

/-! ## How a procedure ends (rules R11 (3), R261 and R264) -/

namespace Res

/-- A procedure that completes leaves the fault register as it was; one that raises leaves a fault in it. -/
def FaultRule (s : State) : Res → Prop
  | .done _ _ t => t.fault = s.fault
  | .raised t => t.fault ≠ .none
  | .stop _ => True

/-- If the procedure completes, its status is `OK` and its result 0. -/
def Completes : Res → Prop
  | .done st res _ => st = .ok ∧ res = 0
  | .raised _ => True
  | .stop _ => True

/-- A status other than `OK` comes with result 0 and no change of state; a result other than 0 only where `valued` holds. -/
def Answers (valued : Prop) (s : State) : Res → Prop
  | .done st res t => (st ≠ .ok → res = 0 ∧ t = s) ∧ (res ≠ 0 → valued)
  | .raised _ => True
  | .stop _ => True

theorem FaultRule.andThen {s : State} {r : Res} {k : State → Res} (h : r.FaultRule s) (hk : ∀ t, (k t).FaultRule t) :
    (r.andThen k).FaultRule s := by
  cases r with
  | done st res t =>
    have hkt := hk t
    rw [done_andThen]
    cases hc : k t with
    | done st' res' u => rw [hc] at hkt; exact Eq.trans hkt h
    | raised u => rw [hc] at hkt; exact hkt
    | stop f => trivial
  | raised t => exact h
  | stop f => trivial

theorem FaultRule.ok {s t : State} (h : t.fault = s.fault) : (Res.ok t).FaultRule s := h

/-- Only the last part of a sequence answers. -/
theorem Completes.andThen {r : Res} {k : State → Res} (hk : ∀ t, (k t).Completes) : (r.andThen k).Completes := by
  cases r with
  | done st res t => exact hk t
  | raised t => trivial
  | stop f => trivial

theorem Completes.ok (s : State) : (Res.ok s).Completes := ⟨rfl, rfl⟩

theorem Completes.answers {r : Res} (h : r.Completes) (valued : Prop) (s : State) : r.Answers valued s := by
  cases r with
  | done st res t => exact ⟨fun hst => absurd h.1 hst, fun hres => absurd h.2 hres⟩
  | raised t => trivial
  | stop f => trivial

end Res

/-! ### The fault register through every procedure -/

theorem faultRule_raise {code : FaultCode} (hc : code ≠ .none) (s : State) : (raise code s).FaultRule s := by
  show (if s.fault = .none then code else s.fault) ≠ .none
  split
  · exact hc
  · assumption

theorem faultRule_release (r : Ring) (i : Nat) (buf : Word) (len : Half) (fs ls ic : Bool) (s : State) :
    (release r i buf len fs ls ic s).FaultRule s := by
  unfold release
  split
  · exact faultRule_raise (by decide) s
  · exact writeDesc_fault ..

theorem faultRule_reclaim (r : Ring) (i : Nat) (s : State) : (reclaim r i s).FaultRule s := by
  unfold reclaim
  split
  · exact faultRule_raise (by decide) s
  · exact writeDesc_fault ..

theorem faultRule_submit (p : Word) (n : Half) (s : State) : (submit p n s).FaultRule s := by
  unfold submit
  split
  · exact rfl
  · split
    · exact faultRule_raise (by decide) s
    · exact (faultRule_release ..).andThen fun t => regWrite_fault ..

theorem faultRule_submitAnswer (s : State) : (submitAnswer s).FaultRule s := by
  unfold submitAnswer
  split
  · exact faultRule_submit ..
  · exact rfl

theorem faultRule_writeXbuf (bs : List (Option Byte)) (s : State) : (writeXbuf bs s).FaultRule s := by
  unfold writeXbuf
  split
  · trivial
  · exact rfl

theorem faultRule_callUp (c : Callout) (s : State) : (callUp c s).FaultRule s :=
  Res.FaultRule.andThen (faultRule_writeXbuf _ { s with answers := s.answers.tail }) fun _ => rfl

theorem faultRule_txpoll (s : State) : (txpoll s).FaultRule s :=
  ((faultRule_callUp ..).andThen faultRule_submitAnswer).andThen fun _ => rfl

theorem faultRule_timerHook (s : State) : (timerHook s).FaultRule s :=
  ((faultRule_callUp ..).andThen faultRule_submitAnswer).andThen fun _ => rfl

theorem faultRule_reclaimOne (s : State) : (reclaimOne s).FaultRule s := by
  unfold reclaimOne
  exact (faultRule_reclaim ..).andThen fun _ => .ok rfl

theorem faultRule_reclaimLoop (fuel : Nat) (s : State) : (reclaimLoop fuel s).FaultRule s := by
  induction fuel generalizing s with
  | zero => exact rfl
  | succ fuel ih =>
    unfold reclaimLoop
    split
    · exact rfl
    · split
      · exact rfl
      · exact (faultRule_reclaimOne s).andThen ih

theorem faultRule_reclaimCompleted (s : State) : (reclaimCompleted s).FaultRule s :=
  (faultRule_reclaimLoop ..).andThen fun t => faultRule_txpoll (txtoCancel t)

theorem faultRule_copyFrame (a n : Nat) (s : State) : (copyFrame a n s).FaultRule s := by
  unfold copyFrame
  split
  · trivial
  · exact faultRule_writeXbuf ..

theorem faultRule_deliverFrame (i : Nat) (s : State) : (deliverFrame i s).FaultRule s := by
  unfold deliverFrame
  dsimp only
  split
  · exact faultRule_raise (by decide) s
  · exact ((faultRule_copyFrame ..).andThen fun t => faultRule_callUp _ { t with xlen := (s.desc .rx i).len }).andThen
      faultRule_submitAnswer

theorem faultRule_consumeSlot (i : Nat) (s : State) : (consumeSlot i s).FaultRule s := by
  unfold consumeSlot
  refine Res.FaultRule.andThen ?_ fun t => (faultRule_release ..).andThen fun _ => rfl
  split
  · exact faultRule_deliverFrame i s
  · exact rfl

theorem faultRule_pollLoop (fuel : Nat) (s : State) : (pollLoop fuel s).FaultRule s := by
  induction fuel generalizing s with
  | zero => exact rfl
  | succ fuel ih =>
    unfold pollLoop
    split
    · exact rfl
    · split
      · exact (faultRule_consumeSlot ..).andThen fun _ => rfl
      · exact (faultRule_consumeSlot ..).andThen ih

theorem faultRule_process (snap : Byte) (s : State) : (process snap s).FaultRule s := by
  unfold process
  split
  · exact rfl
  · refine ((Res.FaultRule.andThen ?_ fun t => ?_).andThen fun t => ?_).andThen fun t => ?_
    · unfold stepAck; split
      · exact regWrite_fault ..
      · exact rfl
    · unfold stepReceive; split
      · exact faultRule_pollLoop ..
      · exact rfl
    · unfold stepTransmit; split
      · exact faultRule_reclaimCompleted t
      · exact rfl
    · rw [stepPhy_eq]; exact rfl

theorem faultRule_unitBody (u : DeferredUnit) (s : State) : (unitBody u s).FaultRule s := by
  cases u with
  | irqWork snap => exact faultRule_process snap s
  | pollWork => exact faultRule_timerHook s
  | txTimeoutWork => exact faultRule_txpoll s
  | txAvailWork => exact faultRule_txpoll s

theorem fault_schedule (u : DeferredUnit) (s : State) : (schedule u s).fault = s.fault := by rw [schedule_eq]

theorem faultRule_irq (s : State) : (irq s).FaultRule s := by
  have hc : (cancelIfTxOk s.snapshot (capture s)).fault = s.fault := by rw [capture_eq]
  cases hm : s.cfg.mode with
  | inline =>
    rw [irq_inline hm]
    have h := (faultRule_process s.isr (cancelIfTxOk s.snapshot (capture s))).andThen (k := fun u => .ok (unmask u)) fun _ => rfl
    unfold Res.FaultRule at h ⊢
    rwa [hc] at h
  | deferred => rw [irq_deferred hm]; exact (fault_schedule ..).trans hc

theorem faultRule_pollExpire (s : State) : (pollExpire s).FaultRule s := by
  cases hm : s.cfg.mode with
  | inline =>
    rw [pollExpire_inline hm]
    exact (faultRule_timerHook (maskAll { s with ptArmed := false })).andThen fun _ => rfl
  | deferred =>
    by_cases hd : s.dslot = none
    · rw [pollExpire_free hm hd]; exact fault_schedule ..
    · rw [pollExpire_dropped hm hd]; exact rfl

theorem faultRule_txtoExpire (s : State) : (txtoExpire s).FaultRule s := by
  cases hm : s.cfg.mode with
  | inline =>
    rw [txtoExpire_inline hm]
    exact (faultRule_txpoll (maskAll { s with toArmed := false })).andThen fun _ => rfl
  | deferred => rw [txtoExpire_deferred hm]; exact fault_schedule ..

theorem faultRule_workerRun (s : State) : (workerRun s).FaultRule s := by
  cases hd : s.dslot with
  | none => unfold workerRun; rw [hd]; exact rfl
  | some u =>
    rw [workerRun_some hd]
    exact (faultRule_unitBody u { s with dslot := none, inflight := some u }).andThen fun _ => rfl

theorem faultRule_bringUp (s : State) : (bringUp s).FaultRule s := by
  unfold bringUp
  split
  · exact rfl
  · split
    · exact rfl
    · exact .ok (by simp [bringUpWrites, ptStart, ringInit])

theorem faultRule_notify (s : State) : (notifyTxAvailable s).FaultRule s := by
  unfold notifyTxAvailable
  split
  · exact rfl
  · split
    · exact rfl
    · split
      · exact (faultRule_txpoll s).andThen fun _ => rfl
      · exact fault_schedule ..

theorem faultRule_macRxFrame (len : Half) (fs ls : Bool) (stat : Half) (seed : Byte) (s : State) :
    (macRxFrame len fs ls stat seed s).FaultRule s := by
  unfold macRxFrame
  dsimp only
  split
  · trivial
  · exact .ok (by simp [raiseBits])

theorem fault_macTxDone (idx : Nat) (stat : Half) (s : State) : (macTxDone idx stat s).fault = s.fault := by
  unfold macTxDone raiseBits
  dsimp only
  split <;> simp

theorem fault_workerDone (s : State) : (workerDone s).fault = s.fault := by
  unfold workerDone
  split <;> rfl

theorem fault_bringDown (s : State) : (bringDown s).fault = s.fault := by simp [bringDown, ptCancel, txtoCancel]

/-- No body touches a recorded fault but by raising one. -/
theorem faultRule_bodyOf (i : Instr) (s : State) : (bodyOf i s).FaultRule s := by
  cases i
  case advance => exact rfl
  case isHw => exact rfl
  case release => exact faultRule_release ..
  case reclaim => exact faultRule_reclaim ..
  case pollReceive => exact faultRule_pollLoop ..
  case submit => exact faultRule_submit ..
  case reclaimCompleted => exact faultRule_reclaimCompleted s
  case txpoll => exact faultRule_txpoll s
  case irq => exact faultRule_irq s
  case process => exact faultRule_process ..
  case workerRun => exact faultRule_workerRun s
  case workerDone => exact fault_workerDone s
  case pollExpire => exact faultRule_pollExpire s
  case txtoExpire => exact faultRule_txtoExpire s
  case bringUp => exact faultRule_bringUp s
  case notifyTxAvailable => exact faultRule_notify s
  case regRead => exact regRead_fault ..
  case regWrite => exact regWrite_fault ..
  case macTxDone => exact fault_macTxDone ..
  case macRxFrame => exact faultRule_macRxFrame ..
  case bringDown => exact .ok (fault_bringDown s)
  all_goals exact .ok rfl

/-! ### Status and result of every body -/

theorem completes_raise (code : FaultCode) (s : State) : (raise code s).Completes := trivial

theorem completes_release (r : Ring) (i : Nat) (buf : Word) (len : Half) (fs ls ic : Bool) (s : State) :
    (release r i buf len fs ls ic s).Completes := by
  unfold release
  split
  · exact completes_raise ..
  · exact .ok _

theorem completes_reclaim (r : Ring) (i : Nat) (s : State) : (reclaim r i s).Completes := by
  unfold reclaim
  split
  · exact completes_raise ..
  · exact .ok _

theorem completes_txpoll (s : State) : (txpoll s).Completes := .andThen .ok

theorem completes_pollLoop (fuel : Nat) (s : State) : (pollLoop fuel s).Completes := by
  induction fuel generalizing s with
  | zero => exact .ok s
  | succ fuel ih =>
    unfold pollLoop
    split
    · exact .ok s
    · split
      · exact .andThen .ok
      · exact .andThen ih

theorem completes_process (snap : Byte) (s : State) : (process snap s).Completes := by
  unfold process
  split
  · exact .ok s
  · exact .andThen fun t => by rw [stepPhy_eq]; exact .ok _

theorem completes_irq (s : State) : (irq s).Completes := by
  cases hm : s.cfg.mode with
  | inline => rw [irq_inline hm]; exact .andThen fun _ => .ok _
  | deferred => rw [irq_deferred hm]; exact .ok _

theorem completes_workerRun (s : State) : (workerRun s).Completes := by
  unfold workerRun
  split
  · exact .ok s
  · exact .andThen .ok

theorem completes_pollExpire (s : State) : (pollExpire s).Completes := .andThen fun _ => .ok _

theorem completes_txtoExpire (s : State) : (txtoExpire s).Completes := by
  cases hm : s.cfg.mode with
  | inline => rw [txtoExpire_inline hm]; exact .andThen fun _ => .ok _
  | deferred => rw [txtoExpire_deferred hm]; exact .ok _

theorem completes_notify (s : State) : (notifyTxAvailable s).Completes := by
  unfold notifyTxAvailable
  split
  · exact .ok s
  · split
    · exact .ok s
    · split
      · exact .andThen .ok
      · exact .ok _

theorem completes_macRxFrame (len : Half) (fs ls : Bool) (stat : Half) (seed : Byte) (s : State) :
    (macRxFrame len fs ls stat seed s).Completes := by
  unfold macRxFrame
  dsimp only
  split
  · trivial
  · exact .ok _

/-- An accepted submission answers `OK`, and a refused one leaves the state as it was (rule R161). -/
theorem answers_submit (p : Word) (n : Half) (valued : Prop) (s : State) : (submit p n s).Answers valued s := by
  unfold submit
  split
  · exact ⟨fun _ => ⟨rfl, rfl⟩, fun h => absurd rfl h⟩
  · split
    · trivial
    · exact Res.Completes.answers (.andThen fun _ => .ok _) _ _

/-- Both tests of `BRING_UP` come before its first write (rule R221). -/
theorem answers_bringUp (valued : Prop) (s : State) : (bringUp s).Answers valued s := by
  unfold bringUp
  split
  · exact ⟨fun _ => ⟨rfl, rfl⟩, fun h => absurd rfl h⟩
  · split
    · exact ⟨fun _ => ⟨rfl, rfl⟩, fun h => absurd rfl h⟩
    · exact (Res.Completes.ok _).answers _ _

/-- The three operations that return a result (rule R117). -/
def ReturnsValue (i : Instr) : Prop := (∃ r c, i = .advance r c) ∨ (∃ r k, i = .isHw r k) ∨ ∃ r, i = .regRead r

/-- An operation that always answers `OK`, with the result `res`. -/
theorem answers_value {valued : Prop} (h : valued) (res : Word) (s t : State) : (Res.done .ok res t).Answers valued s :=
  ⟨fun hst => absurd rfl hst, fun _ => h⟩

theorem answers_bodyOf (i : Instr) (s : State) : (bodyOf i s).Answers (ReturnsValue i) s := by
  cases i
  case advance r c => exact answers_value (.inl ⟨r, c, rfl⟩) ..
  case isHw r k => exact answers_value (.inr (.inl ⟨r, k, rfl⟩)) ..
  case regRead reg => exact answers_value (.inr (.inr ⟨reg, rfl⟩)) ..
  case submit => exact answers_submit ..
  case bringUp => exact answers_bringUp ..
  all_goals refine Res.Completes.answers ?_ _ _
  case release => exact completes_release ..
  case reclaim => exact completes_reclaim ..
  case pollReceive => exact completes_pollLoop ..
  case reclaimCompleted => exact .andThen fun _ => completes_txpoll _
  case txpoll => exact completes_txpoll s
  case irq => exact completes_irq s
  case process => exact completes_process ..
  case workerRun => exact completes_workerRun s
  case pollExpire => exact completes_pollExpire s
  case txtoExpire => exact completes_txtoExpire s
  case notifyTxAvailable => exact completes_notify s
  case macRxFrame => exact completes_macRxFrame ..
  all_goals exact .ok _

/-- A command that raised a fault was accepted with none recorded: `REG_READ`, the one exemption, raises none (rule R29). -/
theorem no_fault_before_raise {i : Instr} {s u : State} (ha : portCheck (gateOf i s) s = .ok) (hu : bodyOf i s = .raised u) :
    s.fault = .none := by
  obtain ⟨_, hf, _⟩ := (portCheck_eq_ok_iff _ _).mp ha
  cases i
  case regRead => cases hu
  all_goals exact hf.resolve_right (by simp [gateOf])

/-- Settles O10: a refusal at the port, an answer of the body, or a fault that the body raised. -/
theorem statusAndResultOfEveryCommand : Obligations.StatusAndResultOfEveryCommand := by
  unfold Obligations.StatusAndResultOfEveryCommand
  intro i s t h
  rcases exec_next_cases h with ⟨_, rfl⟩ | ⟨ha, ⟨st, res, u, hu, rfl⟩ | ⟨u, hu, rfl⟩⟩
  case inl =>
    refine ⟨fun st res hr _ => ?_, fun st res hr hres => ?_, fun code hr => ?_, by simp [State.refused]⟩ <;>
      simp only [State.refused, Option.some.injEq, Response.returned.injEq, reduceCtorEq] at hr
    · obtain ⟨rfl, rfl⟩ := hr; exact ⟨rfl, rfl⟩
    · exact absurd hr.2.symm hres
  case inr.inl =>
    have hb := answers_bodyOf i s
    rw [hu] at hb
    obtain ⟨hst, hres⟩ := hb
    rw [respond_eq]
    refine ⟨fun st' res' hr hne => ?_, fun st' res' hr hne => ?_, fun code hr => ?_, by simp⟩ <;>
      simp only [Option.some.injEq, Response.returned.injEq, reduceCtorEq] at hr
    · obtain ⟨rfl, rfl⟩ := hr
      obtain ⟨rfl, rfl⟩ := hst hne
      exact ⟨rfl, rfl⟩
    · obtain ⟨rfl, rfl⟩ := hr; exact hres hne
  case inr.inr =>
    have hb := faultRule_bodyOf i s
    rw [hu] at hb
    refine ⟨fun st res hr => ?_, fun st res hr => ?_, fun code hr => ?_, by simp [respondFault]⟩ <;>
      simp only [respondFault, Option.some.injEq, Response.faulted.injEq, reduceCtorEq] at hr
    subst hr
    exact ⟨no_fault_before_raise ha hu, hb, rfl⟩

end Sys2Proof.Machine
end

section
/-!
The walk of `POLL_RECEIVE` (O25): the deliveries it makes, counted in the trace against the released slots it consumes, and
the slot a draining walk ends at.
-/

namespace Sys2Proof.Machine

/-! ## The deliveries of a walk (rules R151 and R156) -/

/-- An event that is a delivery to the upstream stack. -/
def isDelivery (e : Event) : Bool :=
  match e with
  | .call (.deliver _) _ => true
  | _ => false

/-- The deliveries in the trace so far. -/
def deliveries (s : State) : Nat := s.trace.countP isDelivery

/-- At most `n` deliveries were made from `s` to `t`. -/
def Delivers (n : Nat) (s t : State) : Prop := deliveries t ≤ deliveries s + n

theorem Delivers.mono {n m : Nat} {s t : State} (h : Delivers n s t) (hm : n ≤ m) : Delivers m s t :=
  Nat.le_trans h (Nat.add_le_add_left hm _)

theorem Delivers.trans {n m : Nat} {a b c : State} (h : Delivers n a b) (k : Delivers m b c) : Delivers (n + m) a c := by
  unfold Delivers at *
  omega

/-- The deliveries of a sequence add up. -/
theorem Delivers.andThen {n m : Nat} {s : State} {r : Res} {k : State → Res} (h : r.Rel (Delivers n) s)
    (hk : ∀ st res t, r = .done st res t → (k t).Rel (Delivers m) t) : (r.andThen k).Rel (Delivers (n + m)) s := by
  cases r with
  | done st res t =>
    have hkt := hk st res t rfl
    rw [Res.done_andThen]
    cases hc : k t with
    | done st' res' u => rw [hc] at hkt; exact Delivers.trans h hkt
    | raised u => rw [hc] at hkt; exact Delivers.trans h hkt
    | stop f => trivial
  | raised t => exact Delivers.mono h (Nat.le_add_right ..)
  | stop f => trivial

/-- The deliveries among the new events. -/
theorem Delivers.of_append {n : Nat} {s t : State} {es : List Event} (h : t.trace = s.trace ++ es)
    (he : es.countP isDelivery ≤ n) : Delivers n s t := by
  unfold Delivers deliveries
  rw [h, List.countP_append]
  omega

theorem Delivers.refl (s : State) : Delivers 0 s s := Nat.le_refl _

theorem delivers_release (r : Ring) (i : Nat) (buf : Word) (len : Half) (fs ls ic : Bool) (s : State) :
    (release r i buf len fs ls ic s).Rel (Delivers 0) s := by
  unfold release
  split
  · exact Delivers.refl s
  · exact .of_append (writeDesc_trace ..) (Nat.le_refl 0)

theorem delivers_afterSubmit (s : State) : Delivers 0 s (afterSubmit s) :=
  .of_append (es := [.regW .txpoll 1]) (by simp [afterSubmit, txtoStart]) (Nat.le_refl 0)

theorem delivers_submit (p : Word) (n : Half) (s : State) : (submit p n s).Rel (Delivers 0) s := by
  unfold submit
  split
  · exact Delivers.refl s
  · split
    · exact Delivers.refl s
    · exact Delivers.andThen (n := 0) (m := 0) (delivers_release ..) fun _ _ t _ => delivers_afterSubmit t

theorem delivers_submitAnswer (s : State) : (submitAnswer s).Rel (Delivers 0) s := by
  unfold submitAnswer
  split
  · exact delivers_submit ..
  · exact Delivers.refl s

theorem delivers_writeXbuf (bs : List (Option Byte)) (s : State) : (writeXbuf bs s).Rel (Delivers 0) s := by
  unfold writeXbuf
  split
  · trivial
  · exact Delivers.refl s

theorem delivers_copyFrame (a n : Nat) (s : State) : (copyFrame a n s).Rel (Delivers 0) s := by
  unfold copyFrame
  split
  · trivial
  · exact delivers_writeXbuf ..

/-- A callout is one event, so at most one delivery. -/
theorem delivers_callUp (c : Callout) (s : State) : (callUp c s).Rel (Delivers 1) s := by
  unfold callUp
  refine Delivers.andThen (s := s) (n := 0) (m := 1) (delivers_writeXbuf _ { s with answers := s.answers.tail }) fun _ _ t _ => ?_
  exact Delivers.of_append (es := [.call c s.nextAnswer.len]) rfl List.countP_le_length

theorem delivers_deliverFrame (i : Nat) (s : State) : (deliverFrame i s).Rel (Delivers 1) s := by
  unfold deliverFrame
  dsimp only
  split
  · exact Delivers.mono (Delivers.refl s) (Nat.zero_le 1)
  · exact Delivers.andThen (n := 1) (Delivers.andThen (n := 0) (delivers_copyFrame ..)
      fun _ _ t _ => delivers_callUp _ { t with xlen := (s.desc .rx i).len }) fun _ _ t _ => delivers_submitAnswer t

theorem delivers_recycle (i : Nat) (s : State) : (recycle i s).Rel (Delivers 0) s :=
  Delivers.andThen (n := 0) (m := 0) (delivers_release ..) fun _ _ t _ => Delivers.refl t

/-- A slot is delivered at most once. -/
theorem delivers_consumeSlot (i : Nat) (s : State) : (consumeSlot i s).Rel (Delivers 1) s := by
  unfold consumeSlot
  refine Delivers.andThen (n := 1) ?_ fun _ _ t _ => delivers_recycle i t
  split
  · exact delivers_deliverFrame i s
  · exact Delivers.mono (Delivers.refl s) (Nat.zero_le 1)

/-- A walk delivers no more frames than it found released slots: each iteration turns one of them Hardware-owned. -/
theorem delivers_pollLoop (fuel : Nat) (s : State) : (pollLoop fuel s).Rel (Delivers (released s)) s := by
  induction fuel generalizing s with
  | zero => exact Delivers.mono (Delivers.refl s) (Nat.zero_le _)
  | succ fuel ih =>
    unfold pollLoop
    split
    · exact Delivers.mono (Delivers.refl s) (Nat.zero_le _)
    · next ho =>
      have hpos : 1 ≤ released s := released_pos (own_sw_of_ne ho)
      have hone := delivers_consumeSlot s.rxCur s
      split
      · exact (Delivers.andThen (k := .ok) (m := 0) hone fun _ _ t _ => Delivers.refl t).imp fun _ h => h.mono hpos
      · refine (Delivers.andThen (m := released s - 1) hone fun _ _ t hc => ?_).imp fun _ h => h.mono (by omega)
        have hrel := released_consumeSlot hc
        exact (ih t).imp fun _ h => h.mono (by omega)

/-- A draining walk with fuel for every released slot completes at a Hardware-owned slot (rule R151). -/
theorem pollLoop_ends_hw {n : Nat} {s t : State} {st : Status} {res : Word} (hscan : s.cfg.rxScan = .drain)
    (hn : released s < n) (h : pollLoop n s = .done st res t) : (t.desc .rx t.rxCur).own = .hw := by
  induction n generalizing s with
  | zero => omega
  | succ n ih =>
    unfold pollLoop at h
    split at h
    · next ho => cases h; exact ho
    · split at h
      · next hw => simp [walkEndsAfter, hscan] at hw
      · obtain ⟨_, _, u, hu, hk⟩ := Res.andThen_eq_done h
        have hrel := released_consumeSlot hu
        obtain ⟨_, _, hcfg, _⟩ := consumeSlot_done hu
        exact ih (by rw [hcfg]; exact hscan) (by omega) hk

/-- An accepted `POLL_RECEIVE` leaves what its walk left, and an answer `OK` means that the walk completed. -/
theorem exec_pollReceive_next {s t : State} (he : enabled .pollReceive s = true) (h : exec .pollReceive s = .next t) :
    t.trace.countP isDelivery ≤ deliveries s + released s ∧
    (t.resp = some (.returned .ok 0) →
      ∃ st res u, pollReceive s = .done st res u ∧ t.rxd = u.rxd ∧ t.rxCur = u.rxCur) := by
  have hwalk := delivers_pollLoop (s.rxd.length + 1) s
  rcases exec_next_cases h with ⟨hn, _⟩ | ⟨_, ⟨st, res, u, hu, rfl⟩ | ⟨u, hu, rfl⟩⟩
  · exact absurd (by simpa [enabled] using he) hn
  · rw [show pollLoop _ s = .done st res u from hu] at hwalk
    exact ⟨hwalk, fun _ => ⟨st, res, u, hu, rfl, rfl⟩⟩
  · rw [show pollLoop _ s = .raised u from hu] at hwalk
    exact ⟨hwalk, fun hr => by cases hr⟩

/-- Settles O25: the walk has fuel for every released slot of the ring, and each delivery takes one of them. -/
theorem drainingWalkEndsAtAHardwareSlot : Obligations.DrainingWalkEndsAtAHardwareSlot := by
  unfold Obligations.DrainingWalkEndsAtAHardwareSlot
  intro s t h he
  obtain ⟨hcount, hdone⟩ := exec_pollReceive_next he h
  have hle := released_le s
  refine ⟨fun hscan hresp => ?_, ?_⟩
  · obtain ⟨st, res, u, hu, hrx, hcur⟩ := hdone hresp
    rw [State.desc_rx, hrx, hcur]
    exact pollLoop_ends_hw hscan (Nat.lt_succ_of_le hle) hu
  · obtain ⟨es, hes⟩ := traced_exec h
    refine ⟨es, hes.symm, ?_⟩
    rw [← hes, List.countP_append] at hcount
    have hnew : es.countP isDelivery ≤ s.rxd.length := by unfold deliveries at hcount; omega
    exact hnew

end Sys2Proof.Machine
end

section
/-!
The two modes (O35). A pass reads neither the mode nor the dispatcher's registers nor the poll timer nor the last answer, and
writes none of them: run from two states that differ in these alone, it leaves two states that differ in these alone. So the
pass that `WORKER_RUN` makes is the one the event makes at once in `INLINE` mode.
-/

namespace Sys2Proof.Machine

/-! ## States that differ in the regime only -/

/-- What differs between a pass that an event runs at once and the same pass in a worker's hands. -/
structure Regime where
  mode     : Mode
  dslot    : Option DeferredUnit
  inflight : Option DeferredUnit
  ptArmed  : Bool
  ptRem    : Word
  resp     : Option Response

/-- The regime a state stands in. -/
def State.regime (s : State) : Regime := ⟨s.cfg.mode, s.dslot, s.inflight, s.ptArmed, s.ptRem, s.resp⟩

/-- The same state in another regime. -/
def State.under (e : Regime) (s : State) : State :=
  { s with
    cfg := { s.cfg with mode := e.mode }, dslot := e.dslot, inflight := e.inflight, ptArmed := e.ptArmed, ptRem := e.ptRem
    resp := e.resp }

/-- What a procedure leaves, in another regime. -/
def Res.under (e : Regime) : Res → Res
  | .done st res s => .done st res (s.under e)
  | .raised s => .raised (s.under e)
  | .stop f => .stop f

/-- A procedure that neither reads nor writes the regime. -/
def Indifferent (f : State → Res) : Prop := ∀ e s, f (s.under e) = (f s).under e

theorem State.under_regime (s : State) : s.under s.regime = s := rfl
@[simp] theorem State.regime_under (e : Regime) (s : State) : (s.under e).regime = e := rfl

@[simp] theorem State.under_desc (e : Regime) (s : State) (r : Ring) (i : Nat) : (s.under e).desc r i = s.desc r i := by
  cases r <;> rfl

/-- An indifferent procedure keeps the regime it began in. -/
theorem Indifferent.regime_kept {f : State → Res} (hf : Indifferent f) {s t : State} {st : Status} {res : Word}
    (h : f s = .done st res t) : t.regime = s.regime := by
  have hs := hf s.regime s
  rw [State.under_regime, h] at hs
  have ht : t = t.under s.regime := by simpa [Res.under] using hs
  rw [ht, State.regime_under]

theorem Indifferent.ok : Indifferent .ok := fun _ _ => rfl

theorem Res.under_andThen {k : State → Res} (hk : Indifferent k) (e : Regime) (r : Res) :
    (r.under e).andThen k = (r.andThen k).under e := by
  cases r with
  | done st res s => exact hk e s
  | raised s => rfl
  | stop f => rfl

theorem Indifferent.andThen {f k : State → Res} (hf : Indifferent f) (hk : Indifferent k) :
    Indifferent fun s => (f s).andThen k := fun e s => by
  show (f (s.under e)).andThen k = _
  rw [hf e s, Res.under_andThen hk]

/-! ### The procedures of a pass -/

theorem under_writeDesc (e : Regime) (r : Ring) (i : Nat) (d : Desc) (s : State) :
    writeDesc r i d (s.under e) = (writeDesc r i d s).under e := by
  rw [writeDesc_eq, writeDesc_eq]
  cases r <;> rfl

theorem indifferent_release (r : Ring) (i : Nat) (buf : Word) (len : Half) (fs ls ic : Bool) :
    Indifferent (release r i buf len fs ls ic) := fun e s => by
  have hd := s.under_desc e r i
  cases ho : (s.desc r i).own with
  | hw => rw [release_hw _ _ _ _ _ ho, release_hw _ _ _ _ _ (hd ▸ ho)]; rfl
  | sw =>
    rw [release_sw _ _ _ _ _ ho, release_sw _ _ _ _ _ (hd ▸ ho), under_writeDesc, hd]
    rfl

theorem indifferent_reclaim (r : Ring) (i : Nat) : Indifferent (reclaim r i) := fun e s => by
  have hd := s.under_desc e r i
  cases ho : (s.desc r i).own with
  | hw => rw [reclaim_hw ho, reclaim_hw (hd ▸ ho)]; rfl
  | sw => rw [reclaim_sw ho, reclaim_sw (hd ▸ ho), under_writeDesc, hd]; rfl

theorem under_regWrite (e : Regime) (reg : Reg) (v : Word) (s : State) :
    regWrite reg v (s.under e) = (regWrite reg v s).under e := by
  cases reg
  case txpoll => by_cases hv : v = 1 <;> simp only [regWrite, writeEffect, hv, if_true, if_false] <;> rfl
  all_goals rfl

theorem under_afterSubmit (e : Regime) (s : State) : afterSubmit (s.under e) = (afterSubmit s).under e :=
  congrArg txtoStart (under_regWrite e .txpoll 1 { s with txCur := advanceCursor s.cfg .tx s.txCur, txPend := s.txPend + 1 })

theorem indifferent_afterSubmit : Indifferent fun s => .ok (afterSubmit s) :=
  fun e s => congrArg Res.ok (under_afterSubmit e s)

theorem indifferent_submit (p : Word) (n : Half) : Indifferent (submit p n) := fun e s => by
  cases hu : s.up with
  | false => rw [submit_down _ _ hu, submit_down _ _ (show (s.under e).up = false from hu)]; rfl
  | true =>
    have hu' : (s.under e).up = true := hu
    by_cases hf : s.txPend = s.cfg.nTx
    · rw [submit_full _ _ hu hf, submit_full _ _ hu' hf]; rfl
    · have hf' : ¬ (s.under e).txPend = (s.under e).cfg.nTx := hf
      simp only [submit, hu, hu', hf, hf', Bool.not_true, Bool.false_eq_true, if_false]
      show (release .tx s.txCur p (clampLen n) true true true (s.under e)).andThen _ = _
      rw [indifferent_release, Res.under_andThen (k := fun s => .ok (afterSubmit s)) indifferent_afterSubmit]

theorem indifferent_submitAnswer : Indifferent submitAnswer := fun e s => by
  unfold submitAnswer
  by_cases hx : s.xlen ≠ 0
  · rw [if_pos hx, if_pos (show (s.under e).xlen ≠ 0 from hx)]; exact indifferent_submit _ _ e s
  · rw [if_neg hx, if_neg (show ¬ (s.under e).xlen ≠ 0 from hx)]; rfl

theorem indifferent_writeXbuf (bs : List (Option Byte)) : Indifferent (writeXbuf bs) := fun e s => by
  unfold writeXbuf
  rw [show xbufFault (s.under e).cfg bs.length = xbufFault s.cfg bs.length from rfl]
  cases xbufFault s.cfg bs.length <;> rfl

theorem indifferent_callUp (c : Callout) : Indifferent (callUp c) := fun e s => by
  unfold callUp
  have hw := indifferent_writeXbuf ((s.nextAnswer.bytes.take s.cfg.xbufSize).map some) e { s with answers := s.answers.tail }
  have hk : Indifferent fun t => .ok (({ t with xlen := s.nextAnswer.len } : State).log (.call c s.nextAnswer.len)) :=
    fun _ _ => rfl
  exact (congrArg (Res.andThen · _) hw).trans (Res.under_andThen hk e _)

theorem indifferent_callout (c : Callout) : Indifferent fun s => ((callUp c s).andThen submitAnswer).andThen .ok :=
  ((indifferent_callUp c).andThen indifferent_submitAnswer).andThen .ok

theorem indifferent_txpoll : Indifferent txpoll := indifferent_callout .poll

theorem indifferent_timerHook : Indifferent timerHook := indifferent_callout .timerHook

theorem indifferent_reclaimOne : Indifferent reclaimOne := fun e s => by
  unfold reclaimOne
  rw [show (s.under e).txClean = s.txClean from rfl, indifferent_reclaim, Res.under_andThen fun _ _ => rfl]

theorem indifferent_reclaimLoop (fuel : Nat) : Indifferent (reclaimLoop fuel) := by
  induction fuel with
  | zero => exact .ok
  | succ fuel ih =>
    intro e s
    unfold reclaimLoop
    rw [show (s.under e).txPend = s.txPend from rfl, show (s.under e).txClean = s.txClean from rfl, s.under_desc]
    split
    · rfl
    · split
      · rfl
      · exact indifferent_reclaimOne.andThen ih e s

theorem indifferent_reclaimCompleted : Indifferent reclaimCompleted := fun e s =>
  (indifferent_reclaimLoop s.txPend).andThen (fun e s => indifferent_txpoll e (txtoCancel s)) e s

theorem indifferent_copyFrame (a n : Nat) : Indifferent (copyFrame a n) := fun e s => by
  unfold copyFrame
  rw [show frameFault (s.under e).cfg a n = frameFault s.cfg a n from rfl]
  cases frameFault s.cfg a n with
  | none => exact indifferent_writeXbuf (s.readBytes a n) e s
  | some f => rfl

theorem indifferent_deliverFrame (i : Nat) : Indifferent (deliverFrame i) := fun e s => by
  unfold deliverFrame
  dsimp only
  rw [s.under_desc]
  by_cases hn : s.cfg.xbufSize < (s.desc .rx i).len.toNat
  · rw [if_pos hn, if_pos (show (s.under e).cfg.xbufSize < _ from hn)]; rfl
  · rw [if_neg hn, if_neg (show ¬ (s.under e).cfg.xbufSize < _ from hn)]
    exact ((indifferent_copyFrame _ _).andThen fun e t => indifferent_callUp _ e { t with xlen := (s.desc .rx i).len }).andThen
      indifferent_submitAnswer e s

theorem indifferent_recycle (i : Nat) : Indifferent (recycle i) := fun e s => by
  unfold recycle
  rw [s.under_desc, show (s.under e).cfg.rxBufSize = s.cfg.rxBufSize from rfl, indifferent_release,
    Res.under_andThen fun _ _ => rfl]

theorem indifferent_consumeSlot (i : Nat) : Indifferent (consumeSlot i) := fun e s => by
  unfold consumeSlot
  rw [s.under_desc]
  split
  · exact (indifferent_deliverFrame i).andThen (indifferent_recycle i) e s
  · exact indifferent_recycle i e s

theorem indifferent_pollLoop (fuel : Nat) : Indifferent (pollLoop fuel) := by
  induction fuel with
  | zero => exact .ok
  | succ fuel ih =>
    intro e s
    unfold pollLoop
    rw [show (s.under e).rxCur = s.rxCur from rfl, s.under_desc,
      show walkEndsAfter s.rxCur (s.under e) = walkEndsAfter s.rxCur s from rfl]
    split
    · rfl
    · split
      · exact (indifferent_consumeSlot s.rxCur).andThen .ok e s
      · exact (indifferent_consumeSlot s.rxCur).andThen ih e s

theorem indifferent_pollReceive : Indifferent pollReceive := fun e s => indifferent_pollLoop (s.rxd.length + 1) e s

/-- A step of `PROCESS` that its bit of the snapshot selects. -/
theorem Indifferent.ite {f : State → Res} (hf : Indifferent f) (b : Bool) : Indifferent fun s => if b then f s else .ok s := by
  cases b with
  | true => exact hf
  | false => exact .ok

theorem indifferent_process (snap : Byte) : Indifferent (process snap) := by
  have hack : Indifferent (stepAck snap) :=
    Indifferent.ite (f := fun s => .ok (regWrite s.cfg.ackReg s.cfg.ackVal s))
      (fun e s => congrArg Res.ok (under_regWrite e _ _ s)) _
  have hreceive : Indifferent (stepReceive snap) := indifferent_pollReceive.ite _
  have htransmit : Indifferent (stepTransmit snap) := indifferent_reclaimCompleted.ite _
  have hphy : Indifferent (stepPhy snap) :=
    Indifferent.ite (f := fun s => .ok { regRead .phystat s with linkUp := s.phyLink }) (fun _ _ => rfl) _
  intro e s
  unfold process
  split
  · rfl
  · exact ((hack.andThen hreceive).andThen htransmit).andThen hphy e s

theorem indifferent_unitBody (u : DeferredUnit) : Indifferent (unitBody u) := by
  cases u with
  | irqWork snap => exact indifferent_process snap
  | pollWork => exact indifferent_timerHook
  | txTimeoutWork => exact indifferent_txpoll
  | txAvailWork => exact indifferent_txpoll

/-! ### A pass in a worker's hands -/

/-- The regime of a device in `DEFERRED` mode whose last command was answered `OK`. -/
def deferredRegime (dslot inflight : Option DeferredUnit) (ptArmed : Bool) (ptRem : Word) : Regime :=
  ⟨.deferred, dslot, inflight, ptArmed, ptRem, some (.returned .ok 0)⟩

/-- With the unit `u` pending on a device without a fault, `WORKER_RUN` leaves what the body of `u` leaves. -/
theorem exec_workerRun_pending {u : DeferredUnit} {b v : State} {st : Status} {res : Word}
    (hbody : unitBody u b = .done st res v) (hfault : b.fault = .none) (ptArmed : Bool) (ptRem : Word) :
    exec .workerRun (b.under (deferredRegime (some u) none ptArmed ptRem)) =
      .next (v.under (deferredRegime none (some u) ptArmed ptRem)) := by
  have hrun : bodyOf .workerRun (b.under (deferredRegime (some u) none ptArmed ptRem)) =
      (unitBody u (b.under (deferredRegime none (some u) ptArmed ptRem))).andThen .ok :=
    workerRun_some (s := b.under (deferredRegime (some u) none ptArmed ptRem)) rfl
  rw [exec_event (s := b.under _) hfault rfl rfl rfl, hrun, indifferent_unitBody, hbody]
  rfl

/-- `WORKER_DONE` after a pass that began in the dispatcher: the unmask, and nothing is in flight (rule R187). -/
theorem exec_workerDone_inflight {u : DeferredUnit} (hu : u ≠ .txAvailWork) {v : State} (hfault : v.fault = .none)
    (ptArmed : Bool) (ptRem : Word) :
    exec .workerDone (v.under (deferredRegime none (some u) ptArmed ptRem)) =
      .next ((unmask v).under (deferredRegime none none ptArmed ptRem)) := by
  have hne : ¬ (v.under (deferredRegime none (some u) ptArmed ptRem)).inflight = some .txAvailWork :=
    fun h => hu (Option.some.inj h)
  have hdone : workerDone (v.under (deferredRegime none (some u) ptArmed ptRem)) =
      (unmask v).under (deferredRegime none none ptArmed ptRem) := by rw [workerDone, if_neg hne]; rfl
  rw [exec_event (s := v.under _) hfault rfl rfl rfl, show bodyOf .workerDone _ = .ok (workerDone _) from rfl, hdone]
  rfl

/-- An event that was answered `OK` was accepted, and left what its body left and the answer. -/
theorem exec_answered_ok {i : Instr} {s t : State} (hc : opClass i = .event) (h : exec i s = .next t)
    (hr : t.resp = some (.returned .ok 0)) :
    portCheck (gateOf i s) s = .ok ∧ ∃ w, bodyOf i s = .done .ok 0 w ∧ t = respond .event .ok 0 w := by
  rcases exec_next_cases h with ⟨hn, rfl⟩ | ⟨ha, ⟨st, res, w, hw, rfl⟩ | ⟨w, hw, rfl⟩⟩
  · simp only [State.refused, Option.some.injEq, Response.returned.injEq] at hr
    exact absurd hr.1 hn
  · rw [hc] at hr ⊢
    simp only [respond, Option.some.injEq, Response.returned.injEq] at hr
    obtain ⟨rfl, rfl⟩ := hr
    exact ⟨ha, w, hw, rfl⟩
  · simp [respondFault] at hr

/-! ### What the three events have in common -/

/-- The events that begin a pass in the dispatcher. -/
def BeginsPass (i : Instr) : Prop := i = .irq ∨ i = .pollExpire ∨ i = .txtoExpire

/-- What such an event does before the pass: it takes the snapshot or spends the arming, and masks (rules R182, R206, R207). -/
def beforePass (i : Instr) (s : State) : State :=
  match i with
  | .irq => cancelIfTxOk s.snapshot (capture s)
  | .pollExpire => maskAll { s with ptArmed := false }
  | .txtoExpire => maskAll { s with toArmed := false }
  | _ => s

/-- The unit of work it begins (rule R33). -/
def unitOf (i : Instr) (s : State) : DeferredUnit :=
  match i with
  | .pollExpire => .pollWork
  | .txtoExpire => .txTimeoutWork
  | _ => .irqWork s.isr

/-- What it does to the poll timer in the end: `POLL_EXPIRE` arms it again. -/
def rearm (i : Instr) (s : State) : State :=
  match i with
  | .pollExpire => ptStart s
  | _ => s

theorem unitOf_ne_txAvailWork (i : Instr) (s : State) : unitOf i s ≠ .txAvailWork := by
  unfold unitOf; split <;> exact DeferredUnit.noConfusion

theorem bodyOf_inline {i : Instr} (hi : BeginsPass i) {s : State} (hm : s.cfg.mode = .inline) :
    bodyOf i s = (unitBody (unitOf i s) (beforePass i s)).andThen fun v => .ok (rearm i (unmask v)) := by
  obtain rfl | rfl | rfl := hi
  · exact irq_inline hm
  · exact pollExpire_inline hm
  · exact txtoExpire_inline hm

/-- What the event does before the pass leaves the parameters, the dispatcher and the fault register alone. -/
theorem beforePass_keeps {i : Instr} (hi : BeginsPass i) (s : State) :
    (beforePass i s).cfg = s.cfg ∧ (beforePass i s).dslot = s.dslot ∧ (beforePass i s).inflight = s.inflight ∧
      (beforePass i s).fault = s.fault := by
  obtain rfl | rfl | rfl := hi
  · simp only [beforePass, capture_eq, and_self]
  · exact ⟨rfl, rfl, rfl, rfl⟩
  · exact ⟨rfl, rfl, rfl, rfl⟩

theorem bodyOf_deferred {i : Instr} (hi : BeginsPass i) {s : State} (hm : s.cfg.mode = .deferred) (hd : s.dslot = none) :
    bodyOf i s = .ok (rearm i { beforePass i s with dslot := some (unitOf i s) }) := by
  obtain ⟨_, hslot, _⟩ := beforePass_keeps hi s
  rw [hd] at hslot
  obtain rfl | rfl | rfl := hi
  · refine (irq_deferred hm).trans ?_
    rw [schedule_eq, show (cancelIfTxOk s.snapshot (capture s)).dslot = none from hslot]
    rfl
  · refine (pollExpire_free hm hd).trans ?_
    rw [schedule_eq, show (maskAll { s with ptArmed := false }).dslot = none from hslot]
    rfl
  · refine (txtoExpire_deferred hm).trans ?_
    rw [schedule_eq, show (maskAll { s with toArmed := false }).dslot = none from hslot]
    rfl

theorem beforePass_withMode {i : Instr} (hi : BeginsPass i) (m : Mode) (s : State) :
    beforePass i (s.withMode m) = (beforePass i s).withMode m := by
  obtain rfl | rfl | rfl := hi
  · simp only [beforePass, capture_eq]; rfl
  · rfl
  · rfl

theorem portCheck_withMode {i : Instr} (hi : BeginsPass i) (m : Mode) (s : State) :
    portCheck (gateOf i (s.withMode m)) (s.withMode m) = portCheck (gateOf i s) s := by
  obtain rfl | rfl | rfl := hi <;> rfl

/-- The poll timer after the event depends on the timer and its period alone. -/
theorem rearm_timer (i : Instr) {a b : State} (hp : a.cfg.pollPeriod = b.cfg.pollPeriod) (ha : a.ptArmed = b.ptArmed)
    (hr : a.ptRem = b.ptRem) : (rearm i a).ptArmed = (rearm i b).ptArmed ∧ (rearm i a).ptRem = (rearm i b).ptRem := by
  unfold rearm
  split
  · exact ⟨rfl, hp⟩
  · exact ⟨ha, hr⟩

/-- The end of the event and its answer change the regime only. -/
theorem respond_rearm (i : Instr) (a : State) :
    (respond .event .ok 0 (rearm i a)).withMode .deferred =
      a.under (deferredRegime a.dslot a.inflight (rearm i a).ptArmed (rearm i a).ptRem) := by
  unfold rearm
  split <;> rfl

theorem blockStep_unitBody (u : DeferredUnit) (s : State) : (unitBody u s).Rel BlockStep s := by
  cases u with
  | irqWork snap => exact blockStep_process snap s
  | pollWork => exact blockStep_timerHook s
  | txTimeoutWork => exact blockStep_txpoll s
  | txAvailWork => exact blockStep_txpoll s

/-- A pass that completes keeps the parameters, the regime and the fault register. -/
theorem unitBody_keeps {u : DeferredUnit} {s t : State} {st : Status} {res : Word} (h : unitBody u s = .done st res t) :
    t.cfg = s.cfg ∧ t.regime = s.regime ∧ t.fault = s.fault := by
  have hblock := blockStep_unitBody u s
  have hfault := faultRule_unitBody u s
  rw [h] at hblock hfault
  exact ⟨hblock.common.cfg, (indifferent_unitBody u).regime_kept h, hfault⟩

theorem State.withMode_self {s : State} {m : Mode} (h : s.cfg.mode = m) : s.withMode m = s := by subst h; rfl

theorem BeginsPass.event {i : Instr} (hi : BeginsPass i) : opClass i = .event := by obtain rfl | rfl | rfl := hi <;> rfl

theorem rearm_cfg (i : Instr) (s : State) : (rearm i s).cfg = s.cfg := by unfold rearm; split <;> rfl

/-- In `DEFERRED` mode the event leaves the state before the pass, with its unit pending. -/
theorem exec_deferred {i : Instr} (hi : BeginsPass i) {s : State} (hm : s.cfg.mode = .deferred) (hd : s.dslot = none)
    (hf : s.inflight = none) (ha : portCheck (gateOf i s) s = .ok) :
    exec i s = .next ((beforePass i s).under (deferredRegime (some (unitOf i s)) none
      (rearm i (beforePass i s)).ptArmed (rearm i (beforePass i s)).ptRem)) := by
  obtain ⟨hcfg, _, hinflight, _⟩ := beforePass_keeps hi s
  rw [exec_of_portCheck ha, bodyOf_deferred hi hm hd, hi.event]
  generalize hx : ({ beforePass i s with dslot := some (unitOf i s) } : State) = x
  have hmode : (respond .event .ok 0 (rearm i x)).cfg.mode = .deferred := by
    rw [respond_cfg, rearm_cfg, ← hx]
    exact (congrArg Config.mode hcfg).trans hm
  obtain ⟨harmed, hrem⟩ := rearm_timer i (a := x) (b := beforePass i s) (by rw [← hx]) (by rw [← hx]) (by rw [← hx])
  have hafter := respond_rearm i x
  rw [State.withMode_self hmode, harmed, hrem, ← hx, hinflight, hf] at hafter
  exact congrArg Host.Outcome.next (hx ▸ hafter)

/-- Settles O35: both modes run the same body from the same captured state, and the body is indifferent to the regime. -/
theorem modesAgreeWhenThePassFollows : Obligations.ModesAgreeWhenThePassFollows := by
  unfold Obligations.ModesAgreeWhenThePassFollows
  intro i s t hi hm hd hf hn h hr
  change BeginsPass i at hi
  obtain ⟨ha, w, hw, rfl⟩ := exec_answered_ok hi.event h hr
  rw [portCheck_withMode hi] at ha
  rw [bodyOf_inline hi rfl, beforePass_withMode hi] at hw
  obtain ⟨st, res, v, hv, hk⟩ := Res.andThen_eq_done hw
  cases hk
  obtain ⟨_, hslot, hinflight, hfault⟩ := beforePass_keeps hi s
  obtain ⟨hcfg, hregime, hvfault⟩ := unitBody_keeps hv
  obtain ⟨harmed, hrem⟩ := rearm_timer i (a := unmask v) (b := beforePass i s) (congrArg Config.pollPeriod hcfg :)
    (congrArg Regime.ptArmed hregime) (congrArg Regime.ptRem hregime)
  have hend := respond_rearm i (unmask v)
  rw [harmed, hrem, show (unmask v).dslot = none from (congrArg Regime.dslot hregime).trans (hslot.trans hd),
    show (unmask v).inflight = none from (congrArg Regime.inflight hregime).trans (hinflight.trans hf)] at hend
  rw [hend]
  exact ⟨_, _, exec_deferred hi hm hd hf ha, exec_workerRun_pending hv (hfault.trans hn) _ _,
    exec_workerDone_inflight (unitOf_ne_txAvailWork i s) (hvfault.trans (hfault.trans hn)) _ _⟩

end Sys2Proof.Machine
end

section
/-!
What every step keeps (O53): the shape of a state through `BRING_UP` and the MAC agent's moves, which the block's step
relation leaves out, and from there through every instruction and every step.
-/

namespace Sys2Proof.Machine

/-! ## Descriptors and frame bytes -/

/-- In a state of the right shape every slot reads as a descriptor its words can hold. -/
theorem Shape.fits_desc {s : State} (hs : Shape s) (r : Ring) (i : Nat) : (s.desc r i).fits s.cfg.layout = true := by
  by_cases hi : i < (s.ring r).length
  · refine hs.desc_fits r _ ?_
    rw [State.desc, List.getD_eq_getElem?_getD, List.getElem?_eq_getElem hi]
    exact List.getElem_mem hi
  · rw [State.desc_of_le (Nat.le_of_not_lt hi)]
    exact Desc.fits_of (Nat.two_pow_pos _) (Nat.two_pow_pos _) (Nat.two_pow_pos _)

/-- A descriptor replaced, whoever owned it, by one its words can hold. -/
theorem common_setDesc {r : Ring} {i : Nat} {d : Desc} {s : State} (hd : Shape s → d.fits s.cfg.layout = true) :
    Common s (s.setDesc r i d) where
  cfg := by simp
  cmds := by simp
  rx_len := State.length_ring_setDesc s r .rx i d
  tx_len := State.length_ring_setDesc s r .tx i d
  trace := ⟨[], by simp⟩
  fault _ := by simp
  shape hs := by
    refine hs.of (by simp) (State.length_ring_setDesc s r .rx i d) (State.length_ring_setDesc s r .tx i d) (.inl (by simp))
      (.inl (by simp)) (.inl (by simp)) (.inl (by simp)) (.inl (by simp)) (by simpa using hs.mem_wf)
      (by simpa using hs.mem_places) fun q e he => ?_
    rcases State.mem_ring_setDesc he with rfl | he
    · exact hd hs
    · exact hs.desc_fits q e he

theorem common_writeDesc {r : Ring} {i : Nat} {d : Desc} {s : State} (hd : d.fits s.cfg.layout = true) :
    Common s (writeDesc r i d s) := by
  rw [writeDesc_eq]
  exact (common_setDesc fun _ => hd).trans (BlockStep.regs (he := ⟨descEvents r i d, by simp⟩)).common

/-- A frame byte at an address of the address space outside the control block (rules R40 and R90). -/
theorem common_writeByte {s : State} {a : Nat} (b : Byte) (ha : a < 2 ^ 32)
    (hr : ¬ (s.cfg.regBase.toNat ≤ a ∧ a < s.cfg.regBase.toNat + s.cfg.layout.regSpan)) : Common s (s.writeByte a b) := by
  unfold State.writeByte
  split
  · exact common_setDesc fun _ => Desc.fits_setByte ..
  · next hrx =>
    split
    · exact common_setDesc fun _ => Desc.fits_setByte ..
    · next htx =>
      refine ⟨rfl, rfl, rfl, rfl, ⟨[], (List.append_nil _).symm⟩, fun _ => rfl, fun hs => ?_⟩
      refine hs.of rfl rfl rfl (.inl rfl) (.inl rfl) (.inl rfl) (.inl rfl) (.inl rfl) (Memory.wf_insert hs.mem_wf a b)
        (fun c hc => ?_) hs.desc_fits
      rcases Memory.mem_insert hc with rfl | hc
      · exact ⟨ha, hrx, htx, hr⟩
      · exact hs.mem_places c hc

theorem common_writeBytes {s : State} {a : Nat} {bs : List Byte} (ha : ∀ x, a ≤ x → x < a + bs.length → x < 2 ^ 32 ∧
    ¬ (s.cfg.regBase.toNat ≤ x ∧ x < s.cfg.regBase.toNat + s.cfg.layout.regSpan)) : Common s (s.writeBytes a bs) := by
  induction bs generalizing s a with
  | nil => exact .refl s
  | cons b bs ih =>
    rw [List.length_cons] at ha
    obtain ⟨hlt, hreg⟩ := ha a (Nat.le_refl a) (by omega)
    refine (common_writeByte b hlt hreg).trans (ih fun x h1 h2 => ?_)
    rw [State.writeByte_cfg]
    exact ha x (by omega) (by omega)

/-- An access that is not refused lies in the address space and outside the control block. -/
theorem frameFault_eq_none {cfg : Config} {a n : Nat} (h : frameFault cfg a n = none) (x : Nat) (h1 : a ≤ x) (h2 : x < a + n) :
    x < 2 ^ 32 ∧ ¬ (cfg.regBase.toNat ≤ x ∧ x < cfg.regBase.toNat + cfg.layout.regSpan) := by
  unfold frameFault at h
  rw [if_neg (by omega)] at h
  split at h
  · cases h
  · split at h
    · cases h
    · next hspace hmeet => exact ⟨by omega, rangesMeet_eq_false (by simpa using hmeet) ⟨h1, h2⟩⟩

/-! ## The MAC agent's moves and `BRING_UP` -/

theorem fits_applyBody {lay : Layout} {d : Desc} (h : d.fits lay = true) (len : Half) (fs ls wrap ic : Bool) :
    (d.apply (.body (fitLen lay len) fs ls wrap ic)).fits lay = true := by
  obtain ⟨hbuf, _, hstat⟩ := Desc.fits_parts h
  exact Desc.fits_of hbuf (toNat_fitLen_lt ..) hstat

theorem fits_applyStatus {lay : Layout} {d : Desc} (h : d.fits lay = true) (stat : Half) (own : Owner) :
    (d.apply (.status (fitStat lay stat) own)).fits lay = true := by
  obtain ⟨hbuf, hlen, _⟩ := Desc.fits_parts h
  exact Desc.fits_of hbuf hlen (toNat_fitStat_lt ..)

theorem blockStep_raiseBits (bits : Byte) (s : State) : BlockStep s (raiseBits bits s) := .regs

/-- The status write changes neither the wrap marker nor the interrupt flag of its slot. -/
theorem desc_setDesc_status (s : State) (r : Ring) (i : Nat) (stat : Half) (own : Owner) :
    ((s.setDesc r i ((s.desc r i).apply (.status stat own))).desc r i).wrap = (s.desc r i).wrap ∧
    ((s.setDesc r i ((s.desc r i).apply (.status stat own))).desc r i).ic = (s.desc r i).ic := by
  rw [State.desc_setDesc]
  split <;> exact ⟨rfl, rfl⟩

/-- `MAC_TX_DONE` as one record update (rule R242). -/
theorem macTxDone_eq (idx : Nat) (stat : Half) (s : State) : macTxDone idx stat s =
    { s.setDesc .tx idx ((s.desc .tx idx).apply (.status (fitStat s.cfg.layout stat) .sw)) with
      isr := if (s.desc .tx idx).ic then s.isr ||| txOk else s.isr
      macTxIdx := macNext s.cfg .tx (s.desc .tx idx).wrap idx
      txKick := false } := by
  obtain ⟨hwrap, hic⟩ := desc_setDesc_status s .tx idx (fitStat s.cfg.layout stat) .sw
  unfold macTxDone
  dsimp only
  rw [hic, ← hwrap]
  split <;> rfl

theorem common_macTxDone (idx : Nat) (stat : Half) (s : State) : Common s (macTxDone idx stat s) := by
  rw [macTxDone_eq]
  exact (common_setDesc fun hs => fits_applyStatus (hs.fits_desc .tx idx) stat .sw).trans
    (BlockStep.regs (h4 := .inr fun h => macNext_lt (r := .tx) h _ _)).common

theorem common_macRxFrame (len : Half) (fs ls : Bool) (stat : Half) (seed : Byte) (s : State) :
    (macRxFrame len fs ls stat seed s).Rel Common s := by
  unfold macRxFrame
  dsimp only
  split
  · trivial
  · next hfault =>
    refine ((((common_writeBytes ?_).trans (common_setDesc fun hs => fits_applyBody (hs.fits_desc ..) ..)).trans
      (common_setDesc fun hs => fits_applyStatus (hs.fits_desc ..) ..)).trans (blockStep_raiseBits rxFinished _).common).trans
      (BlockStep.regs (h5 := .inr fun h => macNext_lt (r := .rx) h _ _)).common
    simpa [seededBytes] using frameFault_eq_none hfault

theorem common_phyLink (link : Bool) (s : State) : Common s { s with phyLink := link } where
  cfg := rfl
  cmds := rfl
  rx_len := rfl
  tx_len := rfl
  trace := ⟨[], (List.append_nil _).symm⟩
  fault _ := rfl
  shape hs := ⟨hs.cfg_wf, hs.rx_length, hs.tx_length, hs.desc_fits, hs.rx_cur, hs.tx_cur, hs.tx_clean, hs.mac_tx_idx,
    hs.mac_rx_idx, hs.mem_wf, hs.mem_places⟩

theorem common_initSlots (r : Ring) (i n : Nat) (s : State) : Common s (initSlots r i n s) := by
  induction n generalizing i s with
  | zero => exact .refl s
  | succ n ih => exact (common_writeDesc (Config.fits_constructed ..)).trans (ih ..)

theorem common_ringInit (s : State) : Common s (ringInit s) :=
  ((common_initSlots .rx 0 s.cfg.nRx s).trans (common_initSlots .tx 0 s.cfg.nTx _)).trans
    (BlockStep.regs (h1 := .inr id) (h2 := .inr id) (h3 := .inr id)).common

/-- The register writes of `BRING_UP` after `RING_INIT` (rule R221). -/
theorem common_bringUpWrites (s : State) : Common s (bringUpWrites s) :=
  (common_ringInit s).trans ((((((blockStep_regWrite ..).trans (blockStep_regWrite ..)).trans (blockStep_writeMaccr ..)).trans
    .regs).trans (blockStep_writeImr ..)).trans .regs).common

theorem common_bringUp (s : State) : (bringUp s).Rel Common s := by
  unfold bringUp
  split
  · exact .refl s
  · split
    · exact .refl s
    · exact common_bringUpWrites s

/-! ## Every instruction and every step -/

theorem common_bodyOf (i : Instr) (s : State) : (bodyOf i s).Rel Common s := by
  by_cases hb : i = .bringUp
  · subst hb; exact common_bringUp s
  · cases hm : isMacMove i with
    | false => exact (blockStep_bodyOf hm hb s).imp fun _ h => h.common
    | true =>
      obtain ⟨idx, stat, rfl⟩ | ⟨len, fs, ls, stat, seed, rfl⟩ | ⟨bits, rfl⟩ | ⟨link, rfl⟩ := isMacMove_cases hm
      · exact common_macTxDone idx.toNat stat s
      · exact common_macRxFrame ..
      · exact (blockStep_raiseBits bits s).common
      · exact (common_phyLink link s).trans (blockStep_raiseBits phyChg _).common

theorem common_exec {i : Instr} {s t : State} (h : exec i s = .next t) : Common s t :=
  exec_rel (R := Common) (fun _ _ _ => Common.trans) (fun _ _ _ => (blockStep_refused ..).common)
    (fun _ _ _ _ => (blockStep_respond ..).common) (fun s => (blockStep_respondFault s).common) (common_bodyOf i s) h

/-- Taking a command, and an answer, are no matter of shape. -/
theorem Shape.of_answer {s : State} (hs : Shape s) (cmds : List Command) (resp : Option Response) :
    Shape { s with cmds := cmds, resp := resp } :=
  ⟨hs.cfg_wf, hs.rx_length, hs.tx_length, hs.desc_fits, hs.rx_cur, hs.tx_cur, hs.tx_clean, hs.mac_tx_idx, hs.mac_rx_idx,
    hs.mem_wf, hs.mem_places⟩

/-- Settles O53: by cases on the command a step takes; an instruction keeps what `Common` says. -/
theorem shapeKeptByEveryStep : Obligations.ShapeKeptByEveryStep := by
  unfold Obligations.ShapeKeptByEveryStep
  intro s t hs h
  unfold step at h
  split at h
  · cases h; exact hs
  · next c rest _ =>
    split at h
    · cases h; exact hs.of_answer rest _
    · exact (common_exec h).shape (hs.of_answer rest s.resp)

end Sys2Proof.Machine
end

section
/-!
Passes on a healthy device (O36), the submission of one frame (O17), and the dispatcher's named states through a deferred
interrupt (O34).
-/

namespace Sys2Proof.Machine

/-! ## Every operation that runs a pass or a callout -/

/-- The operations that run a pass or a callout, now or in a worker's hands. -/
def RunsPass (i : Instr) : Prop :=
  i = .pollReceive ∨ i = .reclaimCompleted ∨ i = .txpoll ∨ (∃ snap, i = .process snap) ∨ i = .irq ∨ i = .workerRun ∨
    i = .pollExpire ∨ i = .txtoExpire ∨ i = .notifyTxAvailable

/-- A pending unit is a matter of no part of `Healthy`. -/
theorem pass_schedule {s : State} (h : Healthy s) (u : DeferredUnit) : Pass s (schedule u s) := by
  rw [schedule_eq]
  exact h.pass_regs .regs

theorem pass_unmask {s : State} (h : Healthy s) : Pass s (unmask s) := h.pass_regs (blockStep_writeImr irqEnableSet s)

/-- What an interrupt or an expiry does before its pass. -/
theorem pass_beforePass {i : Instr} (hi : BeginsPass i) {s : State} (h : Healthy s) : Pass s (beforePass i s) := by
  obtain rfl | rfl | rfl := hi
  · have hb := blockStep_capture s
    show Pass s (cancelIfTxOk s.snapshot (capture s))
    rw [capture_eq] at hb ⊢
    exact h.pass_regs hb
  · exact h.pass_regs (BlockStep.trans (b := { s with ptArmed := false }) .regs (blockStep_writeImr 0 _))
  · exact h.pass_regs (BlockStep.trans (b := { s with toArmed := false }) .regs (blockStep_writeImr 0 _))

theorem pass_rearm (i : Instr) {s : State} (h : Healthy s) : Pass s (rearm i s) := by
  unfold rearm
  split
  · exact h.pass_regs .regs
  · exact .refl h

/-- In `DEFERRED` mode the unit is scheduled; `POLL_EXPIRE` alone drops it, where the slot is occupied (rule R206). -/
theorem bodyOf_deferred_cases {i : Instr} (hi : BeginsPass i) {s : State} (hm : s.cfg.mode = .deferred) :
    bodyOf i s = .ok (rearm i (schedule (unitOf i s) (beforePass i s))) ∨
    (i = .pollExpire ∧ bodyOf i s = .ok (rearm i { s with ptArmed := false })) := by
  obtain rfl | rfl | rfl := hi
  · exact .inl (irq_deferred hm)
  · by_cases hd : s.dslot = none
    · exact .inl (pollExpire_free hm hd)
    · exact .inr ⟨rfl, pollExpire_dropped hm hd⟩
  · exact .inl (txtoExpire_deferred hm)

/-- An interrupt or an expiry: the pass at once, or its unit pending. -/
theorem passRes_beginsPass {i : Instr} (hi : BeginsPass i) {s : State} (h : Healthy s) : PassRes s (bodyOf i s) := by
  have hb := pass_beforePass hi h
  cases hm : s.cfg.mode with
  | inline =>
    rw [bodyOf_inline hi hm]
    refine .from hb ((passRes_unitBody hb.healthy _).andThen fun t ht => ?_)
    have hu := pass_unmask ht.healthy
    exact hu.trans (pass_rearm i hu.healthy)
  | deferred =>
    obtain he | ⟨_, he⟩ := bodyOf_deferred_cases hi hm <;> rw [he]
    · have hu := hb.trans (pass_schedule hb.healthy (unitOf i s))
      exact hu.trans (pass_rearm i hu.healthy)
    · have ha : Pass s { s with ptArmed := false } := h.pass_regs .regs
      exact ha.trans (pass_rearm i ha.healthy)

theorem passRes_workerRun {s : State} (h : Healthy s) : PassRes s (workerRun s) := by
  cases hd : s.dslot with
  | none => unfold workerRun; rw [hd]; exact Pass.refl h
  | some u =>
    rw [workerRun_some hd]
    have hp : Pass s { s with dslot := none, inflight := some u } := h.pass_regs .regs
    exact .from hp ((passRes_unitBody hp.healthy u).andThen fun _ ht => Pass.refl ht.healthy)

theorem passRes_notify {s : State} (h : Healthy s) : PassRes s (notifyTxAvailable s) := by
  unfold notifyTxAvailable
  split
  · exact Pass.refl h
  · split
    · exact Pass.refl h
    · split
      · exact (passRes_txpoll h).andThen fun _ ht => Pass.refl ht.healthy
      · exact pass_schedule h _

/-- A pass on a healthy device completes with `OK`, or upstream has answered with more frames than there is room for. -/
theorem runsPass_bodyOf {i : Instr} (hi : RunsPass i) {s : State} (h : Healthy s) :
    PassRes s (bodyOf i s) ∧ (bodyOf i s).Completes := by
  obtain rfl | rfl | rfl | ⟨snap, rfl⟩ | rfl | rfl | rfl | rfl | rfl := hi
  · exact ⟨passRes_pollReceive h, completes_pollLoop ..⟩
  · exact ⟨passRes_reclaimCompleted h, .andThen fun _ => completes_txpoll _⟩
  · exact ⟨passRes_txpoll h, completes_txpoll s⟩
  · exact ⟨passRes_process h snap, completes_process ..⟩
  · exact ⟨passRes_beginsPass (.inl rfl) h, completes_irq s⟩
  · exact ⟨passRes_workerRun h, completes_workerRun s⟩
  · exact ⟨passRes_beginsPass (.inr (.inl rfl)) h, completes_pollExpire s⟩
  · exact ⟨passRes_beginsPass (.inr (.inr rfl)) h, completes_txtoExpire s⟩
  · exact ⟨passRes_notify h, completes_notify s⟩

/-- The answer to a command is a matter of no part of `Healthy`. -/
theorem pass_respond {s : State} (h : Healthy s) (i : Instr) (st : Status) (res : Word) :
    Pass s (respond (opClass i) st res s) := by
  have hb := blockStep_respond i st res s
  rw [respond_eq] at hb ⊢
  exact h.pass_regs hb

theorem resp_respond (cls : OpClass) (st : Status) (res : Word) (s : State) :
    (respond cls st res s).resp = some (.returned st res) := by cases cls <;> rfl

/-- Settles O36: with room for the waiting answers no callout can fault, so the body completes, and its pass is healthy. -/
theorem passesCompleteOnAHealthyDevice : Obligations.PassesCompleteOnAHealthyDevice := by
  unfold Obligations.PassesCompleteOnAHealthyDevice
  intro i s h hroom he hi
  have ha : portCheck (gateOf i s) s = .ok := by simpa [enabled] using he
  obtain ⟨hpass, hdone⟩ := runsPass_bodyOf hi h
  obtain ⟨st, res, t, ht, hp⟩ := hpass.completes hroom
  rw [ht] at hdone
  obtain ⟨rfl, rfl⟩ := hdone
  have hr := hp.trans (pass_respond hp.healthy i .ok 0)
  exact ⟨_, by rw [exec_of_portCheck ha, ht]; rfl, resp_respond .., hr.healthy, hr.room hroom⟩

/-! ## One submission -/

theorem desc_withSubmitted {s : State} (hs : Shape s) (p : Word) (n : Half) :
    (s.withSubmitted p n).desc .tx s.txCur = s.submitted p n :=
  (desc_tx_set _ _ _ _ (by rw [hs.tx_length]; exact hs.tx_cur)).trans (if_pos rfl)

/-- Settles O17: with room the current slot is Software-owned (R52), so the submission is accepted. -/
theorem submitWithRoomIsAccepted : Obligations.SubmitWithRoomIsAccepted := by
  unfold Obligations.SubmitWithRoomIsAccepted
  intro p n s h hflight hup hlt
  have hroom : s.txPend ≠ s.cfg.nTx := Nat.ne_of_lt hlt
  have hbody : bodyOf (.submit p n) s = .ok (s.withSubmitted p n) := submit_ok p n hup hroom (h.tx_free hroom)
  have hr := pass_respond (healthy_withSubmitted h hup hroom p n) (.submit p n) .ok 0
  refine ⟨_, by rw [exec_host ⟨hflight, h.no_fault⟩ rfl rfl rfl, hbody]; rfl, resp_respond .., hr.healthy, rfl, ?_, rfl, ?_⟩
  · exact advanceCursor_eq (nTx_ok h) s.txCur
  · exact desc_withSubmitted h.shape p n

/-! ## The dispatcher's named states (rule R31) -/

/-- An indifferent procedure leaves the regime it began in, also where it faults. -/
theorem Indifferent.rel_regime {f : State → Res} (hf : Indifferent f) (s : State) :
    (f s).Rel (fun s t => t.regime = s.regime) s := by
  have hs := hf s.regime s
  rw [State.under_regime] at hs
  rw [hs]
  cases f s with
  | done st res t => exact State.regime_under _ t
  | raised t => exact State.regime_under _ t
  | stop f => trivial

/-- After `WORKER_RUN` the unit that was pending is in flight, and none is pending. -/
theorem exec_workerRun_next {s t : State} {u : DeferredUnit} (hd : s.dslot = some u)
    (ha : portCheck (gateOf .workerRun s) s = .ok) (h : exec .workerRun s = .next t) :
    t.dslot = none ∧ t.inflight = some u := by
  have hbody : (bodyOf .workerRun s).Rel (fun _ t => t.dslot = none ∧ t.inflight = some u) s := by
    have hreg := (indifferent_unitBody u).andThen .ok |>.rel_regime { s with dslot := none, inflight := some u }
    rw [show bodyOf .workerRun s = _ from workerRun_some hd]
    revert hreg
    cases (unitBody u { s with dslot := none, inflight := some u }).andThen .ok with
    | done st res t => exact fun hr => ⟨congrArg Regime.dslot hr, congrArg Regime.inflight hr⟩
    | raised t => exact fun hr => ⟨congrArg Regime.dslot hr, congrArg Regime.inflight hr⟩
    | stop f => exact id
  rcases exec_next_cases h with ⟨hn, _⟩ | ⟨_, ⟨st, res, w, hw, rfl⟩ | ⟨w, hw, rfl⟩⟩
  · exact absurd ha hn
  all_goals rw [hw] at hbody; exact hbody

/-- `WORKER_DONE` leaves nothing in flight, and the pending unit as it was. -/
theorem workerDone_dispatcher (s : State) : (workerDone s).dslot = s.dslot ∧ (workerDone s).inflight = none := by
  unfold workerDone
  split <;> exact ⟨rfl, rfl⟩

/-- A guard that holds admits an event to a device without a fault. -/
theorem portCheck_event {i : Instr} {s : State} (hf : s.fault = .none) (hc : opClass i = .event) (hw : i.wf s.cfg = true)
    (hg : (gateOf i s).guard = true) : portCheck (gateOf i s) s = .ok :=
  (portCheck_eq_ok_iff _ _).mpr ⟨hw, .inl hf, by simp [hc], by simp [hc], by simp [hc], hg⟩

/-- Settles O34: the captured unit goes from `dslot` to `inflight` and is gone when the pass ends. -/
theorem dispatcherGoesRoundItsStates : Obligations.DispatcherGoesRoundItsStates := by
  unfold Obligations.DispatcherGoesRoundItsStates
  intro s hf hup hm hd hi
  have ha : portCheck (gateOf .irq s) s = .ok := portCheck_event hf rfl rfl hup
  refine ⟨by simp [State.dispatcherState, hd, hi], _, exec_deferred (.inl rfl) hm hd hi ha, rfl, fun u hu => ?_⟩
  have hfault : (beforePass .irq s).fault = .none := (beforePass_keeps (.inl rfl) s).2.2.2.trans hf
  obtain ⟨hslot, hflight⟩ :=
    exec_workerRun_next (s := (beforePass .irq s).under _) rfl (portCheck_event hfault rfl rfl rfl) hu
  refine ⟨by simp [State.dispatcherState, hflight], fun v hv hu0 => ?_⟩
  rw [exec_event hu0 rfl rfl (by simp [gateOf, hflight])] at hv
  cases hv
  obtain ⟨h1, h2⟩ := workerDone_dispatcher u
  simp [State.dispatcherState, respond, h1, h2, hslot]

end Sys2Proof.Machine
end

section
/-!
The checks of the command port in their order (O9), and the fault register, which keeps its first fault (O11).
-/

namespace Sys2Proof.Machine

/-! ## The checks of rule R261, first to last -/

section
variable {g : Gate} {s : State}

theorem portCheck_illegal (h : g.legal = false) : portCheck g s = .eIllegal := by simp [portCheck, h]

theorem portCheck_faulted (h : g.legal = true) (hf : s.fault ≠ .none) (he : g.exempt = false) : portCheck g s = .eFaulted := by
  simp [portCheck, h, hf, he]

/-- Neither of the first two checks refuses the command. -/
theorem portCheck_admitted (h : g.legal = true) (hf : s.fault = .none ∨ g.exempt = true) : portCheck g s =
    if g.cls == .reserved then .eReserved
    else if g.cls == .internal && !s.cfg.testPort then .eInternalOnly
    else if g.cls == .host && s.inflight.isSome then .eNotEnabled
    else if !g.guard then .eNotEnabled
    else .ok := by
  have hpass : (s.fault != .none && !g.exempt) = false := by rcases hf with hf | he <;> simp [*]
  simp only [portCheck, h, hpass, Bool.not_true, Bool.false_eq_true, if_false]

theorem portCheck_reserved (h : g.legal = true) (hf : s.fault = .none ∨ g.exempt = true) (hc : g.cls = .reserved) :
    portCheck g s = .eReserved := by
  simp [portCheck_admitted h hf, hc]

theorem portCheck_internalOnly (h : g.legal = true) (hf : s.fault = .none ∨ g.exempt = true) (hc : g.cls = .internal)
    (ht : s.cfg.testPort = false) : portCheck g s = .eInternalOnly := by
  simp [portCheck_admitted h hf, hc, ht]

theorem portCheck_serialised (h : g.legal = true) (hf : s.fault = .none ∨ g.exempt = true) (hc : g.cls = .host)
    (hp : s.inflight ≠ none) : portCheck g s = .eNotEnabled := by
  simp [portCheck_admitted h hf, hc, Option.isSome_iff_ne_none.mpr hp]

end

/-- A check that refuses the command gives its answer, and nothing else changes. -/
theorem exec_refused {i : Instr} {s : State} {st : Status} (h : portCheck (gateOf i s) s = st) (hst : st ≠ .ok) :
    exec i s = .next (s.refused i st) := by
  subst h
  exact exec_of_refused hst

/-- `REG_READ` alone is accepted with a fault recorded (rule R29). -/
theorem exempt_iff (i : Instr) (s : State) : (gateOf i s).exempt = true ↔ ∃ r, i = .regRead r := by
  cases i <;> simp [gateOf]

theorem exempt_eq_false {i : Instr} (s : State) (h : ∀ r, i ≠ .regRead r) : (gateOf i s).exempt = false :=
  Bool.eq_false_iff.mpr fun he => by
    obtain ⟨r, hr⟩ := (exempt_iff i s).mp he
    exact h r hr

/-- With a fault recorded a well-formed command is refused (rule R29). -/
theorem exec_faulted {i : Instr} {s : State} (hf : s.fault ≠ .none) (hr : ∀ r, i ≠ .regRead r) (hw : i.wf s.cfg = true) :
    exec i s = .next (s.refused i .eFaulted) :=
  exec_refused (portCheck_faulted hw hf (exempt_eq_false s hr)) (by decide)

/-- Settles O9: each check by its own lemma, the ones before it passed. -/
theorem portChecksInOrder : Obligations.PortChecksInOrder := by
  unfold Obligations.PortChecksInOrder
  refine fun i s => ⟨fun hw => exec_refused (portCheck_illegal hw) (by decide), fun hw => ⟨?faulted, fun hadmit => ?admitted⟩⟩
  case faulted => exact fun hf hr => exec_faulted hf hr hw
  case admitted =>
    have hpass : s.fault = .none ∨ (gateOf i s).exempt = true := hadmit.imp_right (exempt_iff i s).mpr
    exact ⟨fun hc => exec_refused (portCheck_reserved hw hpass hc) (by decide),
      fun hc ht => exec_refused (portCheck_internalOnly hw hpass hc ht) (by decide),
      fun hc hp => exec_refused (portCheck_serialised hw hpass hc hp) (by decide)⟩

/-! ## The fault register (rule R29) -/

/-- At an open test port a register is read whatever the fault register holds. -/
theorem exec_regRead_open (r : Reg) {s : State} (ht : s.cfg.testPort = true) :
    exec (.regRead r) s = .next (respond .internal .ok (s.regVal r) (regRead r s)) := by
  have ha : portCheck (gateOf (.regRead r) s) s = .ok :=
    (portCheck_eq_ok_iff _ _).mpr ⟨rfl, .inr rfl, by simp [opClass], fun _ => ht, by simp [opClass], rfl⟩
  rw [exec_of_portCheck ha]
  rfl

/-- Settles O11: no instruction clears a fault, and the port refuses all but one while it stands. -/
theorem faultIsSticky : Obligations.FaultIsSticky := by
  unfold Obligations.FaultIsSticky
  refine ⟨fun _ => rfl, fun i s t h => (common_exec h).fault, fun i s hf hr hw => exec_faulted hf hr hw, fun r s ht => ?_⟩
  exact ⟨_, exec_regRead_open r ht, rfl, regRead_fault r s⟩

end Sys2Proof.Machine
end

section
/-!
The layout: where the bytes of a descriptor stand (O5), where each of its fields stands (O4), and where the registers and
their named bits stand (O60).
-/

namespace Sys2Proof

namespace Config

/-- The two rings share no address (rules R7 and R71). -/
theorem rings_apart {cfg : Config} (h : cfg.wf = true) :
    cfg.rxRingAddr.toNat + 16 * cfg.nRx ≤ cfg.txRingAddr.toNat ∨ cfg.txRingAddr.toNat + 16 * cfg.nTx ≤ cfg.rxRingAddr.toNat := by
  have hp := pairwise h
  simp only [regions, List.cons_append, List.pairwise_cons] at hp
  exact hp.1 cfg.txRingRegion (List.mem_cons_self ..)

end Config

namespace Machine

/-! ## The bytes of a descriptor (rules R73, R75 and R101) -/

/-- Byte `k` of word `j` of a descriptor is its byte `4*j + k`. -/
theorem Desc.byte_of_word (lay : Layout) (d : Desc) {j k : Nat} (hk : k < 4) :
    d.byte lay (4 * j + k) = (d.word lay j).extractLsb' (8 * k) 8 := by
  refine BitVec.eq_of_getLsbD_eq fun b hb => ?_
  have hbit : 8 * k + b < 32 := by omega
  simp only [Desc.byte, Desc.word, BitVec.getLsbD_extractLsb', hb, hbit, decide_true, Bool.true_and]
  congr 1
  omega

/-- No byte of the TX ring lies in the RX ring. -/
theorem Shape.slotAt_rx_of_tx {s : State} (hs : Shape s) {i k : Nat} (hi : i < s.cfg.nTx) (hk : k < 16) :
    s.slotAt .rx (descAddr s.cfg .tx i + k) = none := by
  have hapart := Config.rings_apart hs.cfg_wf
  have hlen := hs.rx_length
  rw [State.slotAt_eq_none_iff]
  simp only [descAddr, Config.ringAddr, State.ring]
  omega

/-- Byte `k` of descriptor `i` of a ring stands at `base + 16*i + k`. -/
theorem Shape.readByte_desc {s : State} (hs : Shape s) (r : Ring) {i k : Nat} (hi : i < s.cfg.capacity r) (hk : k < 16) :
    s.readByte (descAddr s.cfg r i + k) = some ((s.desc r i).byte s.cfg.layout k) := by
  cases r with
  | rx => exact State.readByte_of_inDesc (by rw [hs.rx_length]; exact hi) hk
  | tx => exact State.readByte_of_inDesc_tx (by rw [hs.tx_length]; exact hi) hk (hs.slotAt_rx_of_tx hi hk)

/-- Settles O5: byte `4*j + k` of the descriptor is byte `k` of its word `j`. -/
theorem descriptorStandsAtItsAddress : Obligations.DescriptorStandsAtItsAddress := by
  unfold Obligations.DescriptorStandsAtItsAddress
  intro s r i j k hs hi hj hk
  rw [Nat.add_assoc, ← Desc.byte_of_word s.cfg.layout _ hk]
  exact hs.readByte_desc r hi (by omega)

/-! ## The fields of a descriptor (rules R37, R101 and R110) -/

/-- A bit in no field's place is reserved and reads as 0. -/
theorem getLsbD_image_reserved {lay : Layout} (d : Desc) {b : Nat}
    (h : ∀ f, ¬ ((lay.place f).lo ≤ b ∧ b < (lay.place f).lo + (lay.place f).width)) : (d.image lay).getLsbD b = false := by
  rw [getLsbD_image, List.any_eq_false]
  intro f _
  rw [getLsbD_placed, decide_eq_false (h f)]
  simp

/-- Under any layout each field stands in its own bits. -/
theorem image_fields {lay : Layout} (h : lay.wf = true) (d : Desc) :
    (((d.image lay).getLsbD lay.own = true ↔ d.own = .hw) ∧ (d.image lay).getLsbD lay.wrap = d.wrap ∧
      (d.image lay).getLsbD lay.fs = d.fs ∧ (d.image lay).getLsbD lay.ls = d.ls ∧ (d.image lay).getLsbD lay.ic = d.ic) ∧
    ∀ j, (j < lay.buf.width → (d.image lay).getLsbD (lay.buf.lo + j) = d.buf.getLsbD j) ∧
      (j < lay.len.width → (d.image lay).getLsbD (lay.len.lo + j) = d.len.getLsbD j) ∧
      (j < lay.stat.width → (d.image lay).getLsbD (lay.stat.lo + j) = d.stat.getLsbD j) := by
  refine ⟨⟨?own, bit_image h d .wrap _ rfl rfl, bit_image h d .fs _ rfl rfl, bit_image h d .ls _ rfl rfl,
    bit_image h d .ic _ rfl rfl⟩, fun j => ⟨fun hj => getLsbD_image_field h d .buf hj, fun hj => getLsbD_image_field h d .len hj,
    fun hj => getLsbD_image_field h d .stat hj⟩⟩
  case own =>
    rw [show (d.image lay).getLsbD lay.own = d.own.bit from bit_image h d .own _ rfl rfl]
    cases d.own <;> decide

/-- With the layout of rule R101 every descriptor fits. -/
theorem fits_default (d : Desc) : d.fits Layout.default = true := Desc.fits_of d.buf.isLt d.len.isLt d.stat.isLt

theorem getLsbD_word (lay : Layout) (d : Desc) (k : Nat) {b : Nat} (hb : b < 32) :
    (d.word lay k).getLsbD b = (d.image lay).getLsbD (32 * k + b) := by
  simp [Desc.word, hb]

/-- Under the layout of rule R101 bit `b` lies in no field's place. -/
theorem default_reserved {b : Nat} (h : (16 ≤ b ∧ b < 31) ∨ (48 ≤ b ∧ b < 60) ∨ 96 ≤ b) (f : DescField) :
    ¬ ((Layout.default.place f).lo ≤ b ∧ b < (Layout.default.place f).lo + (Layout.default.place f).width) := by
  cases f <;> simp only [Layout.place, Layout.default] <;> omega

/-- The four words of rule R101. -/
theorem word_default (d : Desc) :
    d.word Layout.default 0 = bitField d.own.bit ++ 0#15 ++ d.stat ∧
    d.word Layout.default 1 = bitField d.wrap ++ bitField d.fs ++ bitField d.ls ++ bitField d.ic ++ 0#12 ++ d.len ∧
    d.word Layout.default 2 = d.buf ∧ d.word Layout.default 3 = 0 := by
  have hwf := Layout.default_wf
  have hfield := fun (f : DescField) (j : Nat) => getLsbD_image_field (j := j) hwf d f
  have hbit := fun (f : DescField) => bit_image hwf d f
  have hres := fun (b : Nat) (h : _) => getLsbD_image_reserved d (default_reserved (b := b) h)
  refine ⟨BitVec.eq_of_getLsbD_eq fun b hb => ?_, BitVec.eq_of_getLsbD_eq fun b hb => ?_,
    BitVec.eq_of_getLsbD_eq fun b hb => ?_, BitVec.eq_of_getLsbD_eq fun b hb => ?_⟩ <;> rw [getLsbD_word _ _ _ hb]
  · rcases (by omega : b < 16 ∨ (16 ≤ b ∧ b < 31) ∨ b = 31) with h | h | rfl
    · rw [BitVec.getLsbD_append, if_pos h]
      exact hfield .stat b h
    · rw [hres _ (by omega)]
      simp only [BitVec.getLsbD_append, show ¬ b < 16 by omega, show b - 16 < 15 by omega, if_true, if_false,
        BitVec.getLsbD_zero]
    · exact (hbit .own d.own.bit rfl rfl).trans (by simp only [bitField, BitVec.getLsbD_append, BitVec.getLsbD_ofBool]; simp)
  · rcases (by omega : b < 16 ∨ (16 ≤ b ∧ b < 28) ∨ b = 28 ∨ b = 29 ∨ b = 30 ∨ b = 31) with h | h | rfl | rfl | rfl | rfl
    · rw [BitVec.getLsbD_append, if_pos h]
      exact hfield .len b h
    · rw [hres _ (by omega)]
      simp only [BitVec.getLsbD_append, show ¬ b < 16 by omega, show b - 16 < 12 by omega, if_true, if_false,
        BitVec.getLsbD_zero]
    · exact (hbit .ic d.ic rfl rfl).trans (by simp only [bitField, BitVec.getLsbD_append, BitVec.getLsbD_ofBool]; simp)
    · exact (hbit .ls d.ls rfl rfl).trans (by simp only [bitField, BitVec.getLsbD_append, BitVec.getLsbD_ofBool]; simp)
    · exact (hbit .fs d.fs rfl rfl).trans (by simp only [bitField, BitVec.getLsbD_append, BitVec.getLsbD_ofBool]; simp)
    · exact (hbit .wrap d.wrap rfl rfl).trans (by simp only [bitField, BitVec.getLsbD_append, BitVec.getLsbD_ofBool]; simp)
  · exact hfield .buf b hb
  · rw [hres _ (by omega)]
    simp

/-- Settles O4: the image read field by field, and the four words of the spec's own layout. -/
theorem descriptorLayoutHoldsEveryField : Obligations.DescriptorLayoutHoldsEveryField := by
  unfold Obligations.DescriptorLayoutHoldsEveryField
  refine ⟨fun lay d h => ?layout, fun d b v => ?default⟩
  case layout =>
    obtain ⟨hbits, hfields⟩ := image_fields h d
    exact ⟨hbits, hfields, fun b hb => getLsbD_image_reserved d hb, fun h1 h2 h3 =>
      ⟨Desc.ofImage_image h (Desc.fits_of h1 h2 h3), fitBuf_eq h1, fitLen_eq h2, fitStat_eq h3⟩⟩
  case default =>
    obtain ⟨hbuf, hlen, hstat⟩ := fit_full (lay := Layout.default) rfl rfl rfl
    exact ⟨Layout.default_wf, fits_default d, hbuf b, hlen v, hstat v, word_default d⟩

/-! ## The registers and their named bits (rules R40 and R104 to R108) -/

/-- An offset of no register names none (rule R104). -/
theorem ofOffset_none {lay : Layout} {off : Half} (h : ∀ r, lay.offset r ≠ off) : Reg.ofOffset lay off = none :=
  List.find?_eq_none.mpr fun r _ => by simp [h r]

/-- A named bit of a value stands at its position in the word. -/
theorem getLsbD_spread_named {ps : List Nat} (h : Layout.positionsOk ps = true) {n : Nat} (v : BitVec n) (hn : n ≤ ps.length)
    {k : Nat} (hk : k < n) : (spread ps v).getLsbD (ps.getD k 0) = v.getLsbD k := by
  obtain ⟨hnodup, hlt⟩ := Layout.positionsOk_iff.mp h
  have hpos : ∀ i (hi : i < ps.length), ps.getD i 0 = ps[i] := fun i hi => by simp [List.getD_eq_getElem?_getD, hi]
  have hkl : k < ps.length := by omega
  rw [getLsbD_spread, decide_eq_true (by rw [hpos k hkl]; exact hlt _ (List.getElem_mem hkl)), Bool.true_and, Bool.eq_iff_iff]
  simp only [List.any_eq_true, List.mem_range, Bool.and_eq_true, beq_iff_eq]
  refine ⟨fun ⟨i, hi, hv, he⟩ => ?_, fun hv => ⟨k, hk, hv, rfl⟩⟩
  rw [hpos i (by omega), hpos k hkl] at he
  have hik : i = k := (List.Nodup.getElem_inj_iff hnodup).mp he
  exact hik ▸ hv

/-- Positions that are the low bits in order make the word the value itself. -/
theorem spread_low {ps : List Nat} {n : Nat} (h : ∀ k, k < n → ps.getD k 0 = k) (v : BitVec n) :
    spread ps v = v.setWidth 32 := by
  refine BitVec.eq_of_getLsbD_eq fun b hb => ?_
  rw [getLsbD_spread, BitVec.getLsbD_setWidth, Bool.eq_iff_iff]
  simp only [hb, decide_true, Bool.true_and, List.any_eq_true, List.mem_range, Bool.and_eq_true, beq_iff_eq]
  refine ⟨fun ⟨i, hi, hv, he⟩ => ?_, fun hv => ?_⟩
  · rw [h i hi] at he; exact he ▸ hv
  · have hbn : b < n := BitVec.lt_of_getLsbD hv
    exact ⟨b, hbn, hv, h b hbn⟩

theorem gather_low {ps : List Nat} {n : Nat} (h : ∀ k, k < n → ps.getD k 0 = k) (w : Word) :
    gather n ps w = w.setWidth n := by
  refine BitVec.eq_of_getLsbD_eq fun b hb => ?_
  rw [getLsbD_gather, BitVec.getLsbD_setWidth, h b hb]

/-- `PHYSTAT` as a word holds the link at its position and nothing else (rule R107). -/
theorem getLsbD_linkWord {lay : Layout} (h : lay.wf = true) (l : Bool) (p : Nat) :
    (linkWord lay l).getLsbD p = (l && p == lay.link) := by
  have hlink : lay.link < 32 := (Layout.positionsOk_iff.mp (Layout.registers h).2.2).2 _ (List.mem_singleton_self _)
  rw [linkWord, getLsbD_spread]
  by_cases hp : p = lay.link
  · subst hp; simp [hlink]
  · simp [beq_false_of_ne hp, beq_false_of_ne (Ne.symm hp)]

/-- Settles O60: named bits by their positions, and the spec's own layout, whose positions are the low bits in order. -/
theorem registerLayoutHoldsEveryNamedBit : Obligations.RegisterLayoutHoldsEveryNamedBit := by
  unfold Obligations.RegisterLayoutHoldsEveryNamedBit
  refine ⟨fun lay h => ?layout, ?default⟩
  case layout =>
    obtain ⟨hstatus, hcontrol, -⟩ := Layout.registers h
    refine ⟨Layout.ofOffset_offset h, fun off => ofOffset_none, fun b w => ⟨fun k hk => ⟨?_, ?_⟩, fun p hp => ?_, ?_⟩,
      fun m w => ⟨fun k hk => ⟨?_, ?_⟩, fun p hp => ?_, ?_⟩, getLsbD_linkWord h⟩
    · exact getLsbD_spread_named hstatus b (Nat.le_refl 8) hk
    · rw [statusOf, getLsbD_gather, decide_eq_true hk, Bool.true_and]
    · exact spread_reserved b (Nat.le_refl 8) hp
    · exact statusOf_statusWord h b
    · exact getLsbD_spread_named hcontrol m (Nat.le_refl 7) hk
    · rw [controlOf, getLsbD_gather, decide_eq_true hk, Bool.true_and]
    · exact spread_reserved m (Nat.le_refl 7) hp
    · exact controlOf_controlWord h m
  case default =>
    have hstatus : ∀ k, k < 8 → Layout.default.statusPositions.getD k 0 = k := by decide
    have hcontrol : ∀ k, k < 7 → Layout.default.controlPositions.getD k 0 = k := by decide
    exact ⟨Layout.default_wf, spread_low hstatus, gather_low hstatus, spread_low hcontrol,
      gather_low hcontrol, by decide, by decide, by decide, by decide, by decide⟩

end Machine

end Sys2Proof
end

section
/-!
Which operation writes which register (O57). The registers a procedure may write are listed once per procedure; an
instruction's list lies within the registers whose rules name the instruction.
-/

namespace Sys2Proof.Machine

/-! ## Registers and the lists of those a procedure may write -/

/-- The registers of rules R22 to R28, R32 to R36, R41 to R48, and the waiting answers. -/
inductive Register where
  | rxCur | txCur | txClean | txPend | up | linkUp | xlen | answers | dslot | inflight | ptArmed | ptRem | toArmed | toRem
  | imr | maccr | txbase | rxbase | tune | phyLink | macRxIdx | macTxIdx | txKick | isr

/-- The register holds the same value in both states. -/
def Register.Same : Register → State → State → Prop
  | .rxCur, s, t => t.rxCur = s.rxCur
  | .txCur, s, t => t.txCur = s.txCur
  | .txClean, s, t => t.txClean = s.txClean
  | .txPend, s, t => t.txPend = s.txPend
  | .up, s, t => t.up = s.up
  | .linkUp, s, t => t.linkUp = s.linkUp
  | .xlen, s, t => t.xlen = s.xlen
  | .answers, s, t => t.answers = s.answers
  | .dslot, s, t => t.dslot = s.dslot
  | .inflight, s, t => t.inflight = s.inflight
  | .ptArmed, s, t => t.ptArmed = s.ptArmed
  | .ptRem, s, t => t.ptRem = s.ptRem
  | .toArmed, s, t => t.toArmed = s.toArmed
  | .toRem, s, t => t.toRem = s.toRem
  | .imr, s, t => t.imr = s.imr
  | .maccr, s, t => t.maccr = s.maccr
  | .txbase, s, t => t.txbase = s.txbase
  | .rxbase, s, t => t.rxbase = s.rxbase
  | .tune, s, t => t.tune = s.tune
  | .phyLink, s, t => t.phyLink = s.phyLink
  | .macRxIdx, s, t => t.macRxIdx = s.macRxIdx
  | .macTxIdx, s, t => t.macTxIdx = s.macTxIdx
  | .txKick, s, t => t.txKick = s.txKick
  | .isr, s, t => t.isr = s.isr

theorem Register.Same.refl (r : Register) (s : State) : r.Same s s := by cases r <;> rfl

theorem Register.Same.trans {r : Register} {a b c : State} (h : r.Same a b) (k : r.Same b c) : r.Same a c := by
  cases r <;> exact Eq.trans k h

/-- No register outside the list `W` is written. -/
def Touches (W : List Register) (s t : State) : Prop := ∀ r, r ∈ W ∨ r.Same s t

theorem Touches.refl (W : List Register) (s : State) : Touches W s s := fun r => .inr (.refl r s)

/-- Register by register, for an update that can be computed. -/
theorem Touches.of {W : List Register} {s t : State}
    (h : ∀ r, r ∈ W ∨ r.Same s t := by intro r; cases r <;> simp [Register.Same]) : Touches W s t := h

theorem Touches.mono {W V : List Register} {s t : State} (h : Touches W s t) (hs : W ⊆ V) : Touches V s t :=
  fun r => (h r).imp_left fun hr => hs hr

theorem Touches.trans {W : List Register} {a b c : State} (h : Touches W a b) (k : Touches W b c) : Touches W a c :=
  fun r => (h r).elim .inl fun hr => (k r).imp_right hr.trans

theorem touches_mono {W V : List Register} {s : State} {r : Res} (h : r.Rel (Touches W) s) (hs : W ⊆ V) :
    r.Rel (Touches V) s := h.imp fun _ ht => ht.mono hs

theorem touches_andThen {W : List Register} {s : State} {r : Res} {k : State → Res} (h : r.Rel (Touches W) s)
    (hk : ∀ t, (k t).Rel (Touches W) t) : (r.andThen k).Rel (Touches W) s :=
  Res.Rel.andThen (R := Touches W) (fun _ _ _ => Touches.trans) h fun t _ => hk t

/-- A transitive relation holds from a state that a first update left. -/
theorem Res.Rel.from {R : State → State → Prop} (tr : ∀ a b c, R a b → R b c → R a c) {s u : State} {r : Res} (h : R s u)
    (hr : r.Rel R u) : r.Rel R s := by
  cases r with
  | done st res t => exact tr _ _ _ h hr
  | raised t => exact tr _ _ _ h hr
  | stop f => trivial

theorem touches_from {W : List Register} {s u : State} {r : Res} (h : Touches W s u) (hr : r.Rel (Touches W) u) :
    r.Rel (Touches W) s := Res.Rel.from (R := Touches W) (fun _ _ _ => Touches.trans) h hr

/-! ### The procedures -/

theorem touches_release (r : Ring) (i : Nat) (buf : Word) (len : Half) (fs ls ic : Bool) (s : State) :
    (release r i buf len fs ls ic s).Rel (Touches []) s := by
  unfold release
  split
  · exact Touches.of
  · exact Touches.of

theorem touches_reclaim (r : Ring) (i : Nat) (s : State) : (reclaim r i s).Rel (Touches []) s := by
  unfold reclaim
  split
  · exact Touches.of
  · exact Touches.of

theorem touches_writeXbuf (bs : List (Option Byte)) (s : State) : (writeXbuf bs s).Rel (Touches []) s := by
  unfold writeXbuf
  split
  · trivial
  · exact Touches.of

/-- What the write of a control-block register may change (rules R41 to R47, R241). -/
def regsOf : Reg → List Register
  | .isr => [.isr]
  | .imr => [.imr]
  | .txpoll => [.txKick]
  | .txbase => [.txbase, .macTxIdx, .txKick]
  | .rxbase => [.rxbase, .macRxIdx]
  | .maccr => [.maccr]
  | .phystat => []
  | .tune => [.tune]

theorem touches_regWrite (reg : Reg) (v : Word) (s : State) : Touches (regsOf reg) s (regWrite reg v s) := by
  cases reg
  case txpoll =>
    by_cases hv : v = 1
    · rw [regWrite, writeEffect, if_pos hv]
      exact .of fun r => by cases r <;> simp [regsOf, Register.Same]
    · rw [regWrite, writeEffect, if_neg hv]
      exact .of
  all_goals exact Touches.of fun r => by cases r <;> simp [regsOf, regWrite, writeEffect, Register.Same]

/-- What an accepted submission changes (rule R161). -/
def submitRegs : List Register := [.txCur, .txPend, .toArmed, .toRem, .txKick]

theorem touches_submit (p : Word) (n : Half) (s : State) : (submit p n s).Rel (Touches submitRegs) s := by
  unfold submit
  split
  · exact Touches.refl _ s
  · split
    · exact Touches.of
    · refine touches_andThen (touches_mono (touches_release ..) (List.nil_subset _)) fun t => ?_
      exact Touches.of fun r => by cases r <;> simp [submitRegs, afterSubmit, txtoStart, regWrite, writeEffect, Register.Same]

/-- What a callout with the submission of its answer changes (rules R165 and R228). -/
def calloutRegs : List Register := .xlen :: .answers :: submitRegs

theorem submitRegs_subset : submitRegs ⊆ calloutRegs := fun _ hr => List.mem_cons_of_mem _ (List.mem_cons_of_mem _ hr)

theorem touches_submitAnswer (s : State) : (submitAnswer s).Rel (Touches calloutRegs) s := by
  unfold submitAnswer
  split
  · exact touches_mono (touches_submit ..) submitRegs_subset
  · exact Touches.refl _ s

theorem touches_callUp (c : Callout) (s : State) : (callUp c s).Rel (Touches calloutRegs) s := by
  unfold callUp
  refine touches_andThen (touches_from (u := { s with answers := s.answers.tail }) ?_
    (touches_mono (touches_writeXbuf ..) (List.nil_subset _))) fun t => ?_
  · exact .of fun r => by cases r <;> simp [calloutRegs, Register.Same]
  · exact Touches.of fun r => by cases r <;> simp [calloutRegs, Register.Same]

theorem touches_callout (c : Callout) (s : State) :
    (((callUp c s).andThen submitAnswer).andThen .ok).Rel (Touches calloutRegs) s :=
  touches_andThen (touches_andThen (touches_callUp c s) touches_submitAnswer) (Touches.refl _)

theorem touches_txpoll (s : State) : (txpoll s).Rel (Touches calloutRegs) s := touches_callout .poll s

theorem touches_timerHook (s : State) : (timerHook s).Rel (Touches calloutRegs) s := touches_callout .timerHook s

/-- What reclaiming changes besides what the poll at its end does (rule R163). -/
def reclaimRegs : List Register := .txClean :: calloutRegs

theorem touches_reclaimOne (s : State) : (reclaimOne s).Rel (Touches reclaimRegs) s :=
  touches_andThen (touches_mono (touches_reclaim ..) (List.nil_subset _)) fun t =>
    Touches.of (s := t) fun r => by cases r <;> simp [reclaimRegs, calloutRegs, submitRegs, Register.Same]

theorem touches_reclaimLoop (fuel : Nat) (s : State) : (reclaimLoop fuel s).Rel (Touches reclaimRegs) s := by
  induction fuel generalizing s with
  | zero => exact Touches.refl _ s
  | succ fuel ih =>
    unfold reclaimLoop
    split
    · exact Touches.refl _ s
    · split
      · exact Touches.refl _ s
      · exact touches_andThen (touches_reclaimOne s) ih

theorem touches_reclaimCompleted (s : State) : (reclaimCompleted s).Rel (Touches reclaimRegs) s := by
  refine touches_andThen (touches_reclaimLoop ..) fun t => touches_from (u := txtoCancel t) ?_
    (touches_mono (touches_txpoll _) (List.subset_cons_self ..))
  exact .of fun r => by cases r <;> simp [reclaimRegs, calloutRegs, submitRegs, txtoCancel, Register.Same]

/-- What a receive walk changes besides what its callouts do (rule R151). -/
def receiveRegs : List Register := .rxCur :: calloutRegs

theorem touches_deliverFrame (i : Nat) (s : State) : (deliverFrame i s).Rel (Touches calloutRegs) s := by
  unfold deliverFrame
  dsimp only
  split
  · exact Touches.of
  · refine touches_andThen (touches_andThen ?_ fun t => touches_from (u := { t with xlen := (s.desc .rx i).len }) ?_
      (touches_callUp ..)) touches_submitAnswer
    · unfold copyFrame
      split
      · trivial
      · exact touches_mono (touches_writeXbuf ..) (List.nil_subset _)
    · exact .of fun r => by cases r <;> simp [calloutRegs, Register.Same]

theorem touches_recycle (i : Nat) (s : State) : (recycle i s).Rel (Touches receiveRegs) s :=
  touches_andThen (touches_mono (touches_release ..) (List.nil_subset _)) fun t =>
    Touches.of (s := t) fun r => by cases r <;> simp [receiveRegs, Register.Same]

theorem touches_consumeSlot (i : Nat) (s : State) : (consumeSlot i s).Rel (Touches receiveRegs) s := by
  unfold consumeSlot
  refine touches_andThen ?_ (touches_recycle i)
  split
  · exact touches_mono (touches_deliverFrame i s) (List.subset_cons_self ..)
  · exact Touches.refl _ s

theorem touches_pollLoop (fuel : Nat) (s : State) : (pollLoop fuel s).Rel (Touches receiveRegs) s := by
  induction fuel generalizing s with
  | zero => exact Touches.refl _ s
  | succ fuel ih =>
    unfold pollLoop
    split
    · exact Touches.refl _ s
    · split
      · exact touches_andThen (touches_consumeSlot ..) (Touches.refl _)
      · exact touches_andThen (touches_consumeSlot ..) ih

/-- What the steps (a) to (c) of `PROCESS` change: the acknowledge write, a receive walk and a reclaim (rule R184). -/
def processRegs (ack : Reg) : List Register := .rxCur :: .txClean :: (calloutRegs ++ regsOf ack)

theorem receiveRegs_subset (ack : Reg) : receiveRegs ⊆ processRegs ack := by
  simp only [receiveRegs, processRegs, List.cons_subset, List.mem_cons_self, true_and]
  exact fun r hr => by simp [hr]

theorem reclaimRegs_subset (ack : Reg) : reclaimRegs ⊆ processRegs ack := by
  simp only [reclaimRegs, processRegs, List.cons_subset, List.mem_cons, true_or, or_true, true_and]
  exact fun r hr => by simp [hr]

theorem regsOf_subset (ack : Reg) : regsOf ack ⊆ processRegs ack := fun r hr => by simp [processRegs, hr]

theorem touches_processSteps (snap : Byte) (s : State) :
    (((stepAck snap s).andThen (stepReceive snap)).andThen (stepTransmit snap)).Rel (Touches (processRegs s.cfg.ackReg)) s := by
  refine touches_andThen (touches_andThen ?_ fun t => ?_) fun t => ?_
  · unfold stepAck; split
    · exact Touches.mono (touches_regWrite _ _ s) (regsOf_subset _)
    · exact Touches.refl _ s
  · unfold stepReceive; split
    · exact touches_mono (touches_pollLoop ..) (receiveRegs_subset _)
    · exact Touches.refl _ t
  · unfold stepTransmit; split
    · exact touches_mono (touches_reclaimCompleted t) (reclaimRegs_subset _)
    · exact Touches.refl _ t

theorem touches_process (snap : Byte) (s : State) :
    (process snap s).Rel (Touches (.linkUp :: processRegs s.cfg.ackReg)) s := by
  unfold process
  split
  · exact Touches.refl _ s
  · refine touches_andThen (touches_mono (touches_processSteps snap s) (List.subset_cons_self ..)) fun t => ?_
    rw [stepPhy_eq]
    exact Touches.of fun r => by cases r <;> simp [Register.Same]

theorem calloutRegs_subset (ack : Reg) : calloutRegs ⊆ .linkUp :: processRegs ack := fun r hr => by simp [processRegs, hr]

theorem touches_unitBody (u : DeferredUnit) (s : State) :
    (unitBody u s).Rel (Touches (.linkUp :: processRegs s.cfg.ackReg)) s := by
  cases u with
  | irqWork snap => exact touches_process snap s
  | pollWork => exact touches_mono (touches_timerHook s) (calloutRegs_subset _)
  | txTimeoutWork => exact touches_mono (touches_txpoll s) (calloutRegs_subset _)
  | txAvailWork => exact touches_mono (touches_txpoll s) (calloutRegs_subset _)

/-- `linkUp` keeps its value or takes that of the PHY, which stays (rule R184 (d)). -/
def LinkRule (s t : State) : Prop := t.phyLink = s.phyLink ∧ (t.linkUp = s.linkUp ∨ t.linkUp = s.phyLink)

theorem LinkRule.trans (a b c : State) (h : LinkRule a b) (k : LinkRule b c) : LinkRule a c := by
  obtain ⟨hphy, hlink⟩ := h
  obtain ⟨kphy, klink⟩ := k
  refine ⟨kphy.trans hphy, klink.elim (fun he => ?_) fun he => .inr (he.trans hphy)⟩
  rw [he]; exact hlink

theorem Touches.linkRule {W : List Register} {s t : State} (h : Touches W s t) (h1 : Register.phyLink ∉ W)
    (h2 : Register.linkUp ∉ W) : LinkRule s t := ⟨(h .phyLink).resolve_left h1, .inl ((h .linkUp).resolve_left h2)⟩

theorem linkRule_process (snap : Byte) (s : State) : (process snap s).Rel LinkRule s := by
  unfold process
  split
  · exact ⟨rfl, .inl rfl⟩
  · refine Res.Rel.andThen LinkRule.trans ((touches_processSteps snap s).imp fun _ h => h.linkRule ?_ ?_) fun t _ => ?_
    · cases s.cfg.ackReg <;> simp [processRegs, calloutRegs, submitRegs, regsOf]
    · cases s.cfg.ackReg <;> simp [processRegs, calloutRegs, submitRegs, regsOf]
    · rw [stepPhy_eq]
      refine ⟨rfl, ?_⟩
      show (if _ then t.phyLink else t.linkUp) = _ ∨ (if _ then t.phyLink else t.linkUp) = _
      split
      · exact .inr rfl
      · exact .inl rfl

/-! ## The registers whose rules name an instruction -/

section
variable (cfg : Config) (i : Instr)

/-- The operations that run `PROCESS`. -/
def Processes : Prop := (∃ snap, i = .process snap) ∨ i = .irq ∨ i = .workerRun

/-- A write of `r`, at the port or as the acknowledge write of a pass. -/
def Acks (r : Reg) : Prop := (∃ v, i = .regWrite r v) ∨ (Processes i ∧ cfg.ackReg = r)

/-- The operations that make a callout. -/
def CallsOut : Prop := Processes i ∨ i = .pollReceive ∨ i = .reclaimCompleted ∨ i = .txpoll ∨ i = .pollExpire ∨
  i = .txtoExpire ∨ i = .notifyTxAvailable

/-- The operations that submit a frame. -/
def Submits : Prop := CallsOut i ∨ ∃ p n, i = .submit p n

/-- The rule of the register names the instruction. -/
def Named : Register → Prop
  | .rxCur => Processes i ∨ i = .pollReceive ∨ i = .bringUp
  | .txCur => Submits i ∨ i = .bringUp
  | .txClean => Processes i ∨ i = .reclaimCompleted ∨ i = .bringUp
  | .txPend => Submits i ∨ i = .bringUp
  | .up => i = .bringUp ∨ i = .bringDown
  | .linkUp => Processes i
  | .xlen => CallsOut i
  | .answers => CallsOut i
  | .dslot => i = .irq ∨ i = .pollExpire ∨ i = .txtoExpire ∨ i = .notifyTxAvailable ∨ i = .workerRun ∨ i = .bringDown
  | .inflight => i = .workerRun ∨ i = .workerDone
  | .ptArmed => i = .ptStart ∨ i = .ptCancel ∨ i = .pollExpire ∨ i = .bringUp ∨ i = .bringDown
  | .ptRem => i = .ptStart ∨ i = .tick ∨ i = .pollExpire ∨ i = .bringUp
  | .toArmed => Submits i ∨ i = .txtoStart ∨ i = .txtoCancel ∨ i = .bringDown
  | .toRem => Submits i ∨ i = .txtoStart ∨ i = .tick
  | .imr => Acks cfg i .imr ∨ i = .irq ∨ i = .workerDone ∨ i = .pollExpire ∨ i = .txtoExpire ∨ i = .bringUp ∨ i = .bringDown
  | .maccr => Acks cfg i .maccr ∨ i = .bringUp ∨ i = .bringDown
  | .txbase => Acks cfg i .txbase ∨ i = .bringUp
  | .rxbase => Acks cfg i .rxbase ∨ i = .bringUp
  | .tune => Acks cfg i .tune
  | .phyLink => ∃ l, i = .macPhy l
  | .macRxIdx => Acks cfg i .rxbase ∨ i = .bringUp ∨ ∃ n fs ls st seed, i = .macRxFrame n fs ls st seed
  | .macTxIdx => Acks cfg i .txbase ∨ i = .bringUp ∨ ∃ k st, i = .macTxDone k st
  | .txKick => Submits i ∨ Acks cfg i .txbase ∨ (∃ v, i = .regWrite .txpoll v) ∨ i = .bringUp ∨ ∃ k st, i = .macTxDone k st
  | .isr => Acks cfg i .isr ∨ i = .irq ∨ i = .regRead .isr ∨ opClass i = .env

end

/-- Only registers whose rules name the instruction differ. -/
def Spares (cfg : Config) (i : Instr) (s t : State) : Prop := ∀ r, Named cfg i r ∨ r.Same s t

theorem Touches.spares {W : List Register} {s t : State} (h : Touches W s t) {cfg : Config} {i : Instr}
    (hn : ∀ r ∈ W, Named cfg i r) : Spares cfg i s t := fun r => (h r).imp_left (hn r)

theorem Spares.trans {cfg : Config} {i : Instr} (a b c : State) (h : Spares cfg i a b) (k : Spares cfg i b c) :
    Spares cfg i a c := fun r => (h r).elim .inl fun hr => (k r).imp_right hr.trans

theorem named_submitRegs {cfg : Config} {i : Instr} (h : Submits i) : ∀ r ∈ submitRegs, Named cfg i r := by
  simp [submitRegs, Named, h]

theorem named_calloutRegs {cfg : Config} {i : Instr} (h : CallsOut i) : ∀ r ∈ calloutRegs, Named cfg i r := by
  have hs := named_submitRegs (cfg := cfg) (Or.inl h : Submits i)
  simpa [calloutRegs, Named, h] using hs

/-- A pass writes only what its rules give it; its acknowledge write is a write of `ACK_REG`. -/
theorem named_processRegs {cfg : Config} {i : Instr} (h : Processes i) :
    ∀ r ∈ .linkUp :: processRegs cfg.ackReg, Named cfg i r := by
  have hcall : CallsOut i := .inl h
  have hack : Acks cfg i cfg.ackReg := .inr ⟨h, rfl⟩
  have hregs : ∀ r ∈ regsOf cfg.ackReg, Named cfg i r := by
    revert hack
    cases cfg.ackReg <;> intro hack <;> simp [regsOf, Named, hack, Submits, hcall]
  simp only [processRegs, List.mem_cons, List.mem_append]
  rintro r (rfl | rfl | rfl | hr | hr)
  · exact h
  · exact .inl h
  · exact .inl h
  · exact named_calloutRegs hcall r hr
  · exact hregs r hr

/-- Register by register, for an update that can be computed. -/
theorem Spares.of {cfg : Config} {i : Instr} {s t : State}
    (h : ∀ r, Named cfg i r ∨ r.Same s t := by intro r; cases r <;> simp [Named, Register.Same]) : Spares cfg i s t := h

theorem Spares.refl (cfg : Config) (i : Instr) (s : State) : Spares cfg i s s := (Touches.refl [] s).spares (by simp)

theorem spares_of_touches {W : List Register} {cfg : Config} {i : Instr} {s : State} {r : Res} (h : r.Rel (Touches W) s)
    (hn : ∀ r ∈ W, Named cfg i r) : r.Rel (Spares cfg i) s := h.imp fun _ ht => ht.spares hn

theorem spares_andThen {cfg : Config} {i : Instr} {s : State} {r : Res} {k : State → Res} (h : r.Rel (Spares cfg i) s)
    (hk : ∀ t, (k t).Rel (Spares cfg i) t) : (r.andThen k).Rel (Spares cfg i) s :=
  Res.Rel.andThen Spares.trans h fun t _ => hk t

theorem spares_from {cfg : Config} {i : Instr} {s u : State} {r : Res} (h : Spares cfg i s u) (hr : r.Rel (Spares cfg i) u) :
    r.Rel (Spares cfg i) s := Res.Rel.from Spares.trans h hr

theorem spares_callout {cfg : Config} {i : Instr} (h : CallsOut i) {s : State} {r : Res} (hr : r.Rel (Touches calloutRegs) s) :
    r.Rel (Spares cfg i) s := spares_of_touches hr (named_calloutRegs h)

theorem spares_process {i : Instr} (h : Processes i) (snap : Byte) (s : State) :
    (process snap s).Rel (Spares s.cfg i) s := spares_of_touches (touches_process snap s) (named_processRegs h)

theorem spares_schedule {i : Instr} (cfg : Config) (h : BeginsPass i ∨ i = .notifyTxAvailable) (u : DeferredUnit) (s : State) :
    Spares cfg i s (schedule u s) := by
  rw [schedule_eq]
  obtain (rfl | rfl | rfl) | rfl := h <;> exact .of

theorem spares_unmask_rearm {i : Instr} (cfg : Config) (hi : BeginsPass i) (s : State) :
    Spares cfg i s (unmask s) ∧ Spares cfg i s (rearm i s) := by
  obtain rfl | rfl | rfl := hi <;>
    exact ⟨.of fun r => by cases r <;> simp [Named, Register.Same, unmask],
      .of fun r => by cases r <;> simp [Named, Register.Same, rearm, ptStart]⟩

theorem spares_beforePass {i : Instr} (cfg : Config) (hi : BeginsPass i) (s : State) : Spares cfg i s (beforePass i s) := by
  obtain rfl | rfl | rfl := hi
  · show Spares cfg .irq s (cancelIfTxOk s.snapshot (capture s))
    rw [capture_eq]
    exact .of fun r => by cases r <;> simp [Named, Register.Same, Submits, CallsOut, Processes]
  · exact .of fun r => by cases r <;> simp [Named, Register.Same, beforePass, maskAll]
  · exact .of fun r => by cases r <;> simp [Named, Register.Same, beforePass, maskAll, Submits, CallsOut]

/-- The pass that an event begins is a `PROCESS` or one callout. -/
theorem spares_unitOf {i : Instr} (hi : BeginsPass i) (s t : State) : (unitBody (unitOf i s) t).Rel (Spares t.cfg i) t := by
  obtain rfl | rfl | rfl := hi
  · exact spares_process (.inr (.inl rfl)) s.isr t
  · exact spares_callout (by simp [CallsOut]) (touches_timerHook t)
  · exact spares_callout (by simp [CallsOut]) (touches_txpoll t)

theorem spares_beginsPass {i : Instr} (hi : BeginsPass i) (s : State) : (bodyOf i s).Rel (Spares s.cfg i) s := by
  obtain ⟨hcfg, _⟩ := beforePass_keeps hi s
  have hb := spares_beforePass s.cfg hi s
  have hend := spares_unmask_rearm s.cfg hi
  cases hm : s.cfg.mode with
  | inline =>
    have hunit := spares_unitOf hi s (beforePass i s)
    rw [hcfg] at hunit
    rw [bodyOf_inline hi hm]
    exact spares_from hb (spares_andThen hunit fun t => Spares.trans _ _ _ (hend t).1 (hend _).2)
  | deferred =>
    obtain he | ⟨rfl, he⟩ := bodyOf_deferred_cases hi hm <;> rw [he]
    · exact Spares.trans _ _ _ hb (Spares.trans _ _ _ (spares_schedule _ (.inl hi) _ _) (hend _).2)
    · exact Spares.trans _ { s with ptArmed := false } _ .of (hend _).2

theorem spares_workerRun (s : State) : (workerRun s).Rel (Spares s.cfg .workerRun) s := by
  cases hd : s.dslot with
  | none => unfold workerRun; rw [hd]; exact Spares.refl s.cfg .workerRun s
  | some u =>
    rw [workerRun_some hd]
    exact spares_from (u := { s with dslot := none, inflight := some u }) .of
      (spares_andThen (spares_of_touches (touches_unitBody u _) (named_processRegs (.inr (.inr rfl)))) (Spares.refl _ _))

theorem spares_notify (s : State) : (notifyTxAvailable s).Rel (Spares s.cfg .notifyTxAvailable) s := by
  unfold notifyTxAvailable
  split
  · exact Spares.refl _ _ _
  · split
    · exact Spares.refl _ _ _
    · split
      · exact spares_andThen (spares_callout (by simp [CallsOut]) (touches_txpoll s)) (Spares.refl _ _)
      · exact spares_schedule _ (.inr rfl) _ _

theorem spares_bringUp (s : State) : (bringUp s).Rel (Spares s.cfg .bringUp) s := by
  unfold bringUp
  split
  · exact Spares.refl _ _ _
  · split
    · exact Spares.refl _ _ _
    · exact Spares.of fun r => by
        cases r <;> simp [Named, Register.Same, bringUpWrites, ringInit, ptStart, regWrite, writeEffect]

theorem spares_macRxFrame (len : Half) (fs ls : Bool) (stat : Half) (seed : Byte) (s : State) :
    (macRxFrame len fs ls stat seed s).Rel (Spares s.cfg (.macRxFrame len fs ls stat seed)) s := by
  unfold macRxFrame
  dsimp only
  split
  · trivial
  · exact Spares.of fun r => by cases r <;> simp [Named, Register.Same, raiseBits, opClass]

/-- Every instruction writes only registers whose rules name it. -/
theorem spares_bodyOf (i : Instr) (s : State) : (bodyOf i s).Rel (Spares s.cfg i) s := by
  cases i
  case advance => exact Spares.refl _ _ _
  case isHw => exact Spares.refl _ _ _
  case addMc => exact Spares.refl _ _ _
  case removeMc => exact Spares.refl _ _ _
  case release => exact spares_of_touches (touches_release ..) (by simp)
  case reclaim => exact spares_of_touches (touches_reclaim ..) (by simp)
  case pollReceive =>
    refine spares_of_touches (touches_pollLoop ..) (List.forall_mem_cons.mpr ⟨.inr (.inl rfl), ?_⟩)
    exact named_calloutRegs (by simp [CallsOut])
  case submit p n => exact spares_of_touches (touches_submit ..) (named_submitRegs (.inr ⟨p, n, rfl⟩))
  case reclaimCompleted =>
    refine spares_of_touches (touches_reclaimCompleted s) (List.forall_mem_cons.mpr ⟨.inr (.inl rfl), ?_⟩)
    exact named_calloutRegs (by simp [CallsOut])
  case txpoll => exact spares_callout (by simp [CallsOut]) (touches_txpoll s)
  case irq => exact spares_beginsPass (.inl rfl) s
  case process snap => exact spares_process (.inl ⟨snap, rfl⟩) ..
  case workerRun => exact spares_workerRun s
  case workerDone =>
    unfold bodyOf workerDone
    dsimp only
    split
    · exact Spares.of
    · exact Spares.of fun r => by cases r <;> simp [Named, Register.Same, unmask]
  case tick => exact Spares.of fun r => by cases r <;> simp [Named, Register.Same, tick]
  case pollExpire => exact spares_beginsPass (.inr (.inl rfl)) s
  case txtoExpire => exact spares_beginsPass (.inr (.inr rfl)) s
  case ptStart => exact Spares.of fun r => by cases r <;> simp [Named, Register.Same, ptStart]
  case ptCancel => exact Spares.of fun r => by cases r <;> simp [Named, Register.Same, ptCancel]
  case txtoStart => exact Spares.of fun r => by cases r <;> simp [Named, Register.Same, txtoStart]
  case txtoCancel => exact Spares.of fun r => by cases r <;> simp [Named, Register.Same, txtoCancel]
  case bringUp => exact spares_bringUp s
  case bringDown => exact Spares.of fun r => by cases r <;> simp [Named, Register.Same, bringDown, ptCancel, txtoCancel]
  case notifyTxAvailable => exact spares_notify s
  case regRead reg => exact Spares.of fun r => by cases r <;> cases reg <;> simp [Named, Register.Same]
  case regWrite reg v =>
    refine Touches.spares (touches_regWrite reg v s) ?_
    cases reg <;> simp [regsOf, Named, Acks]
  case macTxDone idx stat =>
    rw [show bodyOf (.macTxDone idx stat) s = .ok (macTxDone idx.toNat stat s) from rfl, macTxDone_eq]
    exact Spares.of fun r => by cases r <;> simp [Named, Register.Same, opClass]
  case macRxFrame => exact spares_macRxFrame ..
  case macRaise => exact Spares.of fun r => by cases r <;> simp [Named, Register.Same, raiseBits, opClass]
  case macPhy => exact Spares.of fun r => by cases r <;> simp [Named, Register.Same, raiseBits, opClass]

theorem spares_exec {i : Instr} {s t : State} (h : exec i s = .next t) : Spares s.cfg i s t := by
  have hb := spares_bodyOf i s
  rcases exec_next_cases h with ⟨_, rfl⟩ | ⟨_, ⟨st, res, u, hu, rfl⟩ | ⟨u, hu, rfl⟩⟩
  · exact .of fun r => .inr (by cases r <;> rfl)
  all_goals rw [hu] at hb
  · refine Spares.trans _ _ _ hb (.of fun r => .inr ?_)
    rw [respond_eq]
    cases r <;> rfl
  · exact Spares.trans _ _ _ hb (.of fun r => .inr (by cases r <;> rfl))

/-! ## The link flag and the fault register -/

theorem linkRule_unitBody (u : DeferredUnit) (s : State) : (unitBody u s).Rel LinkRule s := by
  have hcall : ∀ r : Res, r.Rel (Touches calloutRegs) s → r.Rel LinkRule s := fun r h =>
    h.imp fun _ ht => ht.linkRule (by simp [calloutRegs, submitRegs]) (by simp [calloutRegs, submitRegs])
  cases u with
  | irqWork snap => exact linkRule_process snap s
  | pollWork => exact hcall _ (touches_timerHook s)
  | txTimeoutWork => exact hcall _ (touches_txpoll s)
  | txAvailWork => exact hcall _ (touches_txpoll s)

theorem linkRule_irq (s : State) : (irq s).Rel LinkRule s := by
  have hcap : LinkRule s (cancelIfTxOk s.snapshot (capture s)) := by rw [capture_eq]; exact ⟨rfl, .inl rfl⟩
  cases hm : s.cfg.mode with
  | inline =>
    rw [irq_inline hm]
    exact Res.Rel.from LinkRule.trans hcap (Res.Rel.andThen LinkRule.trans (linkRule_process ..) fun _ _ => ⟨rfl, .inl rfl⟩)
  | deferred =>
    rw [irq_deferred hm, schedule_eq]
    exact LinkRule.trans _ _ _ hcap ⟨rfl, .inl rfl⟩

theorem linkRule_workerRun (s : State) : (workerRun s).Rel LinkRule s := by
  cases hd : s.dslot with
  | none => unfold workerRun; rw [hd]; exact ⟨rfl, .inl rfl⟩
  | some u =>
    rw [workerRun_some hd]
    exact Res.Rel.from (u := { s with dslot := none, inflight := some u }) LinkRule.trans ⟨rfl, .inl rfl⟩
      (Res.Rel.andThen LinkRule.trans (linkRule_unitBody ..) fun _ _ => ⟨rfl, .inl rfl⟩)

theorem linkRule_bodyOf {i : Instr} (h : Processes i) (s : State) : (bodyOf i s).Rel LinkRule s := by
  obtain ⟨snap, rfl⟩ | rfl | rfl := h
  · exact linkRule_process snap s
  · exact linkRule_irq s
  · exact linkRule_workerRun s

theorem linkRule_exec {i : Instr} (hi : Processes i) {s t : State} (h : exec i s = .next t) : LinkRule s t := by
  refine exec_rel LinkRule.trans (fun _ _ _ => ⟨rfl, .inl rfl⟩) (fun _ _ _ _ => ?_) (fun _ => ⟨rfl, .inl rfl⟩)
    (linkRule_bodyOf hi s) h
  rw [respond_eq]
  exact ⟨rfl, .inl rfl⟩

/-- The fault register is written by raising a fault, which is the answer to the command (rules R11 (3) and R29). -/
theorem exec_fault_ne {i : Instr} {s t : State} (h : exec i s = .next t) (hne : t.fault ≠ s.fault) :
    s.fault = .none ∧ t.resp = some (.faulted t.fault) := by
  have hb := faultRule_bodyOf i s
  rcases exec_next_cases h with ⟨_, rfl⟩ | ⟨ha, ⟨st, res, u, hu, rfl⟩ | ⟨u, hu, rfl⟩⟩
  · exact absurd rfl hne
  all_goals rw [hu] at hb
  · exact absurd ((respond_fault ..).trans hb) hne
  · exact ⟨no_fault_before_raise ha hu, rfl⟩

/-- Settles O57: what an instruction spares holds the same value, so what differs is named. -/
theorem registersWrittenOnlyByTheirOperations : Obligations.RegistersWrittenOnlyByTheirOperations := by
  unfold Obligations.RegistersWrittenOnlyByTheirOperations
  intro i s t h
  have hc := common_exec h
  have hn : ∀ r, ¬ Register.Same r s t → Named s.cfg i r := fun r hr => (spares_exec h r).resolve_right hr
  refine ⟨hc.cfg, hc.cmds, hn .rxCur, hn .txCur, hn .txClean, hn .txPend, hn .up, fun hl => ⟨hn .linkUp hl, ?link⟩, hn .xlen,
    hn .answers, hn .dslot, hn .inflight, hn .ptArmed, hn .ptRem, hn .toArmed, hn .toRem, hn .imr, hn .maccr, hn .txbase,
    hn .rxbase, hn .tune, hn .phyLink, hn .macRxIdx, hn .macTxIdx, hn .txKick, hn .isr, exec_fault_ne h⟩
  case link => exact (linkRule_exec (hn .linkUp hl) h).2.resolve_left hl

end Sys2Proof.Machine
end

section
/-!
The invariant of the block at reset (O54): the rings as construction and `RING_INIT` leave them.
-/

namespace Sys2Proof.Machine

/-! ## Rings as construction leaves them (rules R38, R39, R53 and R220) -/

/-- Every slot is as constructed and the transmit bookkeeping is at its start. -/
structure Initialised (s : State) : Prop where
  slots    : ∀ r i, i < s.cfg.capacity r → s.desc r i = Desc.constructed s.cfg r i
  tx_cur   : s.txCur = 0
  tx_clean : s.txClean = 0
  tx_pend  : s.txPend = 0

theorem initialised_construct (cfg : Config) : Initialised (State.construct cfg) :=
  ⟨fun _ _ hi => desc_construct hi, rfl, rfl, rfl⟩

theorem Initialised.ringInv {s : State} (h : Initialised s) : RingInv s where
  pend_le := by rw [h.tx_pend]; exact Nat.zero_le _
  cur_eq := by rw [h.tx_cur, h.tx_clean, h.tx_pend, Nat.zero_mod]
  outside_clear i hi _ := h.slots .tx i hi
  hw_in_window i hi ho := by rw [h.slots .tx i hi] at ho; cases ho
  rx_wrap i hi := by rw [h.slots .rx i hi]; rfl
  tx_wrap i hi := by rw [h.slots .tx i hi]; rfl

theorem Initialised.rxBuffers {s : State} (h : Initialised s) (hf : s.cfg.fieldsFit = true) : RxBuffers s := by
  have hbuf : ∀ i, i < s.cfg.nRx → (s.desc .rx i).buf = s.cfg.rxBufAddr.getD i 0 := fun i hi => by
    rw [h.slots .rx i hi]; exact Config.fit_rxBufAddr hf i
  have hlen : ∀ i, i < s.cfg.nRx → (s.desc .rx i).len = s.cfg.rxBufSize := fun i hi => by
    rw [h.slots .rx i hi]; exact Config.fit_rxBufSize hf
  exact ⟨hf, hbuf, fun i hi => by rw [hlen i hi], fun i hi _ => hlen i hi⟩

theorem shape_construct {cfg : Config} (h : cfg.wf = true) : Shape (State.construct cfg) where
  cfg_wf := h
  rx_length := length_constructedRing cfg .rx
  tx_length := length_constructedRing cfg .tx
  desc_fits r d hd := by
    have hm : d ∈ constructedRing cfg r := by cases r <;> exact hd
    obtain ⟨i, _, rfl⟩ := List.mem_map.mp hm
    exact Config.fits_constructed cfg r i
  rx_cur := Config.capacity_pos h .rx
  tx_cur := Config.capacity_pos h .tx
  tx_clean := Config.capacity_pos h .tx
  mac_tx_idx := Config.capacity_pos h .tx
  mac_rx_idx := Config.capacity_pos h .rx
  mem_wf := rfl
  mem_places _ hc := by cases hc

theorem blockInv_construct {cfg : Config} (h : cfg.wf = true) (ht : cfg.testPort = false) (hf : cfg.fieldsFit = true) :
    BlockInv (State.construct cfg) where
  shape := shape_construct h
  closed := ht
  inline_none _ := ⟨rfl, rfl⟩
  up_checked hu := by cases hu
  down_quiet _ := ⟨rfl, rfl, rfl, rfl, rfl, rfl⟩
  rx_buffers := (initialised_construct cfg).rxBuffers hf
  rings _ := (initialised_construct cfg).ringInv
  watchdog _ ha := by cases ha
  faults := .inl rfl

/-- Settles O54: the rings are as constructed, everything else is off. -/
theorem resetHasTheInvariants : Obligations.ResetHasTheInvariants := by
  unfold Obligations.ResetHasTheInvariants
  exact ⟨fun cfg h => ⟨shape_construct h, (initialised_construct cfg).ringInv, blockInv_construct h⟩,
    blockInv_construct (by decide) rfl (by decide)⟩

end Sys2Proof.Machine
end

section
/-!
The invariant of a block whose test port is shut (O55): the register updates it is no matter of, the passes, `BRING_UP` and
`BRING_DOWN`, the MAC agent's moves, and from there every instruction and every step.
-/

namespace Sys2Proof

theorem Config.rxBufSize_lt {cfg : Config} (h : cfg.fieldsFit = true) : cfg.rxBufSize.toNat < 2 ^ cfg.layout.len.width := by
  simp only [fieldsFit, Bool.and_eq_true, decide_eq_true_eq] at h
  exact h.1

end Sys2Proof

namespace Sys2Proof.Machine

/-! ## How the invariant is kept -/

/-- The machine does not stop, and the state the procedure leaves has the property. -/
def Res.Ends (P : State → Prop) : Res → Prop
  | .done _ _ t => P t
  | .raised t => P t
  | .stop _ => False

theorem Res.Ends.andThen {P : State → Prop} {r : Res} {k : State → Res} (h : r.Ends P) (hk : ∀ t, P t → (k t).Ends P) :
    (r.andThen k).Ends P := by
  cases r with
  | done st res t => exact hk t h
  | raised t => exact h
  | stop f => exact h.elim

theorem Res.Ends.imp {P Q : State → Prop} {r : Res} (h : r.Ends P) (hk : ∀ t, P t → Q t) : r.Ends Q := by
  cases r with
  | done st res t => exact hk t h
  | raised t => exact hk t h
  | stop f => exact h.elim

/-- An update that leaves the rings, their bookkeeping and the fault register alone. -/
theorem BlockInv.of {s t : State} (h : BlockInv s) (hs : Shape t) (hc : t.cfg = s.cfg := by rfl)
    (hq : s.up = false → Quiet s → Quiet t :=
      by exact fun _ q => ⟨q.masked, q.disabled, q.pt_off, q.to_off, q.no_slot, q.no_pass⟩)
    (hi : s.cfg.mode = .deferred ∨ (t.dslot = s.dslot ∧ t.inflight = s.inflight) := by exact .inr ⟨rfl, rfl⟩)
    (hw : KeepsWatch s t := by exact .of) (hu : t.up = s.up := by rfl) (hr : t.rxd = s.rxd := by rfl) (hx : t.txd = s.txd := by rfl)
    (h1 : t.txCur = s.txCur := by rfl) (h2 : t.txClean = s.txClean := by rfl) (h3 : t.txPend = s.txPend := by rfl)
    (hf : t.fault = s.fault := by rfl) : BlockInv t where
  shape := hs
  closed := by rw [hc]; exact h.closed
  inline_none hm := by
    rw [hc] at hm
    rcases hi with hi | ⟨hd, hp⟩
    · rw [hi] at hm; cases hm
    · rw [hd, hp]; exact h.inline_none hm
  up_checked ht := by rw [hc]; exact h.up_checked (hu ▸ ht)
  down_quiet ht := by rw [hu] at ht; exact hq ht (h.down_quiet ht)
  rx_buffers := h.rx_buffers.of hc hr
  rings ht := (h.rings (hf ▸ ht)).of hc hr hx h1 h2 h3
  watchdog ht := hw (h.watchdog (hf ▸ ht))
  faults := by rw [hf]; exact h.faults

/-- An update of a device that is up which may write the rings: it leaves them right, or it faults. -/
theorem BlockInv.rings_written {s t : State} (h : BlockInv s) (hup : s.up = true) (hs : Shape t) (hc : t.cfg = s.cfg)
    (hu : t.up = s.up) (hd : t.dslot = s.dslot) (hp : t.inflight = s.inflight) (hx : RxBuffers t)
    (he : t.fault = .vAdmission ∨ (t.fault = .none ∧ RingInv t ∧ Watched t)) : BlockInv t where
  shape := hs
  closed := by rw [hc]; exact h.closed
  inline_none hm := by rw [hd, hp]; exact h.inline_none (hc ▸ hm)
  up_checked ht := by rw [hc]; exact h.up_checked hup
  down_quiet ht := by rw [hu, hup] at ht; cases ht
  rx_buffers := hx
  rings hf := by
    rcases he with he | ⟨_, hr, _⟩
    · rw [he] at hf; cases hf
    · exact hr
  watchdog hf := by
    rcases he with he | ⟨_, _, hw⟩
    · rw [he] at hf; cases hf
    · exact hw
  faults := he.symm.imp_left (·.1)

theorem BlockInv.up_of_not_quiet {s : State} (h : BlockInv s) (hn : ¬ Quiet s) : s.up = true := by
  by_contra hup
  exact hn (h.down_quiet (by simpa using hup))

/-- A device that is up and meets the invariant. -/
structure Live (s : State) : Prop where
  inv : BlockInv s
  up  : s.up = true

theorem Live.healthy {s : State} (h : Live s) (hf : s.fault = .none) : Healthy s :=
  ⟨h.inv.shape, (h.inv.up_checked h.up).1, h.inv.rings hf, h.inv.rx_buffers, hf⟩

/-- An update of registers on a device that is up. -/
theorem Live.of {s t : State} (h : Live s) (hb : BlockStep s t)
    (hi : s.cfg.mode = .deferred ∨ (t.dslot = s.dslot ∧ t.inflight = s.inflight) := by exact .inr ⟨rfl, rfl⟩)
    (hw : KeepsWatch s t := by exact .of) (hu : t.up = s.up := by rfl) (hr : t.rxd = s.rxd := by rfl) (hx : t.txd = s.txd := by rfl)
    (h1 : t.txCur = s.txCur := by rfl) (h2 : t.txClean = s.txClean := by rfl) (h3 : t.txPend = s.txPend := by rfl)
    (hf : t.fault = s.fault := by rfl) : Live t :=
  ⟨h.inv.of (hb.common.shape h.inv.shape) hb.common.cfg (fun hd => by rw [h.up] at hd; cases hd) hi hw hu hr hx h1 h2 h3 hf,
    hu.trans h.up⟩

/-! ## Passes -/

theorem watch_regWrite (reg : Reg) (v : Word) (s : State) : KeepsWatch s (regWrite reg v s) := .of (by simp) (by simp)

theorem watch_process (snap : Byte) (s : State) : (process snap s).Rel KeepsWatch s := by
  unfold process
  split
  · exact KeepsWatch.of
  · refine watch_andThen (watch_andThen (watch_andThen ?_ fun t => ?_) fun t => ?_) fun t => ?_
    · unfold stepAck; split
      · exact watch_regWrite _ _ s
      · exact KeepsWatch.of
    · unfold stepReceive; split
      · exact watch_pollReceive t
      · exact KeepsWatch.of
    · unfold stepTransmit; split
      · exact (watch_reclaimCompleted t).imp fun _ h _ => h
      · exact KeepsWatch.of
    · rw [stepPhy_eq]; exact KeepsWatch.of

theorem watch_unitBody (u : DeferredUnit) (s : State) : (unitBody u s).Rel KeepsWatch s := by
  cases u with
  | irqWork snap => exact watch_process snap s
  | pollWork => exact watch_timerHook s
  | txTimeoutWork => exact watch_txpoll s
  | txAvailWork => exact watch_txpoll s

/-- The body of a unit of work leaves the device up and the dispatcher's registers as they were. -/
theorem dispatcher_unitBody (u : DeferredUnit) (s : State) :
    (unitBody u s).Rel (fun s t => t.up = s.up ∧ t.dslot = s.dslot ∧ t.inflight = s.inflight) s := by
  have hout : ∀ r ∈ [Register.up, .dslot, .inflight], r ∉ .linkUp :: processRegs s.cfg.ackReg := by
    cases s.cfg.ackReg <;> simp [processRegs, calloutRegs, submitRegs, regsOf]
  exact (touches_unitBody u s).imp fun t h => ⟨(h .up).resolve_left (hout _ (by simp)), (h .dslot).resolve_left (hout _ (by simp)),
    (h .inflight).resolve_left (hout _ (by simp))⟩

/-- A pass on a live device: it completes healthy, or it faults with `V_ADMISSION`. -/
theorem live_unitBody {s : State} (h : Live s) (hf : s.fault = .none) (u : DeferredUnit) : (unitBody u s).Ends Live := by
  have hpass := passRes_unitBody (h.healthy hf) u
  have hblock := blockStep_unitBody u s
  have hwatch := watch_unitBody u s
  have hregs := dispatcher_unitBody u s
  cases hr : unitBody u s with
  | done st res t =>
    rw [hr] at hpass hblock hwatch hregs
    obtain ⟨hup, hslot, hflight⟩ := hregs
    have hend := hpass.healthy
    exact ⟨h.inv.rings_written h.up hend.shape hblock.common.cfg hup hslot hflight hend.rx_buffers
      (.inr ⟨hend.no_fault, hend.rings, hwatch (h.inv.watchdog hf)⟩), hup.trans h.up⟩
  | raised t =>
    rw [hr] at hpass hblock hregs
    obtain ⟨hup, hslot, hflight⟩ := hregs
    obtain ⟨hadm, hbufs, _⟩ := hpass
    exact ⟨h.inv.rings_written h.up (hblock.common.shape h.inv.shape) hblock.common.cfg hup hslot hflight hbufs (.inl hadm),
      hup.trans h.up⟩
  | stop f => rw [hr] at hpass; exact hpass.elim

theorem live_unmask {s : State} (h : Live s) : Live (unmask s) := h.of (blockStep_writeImr ..)

theorem live_rearm (i : Instr) {s : State} (h : Live s) : Live (rearm i s) := by
  unfold rearm
  split
  · exact h.of .regs
  · exact h

theorem live_beforePass {i : Instr} (hi : BeginsPass i) {s : State} (h : Live s) : Live (beforePass i s) := by
  obtain rfl | rfl | rfl := hi
  · have hb := blockStep_capture s
    show Live (cancelIfTxOk s.snapshot (capture s))
    rw [capture_eq] at hb ⊢
    refine h.of hb (hw := fun hw ha => hw ?_)
    revert ha
    show (if _ then false else s.toArmed) = true → _
    split
    · exact fun ha => by cases ha
    · exact id
  · exact h.of (BlockStep.trans (b := { s with ptArmed := false }) .regs (blockStep_writeImr 0 _))
  · exact h.of (BlockStep.trans (b := { s with toArmed := false }) .regs (blockStep_writeImr 0 _)) (hw := fun _ ha => by cases ha)

theorem live_schedule {s : State} (h : Live s) (hm : s.cfg.mode = .deferred) (u : DeferredUnit) : Live (schedule u s) := by
  rw [schedule_eq]
  exact h.of .regs (.inl hm)

/-- An interrupt or an expiry: the pass at once, or its unit pending. -/
theorem live_beginsPass {i : Instr} (hi : BeginsPass i) {s : State} (h : Live s) (hf : s.fault = .none) :
    (bodyOf i s).Ends Live := by
  have hb := live_beforePass hi h
  obtain ⟨hcfg, _, _, hfault⟩ := beforePass_keeps hi s
  cases hm : s.cfg.mode with
  | inline =>
    rw [bodyOf_inline hi hm]
    exact (live_unitBody hb (hfault.trans hf) _).andThen fun t ht => live_rearm i (live_unmask ht)
  | deferred =>
    obtain he | ⟨_, he⟩ := bodyOf_deferred_cases hi hm <;> rw [he]
    · exact live_rearm i (live_schedule hb (by rw [hcfg]; exact hm) _)
    · exact live_rearm i (h.of .regs)

theorem live_workerRun {s : State} (h : Live s) (hf : s.fault = .none) (hm : s.cfg.mode = .deferred) :
    (workerRun s).Ends Live := by
  cases hd : s.dslot with
  | none => unfold workerRun; rw [hd]; exact h
  | some u =>
    rw [workerRun_some hd]
    have hp : Live { s with dslot := none, inflight := some u } := h.of .regs (.inl hm)
    exact (live_unitBody hp hf u).andThen fun t ht => ht

theorem live_workerDone {s : State} (h : Live s) (hm : s.cfg.mode = .deferred) : Live (workerDone s) := by
  have hb := blockStep_workerDone s
  unfold workerDone at hb ⊢
  split at hb
  · next he => rw [if_pos he]; exact h.of hb (.inl hm)
  · next he => rw [if_neg he]; exact h.of hb (.inl hm)

/-! ## Host calls -/

theorem ends_submit {s : State} (h : BlockInv s) (hf : s.fault = .none) (p : Word) (n : Half) : (submit p n s).Ends BlockInv := by
  cases hup : s.up with
  | false => rw [submit_down _ _ hup]; exact h
  | true =>
    have hh := Live.healthy ⟨h, hup⟩ hf
    by_cases hfull : s.txPend = s.cfg.nTx
    · rw [submit_full _ _ hup hfull]
      have hb := blockStep_raise .vAdmission s
      exact h.rings_written (t := { s with fault := if s.fault = .none then .vAdmission else s.fault }) hup
        (hb.common.shape h.shape) rfl rfl rfl rfl (h.rx_buffers.of rfl rfl) (.inl (if_pos hf))
    · rw [submit_ok _ _ hup hfull (hh.tx_free hfull)]
      have ht := healthy_withSubmitted hh hup hfull p n
      exact h.rings_written (t := s.withSubmitted p n) hup ht.shape rfl rfl rfl rfl ht.rx_buffers
        (.inr ⟨hf, ht.rings, fun _ => Nat.le_add_left 1 s.txPend⟩)

theorem ends_notify {s : State} (h : BlockInv s) (hf : s.fault = .none) : (notifyTxAvailable s).Ends BlockInv := by
  cases hup : s.up with
  | false => simp only [notifyTxAvailable, hup]; exact h
  | true =>
    unfold notifyTxAvailable
    rw [if_neg (by simp [hup])]
    split
    · exact h
    · cases hm : s.cfg.mode with
      | inline =>
        refine Res.Ends.andThen (Res.Ends.imp (live_unitBody ⟨h, hup⟩ hf .txAvailWork) fun _ ht => ht.inv) fun t ht => ht
      | deferred => exact (live_schedule ⟨h, hup⟩ hm _).inv

/-- `BRING_DOWN` as one record update (rule R222). -/
theorem bringDown_eq (s : State) : bringDown s =
    { s with
      imr := 0, maccr := 0, ptArmed := false, toArmed := false, dslot := none, up := false
      trace := s.trace ++ [.regW .imr (statusWord s.cfg.layout 0)] ++ [.regW .maccr (controlWord s.cfg.layout 0)] } := by
  simp only [bringDown, writeImr, writeMaccr, ptCancel, txtoCancel, State.log]

/-- `BRING_DOWN` with no pass in flight leaves a quiet device (rule R222). -/
theorem blockInv_bringDown {s : State} (h : BlockInv s) (hp : s.inflight = none) : BlockInv (bringDown s) := by
  have hs := (blockStep_bringDown s).common.shape h.shape
  rw [bringDown_eq] at hs ⊢
  exact {
    shape := hs
    closed := h.closed
    inline_none := fun _ => ⟨rfl, hp⟩
    up_checked := fun ht => by cases ht
    down_quiet := fun _ => ⟨rfl, rfl, rfl, rfl, rfl, hp⟩
    rx_buffers := h.rx_buffers.of rfl rfl
    rings := fun hf => (h.rings hf).of rfl rfl rfl rfl rfl rfl
    watchdog := fun _ ha => by cases ha
    faults := h.faults }

/-- `RING_INIT` constructs the slots it walks over and no other. -/
theorem desc_initSlots {r : Ring} {i n : Nat} {s : State} (hn : i + n ≤ (s.ring r).length) (q : Ring) (j : Nat) :
    (initSlots r i n s).desc q j =
      if q = r ∧ i ≤ j ∧ j < i + n then Desc.constructed s.cfg r j else s.desc q j := by
  induction n generalizing i s with
  | zero => rw [if_neg (by omega)]; rfl
  | succ n ih =>
    rw [initSlots, ih (by rw [length_ring_writeDesc]; omega), desc_writeDesc, writeDesc_cfg]
    by_cases hj : j = i
    · subst hj
      by_cases hq : q = r <;> simp [hq]; omega
    · by_cases hq : q = r
      · simp only [hq, hj, true_and, false_and, if_false]
        congr 1
        exact propext (by omega)
      · simp [hq]

/-- `RING_INIT` leaves every slot as construction does (rule R220). -/
theorem desc_ringInit {s : State} (hs : Shape s) {r : Ring} {i : Nat} (hi : i < s.cfg.capacity r) :
    (ringInit s).desc r i = Desc.constructed s.cfg r i := by
  have hrx : 0 + s.cfg.nRx ≤ (s.ring .rx).length := by rw [Nat.zero_add]; exact Nat.le_of_eq hs.rx_length.symm
  have htx : 0 + s.cfg.nTx ≤ ((initSlots .rx 0 s.cfg.nRx s).ring .tx).length := by
    have hlen : (initSlots .rx 0 s.cfg.nRx s).txd.length = s.txd.length := (common_initSlots ..).tx_len
    rw [Nat.zero_add]
    exact Nat.le_of_eq (hlen.trans hs.tx_length).symm
  have hd : (ringInit s).desc r i = (initSlots .tx 0 s.cfg.nTx (initSlots .rx 0 s.cfg.nRx s)).desc r i := by cases r <;> rfl
  rw [hd, desc_initSlots htx, desc_initSlots hrx, initSlots_cfg]
  cases r with
  | rx => rw [if_neg (by simp), if_pos ⟨rfl, Nat.zero_le i, by rw [Nat.zero_add]; exact hi⟩]
  | tx => rw [if_pos ⟨rfl, Nat.zero_le i, by rw [Nat.zero_add]; exact hi⟩]

theorem initialised_bringUpWrites {s : State} (hs : Shape s) : Initialised (bringUpWrites s) where
  slots r i hi := by
    have hcfg : (bringUpWrites s).cfg = s.cfg := (common_bringUpWrites s).cfg
    have hd : (bringUpWrites s).desc r i = (ringInit s).desc r i := by
      cases r <;> simp [State.desc, State.ring, bringUpWrites, ptStart]
    rw [hcfg] at hi ⊢
    rw [hd, desc_ringInit hs hi]
  tx_cur := by simp [bringUpWrites, ptStart, ringInit]
  tx_clean := by simp [bringUpWrites, ptStart, ringInit]
  tx_pend := by simp [bringUpWrites, ptStart, ringInit]

theorem bringUpWrites_keeps (s : State) : (bringUpWrites s).dslot = s.dslot ∧ (bringUpWrites s).inflight = s.inflight ∧
    (bringUpWrites s).toArmed = s.toArmed ∧ (bringUpWrites s).fault = s.fault := by
  simp [bringUpWrites, ptStart, ringInit]

/-- `BRING_UP` of a device that is down (rule R221). -/
theorem ends_bringUp {s : State} (h : BlockInv s) (hd : s.up = false) : (bringUp s).Ends BlockInv := by
  have hq := h.down_quiet hd
  unfold bringUp
  split
  · exact h
  · next hcap =>
    split
    · exact h
    · next hirq =>
      have hc := common_bringUpWrites s
      have hinit := initialised_bringUpWrites h.shape
      obtain ⟨hslot, hflight, harmed, hfault⟩ := bringUpWrites_keeps s
      exact {
        shape := hc.shape h.shape
        closed := by rw [hc.cfg]; exact h.closed
        inline_none := fun _ => ⟨hslot.trans hq.no_slot, hflight.trans hq.no_pass⟩
        up_checked := fun _ => by rw [hc.cfg]; exact ⟨by simpa using hcap, by simpa using hirq⟩
        down_quiet := fun ht => by cases ht
        rx_buffers := hinit.rxBuffers (by rw [hc.cfg]; exact h.rx_buffers.fields_fit)
        rings := fun _ => hinit.ringInv
        watchdog := fun _ ha => by rw [harmed, hq.to_off] at ha; cases ha
        faults := by rw [hfault]; exact h.faults }

/-! ## The MAC agent's moves -/

/-- The agent moves a descriptor only while the MAC is enabled, so only on a device that is up (rule R222). -/
theorem up_of_enabled {s : State} (h : BlockInv s) {en : BitVec 7 → Bool} (h0 : en 0 = false) (hm : en s.maccr = true) :
    s.up = true := h.up_of_not_quiet fun q => by rw [q.disabled, h0] at hm; cases hm

/-- A completion of a Hardware-owned slot, which is in the window, keeps the ring invariants (rules R52 and R242). -/
theorem ringInv_macTxDone {s : State} (hs : Shape s) (h : RingInv s) {idx : Nat} (hi : idx < s.cfg.nTx)
    (ho : (s.desc .tx idx).own = .hw) (stat : Half) : RingInv (macTxDone idx stat s) := by
  rw [macTxDone_eq]
  generalize hd' : (s.desc .tx idx).apply (.status (fitStat s.cfg.layout stat) .sw) = d
  have hl : idx < s.txd.length := by rw [hs.tx_length]; exact hi
  have hd : ∀ j, (s.txd.set idx d).getD j Desc.beyond = if j = idx then d else s.desc .tx j := fun j => desc_tx_set _ _ _ _ hl
  have hwin := h.hw_in_window idx hi ho
  refine ⟨h.pend_le, h.cur_eq, fun j hj hn => ?_, fun j hj hw => ?_, h.rx_wrap, fun j hj => ?_⟩
  · refine (hd j).trans ?_
    rw [if_neg (by rintro rfl; exact hn hwin)]
    exact h.outside_clear j hj hn
  · have hw' : ((s.txd.set idx d).getD j Desc.beyond).own = .hw := hw
    rw [hd] at hw'
    split at hw'
    · rw [← hd'] at hw'; cases hw'
    · exact h.hw_in_window j hj hw'
  · refine (congrArg Desc.wrap (hd j)).trans ?_
    split
    · next he => rw [← hd', he]; exact h.tx_wrap idx hi
    · exact h.tx_wrap j hj

theorem blockInv_macTxDone {s : State} (h : BlockInv s) (hf : s.fault = .none) {idx : Nat} (hi : idx < s.cfg.nTx)
    (hg : macTxDoneGuard idx s = true) (stat : Half) : BlockInv (macTxDone idx stat s) := by
  simp only [macTxDoneGuard, Bool.and_eq_true, beq_iff_eq] at hg
  obtain ⟨⟨⟨hen, _⟩, ho⟩, _⟩ := hg
  have hup := up_of_enabled h (en := txEn) (by decide) hen
  have hs := (common_macTxDone idx stat s).shape h.shape
  have hr := ringInv_macTxDone h.shape (h.rings hf) hi ho stat
  rw [macTxDone_eq] at hs hr ⊢
  exact h.rings_written hup hs rfl rfl rfl rfl (h.rx_buffers.of rfl rfl) (.inr ⟨hf, hr, h.watchdog hf⟩)

/-- A frame byte outside the rings changes memory only. -/
theorem writeBytes_of_none {s : State} {a : Nat} {bs : List Byte}
    (h : ∀ x, a ≤ x → x < a + bs.length → s.slotAt .rx x = none ∧ s.slotAt .tx x = none) :
    ∃ m, s.writeBytes a bs = { s with mem := m } := by
  induction bs generalizing s a with
  | nil => exact ⟨s.mem, rfl⟩
  | cons b bs ih =>
    rw [List.length_cons] at h
    obtain ⟨hrx, htx⟩ := h a (Nat.le_refl a) (by omega)
    have hw : s.writeByte a b = { s with mem := s.mem.insert a b } := by unfold State.writeByte; rw [hrx, htx]
    obtain ⟨m, hm⟩ := ih (s := s.writeByte a b) (a := a + 1) fun x h1 h2 => by rw [hw]; exact h x (by omega) (by omega)
    exact ⟨m, by rw [State.writeBytes, hm, hw]⟩

theorem desc_raiseBits (bits : Byte) (s : State) (r : Ring) (i : Nat) : (raiseBits bits s).desc r i = s.desc r i := by
  cases r <;> rfl

/-- What the agent leaves in the RX slot it fills (rule R243). -/
def State.filled (s : State) (len : Half) (fs ls : Bool) (stat : Half) : Desc :=
  { s.desc .rx s.macRxIdx with
    own := .sw, len := fitLen s.cfg.layout len, fs := fs, ls := ls, stat := fitStat s.cfg.layout stat }

/-- A frame the guard admits goes into the slot's own buffer, which meets neither a ring nor the control block (rule R71). -/
theorem macRxFrame_ok {s : State} (hs : Shape s) (hb : RxBuffers s) {len : Half}
    (hlen : len.toNat ≤ (s.desc .rx s.macRxIdx).len.toNat) (fs ls : Bool) (stat : Half) (seed : Byte) :
    ∃ m, macRxFrame len fs ls stat seed s = .ok { s with
      mem := m
      rxd := s.rxd.set s.macRxIdx (s.filled len fs ls stat)
      isr := s.isr ||| rxFinished
      macRxIdx := macNext s.cfg .rx (s.desc .rx s.macRxIdx).wrap s.macRxIdx } := by
  have hi := hs.mac_rx_idx
  have hl : s.macRxIdx < s.rxd.length := by rw [hs.rx_length]; exact hi
  have hle : len.toNat ≤ s.cfg.rxBufSize.toNat := hlen.trans (hb.len_le _ hi)
  have hplain : ∀ x, (s.desc .rx s.macRxIdx).buf.toNat ≤ x →
      x < (s.desc .rx s.macRxIdx).buf.toNat + (seededBytes seed len.toNat).length →
      s.slotAt .rx x = none ∧ s.slotAt .tx x = none := fun x h1 h2 => by
    obtain ⟨hrx, htx, _⟩ := Config.buf_apart hs.cfg_wf hi
    rw [hb.own_buffer _ hi] at h1 h2
    rw [seededBytes, List.length_map, List.length_range] at h2
    simp only [Config.rxRingRegion, Config.txRingRegion] at hrx htx
    rw [State.slotAt_eq_none_iff, State.slotAt_eq_none_iff]
    simp only [Config.ringAddr, State.ring, hs.rx_length, hs.tx_length]
    omega
  obtain ⟨m, hm⟩ := writeBytes_of_none hplain
  refine ⟨m, ?_⟩
  have hfault : frameFault s.cfg (s.desc .rx s.macRxIdx).buf.toNat len.toNat = none := by
    rw [hb.own_buffer _ hi]; exact frameFault_buf hs.cfg_wf hi hle
  unfold macRxFrame
  dsimp only
  rw [hfault, hm]
  dsimp only
  rw [State.desc_setDesc_same (s := { s with mem := m }) (r := .rx) _ hl, State.setDesc_setDesc,
    desc_raiseBits, State.desc_setDesc_same (s := { s with mem := m }) (r := .rx) _ hl]
  rfl

/-- One slot of an RX ring replaced. -/
theorem desc_rx_of_set {s t : State} {i : Nat} {d : Desc} (hr : t.rxd = s.rxd.set i d) (hi : i < s.rxd.length) (j : Nat) :
    t.desc .rx j = if j = i then d else s.desc .rx j := by
  rw [State.desc_rx, hr]
  exact desc_tx_set _ _ _ _ hi

/-- A replaced RX slot that keeps its buffer, and its size where it is offered. -/
theorem RxBuffers.of_set {s t : State} (h : RxBuffers s) {i : Nat} {d : Desc} (hc : t.cfg = s.cfg)
    (hr : t.rxd = s.rxd.set i d) (hi : i < s.rxd.length) (hbuf : d.buf = (s.desc .rx i).buf)
    (hlen : d.len.toNat ≤ s.cfg.rxBufSize.toNat) (hoff : d.own = .hw → d.len = s.cfg.rxBufSize) : RxBuffers t := by
  have hd := desc_rx_of_set hr hi
  refine ⟨hc ▸ h.fields_fit, fun j hj => ?_, fun j hj => ?_, fun j hj ho => ?_⟩ <;> rw [hc] at hj ⊢
  · rw [hd]
    split
    · next he => rw [hbuf, ← he]; exact h.own_buffer j hj
    · exact h.own_buffer j hj
  · rw [hd]
    split
    · exact hlen
    · exact h.len_le j hj
  · rw [hd] at ho ⊢
    split at ho
    · next he => rw [if_pos he]; exact hoff ho
    · next he => rw [if_neg he]; exact h.offered j hj ho

/-- A replaced RX slot that keeps its wrap marker is no matter of the transmit ring. -/
theorem RingInv.of_rx_set {s t : State} (h : RingInv s) {i : Nat} {d : Desc} (hc : t.cfg = s.cfg) (hr : t.rxd = s.rxd.set i d)
    (hi : i < s.rxd.length) (hwrap : d.wrap = (s.desc .rx i).wrap) (hx : t.txd = s.txd) (h1 : t.txCur = s.txCur)
    (h2 : t.txClean = s.txClean) (h3 : t.txPend = s.txPend) : RingInv t := by
  have hk : RingInv { t with rxd := s.rxd } := h.of hc rfl hx h1 h2 h3
  refine ⟨hk.pend_le, hk.cur_eq, hk.outside_clear, hk.hw_in_window, fun j hj => ?_, hk.tx_wrap⟩
  have hj' := h.rx_wrap j (hc ▸ hj)
  rw [desc_rx_of_set hr hi, hc]
  split
  · next he => rw [hwrap, ← he]; exact hj'
  · exact hj'

theorem ends_macRxFrame {s : State} (h : BlockInv s) (hf : s.fault = .none) {len : Half} (hg : macRxFrameGuard len s = true)
    (fs ls : Bool) (stat : Half) (seed : Byte) : (macRxFrame len fs ls stat seed s).Ends BlockInv := by
  simp only [macRxFrameGuard, Bool.and_eq_true, beq_iff_eq, decide_eq_true_eq] at hg
  obtain ⟨⟨⟨hen, _⟩, _⟩, hlen⟩ := hg
  have hup := up_of_enabled h (en := rxEn) (by decide) hen
  have hl : s.macRxIdx < s.rxd.length := by rw [h.shape.rx_length]; exact h.shape.mac_rx_idx
  have hle : len.toNat ≤ s.cfg.rxBufSize.toNat := hlen.trans (h.rx_buffers.len_le _ h.shape.mac_rx_idx)
  have hfit : (s.filled len fs ls stat).len = len := fitLen_eq (hle.trans_lt (Config.rxBufSize_lt h.rx_buffers.fields_fit))
  have hcommon := common_macRxFrame len fs ls stat seed s
  obtain ⟨m, hm⟩ := macRxFrame_ok h.shape h.rx_buffers hlen fs ls stat seed
  rw [hm] at hcommon ⊢
  exact h.rings_written hup (hcommon.shape h.shape) rfl rfl rfl rfl
    (h.rx_buffers.of_set rfl rfl hl rfl (by rw [hfit]; exact hle) fun ho => by cases ho)
    (.inr ⟨hf, (h.rings hf).of_rx_set rfl rfl hl rfl rfl rfl rfl rfl, h.watchdog hf⟩)

/-! ## Every instruction and every step -/

/-- A timer expires on a device that is up only (rule R222). -/
theorem up_of_pollExpire {s : State} (h : BlockInv s) (hg : pollExpireGuard s = true) : s.up = true :=
  h.up_of_not_quiet fun q => by simp [pollExpireGuard, q.pt_off] at hg

theorem up_of_txtoExpire {s : State} (h : BlockInv s) (hg : txtoExpireGuard s = true) : s.up = true :=
  h.up_of_not_quiet fun q => by simp [txtoExpireGuard, q.to_off] at hg

/-- The worker runs in `DEFERRED` mode on a device that is up only (rules R32 and R34). -/
theorem live_of_workerRun {s : State} (h : BlockInv s) (hg : workerRunGuard s = true) : s.cfg.mode = .deferred ∧ s.up = true := by
  simp only [workerRunGuard, Bool.and_eq_true, beq_iff_eq] at hg
  exact ⟨hg.1.1, h.up_of_not_quiet fun q => by rw [q.no_slot] at hg; exact absurd hg.1.2 (by simp)⟩

theorem live_of_workerDone {s : State} (h : BlockInv s) (hp : s.inflight ≠ none) : s.cfg.mode = .deferred ∧ s.up = true := by
  refine ⟨?_, h.up_of_not_quiet fun q => hp q.no_pass⟩
  cases hm : s.cfg.mode with
  | inline => exact absurd (h.inline_none hm).2 hp
  | deferred => rfl

/-- Every operation the port accepts ends in a state that meets the invariant. -/
theorem ends_bodyOf {i : Instr} {s : State} (h : BlockInv s) (ha : portCheck (gateOf i s) s = .ok) :
    (bodyOf i s).Ends BlockInv := by
  obtain ⟨hlegal, hfault, hres, hint, hhost, hguard⟩ := (portCheck_eq_ok_iff _ _).mp ha
  have hni : opClass i ≠ .internal := fun hc => by have := hint hc; rw [h.closed] at this; cases this
  have hnr : opClass i ≠ .reserved := hres
  have hf : s.fault = .none := hfault.resolve_right fun he => by
    obtain ⟨r, rfl⟩ := (exempt_iff i s).mp he
    exact hni rfl
  have hlive : ∀ {i : Instr}, BeginsPass i → s.up = true → (bodyOf i s).Ends BlockInv := fun hi hup =>
    (live_beginsPass hi ⟨h, hup⟩ hf).imp fun _ ht => ht.inv
  cases i
  case submit p n => exact ends_submit h hf p n
  case irq => exact hlive (.inl rfl) hguard
  case pollExpire => exact hlive (.inr (.inl rfl)) (up_of_pollExpire h hguard)
  case txtoExpire => exact hlive (.inr (.inr rfl)) (up_of_txtoExpire h hguard)
  case workerRun =>
    obtain ⟨hm, hup⟩ := live_of_workerRun h hguard
    exact (live_workerRun ⟨h, hup⟩ hf hm).imp fun _ ht => ht.inv
  case workerDone =>
    obtain ⟨hm, hup⟩ := live_of_workerDone h (Option.isSome_iff_ne_none.mp hguard)
    exact (live_workerDone ⟨h, hup⟩ hm).inv
  case tick => exact h.of (t := tick s) ((BlockStep.regs (t := tick s)).common.shape h.shape)
  case bringUp => exact ends_bringUp h (by simpa [gateOf] using hguard)
  case bringDown => exact blockInv_bringDown h (hhost rfl)
  case notifyTxAvailable => exact ends_notify h hf
  case macTxDone idx stat => exact blockInv_macTxDone h hf (by simpa [gateOf, Instr.wf] using hlegal) hguard stat
  case macRxFrame len fs ls stat seed => exact ends_macRxFrame h hf hguard fs ls stat seed
  case macRaise bits => exact h.of (t := raiseBits bits s) ((blockStep_raiseBits bits s).common.shape h.shape)
  case macPhy link =>
    exact h.of (t := raiseBits phyChg { s with phyLink := link })
      (((common_phyLink link s).trans (blockStep_raiseBits phyChg _).common).shape h.shape)
  case addMc => exact absurd rfl hnr
  case removeMc => exact absurd rfl hnr
  all_goals exact absurd rfl hni

theorem blockInv_respond {s : State} (h : BlockInv s) (i : Instr) (st : Status) (res : Word) :
    BlockInv (respond (opClass i) st res s) := by
  have hb := blockStep_respond i st res s
  rw [respond_eq] at hb ⊢
  exact h.of (hb.common.shape h.shape)

/-- Every instruction leads to a next state that meets the invariant. -/
theorem blockInv_exec {s : State} (h : BlockInv s) (i : Instr) : ∃ t, exec i s = .next t ∧ BlockInv t := by
  by_cases ha : portCheck (gateOf i s) s = .ok
  · have hb := ends_bodyOf h ha
    rw [exec_of_portCheck ha]
    cases hr : bodyOf i s with
    | done st res t => rw [hr] at hb; exact ⟨_, rfl, blockInv_respond hb i st res⟩
    | raised t => rw [hr] at hb; exact ⟨_, rfl, hb.of (t := respondFault t) ((blockStep_respondFault t).common.shape hb.shape)⟩
    | stop f => rw [hr] at hb; exact hb.elim
  · refine ⟨_, exec_of_refused ha, h.of ((blockStep_refused i _ s).common.shape h.shape)⟩

/-- Settles O55: with no command, with an illegal one and with an instruction the invariant is kept. -/
theorem blockInvariantKeptAndNeverStops : Obligations.BlockInvariantKeptAndNeverStops := by
  unfold Obligations.BlockInvariantKeptAndNeverStops
  intro s h
  unfold step
  split
  · exact ⟨s, rfl, h⟩
  · next c rest _ =>
    split
    · exact ⟨_, rfl, h.of (h.shape.of_answer rest _)⟩
    · exact blockInv_exec (h.of (t := { s with cmds := rest }) (h.shape.of_answer rest s.resp)) _

end Sys2Proof.Machine
end

section
/-!
What the block stores to: no Hardware-owned descriptor but in `RING_INIT` (O51), and the places of a pass, of a poll upstream
and of `BRING_UP` (O59).
-/

namespace Sys2Proof.Machine

/-! ## Hardware-owned descriptors (rules R80, R142 and R143) -/

theorem isMacMove_eq_false {i : Instr} (h : opClass i ≠ .env) : isMacMove i = false := beq_eq_false_iff_ne.mpr h

/-- Every operation of the block but `BRING_UP` is a step of the block. -/
theorem blockStep_exec {i : Instr} {s t : State} (hm : isMacMove i = false) (hb : i ≠ .bringUp) (h : exec i s = .next t) :
    BlockStep s t :=
  exec_rel (R := BlockStep) (fun _ _ _ => BlockStep.trans) blockStep_refused blockStep_respond blockStep_respondFault
    (blockStep_bodyOf hm hb s) h

/-- Settles O51: a Hardware-owned descriptor is part of what a step of the block keeps. -/
theorem blockNeverWritesHardwareOwnedDescriptors : Obligations.BlockNeverWritesHardwareOwnedDescriptors := by
  unfold Obligations.BlockNeverWritesHardwareOwnedDescriptors
  exact fun i s t henv hb h => (blockStep_exec (isMacMove_eq_false henv) hb h).owned.kept

/-! ## One byte of the flat space -/

/-- The byte at `a` is the same in both states. -/
def SameByte (a : Nat) (s t : State) : Prop := t.readByte a = s.readByte a

theorem SameByte.trans (a : Nat) (s t u : State) (h : SameByte a s t) (k : SameByte a t u) : SameByte a s u := Eq.trans k h

/-- A change of neither configuration, rings nor memory. -/
theorem SameByte.of {a : Nat} {s t : State} (hc : t.cfg = s.cfg := by rfl) (hr : t.rxd = s.rxd := by rfl)
    (hx : t.txd = s.txd := by rfl) (hm : t.mem = s.mem := by rfl) : SameByte a s t := State.readByte_eq_of hc hr hx hm a

/-- A byte that no part of the body writes is not written by the instruction. -/
theorem sameByte_exec {i : Instr} {s t : State} {a : Nat} (hb : (bodyOf i s).Rel (SameByte a) s) (h : exec i s = .next t) :
    t.readByte a = s.readByte a :=
  exec_rel (R := SameByte a) (SameByte.trans a) (fun _ _ _ => .of) (fun i st res s => by rw [respond_eq]; exact .of)
    (fun _ => .of) hb h

/-- A step of the block writes no byte outside the exchange buffer and the Software-owned descriptors (rules R80 and R92). -/
theorem BlockStep.sameByte {s t : State} (h : BlockStep s t) {a : Nat} (hx : ¬ inXbuf s.cfg a)
    (hd : ∀ r k, k < (s.ring r).length → (s.desc r k).own = .sw → ¬ inDesc s.cfg r k a) : SameByte a s t := by
  refine State.readByte_congr (fun r x => ?slots) (fun r k j hk => ?rings) fun _ _ => h.owned.mem a hx
  case slots =>
    cases r with
    | rx => exact State.slotAt_congr (r := .rx) h.common.cfg h.common.rx_len x
    | tx => exact State.slotAt_congr (r := .tx) h.common.cfg h.common.tx_len x
  case rings =>
    obtain ⟨ha, hj, hlt⟩ := State.slotAt_eq_some hk
    have hin : inDesc s.cfg r k a := ⟨by omega, by omega⟩
    cases ho : (s.desc r k).own with
    | hw => rw [h.owned.kept r k ho, h.common.cfg]
    | sw => exact absurd hin (hd r k hlt ho)

/-! ## A poll upstream (rules R165 and R208) -/

theorem sameByte_writeDesc {r : Ring} {i a : Nat} (d : Desc) {s : State} (h : ¬ inDesc s.cfg r i a) :
    SameByte a s (writeDesc r i d s) := by
  rw [writeDesc_eq]
  exact SameByte.trans a _ (s.setDesc r i d) _ (State.readByte_setDesc_outside s r i d a h) .of

/-- A callout stops, or it leaves what `afterCallState` says. -/
theorem callUp_cases (c : Callout) (s : State) : (∃ f, callUp c s = .stop f) ∨ callUp c s = .ok (afterCallState c s) := by
  cases h : xbufFault s.cfg s.answerBytes.length with
  | none => exact .inr (callUp_ok c h)
  | some f =>
    refine .inl ⟨f, ?_⟩
    have h' : xbufFault s.cfg ((s.nextAnswer.bytes.take s.cfg.xbufSize).map some).length = some f := by
      rw [List.length_map]; exact h
    simp only [callUp, writeXbuf, h', Res.stop_andThen]

/-- A submission stores to the current TX slot only (rule R161). -/
theorem sameByte_submit {a : Nat} (p : Word) (n : Half) {s : State} (h : ¬ inDesc s.cfg .tx s.txCur a) :
    (submit p n s).Rel (SameByte a) s := by
  unfold submit
  split
  · exact SameByte.of
  · split
    · exact SameByte.of
    · refine Res.Rel.andThen (SameByte.trans a) ?_ fun t _ => SameByte.of (by simp [afterSubmit, txtoStart])
        (by simp [afterSubmit, txtoStart]) (by simp [afterSubmit, txtoStart]) (by simp [afterSubmit, txtoStart])
      unfold release
      split
      · exact SameByte.of
      · exact sameByte_writeDesc _ h

/-- The address lies neither in the current TX slot nor under the next answer's bytes in the exchange buffer. -/
def OutsidePoll (a : Nat) (s : State) : Prop :=
  ¬ inDesc s.cfg .tx s.txCur a ∧ ¬ (s.cfg.xbufAddr.toNat ≤ a ∧ a < s.cfg.xbufAddr.toNat + s.answerBytes.length)

section
variable {a : Nat} {s : State}

/-- A callout and its submission store to the start of the exchange buffer and to the current TX slot. -/
theorem sameByte_callout (c : Callout) (h : OutsidePoll a s) : ((callUp c s).andThen submitAnswer).Rel (SameByte a) s := by
  obtain ⟨f, hf⟩ | hok := callUp_cases c s
  · rw [hf]; trivial
  · rw [hok, Res.ok_andThen]
    have hcall : SameByte a s (afterCallState c s) :=
      SameByte.trans a _ { s with mem := s.mem.writeList s.cfg.xbufAddr.toNat (s.answerBytes.map some) } _
        (State.readByte_writeList_outside s _ a _ (by rw [List.length_map]; exact h.2)) .of
    refine Res.Rel.from (SameByte.trans a) hcall ?_
    unfold submitAnswer
    split
    · exact sameByte_submit _ _ h.1
    · exact SameByte.of

theorem sameByte_txpoll (h : OutsidePoll a s) : (txpoll s).Rel (SameByte a) s :=
  (sameByte_callout .poll h).andThen (SameByte.trans a) fun _ _ => SameByte.of

theorem sameByte_timerHook (h : OutsidePoll a s) : (timerHook s).Rel (SameByte a) s :=
  (sameByte_callout .timerHook h).andThen (SameByte.trans a) fun _ _ => SameByte.of

theorem sameByte_schedule (u : DeferredUnit) (s : State) : SameByte a s (schedule u s) := by
  rw [schedule_eq]; exact .of

theorem sameByte_pollExpire (h : OutsidePoll a s) : (pollExpire s).Rel (SameByte a) s := by
  cases hm : s.cfg.mode with
  | inline =>
    rw [pollExpire_inline hm]
    have hpoll := sameByte_timerHook (s := maskAll { s with ptArmed := false }) h
    exact .from (SameByte.trans a) .of (hpoll.andThen (SameByte.trans a) fun _ _ => SameByte.of)
  | deferred =>
    by_cases hd : s.dslot = none
    · rw [pollExpire_free hm hd]
      exact sameByte_schedule .pollWork (maskAll { s with ptArmed := false })
    · rw [pollExpire_dropped hm hd]
      exact SameByte.of

theorem sameByte_txtoExpire (h : OutsidePoll a s) : (txtoExpire s).Rel (SameByte a) s := by
  cases hm : s.cfg.mode with
  | inline =>
    rw [txtoExpire_inline hm]
    have hpoll := sameByte_txpoll (s := maskAll { s with toArmed := false }) h
    exact .from (SameByte.trans a) .of (hpoll.andThen (SameByte.trans a) fun _ _ => SameByte.of)
  | deferred =>
    rw [txtoExpire_deferred hm]
    exact sameByte_schedule .txTimeoutWork (maskAll { s with toArmed := false })

theorem sameByte_notify (h : OutsidePoll a s) : (notifyTxAvailable s).Rel (SameByte a) s := by
  unfold notifyTxAvailable
  split
  · exact SameByte.of
  · split
    · exact SameByte.of
    · split
      · exact (sameByte_txpoll h).andThen (SameByte.trans a) fun _ _ => SameByte.of
      · exact sameByte_schedule .txAvailWork s

end

/-! ## `BRING_UP` (rules R220 and R221) -/

theorem sameByte_initSlots {r : Ring} {a i n : Nat} {s : State} (hin : i + n ≤ s.cfg.capacity r) (h : ¬ inRing s.cfg r a) :
    SameByte a s (initSlots r i n s) := by
  induction n generalizing i s with
  | zero => exact .of
  | succ n ih =>
    have hslot : ¬ inDesc s.cfg r i a := fun hd => h (by
      unfold inDesc descAddr at hd
      unfold inRing
      omega)
    refine SameByte.trans a _ _ _ (sameByte_writeDesc (Desc.constructed s.cfg r i) hslot) (ih ?_ ?_) <;> rw [writeDesc_cfg]
    · omega
    · exact h

/-- After the two rings `BRING_UP` writes registers only. -/
theorem sameByte_bringUpWrites {a : Nat} (s : State) :
    SameByte a (initSlots .tx 0 s.cfg.nTx (initSlots .rx 0 s.cfg.nRx s)) (bringUpWrites s) :=
  .of (by simp [bringUpWrites, ringInit, ptStart]) (by simp [bringUpWrites, ringInit, ptStart])
    (by simp [bringUpWrites, ringInit, ptStart]) (by simp [bringUpWrites, ringInit, ptStart])

theorem sameByte_bringUp {a : Nat} {s : State} (hr : ¬ inRing s.cfg .rx a) (hx : ¬ inRing s.cfg .tx a) :
    (bringUp s).Rel (SameByte a) s := by
  unfold bringUp
  split
  · exact SameByte.of
  · split
    · exact SameByte.of
    · have hrx : SameByte a s (initSlots .rx 0 s.cfg.nRx s) := sameByte_initSlots (by simp [Config.capacity]) hr
      have htx : SameByte a (initSlots .rx 0 s.cfg.nRx s) (initSlots .tx 0 s.cfg.nTx (initSlots .rx 0 s.cfg.nRx s)) :=
        sameByte_initSlots (by simp [Config.capacity]) (by rwa [initSlots_cfg])
      exact SameByte.trans a _ _ _ (hrx.trans a _ _ _ htx) (sameByte_bringUpWrites s)

/-- Settles O59: a pass is a step of the block; a poll and `BRING_UP` keep every byte outside their own places. -/
theorem passesStoreToTheirOwnPlaces : Obligations.PassesStoreToTheirOwnPlaces := by
  unfold Obligations.PassesStoreToTheirOwnPlaces
  intro i s t a h hout
  cases i
  case pollReceive => exact (blockStep_exec rfl (by simp) h).sameByte hout.1 hout.2
  case reclaimCompleted => exact (blockStep_exec rfl (by simp) h).sameByte hout.1 hout.2
  case process => exact (blockStep_exec rfl (by simp) h).sameByte hout.1 hout.2
  case irq => exact (blockStep_exec rfl (by simp) h).sameByte hout.1 hout.2
  case workerRun => exact (blockStep_exec rfl (by simp) h).sameByte hout.1 hout.2
  case txpoll => exact sameByte_exec (i := .txpoll) (sameByte_txpoll hout) h
  case pollExpire => exact sameByte_exec (i := .pollExpire) (sameByte_pollExpire hout) h
  case txtoExpire => exact sameByte_exec (i := .txtoExpire) (sameByte_txtoExpire hout) h
  case notifyTxAvailable => exact sameByte_exec (i := .notifyTxAvailable) (sameByte_notify hout) h
  case bringUp => exact sameByte_exec (i := .bringUp) (sameByte_bringUp hout.1 hout.2) h
  all_goals exact hout.elim

end Sys2Proof.Machine
end

section
/-!
The delivery of a complete frame (O24) and the two ways it faults (O26): the copy, the callout with its reply, and the recycle,
one after the other.
-/

namespace Sys2Proof.Machine

/-! ## The copy of a frame (rule R91) -/

/-- The state in which the frame of RX slot `i` has been copied and is about to be delivered. -/
def State.copied (s : State) (i : Nat) : State :=
  { s with
    mem := s.mem.writeList s.cfg.xbufAddr.toNat (s.readBytes (s.desc .rx i).buf.toNat (s.desc .rx i).len.toNat)
    xlen := (s.desc .rx i).len }

theorem getD_readBytes {s : State} {n k : Nat} (a : Nat) (h : k < n) : (s.readBytes a n).getD k none = s.readByte (a + k) := by
  simp [State.readBytes, List.getD_eq_getElem?_getD, h]

section
variable {s : State} {i : Nat} (hs : Shape s) (hb : RxBuffers s) (hi : i < s.cfg.nRx)
include hs hb hi

theorem len_le_xbufSize : (s.desc .rx i).len.toNat ≤ s.cfg.xbufSize := (hb.len_le i hi).trans (Config.xbufSize_ge hs.cfg_wf)

/-- The exchange buffer holds the frame, byte for byte. -/
theorem readByte_copied (a : Nat) : (s.copied i).readByte a =
    if s.cfg.xbufAddr.toNat ≤ a ∧ a < s.cfg.xbufAddr.toNat + (s.desc .rx i).len.toNat then
      s.readByte ((s.desc .rx i).buf.toNat + (a - s.cfg.xbufAddr.toNat))
    else s.readByte a := by
  have hlen := len_le_xbufSize hs hb hi
  have hw := State.readByte_writeList hs.mem_wf s.cfg.xbufAddr.toNat a
    (s.readBytes (s.desc .rx i).buf.toNat (s.desc .rx i).len.toNat)
  rw [show (s.readBytes (s.desc .rx i).buf.toNat (s.desc .rx i).len.toNat).length = (s.desc .rx i).len.toNat by
    simp [State.readBytes]] at hw
  refine (State.readByte_eq_of rfl rfl rfl rfl a).trans (hw.trans ?_)
  by_cases ha : s.cfg.xbufAddr.toNat ≤ a ∧ a < s.cfg.xbufAddr.toNat + (s.desc .rx i).len.toNat
  · obtain ⟨hrx, htx⟩ := slotAt_xbuf hs ha.1 (by omega)
    rw [if_pos ⟨hrx, htx, ha⟩, if_pos ha, getD_readBytes _ (by omega)]
  · rw [if_neg fun h => ha h.2.2, if_neg ha]

theorem shape_copied : Shape (s.copied i) := by
  have hcopy := blockStep_copyFrame (s.desc .rx i).buf.toNat (s.desc .rx i).len.toNat s (len_le_xbufSize hs hb hi)
  rw [copyFrame_ok hs hb hi] at hcopy
  exact (hcopy.trans .regs).common.shape hs

/-- A frame in a slot's own buffer is copied, and what is left is the delivery. -/
theorem deliverFrame_eq : deliverFrame i s = (callUp (.deliver (s.desc .rx i).len) (s.copied i)).andThen submitAnswer := by
  have hlen := len_le_xbufSize hs hb hi
  unfold deliverFrame
  dsimp only
  rw [if_neg (by omega), copyFrame_ok hs hb hi, Res.ok_andThen]
  rfl

/-- With room for a reply the frame is delivered and the reply submitted (rules R151 and R154). -/
theorem deliverFrame_ok (hr : s.calloutHasRoom) : ∃ st res v,
    deliverFrame i s = .done st res v ∧ AfterCallout (.deliver (s.desc .rx i).len) (s.copied i) v := by
  have hc := shape_copied hs hb hi
  obtain ⟨st, res, hv⟩ := callout_ok (s := s.copied i) (.deliver (s.desc .rx i).len) hc.cfg_wf hr
  exact ⟨st, res, _, (deliverFrame_eq hs hb hi).trans hv, afterCallout_state hc _⟩

end

/-! ## A complete frame in the current slot (rule R151) -/

theorem consumeSlot_complete {s : State} {i : Nat} (hfs : (s.desc .rx i).fs = true) (hls : (s.desc .rx i).ls = true) :
    consumeSlot i s = (deliverFrame i s).andThen (recycle i) := by
  unfold consumeSlot
  rw [if_pos (by simp [Desc.complete, hfs, hls])]

theorem exec_pollReceive {s : State} (hp : s.portOpen) : exec .pollReceive s = answerCommand .internal (pollReceive s) :=
  exec_open hp rfl rfl rfl

/-- A complete frame that was delivered: its slot is recycled, and the scan policy says whether the walk goes on. -/
theorem pollReceive_delivered {s v : State} {st : Status} {res : Word} (ho : (s.desc .rx s.rxCur).own = .sw)
    (hfs : (s.desc .rx s.rxCur).fs = true) (hls : (s.desc .rx s.rxCur).ls = true)
    (hv : deliverFrame s.rxCur s = .done st res v) : pollReceive s =
      if s.cfg.rxScan = .oneFrame then .ok (afterRecycle s.rxCur v) else pollReceive (afterRecycle s.rxCur v) := by
  have hkept := deliverFrame_rxd s.rxCur s
  rw [hv] at hkept
  have ho' : (v.desc .rx s.rxCur).own = .sw := by rw [State.desc_rx, hkept.1]; exact ho
  rw [pollReceive_step, if_neg (by rw [ho]; decide), consumeSlot_complete hfs hls, hv, Res.done_andThen, recycle_sw ho',
    Res.ok_andThen]
  simp only [hfs, hls, and_true]

/-- The recycled slot is the one the walk found: a delivery changes neither the RX ring nor the parameters. -/
theorem afterRecycle_eq {s v : State} (hr : v.rxd = s.rxd) (hc : v.cfg = s.cfg) (i : Nat) : afterRecycle i v =
    { v with
      rxd := s.rxd.set i (s.recycled i)
      rxCur := (i + 1) &&& (s.cfg.nRx - 1)
      trace := v.trace ++ descEvents .rx i (s.recycled i) } := by
  have hd : v.recycled i = s.recycled i := by simp only [State.recycled, State.desc_rx, hr, hc]
  simp only [afterRecycle, hd, hr, hc]
  rfl

/-- Settles O24: the copy, the delivery with its reply and the recycle complete one after the other. -/
theorem completeFrameIsDelivered : Obligations.CompleteFrameIsDelivered := by
  unfold Obligations.CompleteFrameIsDelivered
  intro s hs hb hp hroom ho hfs hls
  have hi : s.rxCur < s.cfg.nRx := hs.rx_cur
  obtain ⟨st, res, v, hv, hcall⟩ := deliverFrame_ok hs hb hi hroom
  refine ⟨s.copied s.rxCur, v, rfl, readByte_copied hs hb hi, hcall, ?_⟩
  have hkept := deliverFrame_rxd s.rxCur s
  have hfault := faultRule_deliverFrame s.rxCur s
  rw [hv] at hkept hfault
  obtain ⟨hrxd, hcfg, _⟩ := hkept
  have hopen : (afterRecycle s.rxCur v).portOpen := ⟨(congrArg Config.testPort hcfg).trans hp.1, Eq.trans hfault hp.2⟩
  have hpoll := pollReceive_delivered ho hfs hls hv
  rw [afterRecycle_eq hrxd hcfg] at hopen hpoll
  rw [exec_pollReceive hp, hpoll]
  cases s.cfg.rxScan with
  | oneFrame => rfl
  | drain => exact (exec_pollReceive hopen).symm

/-! ## The two faults of a delivery (rules R91 and R264) -/

/-- A delivery that faults ends the walk before its slot is recycled. -/
theorem exec_pollReceive_raised {s u : State} (hp : s.portOpen) (ho : (s.desc .rx s.rxCur).own = .sw)
    (hfs : (s.desc .rx s.rxCur).fs = true) (hls : (s.desc .rx s.rxCur).ls = true)
    (hu : deliverFrame s.rxCur s = .raised u) : exec .pollReceive s = .next (respondFault u) := by
  rw [exec_pollReceive hp, pollReceive_step, if_neg (by rw [ho]; decide), consumeSlot_complete hfs hls, hu]
  rfl

/-- The first fault enters the fault register. -/
theorem raise_eq {s : State} (h : s.fault = .none) (code : FaultCode) : raise code s = .raised { s with fault := code } := by
  rw [raise, if_pos h]

theorem deliverFrame_tooLong {s : State} {i : Nat} (h : s.cfg.xbufSize < (s.desc .rx i).len.toNat) :
    deliverFrame i s = raise .vRxLen s := by
  unfold deliverFrame
  exact if_pos h

/-- A callout that answers with a frame on a full ring (rules R161 and R228 (c)). -/
theorem callout_full {s : State} (c : Callout) (h : s.cfg.wf = true) (hu : s.up = true) (hf : s.txPend = s.cfg.nTx)
    (hl : s.nextAnswer.len ≠ 0) : (callUp c s).andThen submitAnswer = raise .vAdmission (afterCallState c s) := by
  rw [callUp_of_wf c h, Res.ok_andThen, submitAnswer, if_pos (show (afterCallState c s).xlen ≠ 0 from hl)]
  exact submit_full _ _ hu hf

/-- Settles O26: the length test comes before the copy, the reply after the delivery; either fault ends the walk there. -/
theorem receiveFaultsLeaveTheSlot : Obligations.ReceiveFaultsLeaveTheSlot := by
  unfold Obligations.ReceiveFaultsLeaveTheSlot
  intro s hp ho hfs hls
  refine ⟨fun hlong => ?_, fun hs hb hup hfull hlen => ?_⟩
  · exact exec_pollReceive_raised hp ho hfs hls ((deliverFrame_tooLong hlong).trans (raise_eq hp.2 _))
  · have hreply : deliverFrame s.rxCur s = .raised
        { afterCallState (.deliver (s.desc .rx s.rxCur).len) (s.copied s.rxCur) with fault := .vAdmission } := by
      rw [deliverFrame_eq hs hb hs.rx_cur, callout_full _ (shape_copied hs hb hs.rx_cur).cfg_wf hup hfull hlen]
      exact raise_eq (show (afterCallState _ (s.copied s.rxCur)).fault = .none from hp.2) _
    exact ⟨_, exec_pollReceive_raised hp ho hfs hls hreply, rfl, rfl, rfl, rfl, rfl, rfl, rfl, rfl⟩

end Sys2Proof.Machine
end

section
/-!
The contract of the MAC agent (O52): what each of its four moves keeps, and so what every instruction of its class keeps.
-/

namespace Sys2Proof.Machine

/-! ## The contract (rules R80 (a), R92 and R240) -/

/-- What a move of the MAC agent keeps. -/
structure MacKeeps (s t : State) : Prop where
  cfg      : t.cfg = s.cfg
  software : ∀ r k, (s.desc r k).own = .sw → t.desc r k = s.desc r k
  buffers  : ∀ k, k < s.cfg.nRx → (s.desc .rx k).own = .sw → ∀ a, (s.cfg.rxBufAddr.getD k 0).toNat ≤ a →
    a < (s.cfg.rxBufAddr.getD k 0).toNat + s.cfg.rxBufSize.toNat → t.mem.read a = s.mem.read a
  fields   : ∀ r k, (t.desc r k).wrap = (s.desc r k).wrap ∧ (t.desc r k).buf = (s.desc r k).buf ∧
    (t.desc r k).ic = (s.desc r k).ic
  frames   : ∀ k, (t.desc .tx k).len = (s.desc .tx k).len ∧ (t.desc .tx k).fs = (s.desc .tx k).fs ∧
    (t.desc .tx k).ls = (s.desc .tx k).ls
  status   : t.isr &&& s.isr = s.isr
  control  : t.imr = s.imr ∧ t.maccr = s.maccr ∧ t.txbase = s.txbase ∧ t.rxbase = s.rxbase

theorem MacKeeps.trans {s t u : State} (h : MacKeeps s t) (k : MacKeeps t u) : MacKeeps s u where
  cfg := k.cfg.trans h.cfg
  software r i ho := (k.software r i (by rw [h.software r i ho]; exact ho)).trans (h.software r i ho)
  buffers i hi ho a h1 h2 := by
    have ht := k.buffers i (by rw [h.cfg]; exact hi) (by rw [h.software .rx i ho]; exact ho) a
    rw [h.cfg] at ht
    exact (ht h1 h2).trans (h.buffers i hi ho a h1 h2)
  fields r i := by
    obtain ⟨h1, h2, h3⟩ := h.fields r i
    obtain ⟨k1, k2, k3⟩ := k.fields r i
    exact ⟨k1.trans h1, k2.trans h2, k3.trans h3⟩
  frames i := by
    obtain ⟨h1, h2, h3⟩ := h.frames i
    obtain ⟨k1, k2, k3⟩ := k.frames i
    exact ⟨k1.trans h1, k2.trans h2, k3.trans h3⟩
  status := by rw [← h.status, ← BitVec.and_assoc, k.status]
  control := by
    obtain ⟨h1, h2, h3, h4⟩ := h.control
    obtain ⟨k1, k2, k3, k4⟩ := k.control
    exact ⟨k1.trans h1, k2.trans h2, k3.trans h3, k4.trans h4⟩

/-- An update of registers that the contract leaves to the agent; a status bit may be set. -/
theorem MacKeeps.regs {s t : State} (hi : t.isr &&& s.isr = s.isr := by exact BitVec.and_self) (hc : t.cfg = s.cfg := by rfl)
    (hr : t.rxd = s.rxd := by rfl) (hx : t.txd = s.txd := by rfl) (hm : t.mem = s.mem := by rfl)
    (hk : t.imr = s.imr ∧ t.maccr = s.maccr ∧ t.txbase = s.txbase ∧ t.rxbase = s.rxbase := by exact ⟨rfl, rfl, rfl, rfl⟩) :
    MacKeeps s t := by
  have hd : ∀ r k, t.desc r k = s.desc r k := fun r k => by cases r <;> simp only [State.desc_rx, State.desc_tx, hr, hx]
  refine ⟨hc, fun r k _ => hd r k, fun _ _ _ a _ _ => by rw [hm], fun r k => ?_, fun k => ?_, hi, hk⟩ <;> rw [hd] <;>
    exact ⟨rfl, rfl, rfl⟩

/-- A Hardware-owned descriptor replaced by one with the same wrap marker, buffer and `ic`, and on the TX ring the same length
and segment flags. -/
theorem macKeeps_setDesc {r : Ring} {i : Nat} {d : Desc} {s : State} (ho : (s.desc r i).own = .hw)
    (hd : d.wrap = (s.desc r i).wrap ∧ d.buf = (s.desc r i).buf ∧ d.ic = (s.desc r i).ic)
    (hx : r = .tx → d.len = (s.desc r i).len ∧ d.fs = (s.desc r i).fs ∧ d.ls = (s.desc r i).ls) :
    MacKeeps s (s.setDesc r i d) where
  cfg := by simp
  software q k hk := State.desc_setDesc_ne d (by rintro ⟨rfl, rfl⟩; rw [ho] at hk; cases hk)
  buffers _ _ _ _ _ _ := by simp
  fields q k := by
    rw [State.desc_setDesc]
    split
    · next h => obtain ⟨rfl, rfl, _⟩ := h; exact hd
    · exact ⟨rfl, rfl, rfl⟩
  frames k := by
    rw [State.desc_setDesc]
    split
    · next h => obtain ⟨rfl, rfl, _⟩ := h; exact hx rfl
    · exact ⟨rfl, rfl, rfl⟩
  status := by cases r <;> exact BitVec.and_self
  control := by cases r <;> exact ⟨rfl, rfl, rfl, rfl⟩

/-! ## The four moves -/

theorem or_and_self_left (x y : Byte) : (x ||| y) &&& x = x := by
  ext k; simp +contextual

theorem macKeeps_raiseBits (bits : Byte) (s : State) : MacKeeps s (raiseBits bits s) := .regs (hi := or_and_self_left ..)

/-- A completion writes the status and the ownership bit of a Hardware-owned TX slot, and no frame byte (rule R242). -/
theorem macKeeps_macTxDone {idx : Nat} {s : State} (hg : macTxDoneGuard idx s = true) (stat : Half) :
    MacKeeps s (macTxDone idx stat s) := by
  simp only [macTxDoneGuard, Bool.and_eq_true, beq_iff_eq] at hg
  obtain ⟨⟨_, ho⟩, _⟩ := hg
  rw [macTxDone_eq]
  refine (macKeeps_setDesc (d := (s.desc .tx idx).apply (.status (fitStat s.cfg.layout stat) .sw)) ho ⟨rfl, rfl, rfl⟩
    fun _ => ⟨rfl, rfl, rfl⟩).trans (.regs (hi := ?_))
  show (if (s.desc .tx idx).ic then s.isr ||| txOk else s.isr) &&& s.isr = s.isr
  split
  · exact or_and_self_left ..
  · exact BitVec.and_self

theorem mem_writeBytes_outside {a x : Nat} (bs : List Byte) (s : State) (h : ¬ (a ≤ x ∧ x < a + bs.length)) :
    (s.writeBytes a bs).mem.read x = s.mem.read x := by
  induction bs generalizing s a with
  | nil => rfl
  | cons b bs ih =>
    rw [List.length_cons] at h
    rw [State.writeBytes, ih _ (by omega)]
    unfold State.writeByte
    split
    · simp
    · split
      · simp
      · exact Memory.read_insert_ne _ b (by omega)

/-- A received frame lies where its slot points, and memory is as it was elsewhere (rules R92 and R243). -/
theorem mem_macRxFrame (len : Half) (fs ls : Bool) (stat : Half) (seed : Byte) (s : State) :
    (macRxFrame len fs ls stat seed s).Rel (fun s t => ∀ x, ¬ ((s.desc .rx s.macRxIdx).buf.toNat ≤ x ∧
      x < (s.desc .rx s.macRxIdx).buf.toNat + len.toNat) → t.mem.read x = s.mem.read x) s := by
  unfold macRxFrame
  dsimp only
  split
  · trivial
  · intro x hx
    have h := mem_writeBytes_outside (seededBytes seed len.toNat) s (by simpa [seededBytes] using hx)
    simpa [raiseBits] using h

/-- A frame goes into the buffer of a Hardware-owned slot, which no other slot shares (rules R71, R92 and R243). -/
theorem macKeeps_macRxFrame {s : State} (hs : Shape s) (hb : RxBuffers s) {len : Half} (hg : macRxFrameGuard len s = true)
    (fs ls : Bool) (stat : Half) (seed : Byte) : (macRxFrame len fs ls stat seed s).Rel MacKeeps s := by
  simp only [macRxFrameGuard, Bool.and_eq_true, beq_iff_eq, decide_eq_true_eq] at hg
  obtain ⟨⟨_, ho⟩, hlen⟩ := hg
  have hi := hs.mac_rx_idx
  have hmem := mem_macRxFrame len fs ls stat seed s
  obtain ⟨m, hm⟩ := macRxFrame_ok hs hb hlen fs ls stat seed
  rw [hm] at hmem ⊢
  have hstore : MacKeeps s { s with mem := m } :=
    { MacKeeps.regs (s := s) (t := s) with
      buffers := fun k hk hsw a h1 h2 => hmem a fun hin => by
        have hne : k ≠ s.macRxIdx := fun he => by rw [he, ho] at hsw; cases hsw
        have hapart := Config.bufs_apart hs.cfg_wf hk hi hne
        have hle := hb.len_le _ hi
        rw [hb.own_buffer _ hi] at hin
        omega }
  exact (hstore.trans (macKeeps_setDesc (r := .rx) (i := s.macRxIdx) (d := s.filled len fs ls stat) ho ⟨rfl, rfl, rfl⟩
    (by simp))).trans (.regs (hi := or_and_self_left ..))

/-! ## Every instruction of the agent -/

/-- An accepted move keeps the contract. -/
theorem macKeeps_bodyOf {i : Instr} (hm : isMacMove i = true) {s : State} (hs : Shape s) (hb : RxBuffers s)
    (ha : portCheck (gateOf i s) s = .ok) : (bodyOf i s).Rel MacKeeps s := by
  obtain ⟨_, _, _, _, _, hguard⟩ := (portCheck_eq_ok_iff _ _).mp ha
  obtain ⟨idx, stat, rfl⟩ | ⟨len, fs, ls, stat, seed, rfl⟩ | ⟨bits, rfl⟩ | ⟨link, rfl⟩ := isMacMove_cases hm
  · exact macKeeps_macTxDone hguard stat
  · exact macKeeps_macRxFrame hs hb hguard fs ls stat seed
  · exact macKeeps_raiseBits bits s
  · exact MacKeeps.trans (t := { s with phyLink := link }) .regs (macKeeps_raiseBits phyChg _)

theorem macKeeps_exec {i : Instr} (hm : isMacMove i = true) {s t : State} (hs : Shape s) (hb : RxBuffers s)
    (h : exec i s = .next t) : MacKeeps s t := by
  rcases exec_next_cases h with ⟨_, rfl⟩ | ⟨ha, ⟨st, res, u, hu, rfl⟩ | ⟨u, hu, rfl⟩⟩
  · exact .regs
  all_goals
    have hbody := macKeeps_bodyOf hm hs hb ha
    rw [hu] at hbody
  · rw [respond_eq]; exact hbody.trans .regs
  · exact hbody.trans .regs

/-- Inside an RX frame buffer the flat space is memory. -/
theorem readByte_rxBuf {s : State} (hs : Shape s) {k a : Nat} (hk : k < s.cfg.nRx) (h1 : (s.cfg.rxBufAddr.getD k 0).toNat ≤ a)
    (h2 : a < (s.cfg.rxBufAddr.getD k 0).toNat + s.cfg.rxBufSize.toNat) : s.readByte a = s.mem.read a := by
  obtain ⟨hrx, htx, _⟩ := Config.buf_apart hs.cfg_wf hk
  simp only [Config.rxRingRegion, Config.txRingRegion] at hrx htx
  refine State.readByte_of_none ?_ ?_ <;> rw [State.slotAt_eq_none_iff]
  · simp only [Config.ringAddr, State.ring, hs.rx_length]; omega
  · simp only [Config.ringAddr, State.ring, hs.tx_length]; omega

/-- Settles O52: an accepted move keeps the contract, and a buffer's bytes are memory in both states. -/
theorem macAgentKeepsItsContract : Obligations.MacAgentKeepsItsContract := by
  unfold Obligations.MacAgentKeepsItsContract
  intro i s t henv hs hb h
  have hkeeps := macKeeps_exec (beq_iff_eq.mpr henv) hs hb h
  have ht : Shape t := (common_exec h).shape hs
  refine ⟨hkeeps.software, fun k hk ho a h1 h2 => ?_, hkeeps.fields, hkeeps.frames, hkeeps.status, hkeeps.control⟩
  have hread := readByte_rxBuf (k := k) (a := a) ht
  rw [hkeeps.cfg] at hread
  rw [hread hk h1 h2, readByte_rxBuf hs hk h1 h2, hkeeps.buffers k hk ho a h1 h2]

end Sys2Proof.Machine
end

section
/-!
The encoding: what each format of a command holds and what the decoder reads from it, so that a decoded command is the one the
encoder writes (O2), an encoded one is read back as words and as bytes (O1), and the words of the encoding vectors (O3); and
the step that takes, decodes and runs one command (O6).
-/

namespace Sys2Proof

/-! ## A word and its fields -/

/-- A word is made of two fields exactly when the fields stand in it, the second lowest. -/
theorem eq_append_iff {m n : Nat} {w : BitVec (m + n)} {a : BitVec m} {b : BitVec n} :
    w = a ++ b ↔ w.extractLsb' n m = a ∧ w.extractLsb' 0 n = b where
  mp := by
    rintro rfl
    exact ⟨BitVec.extractLsb'_append_eq_left, BitVec.extractLsb'_append_eq_right⟩
  mpr := by
    rintro ⟨rfl, rfl⟩
    exact BitVec.extractLsb'_append_extractLsb'.symm

theorem extractLsb'_extractLsb' {w i m j n : Nat} (x : BitVec w) (h : j + n ≤ m) :
    (x.extractLsb' i m).extractLsb' j n = x.extractLsb' (i + j) n := by
  refine BitVec.eq_of_getLsbD_eq fun b hb => ?_
  have hj : j + b < m := by omega
  simp [hb, hj, Nat.add_assoc]

theorem extractLsb'_eq_bitField {w i : Nat} {x : BitVec w} {b : Bool} : x.extractLsb' i 1 = bitField b ↔ x.getLsbD i = b := by
  have h : x.extractLsb' i 1 = bitField (x.getLsbD i) := by
    refine BitVec.eq_of_getLsbD_eq fun j hj => ?_
    obtain rfl : j = 0 := by omega
    simp [bitField]
  rw [h, bitField, bitField, BitVec.ofBool_eq_iff_eq]

/-! ### The shapes of the words (rule R112) -/

section
variable {w : Word} {op : Byte}

/-- `W0` of formats N, F and V. -/
theorem eq_op_iff {z : BitVec 24} : w = op ++ z ↔ w.extractLsb' 24 8 = op ∧ w.extractLsb' 0 24 = z :=
  eq_append_iff (m := 8) (n := 24)

/-- `W1` of formats D, F, T and X. -/
theorem eq_halves_iff {hi lo : Half} : w = hi ++ lo ↔ w.extractLsb' 16 16 = hi ∧ w.extractLsb' 0 16 = lo :=
  eq_append_iff (m := 16) (n := 16)

/-- A word with a byte operand. -/
theorem eq_byte_iff {z : BitVec 24} {b : Byte} : w = z ++ b ↔ w.extractLsb' 8 24 = z ∧ w.extractLsb' 0 8 = b :=
  eq_append_iff (m := 24) (n := 8)

/-- A word with a one-bit operand. -/
theorem eq_lowBit_iff {z : BitVec 31} {b : Bool} : w = z ++ bitField b ↔ w.extractLsb' 1 31 = z ∧ w.getLsbD 0 = b :=
  (eq_append_iff (m := 31)).trans (and_congr_right' extractLsb'_eq_bitField)

/-- `W0` of formats R and T. -/
theorem eq_opHalf_iff {z : Byte} {x : Half} : w = op ++ z ++ x ↔
    w.extractLsb' 24 8 = op ∧ w.extractLsb' 16 8 = z ∧ w.extractLsb' 0 16 = x := by
  simp (disch := decide) [eq_append_iff (m := 16) (n := 16), eq_append_iff (m := 8) (n := 8), extractLsb'_extractLsb',
    and_assoc]

/-- `W0` of format S. -/
theorem eq_opSlot_iff {r : Bool} {z : BitVec 7} {idx : Half} : w = op ++ bitField r ++ z ++ idx ↔
    w.extractLsb' 24 8 = op ∧ w.getLsbD 23 = r ∧ w.extractLsb' 16 7 = z ∧ w.extractLsb' 0 16 = idx := by
  simp (disch := decide) [eq_append_iff (m := 16) (n := 16), eq_append_iff (m := 9) (n := 7), eq_append_iff (m := 8) (n := 1),
    extractLsb'_extractLsb', extractLsb'_eq_bitField, and_assoc]

/-- `W0` of format D. -/
theorem eq_opDesc_iff {r fs ls ic : Bool} {z : BitVec 4} {idx : Half} :
    w = op ++ bitField r ++ bitField fs ++ bitField ls ++ bitField ic ++ z ++ idx ↔
      w.extractLsb' 24 8 = op ∧ w.getLsbD 23 = r ∧ w.getLsbD 22 = fs ∧ w.getLsbD 21 = ls ∧ w.getLsbD 20 = ic ∧
      w.extractLsb' 16 4 = z ∧ w.extractLsb' 0 16 = idx := by
  simp (disch := decide) [eq_append_iff (m := 16) (n := 16), eq_append_iff (m := 12) (n := 4), eq_append_iff (m := 11) (n := 1),
    eq_append_iff (m := 10) (n := 1), eq_append_iff (m := 9) (n := 1), eq_append_iff (m := 8) (n := 1),
    extractLsb'_extractLsb', extractLsb'_eq_bitField, and_assoc]

/-- `W0` of format X. -/
theorem eq_opFrame_iff {fs ls : Bool} {z : BitVec 21} : w = op ++ 0#1 ++ bitField fs ++ bitField ls ++ z ↔
    w.extractLsb' 24 8 = op ∧ w.getLsbD 23 = false ∧ w.getLsbD 22 = fs ∧ w.getLsbD 21 = ls ∧ w.extractLsb' 0 21 = z := by
  have hzero : w.extractLsb' 23 1 = 0#1 ↔ w.getLsbD 23 = false := extractLsb'_eq_bitField (b := false)
  simp (disch := decide) [hzero, eq_append_iff (m := 11) (n := 21), eq_append_iff (m := 10) (n := 1),
    eq_append_iff (m := 9) (n := 1), eq_append_iff (m := 8) (n := 1), extractLsb'_extractLsb', extractLsb'_eq_bitField, and_assoc]

/-- A word byte by byte (rule R75). -/
theorem eq_bytes_iff {b0 b1 b2 b3 : Byte} : w = b3 ++ b2 ++ b1 ++ b0 ↔
    w.extractLsb' 24 8 = b3 ∧ w.extractLsb' 16 8 = b2 ∧ w.extractLsb' 8 8 = b1 ∧ w.extractLsb' 0 8 = b0 := by
  simp (disch := decide) [eq_append_iff (m := 24) (n := 8), eq_append_iff (m := 16) (n := 8), eq_append_iff (m := 8) (n := 8),
    extractLsb'_extractLsb', and_assoc]

end

/-! ## The formats: an opcode and a format's answer fix the command -/

theorem Command.eq_mk_iff {c : Command} {w0 w1 w2 : Word} : c = ⟨w0, w1, w2⟩ ↔ c.w0 = w0 ∧ c.w1 = w1 ∧ c.w2 = w2 := by
  cases c; simp

theorem Ring.eq_bit_iff {b : Bool} {r : Ring} : b = r.bit ↔ Ring.ofBit b = r := by cases b <;> cases r <;> decide

section
variable {c : Command} {op : Byte} {i : Instr}

theorem formatN_iff {j : Instr} : c.op = op ∧ formatN j c = some i ↔ c = encodeN op ∧ j = i := by
  rw [formatN, Option.ite_none_right_eq_some]
  simp [encodeN, Command.eq_mk_iff, eq_op_iff, Command.op, and_assoc]

theorem formatReserved_iff {j : Instr} : c.op = op ∧ formatReserved j c = some i ↔ c.w0 = (encodeN op).w0 ∧ j = i := by
  rw [formatReserved, Option.ite_none_right_eq_some]
  simp [encodeN, eq_op_iff, Command.op, and_assoc]

theorem formatS_iff {k : Ring → Half → Instr} :
    c.op = op ∧ formatS k c = some i ↔ ∃ r idx, c = encodeS op r idx ∧ k r idx = i := by
  rw [formatS, Option.ite_none_right_eq_some]
  simp [encodeS, Command.eq_mk_iff, eq_opSlot_iff, Ring.eq_bit_iff, Command.op, Command.bit23, Command.low, and_assoc]

theorem formatD_iff {k : Ring → Half → Word → Half → Bool → Bool → Bool → Instr} :
    c.op = op ∧ formatD k c = some i ↔
      ∃ r idx buf len fs ls ic, c = encodeD op r idx buf len fs ls ic ∧ k r idx buf len fs ls ic = i := by
  rw [formatD, Option.ite_none_right_eq_some]
  simp [encodeD, Command.eq_mk_iff, eq_opDesc_iff, eq_halves_iff, Ring.eq_bit_iff, Command.op, Command.bit23,
    Command.bit22, Command.bit21, Command.bit20, Command.low, Command.w1low, Command.w1high, and_assoc]

theorem formatF_iff {k : Word → Half → Instr} :
    c.op = op ∧ formatF k c = some i ↔ ∃ p n, c = encodeF op p n ∧ k p n = i := by
  rw [formatF, Option.ite_none_right_eq_some]
  simp [encodeF, Command.eq_mk_iff, eq_op_iff, eq_halves_iff, Command.op, Command.w1low, Command.w1high, and_assoc]

theorem formatRRead_iff {lay : Layout} {k : Reg → Instr} : c.op = op ∧ formatRRead lay k c = some i ↔
    ∃ off r, c = ⟨op ++ 0#8 ++ off, 0, 0⟩ ∧ Reg.ofOffset lay off = some r ∧ k r = i := by
  rw [formatRRead, Option.ite_none_right_eq_some]
  simp [Command.eq_mk_iff, eq_opHalf_iff, Command.op, Command.low, and_assoc]

theorem formatRWrite_iff {lay : Layout} {k : Reg → Word → Instr} : c.op = op ∧ formatRWrite lay k c = some i ↔
    ∃ off r val, c = ⟨op ++ 0#8 ++ off, val, 0⟩ ∧ Reg.ofOffset lay off = some r ∧ k r val = i := by
  rw [formatRWrite, Option.ite_none_right_eq_some]
  simp [Command.eq_mk_iff, eq_opHalf_iff, Command.op, Command.low, and_assoc]

theorem formatV8_iff {k : Byte → Instr} :
    c.op = op ∧ formatV8 k c = some i ↔ ∃ b : Byte, c = encodeV op (0#24 ++ b) ∧ k b = i := by
  rw [formatV8, Option.ite_none_right_eq_some]
  simp [encodeV, Command.eq_mk_iff, eq_op_iff, eq_byte_iff, Command.op, and_assoc]

theorem formatV1_iff {k : Bool → Instr} :
    c.op = op ∧ formatV1 k c = some i ↔ ∃ b : Bool, c = encodeV op (0#31 ++ bitField b) ∧ k b = i := by
  rw [formatV1, Option.ite_none_right_eq_some]
  simp [encodeV, Command.eq_mk_iff, eq_op_iff, eq_lowBit_iff, Command.op, and_assoc]

theorem formatT_iff {k : Half → Half → Instr} :
    c.op = op ∧ formatT k c = some i ↔ ∃ idx stat, c = encodeT op idx stat ∧ k idx stat = i := by
  rw [formatT, Option.ite_none_right_eq_some]
  simp [encodeT, Command.eq_mk_iff, eq_opHalf_iff, eq_halves_iff, Command.op, Command.low, Command.w1low,
    Command.w1high, and_assoc]

theorem formatX_iff {k : Half → Bool → Bool → Half → Byte → Instr} : c.op = op ∧ formatX k c = some i ↔
    ∃ len fs ls stat seed, c = encodeX op len fs ls stat seed ∧ k len fs ls stat seed = i := by
  rw [formatX, Option.ite_none_right_eq_some]
  simp [-Bool.exists_bool, encodeX, Command.eq_mk_iff, eq_opFrame_iff, eq_halves_iff, eq_byte_iff, Command.op, Command.bit23,
    Command.bit22, Command.bit21, Command.w1low, Command.w1high, and_assoc]

end

/-! ## The decoder and the encoder -/

theorem Command.op_eq {c : Command} {n : Nat} (h : c.op.toNat = n) : c.op = BitVec.ofNat 8 n := by
  rw [← h, BitVec.ofNat_toNat, BitVec.setWidth_eq]

/-- A register found at an offset stands at that offset, so the encoder writes it. -/
theorem encodeR_of_ofOffset {lay : Layout} {off : Half} {r : Reg} (h : Reg.ofOffset lay off = some r) (op : Byte) (val : Word) :
    ⟨op ++ 0#8 ++ off, val, 0⟩ = encodeR lay op r val := by
  rw [encodeR, Layout.offset_of_ofOffset h]

/-- What the decoder reads from a command fixes its first word, and all three but for a RESERVED operation (rule R116). -/
theorem eq_encode_of_decode {lay : Layout} {c : Command} {i : Instr} (h : decode lay c = some i) :
    c.w0 = (encode lay i).w0 ∧ (Machine.opClass i ≠ .reserved → c = encode lay i) := by
  unfold decode at h
  split at h
  case h_31 => cases h
  all_goals
    rename_i hop
    replace hop := Command.op_eq hop
  case h_25 | h_26 => -- the RESERVED operations
    obtain ⟨hw0, rfl⟩ := formatReserved_iff.mp ⟨hop, h⟩
    exact ⟨hw0, fun hc => absurd rfl hc⟩
  all_goals suffices hc : c = encode lay i from ⟨congrArg Command.w0 hc, fun _ => hc⟩
  case h_1 | h_2 | h_4 => -- `ADVANCE`, `IS_HW`, `RECLAIM`
    obtain ⟨r, idx, rfl, rfl⟩ := formatS_iff.mp ⟨hop, h⟩
    rfl
  case h_3 => -- `RELEASE`
    obtain ⟨r, idx, buf, len, fs, ls, ic, rfl, rfl⟩ := formatD_iff.mp ⟨hop, h⟩
    rfl
  case h_6 => -- `SUBMIT`
    obtain ⟨p, n, rfl, rfl⟩ := formatF_iff.mp ⟨hop, h⟩
    rfl
  case h_10 | h_29 => -- `PROCESS`, `MAC_RAISE`
    obtain ⟨b, rfl, rfl⟩ := formatV8_iff.mp ⟨hop, h⟩
    rfl
  case h_30 => -- `MAC_PHY`
    obtain ⟨link, rfl, rfl⟩ := formatV1_iff.mp ⟨hop, h⟩
    rfl
  case h_23 => -- `REG_READ`
    obtain ⟨off, r, rfl, hr, rfl⟩ := formatRRead_iff.mp ⟨hop, h⟩
    exact encodeR_of_ofOffset hr _ _
  case h_24 => -- `REG_WRITE`
    obtain ⟨off, r, val, rfl, hr, rfl⟩ := formatRWrite_iff.mp ⟨hop, h⟩
    exact encodeR_of_ofOffset hr _ _
  case h_27 => -- `MAC_TX_DONE`
    obtain ⟨idx, stat, rfl, rfl⟩ := formatT_iff.mp ⟨hop, h⟩
    rfl
  case h_28 => -- `MAC_RX_FRAME`
    obtain ⟨len, fs, ls, stat, seed, rfl, rfl⟩ := formatX_iff.mp ⟨hop, h⟩
    rfl
  all_goals -- format N
    obtain ⟨rfl, rfl⟩ := formatN_iff.mp ⟨hop, h⟩
    rfl

/-- Settles O2: what is read fixes the command, word by word of its format. -/
theorem unreservedInstructionHasOneCommand : Obligations.UnreservedInstructionHasOneCommand := by
  unfold Obligations.UnreservedInstructionHasOneCommand
  intro lay c i h
  obtain ⟨hw0, hc⟩ := eq_encode_of_decode h
  exact ⟨hc, fun _ => hw0⟩

/-- An opcode chooses its format. -/
theorem decode_of_format {lay : Layout} {c : Command} {op : Byte} {i : Instr} {format : Command → Option Instr}
    (h : c.op = op ∧ format c = some i) (hdispatch : c.op = op → decode lay c = format c := by intro h; rw [decode, h]; rfl) :
    decode lay c = some i :=
  (hdispatch h.1).trans h.2

theorem decode_encode {lay : Layout} (hw : lay.wf = true) (i : Instr) : decode lay (encode lay i) = some i := by
  cases i with
  | advance r idx | isHw r idx | reclaim r idx => exact decode_of_format (formatS_iff.mpr ⟨r, idx, rfl, rfl⟩)
  | release r idx buf len fs ls ic => exact decode_of_format (formatD_iff.mpr ⟨r, idx, buf, len, fs, ls, ic, rfl, rfl⟩)
  | submit p n => exact decode_of_format (formatF_iff.mpr ⟨p, n, rfl, rfl⟩)
  | process b | macRaise b => exact decode_of_format (formatV8_iff.mpr ⟨b, rfl, rfl⟩)
  | macPhy link => exact decode_of_format (formatV1_iff.mpr ⟨link, rfl, rfl⟩)
  | regRead r => exact decode_of_format (formatRRead_iff.mpr ⟨_, r, rfl, Layout.ofOffset_offset hw r, rfl⟩)
  | regWrite r val => exact decode_of_format (formatRWrite_iff.mpr ⟨_, r, val, rfl, Layout.ofOffset_offset hw r, rfl⟩)
  | addMc | removeMc => exact decode_of_format (formatReserved_iff.mpr ⟨rfl, rfl⟩)
  | macTxDone idx stat => exact decode_of_format (formatT_iff.mpr ⟨idx, stat, rfl, rfl⟩)
  | macRxFrame len fs ls stat seed => exact decode_of_format (formatX_iff.mpr ⟨len, fs, ls, stat, seed, rfl, rfl⟩)
  | _ => exact decode_of_format (formatN_iff.mpr ⟨rfl, rfl⟩)

/-! ## Commands in a byte stream (rules R75 and R111) -/

theorem wordOfBytes_byteOfWord (w : Word) :
    wordOfBytes (byteOfWord w 0) (byteOfWord w 1) (byteOfWord w 2) (byteOfWord w 3) = w :=
  (eq_bytes_iff.mpr ⟨rfl, rfl, rfl, rfl⟩).symm

theorem Command.ofBytes_toBytes (c : Command) (rest : List Byte) : Command.ofBytes (c.toBytes ++ rest) = some (c, rest) := by
  simp [Command.ofBytes, Command.toBytes, bytesOfWord, wordOfBytes_byteOfWord]

/-- Settles O1: each format reads back what its encoder writes, and four bytes give their word back. -/
theorem decodeEncodeRoundTrip : Obligations.DecodeEncodeRoundTrip := by
  unfold Obligations.DecodeEncodeRoundTrip
  intro lay i rest hw
  have hwords := decode_encode hw i
  exact ⟨hwords, by simp only [decodeBytes, Command.ofBytes_toBytes, hwords, Option.map_some]⟩

/-- Settles O3: each triple of words is decoded. -/
theorem specWordsAreRead : Obligations.SpecWordsAreRead := by
  unfold Obligations.SpecWordsAreRead
  decide

/-! ## The step (rules R111, R116 and R270) -/

namespace Machine

section
variable {s : State} {c : Command} {rest : List Command}

theorem step_idle (h : s.cmds = []) : step s = .next s := by rw [step, h]

theorem step_decoded (h : s.cmds = c :: rest) {i : Instr} (hd : decode s.cfg.layout c = some i) :
    step s = exec i { s with cmds := rest } := by
  simp only [step, h, hd]

theorem step_undecoded (h : s.cmds = c :: rest) (hd : decode s.cfg.layout c = none) :
    step s = illegalCommand { s with cmds := rest } := by
  simp only [step, h, hd]

end

/-- Settles O6: the three outcomes of taking a command; a slot index out of range is the first check of the port. -/
theorem stepRunsTheDecodedCommand : Obligations.StepRunsTheDecodedCommand := by
  unfold Obligations.StepRunsTheDecodedCommand
  refine ⟨fun s h => step_idle h, fun s c rest h => ⟨fun i hd _ => step_decoded h hd, fun hd => step_undecoded h hd, ?badSlot⟩⟩
  case badSlot =>
    intro i hd hw
    rw [step_decoded h hd]
    exact exec_refused (portCheck_illegal hw) (by decide)

end Machine

end Sys2Proof
end

section
/-!
The ring primitives at the command port: the next index (O12), the ownership bit (O13), `RELEASE` (O14) and `RECLAIM` (O15);
and the descriptor `SUBMIT` publishes through them (O16).
-/

namespace Sys2Proof.Machine

/-- A slot index beyond its ring is illegal (rule R113). -/
theorem exec_badSlot {i : Instr} {s : State} (hw : i.wf s.cfg = false) : exec i s = .next (s.refused i .eIllegal) :=
  exec_refused (portCheck_illegal hw) (by decide)

/-- A fault ends the command with the fault register holding it (rules R29 and R264). -/
theorem answerCommand_raise {s : State} (cls : OpClass) (code : FaultCode) (h : s.fault = .none) :
    answerCommand cls (raise code s) = .next { s with fault := code, resp := some (.faulted code) } := by
  rw [raise_eq h]
  rfl

/-! ## Advancing a cursor (rules R140 and R145) -/

/-- On a ring of legal capacity `j` advances of a cursor add `j` modulo the capacity. -/
theorem iterate_advanceCursor {cfg : Config} {r : Ring} (h : Config.capacityOk (cfg.capacity r) = true) {c : Nat}
    (hc : c < cfg.capacity r) (j : Nat) : (advanceCursor cfg r)^[j] c = (c + j) % cfg.capacity r := by
  induction j with
  | zero => exact (Nat.mod_eq_of_lt hc).symm
  | succ j ih => rw [Function.iterate_succ_apply', ih, advanceCursor_eq h, Nat.mod_add_mod, Nat.add_assoc]

/-- Settles O12: `j` advances add `j`, and no `j` from 1 to `N - 1` is 0 modulo `N`. -/
theorem advanceRule : Obligations.AdvanceRule := by
  unfold Obligations.AdvanceRule
  refine fun r s hN => ⟨fun c hp hc => ?next, fun c hc => exec_badSlot (decide_eq_false hc.not_gt),
    fun c hc => ⟨?back, fun j h0 hj => ?sooner⟩⟩
  case next =>
    rw [exec_open (i := .advance r c) hp rfl (decide_eq_true hc) rfl, bodyOf, advanceCursor_eq hN]
    rfl
  case back => rw [iterate_advanceCursor hN hc, Nat.add_mod_right, Nat.mod_eq_of_lt hc]
  case sooner =>
    rw [iterate_advanceCursor hN hc, around_eq hc hj.le]
    split <;> omega

/-! ## The three operations on a slot (rules R141 to R143) -/

/-- Settles O13: the answer is the ownership bit of the slot, and nothing else changes. -/
theorem isHwRule : Obligations.IsHwRule := by
  unfold Obligations.IsHwRule
  refine fun r i s => ⟨fun hp hi => ?_, fun hi => exec_badSlot (decide_eq_false hi.not_gt)⟩
  rw [exec_open (i := .isHw r i) hp rfl (decide_eq_true hi) rfl]
  rfl

/-- Settles O14: the owner decides between the three writes and the fault. -/
theorem releaseRule : Obligations.ReleaseRule := by
  unfold Obligations.ReleaseRule
  refine fun r i buf len fs ls ic s => ⟨fun hi => exec_badSlot (decide_eq_false hi.not_gt),
    fun hp hi => ⟨fun ho => ?software, fun ho => ?hardware⟩⟩ <;>
    rw [exec_open (i := .release r i buf len fs ls ic) hp rfl (decide_eq_true hi) rfl, bodyOf]
  case software =>
    rw [release_sw _ _ _ _ _ ho, writeDesc_eq]
    rfl
  case hardware => rw [release_hw _ _ _ _ _ ho, answerCommand_raise _ _ hp.2]

/-- Settles O15: the owner decides between the three writes and the fault. -/
theorem reclaimRule : Obligations.ReclaimRule := by
  unfold Obligations.ReclaimRule
  refine fun r i s => ⟨fun hi => exec_badSlot (decide_eq_false hi.not_gt),
    fun hp hi => ⟨fun ho => ?software, fun ho => ?hardware⟩⟩ <;>
    rw [exec_open (i := .reclaim r i) hp rfl (decide_eq_true hi) rfl, bodyOf]
  case software =>
    rw [reclaim_sw ho, writeDesc_eq]
    rfl
  case hardware => rw [reclaim_hw ho, answerCommand_raise _ _ hp.2]

/-! ## `SUBMIT` (rules R161, R162 and R167) -/

/-- Settles O16: the device is down, the ring is full, or the current slot takes the frame. -/
theorem submitRule : Obligations.SubmitRule := by
  unfold Obligations.SubmitRule
  refine fun p n s hr => ⟨fun hup => ?down, fun hup hfull => ?full, fun hup hroom ho => ?accepted⟩ <;>
    rw [exec_host hr rfl rfl rfl, bodyOf]
  case down =>
    rw [submit_down p n hup]
    rfl
  case full => rw [submit_full p n hup hfull, answerCommand_raise _ _ hr.2]
  case accepted =>
    rw [submit_ok p n hup hroom ho]
    simp [Res.ok, answerCommand, respond, State.log, State.withSubmitted, State.submitted, descEvents]

end Sys2Proof.Machine
end

section
/-!
Where the instructions that write at most one descriptor store (O58): a descriptor write is seen only in the words that hold
one of its fields, and a byte write only at its own address.
-/

namespace Sys2Proof.Machine

/-! ## A byte of a descriptor replaced (rules R75 and R101) -/

/-- The width rule R37 gives the value of a field; the layout's place for it may be wider or narrower (rule R110). -/
def valueWidth : DescField → Nat
  | .own | .wrap | .fs | .ls | .ic => 1
  | .buf => 32
  | .len | .stat => 16

theorem Desc.field_lt (d : Desc) (f : DescField) : d.field f < 2 ^ valueWidth f := by
  cases f
  case buf => exact d.buf.isLt
  case len => exact d.len.isLt
  case stat => exact d.stat.isLt
  all_goals exact Bool.toNat_lt _

theorem Owner.bit_ofBit (b : Bool) : (Owner.ofBit b).bit = b := by cases b <;> rfl

/-- A bit of a field read from 128 bits: the bit at its place, as far as the place and the value go. -/
theorem testBit_field_ofImage (lay : Layout) (x : BitVec 128) (f : DescField) {j : Nat} (hj : j < (lay.place f).width) :
    ((Desc.ofImage lay x).field f).testBit j = (decide (j < valueWidth f) && x.getLsbD ((lay.place f).lo + j)) := by
  have hwide (n : Nat) (p : Place) (hp : j < p.width) :
      (BitVec.ofNat n (Desc.fieldAt p x)).toNat.testBit j = (decide (j < n) && x.getLsbD (p.lo + j)) := by
    simp [Desc.fieldAt, hp, BitVec.getLsbD]
  have hbit (b : Bool) (hp : j < 1) : b.toNat.testBit j = (decide (j < 1) && b) := by
    obtain rfl : j = 0 := by omega
    cases b <;> rfl
  cases f
  case buf => exact hwide 32 lay.buf hj
  case len => exact hwide 16 lay.len hj
  case stat => exact hwide 16 lay.stat hj
  all_goals
    obtain rfl : j = 0 := Nat.lt_one_iff.mp hj
    refine (hbit _ hj).trans ?_
    simp only [Desc.ofImage, Owner.bit_ofBit]
    rfl

/-- 128 bits that agree with a descriptor's in one bit agree with them there when they are read as a descriptor again. -/
theorem getLsbD_image_ofImage {lay : Layout} (h : lay.wf = true) (d : Desc) {x : BitVec 128} {b : Nat}
    (hx : x.getLsbD b = (d.image lay).getLsbD b) :
    ((Desc.ofImage lay x).image lay).getLsbD b = (d.image lay).getLsbD b := by
  by_cases hin : ∃ f, (lay.place f).lo ≤ b ∧ b < (lay.place f).lo + (lay.place f).width
  · obtain ⟨f, hlo, hhi⟩ := hin
    obtain ⟨j, rfl⟩ := Nat.exists_eq_add_of_le hlo
    have hj : j < (lay.place f).width := by omega
    rw [getLsbD_image_field h d f hj] at hx ⊢
    rw [getLsbD_image_field h _ f hj, testBit_field_ofImage lay x f hj, hx]
    by_cases hv : j < valueWidth f
    · simp [hv]
    · have hzero : (d.field f).testBit j = false :=
        Nat.testBit_lt_two_pow ((d.field_lt f).trans_le (Nat.pow_le_pow_right (by decide) (Nat.le_of_not_lt hv)))
      rw [hzero, Bool.and_false]
  · have hout := not_exists.mp hin
    rw [getLsbD_image_reserved _ hout, getLsbD_image_reserved _ hout]

/-- Replacing one of the 16 bytes leaves the bits of the others. -/
theorem getLsbD_replaceByte_ne (x : BitVec 128) {k b : Nat} (v : Byte) (hb : b < 8 * k ∨ 8 * k + 8 ≤ b) :
    (Desc.replaceByte x k v).getLsbD b = x.getLsbD b := by
  have hshifted (u : Byte) : (u.setWidth 128 <<< (8 * k)).getLsbD b = false := by
    rw [BitVec.getLsbD_shiftLeft, BitVec.getLsbD_setWidth]
    obtain hlt | hge := hb
    · simp [hlt]
    · rw [BitVec.getLsbD_of_ge u _ (by omega)]
      simp
  by_cases hin : b < 128
  · have hmask : (0xFF#128 <<< (8 * k)).getLsbD b = false := hshifted 0xFF
    simp only [Desc.replaceByte, BitVec.getLsbD_or, BitVec.getLsbD_and, BitVec.getLsbD_not, hin, hmask, hshifted, decide_true,
      Bool.not_false, Bool.and_true, Bool.or_false]
  · rw [BitVec.getLsbD_of_ge _ _ (Nat.le_of_not_lt hin), BitVec.getLsbD_of_ge _ _ (Nat.le_of_not_lt hin)]

/-- A byte written into a descriptor leaves its other 15 bytes, whether or not its fields fit their places. -/
theorem Desc.byte_setByte_ne {lay : Layout} (h : lay.wf = true) (d : Desc) {j k : Nat} (v : Byte) (hne : j ≠ k) :
    (d.setByte lay k v).byte lay j = d.byte lay j := by
  refine BitVec.eq_of_getLsbD_eq fun t ht => ?_
  simp only [Desc.byte, BitVec.getLsbD_extractLsb', ht, decide_true, Bool.true_and]
  exact getLsbD_image_ofImage h d (getLsbD_replaceByte_ne _ v (by omega))

/-! ## One descriptor written -/

/-- A descriptor replaced: the byte at an address is the same if the descriptor's byte there is. -/
theorem sameByte_setDesc {r : Ring} {i a : Nat} {d : Desc} {s : State}
    (h : ∀ k, a = descAddr s.cfg r i + k → k < 16 → d.byte s.cfg.layout k = (s.desc r i).byte s.cfg.layout k) :
    SameByte a s (s.setDesc r i d) := by
  refine State.readByte_congr (fun q x => State.slotAt_congr (by simp) (by simp) x) (fun q j k hslot => ?_) (fun _ _ => by simp)
  obtain ⟨ha, hk, _⟩ := State.slotAt_eq_some hslot
  rw [State.setDesc_cfg, State.desc_setDesc]
  split
  · next hsame =>
    obtain ⟨rfl, rfl, _⟩ := hsame
    exact h k ha hk
  · rfl

/-- A descriptor write is seen in the words that hold one of the fields it changes (rules R78 and R101). -/
theorem sameByte_setFields {fields : List DescField} {r : Ring} {i a : Nat} {d : Desc} {s : State}
    (hw : s.cfg.layout.wf = true) (hd : ∀ f, f ∉ fields → d.field f = (s.desc r i).field f)
    (ha : ¬ inFields s.cfg fields r i a) : SameByte a s (s.setDesc r i d) := by
  refine sameByte_setDesc fun k hk _ => Desc.byte_congr hw fun f hlo hhi => hd f fun hf => ha ⟨f, hf, ?_⟩
  omega

/-! ## The block's own writes (rules R142, R143 and R161) -/

theorem sameByte_writeFields {r : Ring} {i a : Nat} (d : Desc) {s : State} (hw : s.cfg.layout.wf = true)
    (ha : ¬ inFields s.cfg DescField.all r i a) : SameByte a s (writeDesc r i d s) := by
  rw [writeDesc_eq]
  exact SameByte.trans a _ _ _ (sameByte_setFields (d := d) hw (fun f hf => absurd (Layout.mem_all f) hf) ha) .of

theorem sameByte_release {r : Ring} {i a : Nat} (buf : Word) (len : Half) (fs ls ic : Bool) {s : State}
    (hw : s.cfg.layout.wf = true) (ha : ¬ inFields s.cfg DescField.all r i a) :
    (release r i buf len fs ls ic s).Rel (SameByte a) s := by
  unfold release
  split
  · exact SameByte.of
  · exact sameByte_writeFields _ hw ha

theorem sameByte_reclaim {r : Ring} {i a : Nat} {s : State} (hw : s.cfg.layout.wf = true)
    (ha : ¬ inFields s.cfg DescField.all r i a) : (reclaim r i s).Rel (SameByte a) s := by
  unfold reclaim
  split
  · exact SameByte.of
  · exact sameByte_writeFields _ hw ha

/-- After its release `SUBMIT` writes registers only. -/
theorem sameByte_afterSubmit {a : Nat} (s : State) : SameByte a s (afterSubmit s) :=
  .of (by simp [afterSubmit, txtoStart]) (by simp [afterSubmit, txtoStart]) (by simp [afterSubmit, txtoStart])
    (by simp [afterSubmit, txtoStart])

/-- `SUBMIT` stores to the words of the current TX slot that hold a field, and nowhere else. -/
theorem sameByte_submitFields {a : Nat} (p : Word) (n : Half) {s : State} (hw : s.cfg.layout.wf = true)
    (ha : ¬ inFields s.cfg DescField.all .tx s.txCur a) : (submit p n s).Rel (SameByte a) s := by
  unfold submit
  split
  · exact SameByte.of
  · split
    · exact SameByte.of
    · exact (sameByte_release _ _ _ _ _ hw ha).andThen (SameByte.trans a) fun t _ => sameByte_afterSubmit t

/-! ## The MAC agent's writes (rules R242 and R243) -/

theorem inFields_mono {cfg : Config} {small large : List DescField} (h : small ⊆ large) {r : Ring} {i a : Nat}
    (ha : inFields cfg small r i a) : inFields cfg large r i a := by
  obtain ⟨f, hf, hplace⟩ := ha
  exact ⟨f, h hf, hplace⟩

theorem sameByte_setStatus {r : Ring} {i a : Nat} (stat : Half) (own : Owner) {s : State} (hw : s.cfg.layout.wf = true)
    (ha : ¬ inFields s.cfg [.own, .stat] r i a) :
    SameByte a s (s.setDesc r i ((s.desc r i).apply (.status stat own))) := by
  refine sameByte_setFields hw (fun f hf => ?_) ha
  cases f
  case own | stat => simp at hf
  all_goals rfl

/-- The write of the length and the segment flags keeps the wrap marker and the interrupt flag. -/
theorem sameByte_setBody {r : Ring} {i a : Nat} (len : Half) (fs ls : Bool) {s : State} (hw : s.cfg.layout.wf = true)
    (ha : ¬ inFields s.cfg [.len, .fs, .ls] r i a) :
    SameByte a s (s.setDesc r i ((s.desc r i).apply (.body len fs ls (s.desc r i).wrap (s.desc r i).ic))) := by
  refine sameByte_setFields hw (fun f hf => ?_) ha
  cases f
  case len | fs | ls => simp at hf
  all_goals rfl

theorem sameByte_macTxDone {idx a : Nat} (stat : Half) {s : State} (hw : s.cfg.layout.wf = true)
    (ha : ¬ inFields s.cfg [.own, .stat] .tx idx a) : SameByte a s (macTxDone idx stat s) := by
  rw [macTxDone_eq]
  exact SameByte.trans a _ _ _ (sameByte_setStatus _ .sw hw ha) .of

/-- A byte write is seen at its own address only, in a ring as in memory. -/
theorem sameByte_writeByte {a x : Nat} (b : Byte) {s : State} (hw : s.cfg.layout.wf = true) (hne : x ≠ a) :
    SameByte x s (s.writeByte a b) := by
  have hslot {r : Ring} {i k : Nat} (h : s.slotAt r a = some (i, k)) :
      SameByte x s (s.setDesc r i ((s.desc r i).setByte s.cfg.layout k b)) := by
    obtain ⟨hk, _, _⟩ := State.slotAt_eq_some h
    exact sameByte_setDesc fun j hj _ => Desc.byte_setByte_ne hw _ b (by omega)
  unfold State.writeByte
  split
  · next h => exact hslot h
  · split
    · next h => exact hslot h
    · exact State.readByte_congr (fun _ _ => rfl) (fun _ _ _ _ => rfl) fun _ _ => Memory.read_insert_ne _ b hne

theorem sameByte_writeBytes {a x : Nat} (bs : List Byte) {s : State} (hw : s.cfg.layout.wf = true)
    (hx : ¬ (a ≤ x ∧ x < a + bs.length)) : SameByte x s (s.writeBytes a bs) := by
  induction bs generalizing s a with
  | nil => exact .of
  | cons b bs ih =>
    rw [List.length_cons] at hx
    exact SameByte.trans x _ _ _ (sameByte_writeByte b hw (by omega)) (ih (by rwa [State.writeByte_cfg]) (by omega))

/-- The frame may lie over a ring, even over its own slot: the descriptor writes keep what the frame left in other words. -/
theorem sameByte_macRxFrame {len : Half} {a : Nat} (fs ls : Bool) (stat : Half) (seed : Byte) {s : State}
    (hw : s.cfg.layout.wf = true) (ha : ¬ inFields s.cfg [.len, .fs, .ls, .own, .stat] .rx s.macRxIdx a)
    (hx : ¬ ((s.desc .rx s.macRxIdx).buf.toNat ≤ a ∧ a < (s.desc .rx s.macRxIdx).buf.toNat + len.toNat)) :
    (macRxFrame len fs ls stat seed s).Rel (SameByte a) s := by
  have hbody : ¬ inFields s.cfg [.len, .fs, .ls] .rx s.macRxIdx a := fun h => ha (inFields_mono (by simp) h)
  have hstatus : ¬ inFields s.cfg [.own, .stat] .rx s.macRxIdx a := fun h => ha (inFields_mono (by simp) h)
  unfold macRxFrame
  dsimp only
  split
  · trivial
  · have hbytes := sameByte_writeBytes (seededBytes seed len.toNat) hw (by simpa [seededBytes] using hx)
    refine SameByte.trans a _ _ _ (SameByte.trans a _ _ _ (SameByte.trans a _ _ _ hbytes
      (sameByte_setBody _ fs ls ?_ ?_)) (sameByte_setStatus _ .sw ?_ ?_)) .of
    all_goals simpa

/-! ## The instructions that store nothing -/

theorem sameByte_workerDone {a : Nat} (s : State) : SameByte a s (workerDone s) := by
  unfold workerDone
  split <;> exact .of

theorem sameByte_regRead {a : Nat} (reg : Reg) (s : State) : SameByte a s (regRead reg s) :=
  .of (by simp) (by simp) (by simp) (by simp)

theorem sameByte_regWrite {a : Nat} (reg : Reg) (v : Word) (s : State) : SameByte a s (regWrite reg v s) :=
  .of (by simp) (by simp) (by simp) (by simp)

theorem sameByte_bringDown {a : Nat} (s : State) : SameByte a s (bringDown s) := by
  rw [bringDown_eq]
  exact .of

/-- Settles O58: a byte outside an instruction's own places is not written by its body, so not by the instruction. -/
theorem smallInstructionsStoreThere : Obligations.SmallInstructionsStoreThere := by
  unfold Obligations.SmallInstructionsStoreThere
  refine fun i s t a hw h hout => sameByte_exec (i := i) ?_ h
  cases i
  case release => exact sameByte_release _ _ _ _ _ hw hout
  case reclaim => exact sameByte_reclaim hw hout
  case submit => exact sameByte_submitFields _ _ hw hout
  case macTxDone => exact sameByte_macTxDone _ hw hout
  case macRxFrame => exact sameByte_macRxFrame _ _ _ _ hw hout.1 hout.2
  case workerDone => exact sameByte_workerDone s
  case regRead => exact sameByte_regRead _ s
  case regWrite => exact sameByte_regWrite _ _ s
  case bringDown => exact sameByte_bringDown s
  case advance | isHw | tick | ptStart | ptCancel | txtoStart | txtoCancel | addMc | removeMc | macRaise | macPhy =>
    exact SameByte.of
  case pollReceive | reclaimCompleted | txpoll | irq | process | workerRun | pollExpire | txtoExpire | bringUp
      | notifyTxAvailable => exact hout.elim

end Sys2Proof.Machine
end

section
/-!
The walk of `POLL_RECEIVE` where it calls nobody: it ends at a Hardware-owned slot (O22), and it recycles a released slot that
holds no complete frame (O23).
-/

namespace Sys2Proof.Machine

theorem pollReceive_hw {s : State} (ho : (s.desc .rx s.rxCur).own = .hw) : pollReceive s = .ok s := by
  rw [pollReceive_step, if_pos ho]

/-- A slot without both segment flags is consumed by its recycle alone (rules R152 and R153). -/
theorem consumeSlot_incomplete {s : State} {i : Nat} (ho : (s.desc .rx i).own = .sw) (hc : (s.desc .rx i).complete = false) :
    consumeSlot i s = .ok (afterRecycle i s) := by
  rw [consumeSlot, hc, if_neg Bool.false_ne_true, Res.ok_andThen, recycle_sw ho]

/-- Only a complete frame ends a `ONE_FRAME` walk, so after an incomplete one the walk goes on (rules R151 and R155). -/
theorem pollReceive_incomplete {s : State} (ho : (s.desc .rx s.rxCur).own = .sw)
    (hc : (s.desc .rx s.rxCur).complete = false) : pollReceive s = pollReceive (afterRecycle s.rxCur s) := by
  have hgoesOn : ¬ (s.cfg.rxScan = .oneFrame ∧ (s.desc .rx s.rxCur).fs = true ∧ (s.desc .rx s.rxCur).ls = true) := by
    rintro ⟨-, hfs, hls⟩
    simp [Desc.complete, hfs, hls] at hc
  rw [pollReceive_step, if_neg (by rw [ho]; decide), consumeSlot_incomplete ho hc, Res.ok_andThen, if_neg hgoesOn]

/-- Settles O22: the walk ends where it starts. -/
theorem pollReceiveNoReleasedSlotNoOp : Obligations.PollReceiveNoReleasedSlotNoOp := by
  unfold Obligations.PollReceiveNoReleasedSlotNoOp
  intro s hp ho
  rw [exec_pollReceive hp, pollReceive_hw ho]
  rfl

/-- Settles O23: the recycle keeps the test port open and raises no fault, so the walk from there is a command of its own. -/
theorem incompleteSlotIsRecycled : Obligations.IncompleteSlotIsRecycled := by
  unfold Obligations.IncompleteSlotIsRecycled
  intro s hp ho hc
  have hopen : (afterRecycle s.rxCur s).portOpen := hp
  calc exec .pollReceive s
    _ = answerCommand .internal (pollReceive s) := exec_pollReceive hp
    _ = answerCommand .internal (pollReceive (afterRecycle s.rxCur s)) := by rw [pollReceive_incomplete ho hc]
    _ = exec .pollReceive (afterRecycle s.rxCur s) := (exec_pollReceive hopen).symm
    _ = _ := by rw [afterRecycle_eq rfl rfl]

end Sys2Proof.Machine
end

section
/-!
A poll upstream at the command port: with room it submits the frame it produced (O18), and on a full ring the operation that
made it ends in `V_ADMISSION` there (O19).
-/

namespace Sys2Proof.Machine

/-- Settles O18: the operation is the poll, and with room the poll completes. -/
theorem txpollRule : Obligations.TxpollRule := by
  unfold Obligations.TxpollRule
  intro s hs hp hroom
  obtain ⟨t, hcall, ht⟩ := txpoll_ok hs hroom
  exact ⟨t, hcall, by rw [exec_open hp rfl rfl rfl, bodyOf, ht]; rfl⟩

/-! ## A frame for a full ring (rules R161 and R228 (c)) -/

/-- The next callout answers with a frame, on a device that is up and has no free TX slot. -/
structure FrameOnFullRing (s : State) : Prop where
  shape    : Shape s
  no_fault : s.fault = .none
  up       : s.up = true
  full     : s.txPend = s.cfg.nTx
  frame    : s.nextAnswer.len ≠ 0

/-- Registers the next callout does not look at. -/
theorem FrameOnFullRing.regs {s t : State} (h : FrameOnFullRing s) (hb : BlockStep s t) (hf : t.fault = s.fault := by rfl)
    (hu : t.up = s.up := by rfl) (hp : t.txPend = s.txPend := by rfl) (ha : t.answers = s.answers := by rfl) :
    FrameOnFullRing t where
  shape := hb.common.shape h.shape
  no_fault := hf.trans h.no_fault
  up := hu.trans h.up
  full := by rw [hp, hb.common.cfg]; exact h.full
  frame := by rw [State.nextAnswer, ha]; exact h.frame

/-- From `b` a procedure makes the callout `c` and ends in `V_ADMISSION` (rule R264). -/
def FaultsAfter (c : Callout) (b : State) (r : Res) : Prop :=
  ∃ t, AfterCall c b t ∧ r = .raised { t with fault := .vAdmission }

/-- Nothing after the fault happens (rule R271). -/
theorem FaultsAfter.andThen {c : Callout} {b : State} {r : Res} (h : FaultsAfter c b r) (k : State → Res) :
    FaultsAfter c b (r.andThen k) := by
  obtain ⟨t, hcall, rfl⟩ := h
  exact ⟨t, hcall, rfl⟩

/-- The command ends with the fault as its answer. -/
theorem FaultsAfter.answer {c : Callout} {b : State} {r : Res} (h : FaultsAfter c b r) {i : Instr} {s : State} {cls : OpClass}
    (he : exec i s = answerCommand cls r) :
    ∃ t, AfterCall c b t ∧ exec i s = .next { t with fault := .vAdmission, resp := some (.faulted .vAdmission) } := by
  obtain ⟨t, hcall, rfl⟩ := h
  exact ⟨t, hcall, he⟩

theorem faultsAfter_callout {s : State} (h : FrameOnFullRing s) (c : Callout) :
    FaultsAfter c s ((callUp c s).andThen submitAnswer) :=
  ⟨_, afterCall_state h.shape c, by
    rw [callout_full c h.shape.cfg_wf h.up h.full h.frame]
    exact raise_eq (show (afterCallState c s).fault = .none from h.no_fault) _⟩

theorem faultsAfter_txpoll {s : State} (h : FrameOnFullRing s) : FaultsAfter .poll s (txpoll s) := (faultsAfter_callout h .poll).andThen _

theorem faultsAfter_timerHook {s : State} (h : FrameOnFullRing s) : FaultsAfter .timerHook s (timerHook s) :=
  (faultsAfter_callout h .timerHook).andThen _

/-! ## The operations that make the callout -/

/-- With its oldest slot Hardware-owned the ring is drained of nothing (rule R163). -/
theorem reclaimLoop_hw {s : State} (ho : (s.desc .tx s.txClean).own = .hw) (fuel : Nat) : reclaimLoop fuel s = .ok s := by
  cases fuel with
  | zero => rfl
  | succ fuel => rw [reclaimLoop, if_pos ho, ite_self]

theorem reclaimCompleted_hw {s : State} (ho : (s.desc .tx s.txClean).own = .hw) :
    reclaimCompleted s = txpoll (txtoCancel s) := by
  rw [reclaimCompleted, reclaimLoop_hw ho, Res.ok_andThen]

theorem notifyTxAvailable_inline {s : State} (hu : s.up = true) (hd : s.dslot = none) (hm : s.cfg.mode = .inline) :
    notifyTxAvailable s = (txpoll s).andThen .ok := by
  simp only [notifyTxAvailable, hu, hd, hm, Bool.not_true, Bool.false_eq_true, ne_eq, not_true_eq_false, if_false]

/-- The unit in flight runs on a full ring: `WORKER_RUN` ends where its body faults. -/
theorem exec_workerRun_faults {s : State} {u : DeferredUnit} {c : Callout} (hf : s.fault = .none) (hm : s.cfg.mode = .deferred)
    (hi : s.inflight = none) (hd : s.dslot = some u)
    (h : FaultsAfter c { s with dslot := none, inflight := some u } (unitBody u { s with dslot := none, inflight := some u })) :
    ∃ t, AfterCall c { s with dslot := none, inflight := some u } t ∧
      exec .workerRun s = .next { t with fault := .vAdmission, resp := some (.faulted .vAdmission) } :=
  (h.andThen .ok).answer (cls := .event) (by
    rw [exec_event hf rfl rfl (by simp [gateOf, workerRunGuard, hm, hd, hi]), bodyOf, workerRun_some hd])

/-- Settles O19: each operation is its own writes before the callout, the callout that faults, and what would follow. -/
theorem calloutOnAFullRingFaults : Obligations.CalloutOnAFullRingFaults := by
  unfold Obligations.CalloutOnAFullRingFaults
  intro s hs hf hup hfull hlen
  have h : FrameOnFullRing s := ⟨hs, hf, hup, hfull, hlen⟩
  dsimp only
  refine ⟨fun hp => ?txpoll, fun hp ho => ?reclaim, fun hm hi hd => ?notify, fun hm ha hr => ?pollTimer,
    fun hm ha hr => ?watchdog, fun hm hi => ⟨fun hd => ?pollUnit, fun hd => ?timeoutUnit, fun hd => ?notifyUnit⟩⟩
  case txpoll => exact (faultsAfter_txpoll h).answer (exec_open (i := .txpoll) ⟨hp, hf⟩ rfl rfl rfl)
  case reclaim =>
    have hb : FrameOnFullRing (txtoCancel s) := h.regs .regs
    refine (faultsAfter_txpoll hb).answer (cls := .internal) ?_
    rw [exec_open ⟨hp, hf⟩ rfl rfl rfl, bodyOf, reclaimCompleted_hw ho]
  case notify =>
    refine ((faultsAfter_txpoll h).andThen .ok).answer (cls := .host) ?_
    rw [exec_host ⟨hi, hf⟩ rfl rfl rfl, bodyOf, notifyTxAvailable_inline hup hd hm]
  case pollTimer =>
    have he : exec .pollExpire s = answerCommand .event (pollExpire s) :=
      exec_event hf rfl rfl (by simp [gateOf, pollExpireGuard, ha, hr])
    have hb : FrameOnFullRing { s with ptArmed := false, imr := 0, trace := s.trace ++ [.regW .imr 0] } :=
      h.regs (.regs (he := ⟨_, rfl⟩))
    rw [pollExpire_inline hm, maskAll_eq] at he
    exact ((faultsAfter_timerHook hb).andThen _).answer he
  case watchdog =>
    have he : exec .txtoExpire s = answerCommand .event (txtoExpire s) :=
      exec_event hf rfl rfl (by simp [gateOf, txtoExpireGuard, ha, hr])
    have hb : FrameOnFullRing { s with toArmed := false, imr := 0, trace := s.trace ++ [.regW .imr 0] } :=
      h.regs (.regs (he := ⟨_, rfl⟩))
    rw [txtoExpire_inline hm, maskAll_eq] at he
    exact ((faultsAfter_txpoll hb).andThen _).answer he
  case pollUnit => exact exec_workerRun_faults hf hm hi hd (faultsAfter_timerHook (h.regs .regs))
  case timeoutUnit => exact exec_workerRun_faults hf hm hi hd (faultsAfter_txpoll (h.regs .regs))
  case notifyUnit => exact exec_workerRun_faults hf hm hi hd (faultsAfter_txpoll (h.regs .regs))

end Sys2Proof.Machine
end

section
/-!
`RECLAIM_COMPLETED` (O20): the slots the draining clears, by an invariant of its loop, and the poll that follows.
-/

namespace Sys2Proof.Machine

/-! ## The draining (rules R163 and R164) -/

/-- The slot `j` places from the clean cursor (rule R52). -/
def State.pendingSlot (s : State) (j : Nat) : Nat := (s.txClean + j) % s.cfg.nTx

theorem pendingSlot_zero {s : State} (hs : Shape s) : s.pendingSlot 0 = s.txClean := Nat.mod_eq_of_lt hs.tx_clean

/-- What reclaiming leaves in TX slot `i` (rules R52 I5 and R143). -/
def State.emptied (s : State) (i : Nat) : Desc := Desc.clear (decide (i + 1 = s.cfg.nTx))

/-- From `s` the oldest `k` pending slots, found Software-owned, have been cleared, and nothing else has changed. -/
structure Reclaimed (s : State) (k : Nat) (u : State) : Prop where
  eq       : u = { s with
    txd     := u.txd
    txClean := s.pendingSlot k
    txPend  := s.txPend - k
    trace   := s.trace ++ (List.range k).flatMap fun j => descEvents .tx (s.pendingSlot j) (s.emptied (s.pendingSlot j)) }
  le_pend  : k ≤ s.txPend
  released : ∀ j, j < k → (s.desc .tx (s.pendingSlot j)).own = .sw
  length   : u.txd.length = s.txd.length
  slots    : ∀ i, i < s.cfg.nTx →
    u.desc .tx i = if (i + s.cfg.nTx - s.txClean) % s.cfg.nTx < k then s.emptied i else s.desc .tx i

section
variable {s u : State} {k : Nat}

theorem Reclaimed.cfg (h : Reclaimed s k u) : u.cfg = s.cfg := by rw [h.eq]

theorem Reclaimed.txClean (h : Reclaimed s k u) : u.txClean = s.pendingSlot k := by rw [h.eq]

theorem Reclaimed.txPend (h : Reclaimed s k u) : u.txPend = s.txPend - k := by rw [h.eq]

theorem Reclaimed.zero (hs : Shape s) : Reclaimed s 0 s where
  eq := by simp [pendingSlot_zero hs]
  le_pend := Nat.zero_le _
  released _ hj := absurd hj (Nat.not_lt_zero _)
  length := rfl
  slots _ _ := by rw [if_neg (Nat.not_lt_zero _)]

variable (hh : Healthy s) (h : Reclaimed s k u) (hk : k < s.txPend)
include hh

theorem pendingSlot_lt (j : Nat) : s.pendingSlot j < s.cfg.nTx := Nat.mod_lt _ (Nat.zero_lt_of_lt hh.shape.tx_clean)

include h hk

/-- The oldest slot still pending is as the draining found it. -/
theorem Reclaimed.oldest : u.desc .tx u.txClean = s.desc .tx (s.pendingSlot k) := by
  rw [h.txClean, h.slots _ (pendingSlot_lt hh k), State.pendingSlot,
    distance_cur hh.shape.tx_clean (hk.trans_le hh.rings.pend_le), if_neg (Nat.lt_irrefl k)]

/-- One more slot cleared. -/
theorem Reclaimed.succ (ho : (u.desc .tx u.txClean).own = .sw) : Reclaimed s (k + 1) (afterReclaim u) := by
  have hcl := hh.shape.tx_clean
  have hkn : k < s.cfg.nTx := hk.trans_le hh.rings.pend_le
  have hold := h.oldest hh hk
  have hclear : Desc.clear (u.desc .tx u.txClean).wrap = s.emptied (s.pendingSlot k) := by
    rw [hold, hh.rings.tx_wrap _ (pendingSlot_lt hh k)]; rfl
  have hnext : advanceCursor s.cfg .tx (s.pendingSlot k) = s.pendingSlot (k + 1) := by
    rw [advanceCursor_eq (nTx_ok hh)]
    exact Nat.mod_add_mod ..
  refine ⟨?eq, hk, fun j hj => ?released, ?length, fun i hi => ?slots⟩
  case eq =>
    rw [afterReclaim, hclear, h.txClean, h.cfg, hnext]
    obtain heq := h.eq
    generalize u.txd = txd at heq
    subst heq
    simp only [List.range_succ, List.flatMap_append, List.flatMap_singleton, List.append_assoc, Nat.sub_sub]
  case released =>
    obtain hlt | rfl := Nat.lt_succ_iff_lt_or_eq.mp hj
    · exact h.released j hlt
    · rw [← hold]; exact ho
  case length => exact (List.length_set ..).trans h.length
  case slots =>
    have hset : (afterReclaim u).desc .tx i = if i = u.txClean then Desc.clear (u.desc .tx u.txClean).wrap else u.desc .tx i :=
      desc_tx_set _ _ _ _ (State.lt_length_of_sw ho)
    have hat : i = s.pendingSlot k ↔ (i + s.cfg.nTx - s.txClean) % s.cfg.nTx = k := by
      rw [State.pendingSlot, around_eq hcl hkn.le, distance_eq hcl hi]
      split <;> split <;> omega
    rw [hset, hclear, h.txClean, h.slots i hi]
    by_cases he : i = s.pendingSlot k
    · rw [if_pos he, if_pos (by rw [hat.mp he]; omega), he]
    · rw [if_neg he]
      have hne : (i + s.cfg.nTx - s.txClean) % s.cfg.nTx ≠ k := fun hx => he (hat.mpr hx)
      congr 1
      exact propext (by omega)

end

/-- The draining clears the pending slots before the first Hardware-owned one, `fuel` being enough for those still pending. -/
theorem reclaimLoop_reclaims {s : State} (hh : Healthy s) {fuel k : Nat} {u : State} (h : Reclaimed s k u)
    (hfuel : s.txPend = k + fuel) : ∃ m v, reclaimLoop fuel u = .ok v ∧ Reclaimed s m v ∧
      (m < s.txPend → (s.desc .tx (s.pendingSlot m)).own = .hw) := by
  induction fuel generalizing k u with
  | zero => exact ⟨k, u, rfl, h, fun hm => by omega⟩
  | succ fuel ih =>
    have hk : k < s.txPend := by omega
    have hold := h.oldest hh hk
    rw [reclaimLoop, if_neg (by rw [h.txPend]; omega)]
    cases ho : (u.desc .tx u.txClean).own with
    | hw => exact ⟨k, u, rfl, h, fun _ => hold ▸ ho⟩
    | sw =>
      rw [if_neg (by decide), reclaimOne_sw ho, Res.ok_andThen]
      exact ih (h.succ hh hk ho) (by omega)

/-! ## The poll that follows (rule R164) -/

/-- A draining that finds the oldest pending slot released clears it at least. -/
theorem reclaims_oldest {s : State} (hs : Shape s) {k : Nat}
    (hend : k < s.txPend → (s.desc .tx (s.pendingSlot k)).own = .hw) (ho : (s.desc .tx s.txClean).own = .sw)
    (hp : 0 < s.txPend) : 0 < k := by
  by_contra hk
  obtain rfl : k = 0 := by omega
  have hhw := hend hp
  rw [pendingSlot_zero hs, ho] at hhw
  cases hhw

/-- A ring that is not full, or is drained of its oldest slot, has room for the frame the poll answers. -/
theorem Reclaimed.not_full {s u : State} {k : Nat} (h : Reclaimed s k u) (hh : Healthy s)
    (hend : k < s.txPend → (s.desc .tx (s.pendingSlot k)).own = .hw)
    (hroom : s.txPend ≠ s.cfg.nTx ∨ (s.desc .tx s.txClean).own = .sw) : u.txPend ≠ u.cfg.nTx := by
  have hle := hh.rings.pend_le
  have hpos := Nat.zero_lt_of_lt hh.shape.tx_clean
  rw [h.txPend, h.cfg]
  obtain hne | ho := hroom
  · omega
  · have hk := reclaims_oldest hh.shape hend ho
    omega

/-- `RECLAIM_COMPLETED` where a frame the poll answers finds room: the draining, the cancel and the poll (rule R163). -/
theorem reclaimCompleted_drains {s : State} (hh : Healthy s)
    (hroom : s.nextAnswer.len ≠ 0 → s.up = true → s.txPend ≠ s.cfg.nTx ∨ (s.desc .tx s.txClean).own = .sw) :
    ∃ k u t, Reclaimed s k u ∧ (k < s.txPend → (s.desc .tx (s.pendingSlot k)).own = .hw) ∧
      AfterCallout .poll (txtoCancel u) t ∧ reclaimCompleted s = .ok t := by
  obtain ⟨k, u, hu, hr, hend⟩ := reclaimLoop_reclaims hh (Reclaimed.zero hh.shape) (Nat.zero_add _).symm
  have hpass : Pass s u := show PassRes s (.ok u) from hu ▸ passRes_reclaimLoop hh s.txPend
  have hc : Healthy (txtoCancel u) := (hpass.healthy.pass_regs .regs).healthy
  have hanswers : u.answers = s.answers := by rw [hr.eq]
  have hcallout : (txtoCancel u).calloutHasRoom := fun hl hup => by
    have hfree := hr.not_full hh hend (hroom (by rw [State.nextAnswer, ← hanswers]; exact hl) (hpass.up.symm.trans hup))
    exact ⟨hfree, hc.tx_free hfree⟩
  obtain ⟨t, ht, hpoll⟩ := txpoll_ok hc.shape hcallout
  exact ⟨k, u, t, hr, hend, ht, by rw [reclaimCompleted, hu, Res.ok_andThen, hpoll]⟩

/-- Settles O20: the loop's invariant says which slots are cleared, and the poll finds room. -/
theorem reclaimCompletedDrains : Obligations.ReclaimCompletedDrains := by
  unfold Obligations.ReclaimCompletedDrains
  intro s hh hp hroom
  obtain ⟨k, u, t, hr, hend, ht, hdone⟩ := reclaimCompleted_drains hh hroom
  refine ⟨k, t, hr.le_pend, hr.released, hend, by rw [exec_open hp rfl rfl rfl, bodyOf, hdone]; rfl, txtoCancel u, ?_,
    hr.length, hr.slots, ht⟩
  exact congrArg txtoCancel hr.eq

end Sys2Proof.Machine
end

section
/-!
One frame submitted, completed and reclaimed (O21): nothing comes from upstream, so the pass finds the completed frame as the
interrupt left it, and its `RECLAIM_COMPLETED` empties the window and cancels the watchdog.
-/

namespace Sys2Proof.Machine

/-! ## A procedure that completes -/

/-- The procedure completes, and what it leaves has the property. -/
def Res.Leaves (P : State → Prop) (r : Res) : Prop := ∃ st res t, r = .done st res t ∧ P t

theorem Res.Leaves.ok {P : State → Prop} {t : State} (h : P t) : (Res.ok t).Leaves P := ⟨_, _, t, rfl, h⟩

theorem Res.Leaves.andThen {P Q : State → Prop} {r : Res} {k : State → Res} (h : r.Leaves P)
    (hk : ∀ t, P t → (k t).Leaves Q) : (r.andThen k).Leaves Q := by
  obtain ⟨st, res, t, rfl, ht⟩ := h
  exact hk t ht

/-! ## One completed frame and nothing from upstream -/

/-- A healthy device whose one pending frame is completed, and an upstream stack without a frame to send. -/
structure OneCompleted (s : State) : Prop where
  healthy  : Healthy s
  silent   : s.answers = []
  one      : s.txPend = 1
  released : (s.desc .tx s.txClean).own = .sw

/-- Nothing pending and the watchdog cancelled. -/
structure NothingPending (s : State) : Prop where
  pend     : s.txPend = 0
  watchdog : s.toArmed = false

/-- A part of a pass that leaves the transmit ring alone and calls nobody. -/
theorem OneCompleted.of {s t : State} (h : OneCompleted s) (ht : Healthy t) (ha : t.answers = s.answers := by rfl)
    (hx : t.txd = s.txd := by rfl) (hc : t.txClean = s.txClean := by rfl) (hp : t.txPend = s.txPend := by rfl) :
    OneCompleted t where
  healthy := ht
  silent := ha.trans h.silent
  one := hp.trans h.one
  released := by rw [State.desc_tx, hx, hc]; exact h.released

theorem OneCompleted.nextAnswer {s : State} (h : OneCompleted s) : s.nextAnswer.len = 0 := by
  rw [State.nextAnswer, h.silent]; rfl

theorem OneCompleted.room {s : State} (h : OneCompleted s) : s.roomForAnswers := by
  have := h.healthy.shape.tx_clean
  rw [State.roomForAnswers, h.silent, h.one, List.countP_nil]
  omega

/-- A callout that answers no frame submits none (rule R228). -/
theorem AfterCallout.afterCall {c : Callout} {s t : State} (h : AfterCallout c s t) (hl : s.nextAnswer.len = 0) :
    AfterCall c s t := by
  obtain ⟨u, hu, rfl⟩ := h
  rwa [if_neg fun hn => hn.1 hl]

/-! ## The pass -/

/-- The delivery of a frame without a reply leaves the transmit ring as it was (rule R151). -/
theorem oneCompleted_consumeSlot {s : State} (h : OneCompleted s) (ho : (s.desc .rx s.rxCur).own = .sw) :
    (consumeSlot s.rxCur s).Leaves OneCompleted := by
  obtain ⟨st, res, t, ht, hpass⟩ := (passRes_consumeSlot h.healthy ho).completes h.room
  refine ⟨st, res, t, ht, ?_⟩
  by_cases hc : (s.desc .rx s.rxCur).complete = true
  · have hi := h.healthy.shape.rx_cur
    obtain ⟨_, _, v, hv, hcall⟩ := deliverFrame_ok h.healthy.shape h.healthy.rx_buffers hi fun hl => absurd h.nextAnswer hl
    obtain ⟨heq, _⟩ : AfterCall _ (s.copied s.rxCur) v := hcall.afterCall h.nextAnswer
    have hov : (v.desc .rx s.rxCur).own = .sw := by rw [heq]; exact ho
    have hanswers : v.answers = s.answers := by rw [heq]; show s.answers.tail = s.answers; rw [h.silent]; rfl
    rw [consumeSlot, if_pos hc, hv, Res.done_andThen, recycle_sw hov] at ht
    cases ht
    exact h.of hpass.healthy hanswers (congrArg State.txd heq :) (congrArg State.txClean heq :) (congrArg State.txPend heq :)
  · rw [consumeSlot_incomplete ho (by simpa using hc)] at ht
    cases ht
    exact h.of hpass.healthy

theorem oneCompleted_pollLoop (fuel : Nat) {s : State} (h : OneCompleted s) : (pollLoop fuel s).Leaves OneCompleted := by
  induction fuel generalizing s with
  | zero => exact .ok h
  | succ fuel ih =>
    rw [pollLoop]
    split
    · exact .ok h
    · next ho =>
      have hslot := oneCompleted_consumeSlot h (own_sw_of_ne ho)
      split
      · exact hslot.andThen fun _ ht => .ok ht
      · exact hslot.andThen fun _ ht => ih ht

theorem oneCompleted_regWrite {s : State} (h : OneCompleted s) (reg : Reg) (v : Word) : OneCompleted (regWrite reg v s) :=
  h.of (pass_regWrite h.healthy reg v).healthy (by simp) (by simp) (by simp) (by simp)

/-- The completed frame is the one slot to reclaim, and then the ring is empty (rules R163 and R164). -/
theorem reclaimCompleted_empties {s : State} (h : OneCompleted s) : (reclaimCompleted s).Leaves NothingPending := by
  obtain ⟨k, u, t, hr, hend, hcall, hdone⟩ := reclaimCompleted_drains h.healthy fun _ _ => .inr h.released
  have hanswers : u.answers = s.answers := by rw [hr.eq]
  have hsilent : (txtoCancel u).nextAnswer.len = 0 := by
    rw [State.nextAnswer, show (txtoCancel u).answers = [] from hanswers.trans h.silent]; rfl
  have hk := reclaims_oldest h.healthy.shape hend h.released
  have heq := (hcall.afterCall hsilent).1
  refine ⟨_, _, t, hdone, ?_, by rw [heq]; rfl⟩
  rw [heq]
  show u.txPend = 0
  have := hr.txPend
  have := h.one
  omega

theorem process_empties {snap : Byte} (hsnap : snap.getLsbD 2 = true) {s : State} (h : OneCompleted s) :
    (process snap s).Leaves NothingPending := by
  have hne : snap ≠ 0 := by rintro rfl; exact absurd hsnap (by decide)
  rw [process, if_neg hne]
  refine (((?ack : Res.Leaves OneCompleted _).andThen (Q := OneCompleted) fun t ht => ?receive).andThen
    (Q := NothingPending) fun t ht => ?transmit).andThen fun t ht => ?phy
  case ack =>
    rw [stepAck_eq]
    split
    · exact .ok (oneCompleted_regWrite h _ _)
    · exact .ok h
  case receive =>
    rw [stepReceive_eq]
    split
    · exact oneCompleted_pollLoop _ ht
    · exact .ok ht
  case transmit =>
    rw [stepTransmit_eq, if_pos hsnap]
    exact reclaimCompleted_empties ht
  case phy =>
    rw [stepPhy_eq]
    exact .ok ⟨ht.pend, ht.watchdog⟩

/-! ## The frame submitted and completed (rules R161 and R242) -/

/-- A slot index of a legal ring fits its operand (rule R113). -/
theorem toNat_txCur {s : State} (h : Healthy s) : (BitVec.ofNat 16 s.txCur).toNat = s.txCur := by
  obtain ⟨k, hk, hn⟩ := capacityOk_iff.mp (nTx_ok h)
  have hle : 2 ^ k ≤ 2 ^ 15 := Nat.pow_le_pow_right (by decide) (by omega)
  have hcur : s.txCur < s.cfg.capacity .tx := h.shape.tx_cur
  rw [BitVec.toNat_ofNat]
  exact Nat.mod_eq_of_lt (by omega)

/-- A healthy device whose one pending frame the MAC agent can complete next, and an upstream stack without a frame to send. -/
structure OneSubmitted (s : State) : Prop where
  healthy  : Healthy s
  silent   : s.answers = []
  one      : s.txPend = 1
  offered  : (s.desc .tx s.txClean).own = .hw
  asks     : (s.desc .tx s.txClean).ic = true
  enabled  : txEn s.maccr = true ∧ dmaEn s.maccr = true
  in_order : s.cfg.macInOrder = true → s.macTxIdx = s.txClean

/-- On an empty window the two cursors stand at one slot (rule R52 I2). -/
theorem txCur_eq_txClean {s : State} (h : Healthy s) (hp : s.txPend = 0) : s.txCur = s.txClean := by
  rw [h.rings.cur_eq, hp, Nat.add_zero, Nat.mod_eq_of_lt h.shape.tx_clean]

/-- A submission on an empty window (rule R161). -/
theorem oneSubmitted_withSubmitted {s : State} (h : Healthy s) (hup : s.up = true) (hp : s.txPend = 0)
    (hmac : txEn s.maccr = true ∧ dmaEn s.maccr = true) (horder : s.cfg.macInOrder = true → s.macTxIdx = s.txCur)
    (hsilent : s.answers = []) (p : Word) (n : Half) : OneSubmitted (s.withSubmitted p n) := by
  have hcur := txCur_eq_txClean h hp
  have hslot : (s.withSubmitted p n).desc .tx s.txClean = s.submitted p n := hcur ▸ desc_withSubmitted h.shape p n
  have hroom : s.txPend ≠ s.cfg.nTx := by have := h.shape.tx_clean; omega
  exact {
    healthy := healthy_withSubmitted h hup hroom p n
    silent := hsilent
    one := congrArg (· + 1) hp
    offered := congrArg Desc.own hslot
    asks := congrArg Desc.ic hslot
    enabled := hmac
    in_order := fun ho => (horder ho).trans hcur }

/-- The submission at the command port. -/
theorem exec_submit_emptyWindow {s : State} (h : Healthy s) (hi : s.inflight = none) (hup : s.up = true) (hp : s.txPend = 0)
    (hmac : txEn s.maccr = true ∧ dmaEn s.maccr = true) (horder : s.cfg.macInOrder = true → s.macTxIdx = s.txCur)
    (hsilent : s.answers = []) (p : Word) (n : Half) :
    ∃ t, exec (.submit p n) s = .next t ∧ OneSubmitted t ∧ t.txClean = s.txCur ∧ t.cfg = s.cfg ∧ t.up = true ∧
      t.inflight = none := by
  have hroom : s.txPend ≠ s.cfg.nTx := by have := h.shape.tx_clean; omega
  have hone := oneSubmitted_withSubmitted h hup hp hmac horder hsilent p n
  have hanswered : Healthy (respond .host .ok 0 (s.withSubmitted p n)) := (pass_respond hone.healthy (.submit p n) .ok 0).healthy
  refine ⟨respond .host .ok 0 (s.withSubmitted p n), ?_, { hone with healthy := hanswered }, (txCur_eq_txClean h hp).symm, rfl,
    hup, hi⟩
  rw [exec_host ⟨hi, h.no_fault⟩ rfl rfl rfl, bodyOf, submit_ok p n hup hroom (h.tx_free hroom)]
  rfl

/-- The completion keeps a device healthy, and the slot is Software-owned again (rule R242). -/
theorem oneCompleted_macTxDone {s : State} (h : OneSubmitted s) (stat : Half) : OneCompleted (macTxDone s.txClean stat s) := by
  have hcl := h.healthy.shape.tx_clean
  have hs := (common_macTxDone s.txClean stat s).shape h.healthy.shape
  have hr := ringInv_macTxDone h.healthy.shape h.healthy.rings hcl h.offered stat
  rw [macTxDone_eq] at hs hr ⊢
  exact {
    healthy := ⟨hs, h.healthy.capacities, hr, h.healthy.rx_buffers.of rfl rfl, h.healthy.no_fault⟩
    silent := h.silent
    one := h.one
    released := congrArg Desc.own (State.desc_setDesc_same (r := .tx) _ (h.healthy.shape.tx_length.symm ▸ hcl : _ < s.txd.length)) }

/-- The frame asked for an interrupt, so its completion raises `TX_OK` (rule R242). -/
theorem isr_macTxDone {s : State} (h : OneSubmitted s) (stat : Half) : (macTxDone s.txClean stat s).isr.getLsbD 2 = true := by
  rw [macTxDone_eq, if_pos h.asks]
  show (s.isr ||| txOk).getLsbD 2 = true
  rw [BitVec.getLsbD_or, show txOk.getLsbD 2 = true by decide, Bool.or_true]

theorem macTxDoneGuard_oldest {s : State} (h : OneSubmitted s) : macTxDoneGuard s.txClean s = true := by
  obtain ⟨hen, hdma⟩ := h.enabled
  have horder : (!s.cfg.macInOrder || s.txClean == s.macTxIdx) = true := by
    cases ho : s.cfg.macInOrder with
    | false => rfl
    | true => exact beq_iff_eq.mpr (h.in_order ho).symm
  simp only [macTxDoneGuard, hen, hdma, h.offered, horder, beq_self_eq_true, Bool.and_self]

/-- The completion at the command port. -/
theorem exec_macTxDone_oldest {s : State} (h : OneSubmitted s) {idx : Half} (hidx : idx.toNat = s.txClean) (stat : Half) :
    ∃ t, exec (.macTxDone idx stat) s = .next t ∧ OneCompleted t ∧ t.isr.getLsbD 2 = true ∧ t.cfg = s.cfg ∧ t.up = s.up ∧
      t.inflight = s.inflight := by
  have hdone := oneCompleted_macTxDone h stat
  have hanswered : OneCompleted (respond .env .ok 0 (macTxDone s.txClean stat s)) :=
    hdone.of (pass_respond hdone.healthy (.macTxDone idx stat) .ok 0).healthy
  refine ⟨respond .env .ok 0 (macTxDone s.txClean stat s), ?_, hanswered, isr_macTxDone h stat, ?_⟩
  · have hlegal : (Instr.macTxDone idx stat).wf s.cfg = true := decide_eq_true (hidx ▸ h.healthy.shape.tx_clean)
    have hguard : (gateOf (.macTxDone idx stat) s).guard = true := (congrArg (macTxDoneGuard · s) hidx).trans (macTxDoneGuard_oldest h)
    rw [exec_env h.healthy.no_fault rfl hlegal hguard, bodyOf, hidx]
    rfl
  · rw [macTxDone_eq]
    exact ⟨rfl, rfl, rfl⟩

/-! ## The interrupt (rules R182, R186 and R187) -/

/-- `SCHEDULE` of an interrupt's unit keeps the bits of its snapshot (rule R185). -/
theorem schedule_irqWork (snap : Byte) (s : State) :
    ∃ merged, schedule (.irqWork snap) s = { s with dslot := some (.irqWork (merged ||| snap)) } := by
  rw [schedule_eq]
  cases s.dslot with
  | none => exact ⟨0#8, by rw [BitVec.zero_or]⟩
  | some u =>
    cases u with
    | irqWork old => exact ⟨old, rfl⟩
    | _ => exact ⟨0#8, by rw [BitVec.zero_or]⟩

theorem oneCompleted_beforePass {s : State} (h : OneCompleted s) : OneCompleted (beforePass .irq s) := by
  have hb := pass_beforePass (.inl rfl) h.healthy
  simp only [beforePass, capture_eq] at hb ⊢
  exact h.of hb.healthy

/-- In `INLINE` mode the interrupt itself empties the ring. -/
theorem exec_irq_inline {s : State} (h : OneCompleted s) (hup : s.up = true) (hsnap : s.isr.getLsbD 2 = true)
    (hm : s.cfg.mode = .inline) : ∃ t, exec .irq s = .next t ∧ t.resp = some (.returned .ok 0) ∧ NothingPending t := by
  obtain ⟨st, res, t, ht, hend⟩ := process_empties hsnap (oneCompleted_beforePass h)
  have hbody : bodyOf .irq s = .ok (unmask t) := by
    rw [bodyOf_inline (.inl rfl) hm, show unitBody (unitOf .irq s) (beforePass .irq s) = _ from ht]
    rfl
  exact ⟨respond .event .ok 0 (unmask t), by rw [exec_event h.healthy.no_fault rfl rfl (by exact hup), hbody]; rfl, rfl,
    hend.pend, hend.watchdog⟩

/-- A unit pending and an `OK` answered, as a regime of the state. -/
theorem pending_eq_under {s : State} (hm : s.cfg.mode = .deferred) (hi : s.inflight = none) (u : DeferredUnit) :
    { s with dslot := some u, resp := some (.returned .ok 0) } = s.under (deferredRegime (some u) none s.ptArmed s.ptRem) := by
  have hcfg : { s.cfg with mode := .deferred } = s.cfg := by rw [← hm]
  simp only [State.under, deferredRegime, hcfg, hi]

/-- In `DEFERRED` mode the interrupt leaves its unit pending, and the worker's pass empties the ring. -/
theorem exec_irq_deferred {s : State} (h : OneCompleted s) (hup : s.up = true) (hsnap : s.isr.getLsbD 2 = true)
    (hm : s.cfg.mode = .deferred) (hi : s.inflight = none) :
    ∃ t, exec .irq s = .next t ∧ t.resp = some (.returned .ok 0) ∧ ∃ u v, exec .workerRun t = .next u ∧
      exec .workerDone u = .next v ∧ v.resp = some (.returned .ok 0) ∧ NothingPending v := by
  obtain ⟨hcfg, _, hflight, _⟩ := beforePass_keeps (.inl rfl) s
  have hb := oneCompleted_beforePass h
  obtain ⟨merged, hsched⟩ := schedule_irqWork s.isr (beforePass .irq s)
  obtain ⟨st, res, v, hv, hend⟩ := process_empties (snap := merged ||| s.isr)
    (by rw [BitVec.getLsbD_or, hsnap, Bool.or_true]) hb
  have hfault : v.fault = .none := (unitBody_keeps (u := .irqWork _) hv).2.2.trans hb.healthy.no_fault
  have hirq : exec .irq s = answerCommand .event (irq s) := exec_event h.healthy.no_fault rfl rfl (by exact hup)
  rw [irq_deferred hm, show cancelIfTxOk s.snapshot (capture s) = beforePass .irq s from rfl, hsched] at hirq
  refine ⟨_, hirq.trans (congrArg _ (pending_eq_under (hcfg ▸ hm) (hflight.trans hi) _)), rfl, _, _,
    exec_workerRun_pending (u := .irqWork _) hv hb.healthy.no_fault _ _,
    exec_workerDone_inflight DeferredUnit.noConfusion hfault _ _, rfl, hend.pend, hend.watchdog⟩

/-- Settles O21: the frame is submitted and completed, and the pass that its interrupt begins empties the ring. -/
theorem submitCompletionInterruptClearsPending : Obligations.SubmitCompletionInterruptClearsPending := by
  unfold Obligations.SubmitCompletionInterruptClearsPending
  intro p n stat s h hi hup hp hen hdma horder hsilent
  obtain ⟨t1, hsubmit, h1, hslot, hcfg1, hup1, hi1⟩ := exec_submit_emptyWindow h hi hup hp ⟨hen, hdma⟩ horder hsilent p n
  obtain ⟨t2, hmac, h2, hsnap, hcfg2, hup2, hi2⟩ := exec_macTxDone_oldest h1 ((toNat_txCur h).trans hslot.symm) stat
  have hcfg : t2.cfg = s.cfg := hcfg2.trans hcfg1
  have hup' := hup2.trans hup1
  cases hm : s.cfg.mode with
  | inline =>
    obtain ⟨t3, hirq, hok, hend⟩ := exec_irq_inline h2 hup' hsnap (hcfg ▸ hm)
    exact ⟨t1, t2, t3, hsubmit, hmac, hirq, hok, fun _ => ⟨hend.pend, hend.watchdog⟩, nofun⟩
  | deferred =>
    obtain ⟨t3, hirq, hok, t4, t5, hrun, hdone, hok5, hend⟩ := exec_irq_deferred h2 hup' hsnap (hcfg ▸ hm) (hi2.trans hi1)
    exact ⟨t1, t2, t3, hsubmit, hmac, hirq, hok, nofun, fun _ => ⟨t4, t5, hrun, hdone, hok5, hend.pend, hend.watchdog⟩⟩

end Sys2Proof.Machine
end

section
/-!
Interrupts and the worker's passes at the command port: what a deferred capture leaves (O27), how an inline one ends (O28),
what `WORKER_RUN` does with the pending unit (O32) and how `WORKER_DONE` ends the pass (O33); then a snapshot nothing acts on
(O29) and two snapshots in one pass (O31).
-/

namespace Sys2Proof.Machine

/-! ## Events at the command port -/

/-- An event whose guard fails is not enabled (rule R261). -/
theorem exec_event_notEnabled {i : Instr} {s : State} (hf : s.fault = .none) (hc : opClass i = .event)
    (hw : i.wf s.cfg = true) (hg : (gateOf i s).guard = false) : exec i s = .next (s.refused i .eNotEnabled) := by
  refine exec_refused ?_ (by decide)
  rw [portCheck_admitted hw (.inl hf), gateOf_cls, hc, hg]
  rfl

/-- An interrupt is enabled while the device is up (rule R181). -/
theorem exec_irq_up {s : State} (hf : s.fault = .none) (hup : s.up = true) : exec .irq s = answerCommand .event (irq s) :=
  exec_event hf rfl rfl (by exact hup)

/-- Settles O27: the capture as one record update, and the unit scheduled after it. -/
theorem deferredIrqCaptures : Obligations.DeferredIrqCaptures := by
  unfold Obligations.DeferredIrqCaptures
  intro s hup hf hm
  rw [exec_irq_up hf hup, irq_deferred hm, schedule_eq, capture_eq]
  rcases s.dslot with _ | (_ | _ | _ | _) <;> rfl

/-! ## `PROCESS` in an interrupt or a worker's hands -/

/-- A pass that faults has not unmasked: only the acknowledge write could reach `IMR` (rules R184 and R264). -/
theorem imr_process_raised {snap : Byte} {s u : State} (h : process snap s = .raised u) (hack : s.cfg.ackReg ≠ .imr) :
    u.imr = s.imr := by
  have htouch := touches_process snap s
  rw [h] at htouch
  refine (htouch .imr).resolve_left ?_
  cases hr : s.cfg.ackReg <;> simp_all [processRegs, calloutRegs, submitRegs, regsOf]

theorem fault_process_raised {snap : Byte} {s u : State} (h : process snap s = .raised u) : u.fault ≠ .none := by
  have hrule := faultRule_process snap s
  rw [h] at hrule
  exact hrule

/-- Settles O28: a shut gate, or the pass after the capture, which completes and unmasks, or ends where it faults. -/
theorem inlineIrqProcessesAndUnmasks : Obligations.InlineIrqProcessesAndUnmasks := by
  unfold Obligations.InlineIrqProcessesAndUnmasks
  refine fun s hf => ⟨fun hdown => exec_event_notEnabled hf rfl rfl hdown, fun hup hm => ?_⟩
  rw [exec_irq_up hf hup, irq_inline hm, capture_eq]
  refine ⟨fun u hu => ?done, fun u hu => ⟨?raised, fault_process_raised hu, imr_process_raised hu⟩⟩
  case done =>
    have hcfg : u.cfg = s.cfg := (unitBody_keeps (u := .irqWork s.isr) hu).1
    rw [hu, ← hcfg]
    rfl
  case raised => rw [hu]; rfl

/-! ## The worker (rules R186, R187 and R192) -/

/-- In `INLINE` mode, without a unit or with a pass in flight there is nothing for the worker to run (rule R186). -/
theorem workerRunGuard_eq_false {s : State} (h : s.cfg.mode = .inline ∨ s.dslot = none ∨ s.inflight ≠ none) :
    workerRunGuard s = false := by
  unfold workerRunGuard
  rcases h with h | h | h
  · rw [h]; rfl
  · rw [h]; simp
  · cases hi : s.inflight with
    | none => exact absurd hi h
    | some u => simp

/-- `WORKER_RUN` runs the body of the pending unit, which is in flight by then. -/
theorem exec_workerRun {s : State} {u : DeferredUnit} (hf : s.fault = .none) (hm : s.cfg.mode = .deferred)
    (hi : s.inflight = none) (hd : s.dslot = some u) :
    exec .workerRun s = answerCommand .event ((unitBody u { s with dslot := none, inflight := some u }).andThen .ok) := by
  rw [exec_event hf rfl rfl (by simp [gateOf, workerRunGuard, hm, hd, hi]), bodyOf, workerRun_some hd]

/-- A unit whose one callout has room completes (rules R165 and R208). -/
theorem unitBody_callout {u : DeferredUnit} {c : Callout}
    (hu : (u = .pollWork ∧ c = .timerHook) ∨ (u = .txTimeoutWork ∧ c = .poll) ∨ (u = .txAvailWork ∧ c = .poll))
    {s : State} (hs : Shape s) (hroom : s.calloutHasRoom) : ∃ t, AfterCallout c s t ∧ unitBody u s = .ok t := by
  obtain ⟨rfl, rfl⟩ | ⟨rfl, rfl⟩ | ⟨rfl, rfl⟩ := hu
  · exact timerHook_ok hs hroom
  · exact txpoll_ok hs hroom
  · exact txpoll_ok hs hroom

/-- Settles O32: the gate, and the body of the unit taken, by the three ways it can end. -/
theorem workerRunTakesThePendingUnit : Obligations.WorkerRunTakesThePendingUnit := by
  unfold Obligations.WorkerRunTakesThePendingUnit
  refine fun s hf => ⟨fun h => exec_event_notEnabled hf rfl rfl (workerRunGuard_eq_false h), fun hm hi u hd => ?_⟩
  have hrun := exec_workerRun hf hm hi hd
  intro w
  refine ⟨fun snap t hu ht => ?done, fun snap t hu ht => ?raised, fun c hu hs hroom => ?callout⟩
  case done =>
    subst hu
    rw [hrun, unitBody, ht]
    rfl
  case raised =>
    subst hu
    have hregime := (indifferent_process snap).rel_regime w
    have himr := imr_process_raised ht
    rw [ht] at hregime
    exact ⟨by rw [hrun, unitBody, ht]; rfl, fault_process_raised ht, congrArg Regime.inflight hregime,
      congrArg Regime.dslot hregime, himr⟩
  case callout =>
    have hws : Shape w := (BlockStep.regs (s := s)).common.shape hs
    obtain ⟨t, hcall, ht⟩ := unitBody_callout hu hws hroom
    exact ⟨t, hcall, by rw [hrun, ht]; rfl⟩

theorem exec_workerDone {s : State} {u : DeferredUnit} (hf : s.fault = .none) (hi : s.inflight = some u) :
    exec .workerDone s = answerCommand .event (.ok (workerDone s)) :=
  exec_event hf rfl rfl (by simp [gateOf, hi])

/-- The end of a pass that began in the dispatcher (rule R187). -/
theorem exec_workerDone_unmasks {s : State} {u : DeferredUnit} (hf : s.fault = .none) (hi : s.inflight = some u)
    (hu : u ≠ .txAvailWork) : exec .workerDone s = .next { unmask s with inflight := none, resp := some (.returned .ok 0) } := by
  rw [exec_workerDone hf hi, workerDone, if_neg (by simp [hi, hu])]
  rfl

/-- Settles O33: the gate, and the two ways a pass ends. -/
theorem workerDoneRule : Obligations.WorkerDoneRule := by
  unfold Obligations.WorkerDoneRule
  refine fun s hf => ⟨fun hi => exec_event_notEnabled hf rfl rfl (by simp [gateOf, hi]),
    fun u hi hu => exec_workerDone_unmasks hf hi hu, fun hi => ?_⟩
  rw [exec_workerDone hf hi, workerDone, if_pos hi]
  rfl

/-! ## A snapshot nothing acts on (rule R189) -/

/-- A bit that some step of `PROCESS` acts on is clear in such a snapshot. -/
theorem getLsbD_idle {snap : Byte} (h : snap &&& 0xC7 = 0) {k : Nat} (hk : (0xC7#8).getLsbD k = true) :
    snap.getLsbD k = false := by
  have hbit := congrArg (BitVec.getLsbD · k) h
  simpa [hk] using hbit

theorem process_idle {snap : Byte} (h : snap &&& 0xC7 = 0) (s : State) : process snap s = .ok s := by
  have h0 : snap.getLsbD 0 = false := getLsbD_idle h rfl
  have h1 : snap.getLsbD 1 = false := getLsbD_idle h rfl
  have h2 : snap.getLsbD 2 = false := getLsbD_idle h rfl
  have h6 : snap.getLsbD 6 = false := getLsbD_idle h rfl
  have h7 : snap.getLsbD 7 = false := getLsbD_idle h rfl
  unfold process
  split
  · rfl
  · simp only [stepAck_eq, stepReceive_eq, stepTransmit_eq, stepPhy_eq, h0, h1, h2, h6, h7, Bool.or_false, Bool.false_eq_true,
      if_false, Res.ok_andThen, List.append_nil]

/-- Settles O29: the pass over such a snapshot is the empty one, so what is left is the capture and the unmask. -/
theorem idleSnapshotOnlyUnmasks : Obligations.IdleSnapshotOnlyUnmasks := by
  unfold Obligations.IdleSnapshotOnlyUnmasks
  refine fun s snap hf hidle => ⟨fun hup hm hisr => ?inline, fun hm hd hi => ⟨_, ?run, rfl, ?done⟩⟩
  case inline =>
    have h2 : snap.getLsbD 2 = false := getLsbD_idle hidle rfl
    rw [exec_irq_up hf hup, irq_inline hm, hisr, process_idle hidle, capture_eq, hisr, h2, Res.ok_andThen, unmask_eq,
      List.append_assoc]
    rfl
  case run =>
    rw [exec_workerRun hf hm hi hd, unitBody, process_idle hidle]
    rfl
  case done =>
    rw [exec_workerDone_unmasks (s := { s with dslot := none, inflight := some (.irqWork snap), resp := some (.returned .ok 0) })
      hf rfl DeferredUnit.noConfusion, hi]
    rfl

/-! ## Two interrupts before the worker runs (rule R190) -/

/-- Status bits raised on a healthy device and captured at once: they are scheduled, and the status register is clear again. -/
theorem capture_of_raised {s : State} (h : Healthy s) (hup : s.up = true) (hm : s.cfg.mode = .deferred) (hisr : s.isr = 0)
    (bits : Byte) : ∃ t u, exec (.macRaise bits) s = .next t ∧ exec .irq t = .next u ∧ Pass s u ∧ u.isr = 0 ∧ u.imr = 0 ∧
      u.inflight = s.inflight ∧ u.dslot = (schedule (.irqWork bits) s).dslot := by
  have hor : s.isr ||| bits = bits := by rw [hisr]; exact BitVec.zero_or
  have hraise : exec (.macRaise bits) s = .next { s with isr := bits, resp := some (.returned .ok 0) } := by
    rw [exec_env h.no_fault rfl rfl rfl, bodyOf, raiseBits, hor]
    rfl
  refine ⟨_, _, hraise, deferredIrqCaptures _ hup h.no_fault hm, h.pass_regs (.regs (he := ⟨_, rfl⟩)), rfl, rfl, rfl, ?_⟩
  rw [schedule_eq]
  rcases s.dslot with _ | (_ | _ | _ | _) <;> rfl

/-- With room for the waiting answers `WORKER_RUN` completes the pass over a pending snapshot. -/
theorem exec_workerRun_snapshot {s : State} {snap : Byte} (h : Healthy s) (hroom : s.roomForAnswers)
    (hm : s.cfg.mode = .deferred) (hi : s.inflight = none) (hd : s.dslot = some (.irqWork snap)) :
    ∃ t, exec .workerRun s = .next t ∧ t.fault = .none ∧ t.dslot = none ∧ t.inflight = some (.irqWork snap) ∧
      process snap { s with dslot := none, inflight := some (.irqWork snap) } = .done .ok 0 { t with resp := s.resp } := by
  have hpass : Pass s { s with dslot := none, inflight := some (.irqWork snap) } := h.pass_regs .regs
  obtain ⟨st, res, t, ht, hhealthy⟩ := (passRes_process hpass.healthy snap).completes (hpass.room hroom)
  obtain ⟨rfl, rfl⟩ : st = .ok ∧ res = 0 := by
    have hdone := completes_process snap { s with dslot := none, inflight := some (.irqWork snap) }
    rwa [ht] at hdone
  have hregime := (indifferent_process snap).regime_kept ht
  have hresp : t.resp = s.resp := congrArg Regime.resp hregime
  refine ⟨{ t with resp := some (.returned .ok 0) }, ?_, hhealthy.healthy.no_fault, congrArg Regime.dslot hregime,
    congrArg Regime.inflight hregime, by rw [ht, ← hresp]⟩
  rw [exec_workerRun h.no_fault hm hi hd, unitBody, ht]
  rfl

/-- Settles O31: the second capture merges into the first one's unit, and the worker runs that one unit. -/
theorem twoInterruptsCoalesce : Obligations.TwoInterruptsCoalesce := by
  unfold Obligations.TwoInterruptsCoalesce
  intro s s0 s1 h hroom hup hm hd hi hisr
  obtain ⟨t1, t2, hraise0, hirq0, hpass2, hisr2, -, hi2, hd2⟩ := capture_of_raised h hup hm hisr s0
  rw [schedule_eq, hd] at hd2
  obtain ⟨t3, t4, hraise1, hirq1, hpass4, hisr4, himr4, hi4, hd4⟩ :=
    capture_of_raised hpass2.healthy (hpass2.up.trans hup) (hpass2.cfg ▸ hm) hisr2 s1
  rw [schedule_eq, hd2] at hd4
  have hpass := hpass2.trans hpass4
  obtain ⟨t5, hrun, hf5, hd5, hi5, hprocess⟩ := exec_workerRun_snapshot hpass.healthy (hpass.room hroom) (hpass.cfg ▸ hm)
    (hi4.trans (hi2.trans hi)) hd4
  exact ⟨t1, t2, t3, t4, t5, _, hraise0, hirq0, hd2, hraise1, hirq1, hd4, hisr4, himr4, hrun, hd5, hi5, hprocess,
    exec_workerDone_unmasks hf5 hi5 DeferredUnit.noConfusion, rfl, hd5, rfl,
    exec_event_notEnabled hf5 rfl rfl (workerRunGuard_eq_false (.inr (.inl hd5)))⟩

end Sys2Proof.Machine
end

section
/-!
`PROCESS` as the commands it stands for (O30): each of its steps is the body of a command, and a step reads nothing of the
answer that the command before it left.
-/

namespace Sys2Proof.Machine

/-! ## A command as a part of a sequence -/

/-- An indifferent procedure answers a command the same whatever the last answer was. -/
theorem answer_indifferent {f : State → Res} (hf : Indifferent f) (s : State) (last : Option Response) :
    answerCommand .internal (f { s with resp := last }) = answerCommand .internal (f s) := by
  have hregime := hf.rel_regime s
  rw [show ({ s with resp := last } : State) = s.under { s.regime with resp := last } from rfl, hf]
  cases hs : f s with
  | done st res t => rw [hs] at hregime; rw [← show t.regime = s.regime from hregime]; rfl
  | raised t => rw [hs] at hregime; rw [← show t.regime = s.regime from hregime]; rfl
  | stop f => rfl

/-- From `s` to `t` the command `i` was answered `OK`, or it was left out because its bits are clear. -/
def StepTaken (bit : Bool) (i : Instr) (s t : State) : Prop :=
  if bit then exec i s = .next t ∧ t.resp = some (.returned .ok 0) else t = s

section
variable {bit : Bool} {i : Instr} {s t : State}

theorem StepTaken.cfg (h : StepTaken bit i s t) : t.cfg = s.cfg := by
  cases bit with
  | true => exact (common_exec h.1).cfg
  | false => exact congrArg State.cfg h

/-- What follows such a step goes on from the state the command left. -/
theorem StepTaken.answer (h : StepTaken bit i s t) (hc : opClass i = .internal) {k : State → Res} (hk : Indifferent k) :
    answerCommand .internal ((if bit then bodyOf i s else .ok s).andThen k) = answerCommand .internal (k t) := by
  cases bit with
  | false => exact congrArg (fun u => answerCommand .internal (k u)) (show t = s from h).symm
  | true =>
    obtain ⟨he, hr⟩ := h
    rw [if_pos rfl]
    rcases exec_next_cases he with ⟨hn, rfl⟩ | ⟨_, ⟨st, res, u, hu, rfl⟩ | ⟨u, _, rfl⟩⟩
    · simp only [State.refused, Option.some.injEq, Response.returned.injEq] at hr
      exact absurd hr.1 hn
    · rw [hu, hc]
      exact (answer_indifferent hk u _).symm
    · cases hr

/-- Nothing follows a command that ended in a fault (rules R264 and R271). -/
theorem answer_faulted {code : FaultCode} (h : exec i s = .next t) (hr : t.resp = some (.faulted code)) (cls : OpClass)
    (k : State → Res) : answerCommand cls ((bodyOf i s).andThen k) = .next t := by
  rcases exec_next_cases h with ⟨_, rfl⟩ | ⟨_, ⟨st, res, u, _, rfl⟩ | ⟨u, hu, rfl⟩⟩
  · cases hr
  · rw [resp_respond] at hr; cases hr
  · rw [hu]; rfl

end

/-! ## The steps of `PROCESS` from each on to the end -/

/-- The steps (c) and (d). -/
def fromTransmit (snap : Byte) (s : State) : Res := (stepTransmit snap s).andThen (stepPhy snap)

/-- The steps (b) to (d). -/
def fromReceive (snap : Byte) (s : State) : Res := (stepReceive snap s).andThen (fromTransmit snap)

theorem process_ne_zero {snap : Byte} (h : snap ≠ 0) (s : State) :
    process snap s = (stepAck snap s).andThen (fromReceive snap) := by
  rw [process, if_neg h, Res.andThen_assoc, Res.andThen_assoc]
  rfl

theorem indifferent_stepPhy (snap : Byte) : Indifferent (stepPhy snap) :=
  Indifferent.ite (f := fun s => .ok { regRead .phystat s with linkUp := s.phyLink }) (fun _ _ => rfl) _

theorem indifferent_fromTransmit (snap : Byte) : Indifferent (fromTransmit snap) :=
  (indifferent_reclaimCompleted.ite _).andThen (indifferent_stepPhy snap)

theorem indifferent_fromReceive (snap : Byte) : Indifferent (fromReceive snap) :=
  (indifferent_pollReceive.ite _).andThen (indifferent_fromTransmit snap)

/-- Step (d) at the command port (rule R184). -/
theorem answer_stepPhy (snap : Byte) (s : State) : answerCommand .internal (stepPhy snap s) = .next { s with
    linkUp := if snap.getLsbD 6 then s.phyLink else s.linkUp
    trace := s.trace ++ if snap.getLsbD 6 then [.regR .phystat (linkWord s.cfg.layout s.phyLink)] else []
    resp := some (.returned .ok 0) } := by
  rw [stepPhy_eq]
  rfl

/-- At an open test port a register write is answered `OK` (rule R225). -/
theorem resp_regWrite {s t : State} (hp : s.portOpen) {reg : Reg} {v : Word} (h : exec (.regWrite reg v) s = .next t) :
    t.resp = some (.returned .ok 0) := by
  rw [exec_open hp rfl rfl rfl] at h
  cases h
  rfl

/-- Settles O30: each step is the body of its command, taken or left out, and what follows it is indifferent to its answer. -/
theorem processRunsItsStepsInOrder : Obligations.ProcessRunsItsStepsInOrder := by
  unfold Obligations.ProcessRunsItsStepsInOrder
  refine ⟨fun s hp => by rw [exec_open hp rfl rfl rfl]; rfl, fun s a snap hp hne hack => ?_⟩
  have ha : StepTaken (snap.getLsbD 7) (.regWrite s.cfg.ackReg s.cfg.ackVal) s a := by
    unfold StepTaken
    split at hack
    · next hbit => rw [if_pos hbit]; exact ⟨hack, resp_regWrite hp hack⟩
    · next hbit => rw [if_neg hbit]; exact hack
  have hprocess : exec (.process snap) s = answerCommand .internal (fromReceive snap a) := by
    rw [exec_open hp rfl rfl rfl, bodyOf, process_ne_zero hne, stepAck_eq]
    exact ha.answer rfl (indifferent_fromReceive snap)
  rw [hprocess, fromReceive, stepReceive_eq]
  refine ⟨fun b code hbit hb hr => ?receiveFaults, fun b hb => ?_⟩
  case receiveFaults => rw [if_pos hbit]; exact answer_faulted hb hr _ _
  change StepTaken _ .pollReceive a b at hb
  have htransmit : answerCommand .internal _ = answerCommand .internal (fromTransmit snap b) :=
    hb.answer rfl (indifferent_fromTransmit snap)
  rw [bodyOf] at htransmit
  rw [htransmit, fromTransmit, stepTransmit_eq]
  refine ⟨fun c code hbit hc hr => ?transmitFaults, fun c hc => ?_⟩
  case transmitFaults => rw [if_pos hbit]; exact answer_faulted hc hr _ _
  change StepTaken _ .reclaimCompleted b c at hc
  have hcfg : c.cfg = s.cfg := hc.cfg.trans (hb.cfg.trans ha.cfg)
  rw [← hcfg, ← answer_stepPhy]
  exact hc.answer rfl (indifferent_stepPhy snap)

end Sys2Proof.Machine
end

section
/-!
The timers: one tick (O37), a run of ticks (O39), the timer operations (O38), and what the two expiry events do at the command
port (O40 and O41).
-/

namespace Sys2Proof.Machine

/-! ## The time base (rule R201) -/

/-- Rule R201 for one count, as it says it. -/
theorem countDown_eq (armed : Bool) (rem : Word) :
    countDown armed rem = if armed then (if rem = 0 then 0 else rem - 1) else rem := by
  cases armed with
  | false => rfl
  | true =>
    by_cases h : rem = 0
    · rw [h]; rfl
    · rw [countDown, if_pos ⟨rfl, h⟩, if_pos rfl, if_neg h]

/-- What `n` ticks leave of a count. -/
def countAfter (n : Nat) (armed : Bool) (rem : Word) : Word := if armed then BitVec.ofNat 32 (rem.toNat - n) else rem

theorem countAfter_zero (armed : Bool) (rem : Word) : countAfter 0 armed rem = rem := by
  simp [countAfter]

theorem toNat_countAfter (n : Nat) (rem : Word) : (countAfter n true rem).toNat = rem.toNat - n := by
  rw [countAfter, if_pos rfl, BitVec.toNat_ofNat]
  exact Nat.mod_eq_of_lt (Nat.sub_lt_of_lt rem.isLt)

/-- On an armed count a tick is the subtraction of natural numbers, which stops at 0. -/
theorem toNat_countDown (rem : Word) : (countDown true rem).toNat = rem.toNat - 1 := by
  rw [countDown_eq, if_pos rfl]
  split
  · next h => rw [h]; rfl
  · next h => bv_omega

theorem countAfter_countDown (n : Nat) (armed : Bool) (rem : Word) :
    countAfter n armed (countDown armed rem) = countAfter (n + 1) armed rem := by
  cases armed with
  | false => rfl
  | true =>
    apply BitVec.eq_of_toNat_eq
    rw [toNat_countAfter, toNat_countAfter, toNat_countDown]
    omega

theorem countAfter_eq_zero_iff (n : Nat) {armed : Bool} (h : armed = true) (rem : Word) :
    countAfter n armed rem = 0 ↔ rem.toNat ≤ n := by
  rw [h, ← BitVec.toNat_inj, toNat_countAfter]
  exact Nat.sub_eq_zero_iff_le

theorem exec_tick {s : State} (hf : s.fault = .none) : exec .tick s = .next { tick s with resp := some (.returned .ok 0) } :=
  exec_event hf rfl rfl rfl

/-- Settles O37: the two counts, each by rule R201. -/
theorem tickRule : Obligations.TickRule := by
  unfold Obligations.TickRule
  intro s hf
  rw [exec_tick hf, tick, countDown_eq, countDown_eq]

theorem run_succ {M : Host.Core} {s t : M.State} (h : M.step s = .next t) (n : Nat) : M.run (n + 1) s = M.run n t := by
  rw [Host.Core.run, h]

/-- A command stream of `n` ticks. -/
theorem run_ticks (n : Nat) {s : State} (hf : s.fault = .none) :
    core.run n { s with cmds := List.replicate n (encode s.cfg.layout .tick) } =
      .next { s with
        cmds := []
        ptRem := countAfter n s.ptArmed s.ptRem
        toRem := countAfter n s.toArmed s.toRem
        resp := if n = 0 then s.resp else some (.returned .ok 0) } := by
  induction n generalizing s with
  | zero => simp only [countAfter_zero]; rfl
  | succ n ih =>
    have hdecode : decode s.cfg.layout (encode s.cfg.layout .tick) = some .tick := decode_of_format (formatN_iff.mpr ⟨rfl, rfl⟩)
    have hstep : core.step { s with cmds := List.replicate (n + 1) (encode s.cfg.layout .tick) } =
        .next { tick s with
          cmds := List.replicate n (encode s.cfg.layout .tick), resp := some (.returned .ok 0) } :=
      (step_decoded (s := { s with cmds := List.replicate (n + 1) (encode s.cfg.layout .tick) }) rfl hdecode).trans
        (exec_tick hf)
    have hrest := ih (s := { tick s with resp := some (.returned .ok 0) }) hf
    simp only [tick, countAfter_countDown, ite_self] at hrest
    rw [if_neg n.succ_ne_zero]
    exact (run_succ hstep n).trans hrest

/-! ## When an expiry is enabled (rules R206 and R207) -/

/-- Without a fault an event is enabled exactly when its guard holds (rule R261). -/
theorem enabled_event_iff {i : Instr} {s : State} (hf : s.fault = .none) (hc : opClass i = .event) (hw : i.wf s.cfg = true) :
    enabled i s = true ↔ (gateOf i s).guard = true := by
  refine ⟨fun h => ?_, fun hg => beq_iff_eq.mpr (portCheck_event hf hc hw hg)⟩
  obtain ⟨_, _, _, _, _, hg⟩ := (portCheck_eq_ok_iff _ _).mp (beq_iff_eq.mp h)
  exact hg

theorem enabled_pollExpire_iff {s : State} (hf : s.fault = .none) :
    enabled .pollExpire s = true ↔ s.ptArmed = true ∧ s.ptRem = 0 := by
  rw [enabled_event_iff hf rfl rfl, gateOf, pollExpireGuard, Bool.and_eq_true, beq_iff_eq]

theorem enabled_txtoExpire_iff {s : State} (hf : s.fault = .none) :
    enabled .txtoExpire s = true ↔ s.toArmed = true ∧ s.toRem = 0 := by
  rw [enabled_event_iff hf rfl rfl, gateOf, txtoExpireGuard, Bool.and_eq_true, beq_iff_eq]

/-- Settles O39: the run is an induction on the ticks, and an expiry is enabled when the count it leaves is 0. -/
theorem expiryWaitsForItsDuration : Obligations.ExpiryWaitsForItsDuration := by
  unfold Obligations.ExpiryWaitsForItsDuration
  intro n s hf
  refine ⟨run_ticks n hf, fun ha => ?poll, fun ha => ?watchdog⟩
  case poll =>
    have henabled := enabled_pollExpire_iff (s := { s with ptRem := countAfter n s.ptArmed s.ptRem }) hf
    exact henabled.trans ((and_iff_right ha).trans (countAfter_eq_zero_iff n ha _))
  case watchdog =>
    have henabled := enabled_txtoExpire_iff (s := { s with toRem := countAfter n s.toArmed s.toRem }) hf
    exact henabled.trans ((and_iff_right ha).trans (countAfter_eq_zero_iff n ha _))

/-! ## Start and cancel (rules R202 to R205 and R209) -/

theorem ptCancel_disarmed {s : State} (h : s.ptArmed = false) : ptCancel s = s := by rw [ptCancel, ← h]

theorem txtoCancel_disarmed {s : State} (h : s.toArmed = false) : txtoCancel s = s := by rw [txtoCancel, ← h]

/-- Settles O38: at an open port each operation is its record update, and a cancel of a disarmed timer is none. -/
theorem timerStartAndCancelRules : Obligations.TimerStartAndCancelRules := by
  unfold Obligations.TimerStartAndCancelRules
  intro s hp
  have hpt := exec_open (i := .ptCancel) hp rfl rfl rfl
  have hto := exec_open (i := .txtoCancel) hp rfl rfl rfl
  refine ⟨exec_open hp rfl rfl rfl, hpt, exec_open hp rfl rfl rfl, hto, fun h => ?poll, fun h => ?watchdog⟩
  case poll => rw [hpt, bodyOf, ptCancel_disarmed h]; rfl
  case watchdog => rw [hto, bodyOf, txtoCancel_disarmed h]; rfl

/-! ## The two expiries (rules R206, R207 and R210) -/

/-- In `INLINE` mode an expiry makes its one callout between mask and unmask. -/
theorem exec_expiry_inline {i : Instr} {c : Callout} (hi : (i = .pollExpire ∧ c = .timerHook) ∨ (i = .txtoExpire ∧ c = .poll))
    {s : State} (hf : s.fault = .none) (hg : (gateOf i s).guard = true) (hm : s.cfg.mode = .inline)
    (hs : Shape s) (hroom : s.calloutHasRoom) :
    ∃ t, AfterCallout c (beforePass i s) t ∧ t.cfg = s.cfg ∧
      exec i s = .next { rearm i (unmask t) with resp := some (.returned .ok 0) } := by
  obtain ⟨t, hcall, ht⟩ : ∃ t, AfterCallout c (beforePass i s) t ∧ unitBody (unitOf i s) (beforePass i s) = .ok t := by
    obtain ⟨rfl, rfl⟩ | ⟨rfl, rfl⟩ := hi
    · exact timerHook_ok ((BlockStep.regs (he := ⟨[_], rfl⟩)).common.shape hs) hroom
    · exact txpoll_ok ((BlockStep.regs (he := ⟨[_], rfl⟩)).common.shape hs) hroom
  have hb : BeginsPass i := by
    obtain ⟨rfl, _⟩ | ⟨rfl, _⟩ := hi
    · exact .inr (.inl rfl)
    · exact .inr (.inr rfl)
  have hw : i.wf s.cfg = true := by obtain ⟨rfl, _⟩ | ⟨rfl, _⟩ := hi <;> rfl
  refine ⟨t, hcall, (unitBody_keeps ht).1.trans (beforePass_keeps hb s).1, ?_⟩
  rw [exec_event hf hb.event hw hg, bodyOf_inline hb hm, ht]
  rfl

/-- Settles O40: the gate, the three ways of a spent arming, and the new period after each of them. -/
theorem pollExpireRule : Obligations.PollExpireRule := by
  unfold Obligations.PollExpireRule
  refine fun s hf => ⟨fun h => ?notEnabled, fun ha hr => ?_⟩
  case notEnabled => exact exec_event_notEnabled hf rfl rfl (Bool.and_eq_false_iff.mpr (h.imp_right beq_false_of_ne))
  have hg : pollExpireGuard s = true := Bool.and_eq_true_iff.mpr ⟨ha, beq_iff_eq.mpr hr⟩
  have hrun : exec .pollExpire s = answerCommand .event (pollExpire s) := exec_event hf rfl rfl hg
  refine ⟨fun hm hd => ?dropped, fun hm hd => ?scheduled, fun hm hs hroom => ?inline⟩
  case dropped => rw [hrun, pollExpire_dropped hm hd, ptStart, ← ha]; rfl
  case scheduled => rw [hrun, pollExpire_free hm hd, schedule_eq, maskAll_eq, ptStart, hd, ← ha]; rfl
  case inline =>
    obtain ⟨t, hcall, hcfg, hinline⟩ := exec_expiry_inline (.inl ⟨rfl, rfl⟩) hf hg hm hs hroom
    rw [beforePass, maskAll_eq] at hcall
    exact ⟨t, hcall, by rw [hinline, ← hcfg]; rfl⟩

/-- Settles O41: the gate, and the one poll, at once or as the pending unit. -/
theorem txtoExpireRule : Obligations.TxtoExpireRule := by
  unfold Obligations.TxtoExpireRule
  refine fun s hf => ⟨fun h => ?notEnabled, fun ha hr => ?_⟩
  case notEnabled => exact exec_event_notEnabled hf rfl rfl (Bool.and_eq_false_iff.mpr (h.imp_right beq_false_of_ne))
  have hg : txtoExpireGuard s = true := Bool.and_eq_true_iff.mpr ⟨ha, beq_iff_eq.mpr hr⟩
  refine ⟨fun hm => ?deferred, fun hm hs hroom => ?inline⟩
  case deferred =>
    rw [exec_event (i := .txtoExpire) hf rfl rfl hg, bodyOf, txtoExpire_deferred hm, schedule_eq, maskAll_eq]
    rcases s.dslot with _ | (_ | _ | _ | _) <;> rfl
  case inline =>
    obtain ⟨t, hcall, hcfg, hinline⟩ := exec_expiry_inline (.inr ⟨rfl, rfl⟩) hf hg hm hs hroom
    rw [beforePass, maskAll_eq] at hcall
    exact ⟨t, hcall, by rw [hinline, ← hcfg]; rfl⟩

end Sys2Proof.Machine
end

section
/-!
The host interface: what `BRING_UP` writes (O42) and what `BRING_DOWN` leaves possible (O43), `NOTIFY_TX_AVAILABLE` (O44), the
two register accesses (O45, O46) and the RESERVED operations (O47).
-/

namespace Sys2Proof.Machine

/-! ## `RING_INIT` and `BRING_UP` (rules R220 and R221) -/

/-- The slots constructed enter the trace one by one. -/
theorem trace_initSlots (r : Ring) (i n : Nat) (s : State) : (initSlots r i n s).trace =
    s.trace ++ (List.range' i n).flatMap fun j => descEvents r j (Desc.constructed s.cfg r j) := by
  induction n generalizing i s with
  | zero => simp [initSlots]
  | succ n ih => rw [initSlots, ih, writeDesc_trace, writeDesc_cfg, List.range'_succ, List.flatMap_cons, List.append_assoc]

theorem trace_ringInit (s : State) : (ringInit s).trace = s.trace ++ initEvents s.cfg .rx ++ initEvents s.cfg .tx := by
  change (initSlots .tx 0 s.cfg.nTx (initSlots .rx 0 s.cfg.nRx s)).trace = _
  rw [trace_initSlots, trace_initSlots, initSlots_cfg, ← List.range_eq_range', ← List.range_eq_range']
  rfl

/-- `RING_INIT` leaves each ring as construction does (rule R220). -/
theorem ring_ringInit {s : State} (hs : Shape s) (r : Ring) : (ringInit s).ring r = constructedRing s.cfg r := by
  have hlen : ((ringInit s).ring r).length = s.cfg.capacity r := by
    cases r
    · exact (common_ringInit s).rx_len.trans hs.rx_length
    · exact (common_ringInit s).tx_len.trans hs.tx_length
  refine List.ext_getElem (hlen.trans (length_constructedRing s.cfg r).symm) fun i hi hi' => ?_
  rw [List.getElem_eq_getD Desc.beyond, List.getElem_eq_getD Desc.beyond, getD_constructedRing (hlen ▸ hi)]
  exact desc_ringInit hs (hlen ▸ hi)

/-- Constructing slots changes the rings and the trace only. -/
theorem initSlots_frame (r : Ring) (i n : Nat) (s : State) : initSlots r i n s =
    { s with
      rxd := (initSlots r i n s).rxd, txd := (initSlots r i n s).txd, trace := (initSlots r i n s).trace } := by
  induction n generalizing i s with
  | zero => rfl
  | succ n ih =>
    refine (ih (i + 1) (writeDesc r i (Desc.constructed s.cfg r i) s)).trans ?_
    rw [initSlots]
    generalize initSlots r (i + 1) n (writeDesc r i (Desc.constructed s.cfg r i) s) = u
    rw [writeDesc_eq]
    cases r <;> rfl

/-- `RING_INIT` as one record update (rule R220). -/
theorem ringInit_eq {s : State} (hs : Shape s) : ringInit s = { s with
    rxd := constructedRing s.cfg .rx, txd := constructedRing s.cfg .tx
    rxCur := 0, txCur := 0, txClean := 0, txPend := 0
    trace := s.trace ++ initEvents s.cfg .rx ++ initEvents s.cfg .tx } := by
  rw [← trace_ringInit, ← ring_ringInit hs .rx, ← ring_ringInit hs .tx, ringInit, initSlots_frame .tx, initSlots_frame .rx]
  rfl

/-- The writes of `BRING_UP` as one record update (rule R221). -/
theorem bringUpWrites_eq {s : State} (hs : Shape s) : bringUpWrites s = { s with
    rxd := constructedRing s.cfg .rx, txd := constructedRing s.cfg .tx
    rxCur := 0, txCur := 0, txClean := 0, txPend := 0
    txbase := s.cfg.txRingAddr, rxbase := s.cfg.rxRingAddr
    macTxIdx := 0, macRxIdx := 0, txKick := false
    maccr := 0x7F, imr := 0x7F
    ptArmed := true, ptRem := s.cfg.pollPeriod
    up := true
    trace := s.trace ++ initEvents s.cfg .rx ++ initEvents s.cfg .tx ++
      [.regW .txbase s.cfg.txRingAddr, .regW .rxbase s.cfg.rxRingAddr, .regW .maccr (controlWord s.cfg.layout 0x7F),
        .regW .imr (statusWord s.cfg.layout 0x7F)] } := by
  rw [bringUpWrites, ringInit_eq hs]
  simp only [regWrite, writeEffect, writeMaccr, maccrUp, ptStart, writeImr, irqEnableSet, State.log, List.append_assoc,
    List.cons_append, List.nil_append]

/-- A host call whose guard fails is not enabled (rule R261). -/
theorem exec_host_notEnabled {i : Instr} {s : State} (hr : s.hostReady) (hc : opClass i = .host) (hw : i.wf s.cfg = true)
    (hg : (gateOf i s).guard = false) : exec i s = .next (s.refused i .eNotEnabled) := by
  refine exec_refused ?_ (by decide)
  rw [portCheck_admitted hw (.inl hr.2), gateOf_cls, hc, hg, hr.1]
  rfl

/-- Settles O42: the gate, the two tests, and the writes as one record update. -/
theorem bringUpRule : Obligations.BringUpRule := by
  unfold Obligations.BringUpRule
  refine fun s hr => ⟨fun hup => ?up, fun hd => ?_⟩
  case up => exact exec_host_notEnabled hr rfl rfl (by rw [gateOf, hup]; rfl)
  refine ⟨fun hcap => ?capacity, fun hcap hirq => ?irqLine, fun hcap hirq hs => ?writes⟩ <;>
    rw [exec_host hr rfl rfl (by rw [gateOf, hd]; rfl), bodyOf]
  case capacity => rw [bringUp, hcap]; rfl
  case irqLine => rw [bringUp, hcap, hirq]; rfl
  case writes =>
    rw [bringUp, hcap, hirq, bringUpWrites_eq hs]
    simp [Res.ok, answerCommand, respond, State.log, State.construct]

/-! ## `BRING_DOWN` (rule R222) -/

/-- What the port accepts has its guard. -/
theorem guard_of_enabled {i : Instr} {s : State} (h : enabled i s = true) : (gateOf i s).guard = true := by
  obtain ⟨_, _, _, _, _, hg⟩ := (portCheck_eq_ok_iff _ _).mp (beq_iff_eq.mp h)
  exact hg

/-- On a quiet device that is down time alone goes on (rule R222). -/
theorem Quiet.tick_of_event {s : State} (hq : Quiet s) (hd : s.up = false) {i : Instr} (hc : opClass i = .event)
    (h : enabled i s = true) : i = .tick := by
  replace h := guard_of_enabled h
  cases i with
  | tick => rfl
  | irq => simp [gateOf, hd] at h
  | workerRun => simp [gateOf, workerRunGuard, hq.no_slot] at h
  | workerDone => simp [gateOf, hq.no_pass] at h
  | pollExpire => simp [gateOf, pollExpireGuard, hq.pt_off] at h
  | txtoExpire => simp [gateOf, txtoExpireGuard, hq.to_off] at h
  | _ => cases hc

/-- On a quiet device the MAC agent moves no descriptor (rules R222 and R240 (d)). -/
theorem Quiet.raise_or_phy_of_env {s : State} (hq : Quiet s) {i : Instr} (hc : opClass i = .env) (h : enabled i s = true) :
    (∃ b, i = .macRaise b) ∨ ∃ l, i = .macPhy l := by
  replace h := guard_of_enabled h
  cases i with
  | macRaise b => exact .inl ⟨b, rfl⟩
  | macPhy l => exact .inr ⟨l, rfl⟩
  | macTxDone idx stat => simp [gateOf, macTxDoneGuard, hq.disabled, txEn] at h
  | macRxFrame len fs ls stat seed => simp [gateOf, macRxFrameGuard, hq.disabled, rxEn] at h
  | _ => cases hc

/-- With no pass in flight `BRING_DOWN` leaves a quiet device (rule R222), whatever it traced and answered. -/
theorem quiet_broughtDown {s : State} (h : s.inflight = none) (trace : List Event) (resp : Option Response) :
    Quiet { s with
      imr := 0, maccr := 0, ptArmed := false, toArmed := false, dslot := none, up := false, trace := trace, resp := resp } :=
  ⟨rfl, rfl, rfl, rfl, rfl, h⟩

/-- Settles O43: the record update, and what a quiet device that is down leaves enabled. -/
theorem bringDownRule : Obligations.BringDownRule := by
  unfold Obligations.BringDownRule
  intro s hr
  have hq := quiet_broughtDown hr.1
  refine ⟨_, ?writes, rfl, fun i hc h => (hq _ _).tick_of_event rfl hc h, fun i hc h => (hq _ _).raise_or_phy_of_env hc h⟩
  rw [exec_host hr rfl rfl rfl, bodyOf, bringDown_eq, statusWord_zero, controlWord_zero]
  simp [Res.ok, answerCommand, respond, State.log]

/-! ## `NOTIFY_TX_AVAILABLE` (rules R192 and R223) -/

theorem notifyTxAvailable_idle {s : State} (h : s.up = false ∨ s.dslot ≠ none) : notifyTxAvailable s = .ok s := by
  rw [notifyTxAvailable]
  rcases h with hd | hp
  · rw [hd]; rfl
  · rw [if_pos hp, ite_self]

theorem notifyTxAvailable_deferred {s : State} (hu : s.up = true) (hd : s.dslot = none) (hm : s.cfg.mode = .deferred) :
    notifyTxAvailable s = .ok (schedule .txAvailWork s) := by
  simp only [notifyTxAvailable, hu, hd, hm, Bool.not_true, Bool.false_eq_true, ne_eq, not_true_eq_false, if_false]

/-- Settles O44: nothing to do, the unit scheduled, or the poll at once. -/
theorem notifyRule : Obligations.NotifyRule := by
  unfold Obligations.NotifyRule
  intro s hr
  have hexec : exec .notifyTxAvailable s = answerCommand .host (notifyTxAvailable s) := exec_host hr rfl rfl rfl
  refine ⟨fun h => ?idle, fun hu hd => ⟨fun hm => ?deferred, fun hm hs hroom => ?inline⟩⟩ <;> rw [hexec]
  case idle => rw [notifyTxAvailable_idle h]; rfl
  case deferred => rw [notifyTxAvailable_deferred hu hd hm, schedule_eq, hd]; rfl
  case inline =>
    obtain ⟨t, hcall, ht⟩ := txpoll_ok hs hroom
    exact ⟨t, hcall, by rw [notifyTxAvailable_inline hu hd hm, ht]; rfl⟩

/-! ## The register accesses (rules R224 and R225) -/

/-- A register read as one record update (rules R41 and R79). -/
theorem regRead_eq (r : Reg) (s : State) : regRead r s =
    { s with isr := if r = .isr then 0 else s.isr, trace := s.trace ++ [.regR r (s.regVal r)] } := by
  cases r <;> rfl

/-- Settles O45: the open port reads the register, and each reads as its rule says. -/
theorem regReadRule : Obligations.RegReadRule := by
  unfold Obligations.RegReadRule
  intro r s ht
  rw [exec_regRead_open r ht, regRead_eq]
  cases r <;> rfl

/-- At an open port a register write is the register's rule and its place in the trace (rule R225). -/
theorem exec_regWrite {s : State} (hp : s.portOpen) (r : Reg) (v : Word) : exec (.regWrite r v) s =
    .next { writeEffect r v s with trace := s.trace ++ [.regW r v], resp := some (.returned .ok 0) } := by
  rw [exec_open hp rfl rfl rfl, ← writeEffect_trace r v s]
  rfl

/-- Settles O46: one write rule for each register. -/
theorem regWriteRule : Obligations.RegWriteRule := by
  unfold Obligations.RegWriteRule
  intro v s hp
  refine ⟨exec_regWrite hp .isr v, exec_regWrite hp .imr v, ?txpoll, exec_regWrite hp .txbase v, exec_regWrite hp .rxbase v,
    exec_regWrite hp .maccr v, exec_regWrite hp .phystat v, exec_regWrite hp .tune v⟩
  rw [exec_regWrite hp, writeEffect]
  split <;> rfl

/-! ## The RESERVED operations (rules R116 (d) and R227) -/

/-- A RESERVED operation is answered, and that is all. -/
theorem exec_reserved {i : Instr} (hc : opClass i = .reserved) (hw : ∀ cfg, i.wf cfg = true) (s : State) :
    exec i s = .next { s with resp := some (.returned (if s.fault = .none then .eReserved else .eFaulted) 0) } := by
  have hanswer (st : Status) : s.refused i st = { s with resp := some (.returned st 0) } := by
    simp [State.refused, hc]
  by_cases hf : s.fault = .none
  · rw [exec_refused (portCheck_reserved (hw _) (.inl hf) hc) (by decide), hanswer, if_pos hf]
  · rw [exec_faulted hf (fun r hr => by rw [hr] at hc; cases hc) (hw _), hanswer, if_neg hf]

/-- Settles O47: the first word alone is decoded, and the port answers by the fault register. -/
theorem reservedOperationsAreRefused : Obligations.ReservedOperationsAreRefused := by
  unfold Obligations.ReservedOperationsAreRefused
  exact fun w1 w2 s => ⟨decode_of_format (op := 0x45) (formatReserved_iff.mpr ⟨rfl, rfl⟩),
    decode_of_format (op := 0x46) (formatReserved_iff.mpr ⟨rfl, rfl⟩),
    exec_reserved rfl (fun _ => rfl) s, exec_reserved rfl (fun _ => rfl) s⟩

end Sys2Proof.Machine
end

section
/-!
The moves of the MAC agent: the frame that `MAC_RX_FRAME` stores (O49), the completion by `MAC_TX_DONE` (O48), and the two moves
that no gate holds back, `MAC_RAISE` and `MAC_PHY` (O50).
-/

namespace Sys2Proof.Machine

/-! ## The gates (rules R240 (d) and R261) -/

/-- A move of the MAC agent whose guard fails is not enabled (rule R261). -/
theorem exec_env_notEnabled {i : Instr} {s : State} (hf : s.fault = .none) (hc : opClass i = .env) (hw : i.wf s.cfg = true)
    (hg : (gateOf i s).guard ≠ true) : exec i s = .next (s.refused i .eNotEnabled) := by
  refine exec_refused ?_ (by decide)
  rw [portCheck_admitted hw (.inl hf), gateOf_cls, hc, Bool.eq_false_iff.mpr hg]
  rfl

theorem macRxFrameGuard_iff {len : Half} {s : State} : macRxFrameGuard len s = true ↔
    rxEn s.maccr = true ∧ dmaEn s.maccr = true ∧ (s.desc .rx s.macRxIdx).own = .hw ∧
      len.toNat ≤ (s.desc .rx s.macRxIdx).len.toNat := by
  simp only [macRxFrameGuard, Bool.and_eq_true, beq_iff_eq, decide_eq_true_eq, and_assoc]

theorem macTxDoneGuard_iff {idx : Nat} {s : State} : macTxDoneGuard idx s = true ↔
    txEn s.maccr = true ∧ dmaEn s.maccr = true ∧ (s.desc .tx idx).own = .hw ∧
      (s.cfg.macInOrder = true → s.macTxIdx = idx) := by
  simp only [macTxDoneGuard, Bool.and_eq_true, beq_iff_eq, and_assoc, Bool.or_eq_true, Bool.not_eq_true', eq_comm (a := idx),
    ← Bool.not_eq_true, ← imp_iff_not_or]

/-! ## The frame's bytes (rules R113 and R243) -/

/-- Bytes stored outside the rings stand in memory. -/
theorem mem_writeBytes_inside {a k : Nat} {bs : List Byte} {s : State}
    (hout : ∀ x, a ≤ x → x < a + bs.length → ∀ r, s.slotAt r x = none) (hk : k < bs.length) :
    (s.writeBytes a bs).mem.read (a + k) = some bs[k] := by
  induction bs generalizing s a k with
  | nil => exact absurd hk (Nat.not_lt_zero k)
  | cons b bs ih =>
    rw [List.length_cons] at hout hk
    have hfirst := hout a (Nat.le_refl a) (by omega)
    have hb : s.writeByte a b = { s with mem := s.mem.insert a b } := by
      unfold State.writeByte
      rw [hfirst .rx, hfirst .tx]
    rw [State.writeBytes]
    cases k with
    | zero => rw [mem_writeBytes_outside bs _ (by omega), hb, Nat.add_zero, Memory.read_insert, if_pos rfl]; rfl
    | succ k =>
      rw [← Nat.add_assoc, Nat.add_right_comm]
      refine ih (fun x h1 h2 r => ?_) (by omega)
      rw [hb]
      exact hout x (by omega) (by omega) r

/-- An RX frame buffer meets neither ring (rule R71). -/
theorem slotAt_rxBuf {s : State} (hs : Shape s) {k a : Nat} (hk : k < s.cfg.nRx) (h1 : (s.cfg.rxBufAddr.getD k 0).toNat ≤ a)
    (h2 : a < (s.cfg.rxBufAddr.getD k 0).toNat + s.cfg.rxBufSize.toNat) (r : Ring) : s.slotAt r a = none := by
  obtain ⟨hrx, htx, _⟩ := Config.buf_apart hs.cfg_wf hk
  simp only [Config.rxRingRegion, Config.txRingRegion] at hrx htx
  rw [State.slotAt_eq_none_iff]
  cases r with
  | rx => simp only [Config.ringAddr, State.ring, hs.rx_length]; omega
  | tx => simp only [Config.ringAddr, State.ring, hs.tx_length]; omega

/-- A frame the guard admits stands in memory where its slot points. -/
theorem mem_macRxFrame_inside {s : State} (hs : Shape s) (hb : RxBuffers s) {len : Half}
    (hlen : len.toNat ≤ (s.desc .rx s.macRxIdx).len.toNat) (fs ls : Bool) (stat : Half) (seed : Byte) :
    (macRxFrame len fs ls stat seed s).Rel (fun s t => ∀ k, k < len.toNat →
      t.mem.read ((s.desc .rx s.macRxIdx).buf.toNat + k) = some (seed + BitVec.ofNat 8 k)) s := by
  have hi := hs.mac_rx_idx
  have hle := hlen.trans (hb.len_le _ hi)
  unfold macRxFrame
  dsimp only
  split
  · trivial
  · intro k hk
    have hlength : (seededBytes seed len.toNat).length = len.toNat := by simp [seededBytes]
    have hstored := mem_writeBytes_inside (a := (s.desc .rx s.macRxIdx).buf.toNat) (s := s)
      (bs := seededBytes seed len.toNat) (fun x h1 h2 => by
        rw [hb.own_buffer _ hi] at h1 h2
        exact slotAt_rxBuf hs hi h1 (by omega)) (hk.trans_eq hlength.symm)
    simpa [raiseBits, seededBytes] using hstored

/-! ## The rules of the moves -/

/-- The length the guard admits fits its field, so the slot takes it as it stands (rule R37). -/
theorem filled_eq {s : State} (hs : Shape s) (hb : RxBuffers s) {len : Half}
    (hlen : len.toNat ≤ (s.desc .rx s.macRxIdx).len.toNat) (fs ls : Bool) (stat : Half) : s.filled len fs ls stat =
    { s.desc .rx s.macRxIdx with own := .sw, len := len, fs := fs, ls := ls, stat := fitStat s.cfg.layout stat } := by
  have hle := hlen.trans (hb.len_le _ hs.mac_rx_idx)
  rw [State.filled, fitLen_eq (hle.trans_lt (Config.rxBufSize_lt hb.fields_fit))]

/-- A byte outside a slot and outside the memory that changed is the same. -/
theorem sameByte_setDesc_mem {r : Ring} {i a : Nat} (d : Desc) {m : Memory} {s : State} (ha : ¬ inDesc s.cfg r i a)
    (hm : m.read a = s.mem.read a) : SameByte a s (State.setDesc { s with mem := m } r i d) := by
  have hmem : SameByte a s { s with mem := m } := State.readByte_congr (fun _ _ => rfl) (fun _ _ _ _ => rfl) fun _ _ => hm
  exact SameByte.trans a _ _ _ hmem (State.readByte_setDesc_outside { s with mem := m } r i d a ha)

/-- Settles O49: the gate, the move as one record update, its bytes inside the buffer and outside it. -/
theorem macRxFrameRule : Obligations.MacRxFrameRule := by
  unfold Obligations.MacRxFrameRule
  refine fun len stat fs ls seed s hs hb hf => ⟨fun h => ?notEnabled, fun h => ?stored⟩
  case notEnabled => exact exec_env_notEnabled hf rfl rfl (mt macRxFrameGuard_iff.mp h)
  have hexec : exec (.macRxFrame len fs ls stat seed) s = answerCommand .env (macRxFrame len fs ls stat seed s) :=
    exec_env hf rfl rfl (macRxFrameGuard_iff.mpr h)
  obtain ⟨_, _, _, hlen⟩ := h
  have hi := hs.mac_rx_idx
  have hbuf := hb.own_buffer _ hi
  have hinside := mem_macRxFrame_inside hs hb hlen fs ls stat seed
  have houtside := mem_macRxFrame len fs ls stat seed s
  obtain ⟨m, hm⟩ := macRxFrame_ok hs hb hlen fs ls stat seed
  rw [hm] at hexec hinside houtside
  have ht := (common_exec hexec).shape hs
  refine ⟨_, hexec, ?state, fun k hk => ?bytes, fun a hout hdesc => ?frame⟩
  case state => rw [← filled_eq hs hb hlen]; rfl
  case bytes =>
    refine (readByte_rxBuf ht hi ?_ ?_).trans (hinside k hk)
    · exact (congrArg BitVec.toNat hbuf).ge.trans (Nat.le_add_right _ k)
    · rw [hbuf]
      exact Nat.add_lt_add_left (hk.trans_le (hlen.trans (hb.len_le _ hi))) _
  case frame => exact SameByte.trans a _ _ _ (sameByte_setDesc_mem _ hdesc (houtside a hout)) .of

/-- Settles O48: the gate, and the completion as one record update. -/
theorem macTxDoneRule : Obligations.MacTxDoneRule := by
  unfold Obligations.MacTxDoneRule
  refine fun idx stat s hf hidx => ⟨fun h => ?notEnabled, fun h _ => ?done⟩
  case notEnabled => exact exec_env_notEnabled hf rfl (decide_eq_true hidx) (mt macTxDoneGuard_iff.mp h)
  case done =>
    rw [exec_env (i := .macTxDone idx stat) hf rfl (decide_eq_true hidx) (macTxDoneGuard_iff.mpr h), bodyOf, macTxDone_eq]
    rfl

/-- Settles O50: neither move has a guard, so on a device without a fault each runs. -/
theorem macRaiseAndPhyRules : Obligations.MacRaiseAndPhyRules := by
  unfold Obligations.MacRaiseAndPhyRules
  exact fun bits link s hf => ⟨exec_env hf rfl rfl rfl, exec_env hf rfl rfl rfl⟩

end Sys2Proof.Machine
end

section
/-!
The device that reset leaves, with the test port shut (O8): it is quiet and down, and of such a device's commands the port
accepts seven.
-/

namespace Sys2Proof.Machine

/-! ## What a quiet device accepts (rules R115, R261 and R302) -/

/-- The host calls of rule R115. -/
theorem host_call_cases {i : Instr} (hc : opClass i = .host) :
    i = .bringUp ∨ i = .bringDown ∨ i = .notifyTxAvailable ∨ ∃ p n, i = .submit p n := by
  cases i with
  | bringUp => exact .inl rfl
  | bringDown => exact .inr (.inl rfl)
  | notifyTxAvailable => exact .inr (.inr (.inl rfl))
  | submit p n => exact .inr (.inr (.inr ⟨p, n, rfl⟩))
  | _ => cases hc

/-- Without a fault, a pass in flight or a need of the test port, the operands and the guard decide (rule R261). -/
theorem enabled_of_guard {i : Instr} {s : State} (hr : s.hostReady) (hres : opClass i ≠ .reserved)
    (hint : opClass i ≠ .internal) (hw : i.wf s.cfg = true) (hg : (gateOf i s).guard = true) : enabled i s = true :=
  beq_iff_eq.mpr ((portCheck_eq_ok_iff _ _).mpr
    ⟨hw, .inl hr.2, by rwa [gateOf_cls], fun h => absurd ((gateOf_cls i s).symm.trans h) hint, fun _ => hr.1, hg⟩)

/-- A quiet device that is down, with the test port shut, accepts the host calls, `TICK` and the MAC agent's two moves that
touch no descriptor, and nothing else (rules R115 and R302). -/
theorem Quiet.enabled_iff {s : State} (hq : Quiet s) (hd : s.up = false) (hf : s.fault = .none)
    (ht : s.cfg.testPort = false) (i : Instr) :
    enabled i s = true ↔ i = .bringUp ∨ i = .bringDown ∨ i = .notifyTxAvailable ∨ (∃ p n, i = .submit p n) ∨ i = .tick ∨
      (∃ b, i = .macRaise b) ∨ ∃ l, i = .macPhy l := by
  constructor
  case mp =>
    intro h
    obtain ⟨_, _, hres, hint, _, _⟩ := (portCheck_eq_ok_iff _ _).mp (beq_iff_eq.mp h)
    cases hc : opClass i with
    | host => exact (host_call_cases hc).imp_right (.imp_right (.imp_right .inl))
    | event => exact .inr (.inr (.inr (.inr (.inl (hq.tick_of_event hd hc h)))))
    | env => exact .inr (.inr (.inr (.inr (.inr (hq.raise_or_phy_of_env hc h)))))
    | internal => exact absurd (hint hc) (by simp [ht])
    | reserved => exact absurd hc hres
  case mpr =>
    have hr : s.hostReady := ⟨hq.no_pass, hf⟩
    rintro (rfl | rfl | rfl | ⟨p, n, rfl⟩ | rfl | ⟨b, rfl⟩ | ⟨l, rfl⟩)
    case inl => exact enabled_of_guard hr nofun nofun rfl (by simp [gateOf, hd])
    all_goals exact enabled_of_guard hr nofun nofun rfl rfl

/-- What the port does not accept is refused with a status other than `OK` (rule R261). -/
theorem exec_of_not_enabled {i : Instr} {s : State} (h : enabled i s = false) :
    ∃ st, st ≠ .ok ∧ exec i s = .next (s.refused i st) :=
  ⟨_, beq_eq_false_iff_ne.mp h, exec_of_refused (beq_eq_false_iff_ne.mp h)⟩

/-! ## Reset (rules R53 and R302) -/

theorem quiet_construct (cfg : Config) : Quiet (State.construct cfg) := ⟨rfl, rfl, rfl, rfl, rfl, rfl⟩

/-- Settles O8: reset leaves a quiet device that is down, and the rules of `SUBMIT` and `NOTIFY_TX_AVAILABLE` have a clause
for it. -/
theorem resetAcceptsOnlyTheQuietOperations : Obligations.ResetAcceptsOnlyTheQuietOperations := by
  unfold Obligations.ResetAcceptsOnlyTheQuietOperations
  intro cfg i ht _ s
  have hr : s.hostReady := ⟨rfl, rfl⟩
  refine ⟨(quiet_construct cfg).enabled_iff rfl rfl ht i, fun p n => ?submit, ?notify, exec_of_not_enabled, rfl⟩
  case submit => exact (submitRule p n s hr).1 rfl
  case notify => exact (notifyRule s hr).1 (.inl rfl)

end Sys2Proof.Machine
end
